-- ==== Sys2Proof/Word.lean ====
section
/-! DEFINITION. The word types of the machine and their plainest arithmetic (spec/01_machine.md, R5 to R9). -/

namespace Sys2Proof

/-- A 64-bit register value. -/
abbrev Word := BitVec 64

/-- A byte of memory. -/
abbrev Byte := BitVec 8

/-- Sparse data by number: a list of keys and values, the keys strictly rising. A key that is not listed has the
default of its use. -/
abbrev AMap (α : Type) := List (Nat × α)

end Sys2Proof
end

