-- ==== Sys2Proof/Syntax.lean ====
section
/-! DEFINITION. The instruction set as syntax: one constructor for each row of spec/opcode_table.json, first the 297
rows that have a word (R32), then the 101 rows that are events of the machine and have none. -/

namespace Sys2Proof

/-- The operand formats of the scalar floating-point instructions (R49). -/
inductive FFmt where
  | f32 | f64
  deriving DecidableEq, Repr

/-- The scopes of R39, in the order of their codes. -/
inductive Scope where
  | hart | core | cluster | die | package | domain
  deriving DecidableEq, Repr

/-- The fields that every E-form command shares, but for the nest field (R39). -/
structure EMod where
  /-- bit 1 release, bit 0 acquire -/
  order : BitVec 2
  push : Bool
  pop : Bool
  chan : BitVec 3
  deriving DecidableEq, Repr

/-- One instruction or event of the machine: one constructor per row of the opcode table. -/
inductive Instr where
  -- scalar integer (R109 to R112)
  | add (d a b : BitVec 5)
  | sub (d a b : BitVec 5)
  | and (d a b : BitVec 5)
  | or (d a b : BitVec 5)
  | xor (d a b : BitVec 5)
  | andn (d a b : BitVec 5)
  | sll (d a b : BitVec 5)
  | srl (d a b : BitVec 5)
  | sra (d a b : BitVec 5)
  | slt (d a b : BitVec 5)
  | sltn (d a b : BitVec 5)
  | min (d a b : BitVec 5)
  | max (d a b : BitVec 5)
  | minn (d a b : BitVec 5)
  | maxn (d a b : BitVec 5)
  | mul (d a b : BitVec 5)
  | mulh (d a b : BitVec 5)
  | mulhn (d a b : BitVec 5)
  | mulhsn (d a b : BitVec 5)
  | div (d a b : BitVec 5)
  | divn (d a b : BitVec 5)
  | rem (d a b : BitVec 5)
  | remn (d a b : BitVec 5)
  | clz (d a : BitVec 5)
  | ctz (d a : BitVec 5)
  | cpop (d a : BitVec 5)
  | bswap (d a : BitVec 5)
  | addi (d a : BitVec 5) (imm : BitVec 12)
  | slti (d a : BitVec 5) (imm : BitVec 12)
  | sltni (d a : BitVec 5) (imm : BitVec 12)
  | xori (d a : BitVec 5) (imm : BitVec 12)
  | ori (d a : BitVec 5) (imm : BitVec 12)
  | andi (d a : BitVec 5) (imm : BitVec 12)
  | slli (d a : BitVec 5) (sh : BitVec 6)
  | srli (d a : BitVec 5) (sh : BitVec 6)
  | srai (d a : BitVec 5) (sh : BitVec 6)
  | lui (d : BitVec 5) (imm : BitVec 20)
  | auipc (d : BitVec 5) (imm : BitVec 20)
  -- scalar floating point (R113 to R116)
  | fadd (d a b : BitVec 5) (fmt : FFmt) (rm : BitVec 2)
  | fsub (d a b : BitVec 5) (fmt : FFmt) (rm : BitVec 2)
  | fmul (d a b : BitVec 5) (fmt : FFmt) (rm : BitVec 2)
  | fdiv (d a b : BitVec 5) (fmt : FFmt) (rm : BitVec 2)
  | fsqrt (d a : BitVec 5) (fmt : FFmt) (rm : BitVec 2)
  | fmin (d a b : BitVec 5) (fmt : FFmt) (rm : BitVec 2)
  | fmax (d a b : BitVec 5) (fmt : FFmt) (rm : BitVec 2)
  | fmacc (d a b : BitVec 5) (fmt : FFmt) (rm : BitVec 2)
  | fnmacc (d a b : BitVec 5) (fmt : FFmt) (rm : BitVec 2)
  | fsgnj (d a b : BitVec 5) (fmt : FFmt) (rm : BitVec 2)
  | fsgnjn (d a b : BitVec 5) (fmt : FFmt) (rm : BitVec 2)
  | fsgnjx (d a b : BitVec 5) (fmt : FFmt) (rm : BitVec 2)
  | feq (d a b : BitVec 5) (fmt : FFmt) (rm : BitVec 2)
  | flt (d a b : BitVec 5) (fmt : FFmt) (rm : BitVec 2)
  | fle (d a b : BitVec 5) (fmt : FFmt) (rm : BitVec 2)
  | fclass (d a : BitVec 5) (fmt : FFmt) (rm : BitVec 2)
  | fcvtI64 (d a : BitVec 5) (fmt : FFmt) (rm : BitVec 2)
  | fcvtN64 (d a : BitVec 5) (fmt : FFmt) (rm : BitVec 2)
  | fcvtFmtI64 (d a : BitVec 5) (fmt : FFmt) (rm : BitVec 2)
  | fcvtFmtN64 (d a : BitVec 5) (fmt : FFmt) (rm : BitVec 2)
  | fcvtFmtOther (d a : BitVec 5) (fmt : FFmt) (rm : BitVec 2)
  -- queue registers (R108)
  | qpush (q : BitVec 3) (a : BitVec 5)
  | qpop (d : BitVec 5) (q : BitVec 3)
  | qlen (d : BitVec 5) (q : BitVec 3)
  -- scalar memory and cache (R218 to R220)
  | lb (d a : BitVec 5) (imm : BitVec 12)
  | lh (d a : BitVec 5) (imm : BitVec 12)
  | lw (d a : BitVec 5) (imm : BitVec 12)
  | ld (d a : BitVec 5) (imm : BitVec 12)
  | lbn (d a : BitVec 5) (imm : BitVec 12)
  | lhn (d a : BitVec 5) (imm : BitVec 12)
  | lwn (d a : BitVec 5) (imm : BitVec 12)
  | sb (d a : BitVec 5) (imm : BitVec 12)
  | sh (d a : BitVec 5) (imm : BitVec 12)
  | sw (d a : BitVec 5) (imm : BitVec 12)
  | sd (d a : BitVec 5) (imm : BitVec 12)
  | lbAq (d a : BitVec 5) (scope : Scope)
  | lhAq (d a : BitVec 5) (scope : Scope)
  | lwAq (d a : BitVec 5) (scope : Scope)
  | ldAq (d a : BitVec 5) (scope : Scope)
  | lbnAq (d a : BitVec 5) (scope : Scope)
  | lhnAq (d a : BitVec 5) (scope : Scope)
  | lwnAq (d a : BitVec 5) (scope : Scope)
  | sbRl (d a : BitVec 5) (scope : Scope)
  | shRl (d a : BitVec 5) (scope : Scope)
  | swRl (d a : BitVec 5) (scope : Scope)
  | sdRl (d a : BitVec 5) (scope : Scope)
  | pref (a : BitVec 5) (imm : BitVec 12)
  | prefw (a : BitVec 5) (imm : BitVec 12)
  | cln (a : BitVec 5) (imm : BitVec 12)
  | cinv (a : BitVec 5) (imm : BitVec 12)
  | cflush (a : BitVec 5) (imm : BitVec 12)
  -- control (R133 to R145)
  | jal (d : BitVec 5) (imm : BitVec 20)
  | jalr (d a : BitVec 5) (imm : BitVec 12)
  | beq (a b : BitVec 5) (off : BitVec 12)
  | bne (a b : BitVec 5) (off : BitVec 12)
  | blt (a b : BitVec 5) (off : BitVec 12)
  | bge (a b : BitVec 5) (off : BitVec 12)
  | bltn (a b : BitVec 5) (off : BitVec 12)
  | bgen (a b : BitVec 5) (off : BitVec 12)
  | join (tag : BitVec 12)
  | joinT (d a : BitVec 5) (tag : BitVec 12)
  | detach
  | icinv (a : BitVec 5) (imm : BitVec 12)
  | loopn (depth : BitVec 3) (len : BitVec 5)
  -- masks (R142, R143)
  | mand (d a b : BitVec 4)
  | mor (d a b : BitVec 4)
  | mxor (d a b : BitVec 4)
  | mandn (d a b : BitVec 4)
  | morn (d a b : BitVec 4)
  | mxnor (d a b : BitVec 4)
  | mnot (d a : BitVec 4)
  | mmov (d a : BitVec 4)
  | mset (d : BitVec 4)
  | mclr (d : BitVec 4)
  | msbf (d a : BitVec 4)
  | msif (d a : BitVec 4)
  | msof (d a : BitVec 4)
  | mcnt (d : BitVec 5) (a : BitVec 4)
  | many (d : BitVec 5) (a : BitVec 4)
  | mfirst (d : BitVec 5) (a : BitVec 4)
  -- vector configuration (R153 to R166)
  | setvl (d a : BitVec 5) (fmt : BitVec 4) (grp : BitVec 2)
  | vtag (d : BitVec 5) (fmt : BitVec 4) (grp : BitVec 2)
  | vretag (d : BitVec 5) (fmt : BitVec 4) (grp : BitVec 2)
  | vgettag (d v : BitVec 5)
  | lpreq (d a : BitVec 5)
  | lprel (a : BitVec 5)
  | nestld (n : BitVec 3) (a : BitVec 5)
  | nestst (n : BitVec 3) (a : BitVec 5)
  -- vector arithmetic, selection and movement (R186 to R210)
  | vadd (d a b : BitVec 5) (rep : BitVec 3) (cv : Bool) (m : BitVec 4)
  | vsub (d a b : BitVec 5) (rep : BitVec 3) (cv : Bool) (m : BitVec 4)
  | vrsub (d a b : BitVec 5) (rep : BitVec 3) (cv : Bool) (m : BitVec 4)
  | vmul (d a b : BitVec 5) (rep : BitVec 3) (cv : Bool) (m : BitVec 4)
  | vmin (d a b : BitVec 5) (rep : BitVec 3) (cv : Bool) (m : BitVec 4)
  | vmax (d a b : BitVec 5) (rep : BitVec 3) (cv : Bool) (m : BitVec 4)
  | vsadd (d a b : BitVec 5) (rep : BitVec 3) (cv : Bool) (m : BitVec 4)
  | vssub (d a b : BitVec 5) (rep : BitVec 3) (cv : Bool) (m : BitVec 4)
  | vmacc (d a b : BitVec 5) (rep : BitVec 3) (cv : Bool) (m : BitVec 4)
  | vnmsac (d a b : BitVec 5) (rep : BitVec 3) (cv : Bool) (m : BitVec 4)
  | vmadd (d a b : BitVec 5) (rep : BitVec 3) (cv : Bool) (m : BitVec 4)
  | vnmsub (d a b : BitVec 5) (rep : BitVec 3) (cv : Bool) (m : BitVec 4)
  | vand (d a b : BitVec 5) (rep : BitVec 3) (cv : Bool) (m : BitVec 4)
  | vor (d a b : BitVec 5) (rep : BitVec 3) (cv : Bool) (m : BitVec 4)
  | vxor (d a b : BitVec 5) (rep : BitVec 3) (cv : Bool) (m : BitVec 4)
  | vandn (d a b : BitVec 5) (rep : BitVec 3) (cv : Bool) (m : BitVec 4)
  | vsll (d a b : BitVec 5) (rep : BitVec 3) (cv : Bool) (m : BitVec 4)
  | vsrl (d a b : BitVec 5) (rep : BitVec 3) (cv : Bool) (m : BitVec 4)
  | vsra (d a b : BitVec 5) (rep : BitVec 3) (cv : Bool) (m : BitVec 4)
  | vrot (d a b : BitVec 5) (rep : BitVec 3) (cv : Bool) (m : BitVec 4)
  | vmseq (d : BitVec 4) (a b : BitVec 5) (rep : BitVec 3) (cv : Bool) (m : BitVec 4)
  | vmsne (d : BitVec 4) (a b : BitVec 5) (rep : BitVec 3) (cv : Bool) (m : BitVec 4)
  | vmslt (d : BitVec 4) (a b : BitVec 5) (rep : BitVec 3) (cv : Bool) (m : BitVec 4)
  | vmsle (d : BitVec 4) (a b : BitVec 5) (rep : BitVec 3) (cv : Bool) (m : BitVec 4)
  | vmerge (d a b : BitVec 5) (rep : BitVec 3) (cv : Bool) (m : BitVec 4)
  | vclamp (d a b : BitVec 5) (rep : BitVec 3) (cv : Bool) (m : BitVec 4)
  | vmv (d a : BitVec 5) (cv : Bool) (m : BitVec 4)
  | vabs (d a : BitVec 5) (cv : Bool) (m : BitVec 4)
  | vdiv (d a b : BitVec 5) (rep : BitVec 3) (cv : Bool) (m : BitVec 4)
  | vrem (d a b : BitVec 5) (rep : BitVec 3) (cv : Bool) (m : BitVec 4)
  | vsqrt (d a : BitVec 5) (cv : Bool) (m : BitVec 4)
  | vrcp (d a : BitVec 5) (cv : Bool) (m : BitVec 4)
  | vexp2 (d a : BitVec 5) (cv : Bool) (m : BitVec 4)
  | vlog2 (d a : BitVec 5) (cv : Bool) (m : BitVec 4)
  | vrsqrt (d a : BitVec 5) (cv : Bool) (m : BitVec 4)
  | vtanh (d a : BitVec 5) (cv : Bool) (m : BitVec 4)
  | vsin (d a : BitVec 5) (cv : Bool) (m : BitVec 4)
  | vcos (d a : BitVec 5) (cv : Bool) (m : BitVec 4)
  | vclass (d a : BitVec 5) (cv : Bool) (m : BitVec 4)
  | vcvt (d a : BitVec 5) (rm : BitVec 2) (cv : Bool) (m : BitVec 4)
  | vcvtsat (d a : BitVec 5) (rm : BitVec 2) (cv : Bool) (m : BitVec 4)
  | vcvts (d a : BitVec 5) (rm : BitVec 2) (cv : Bool) (m : BitVec 4)
  | vcvtssat (d a : BitVec 5) (rm : BitVec 2) (cv : Bool) (m : BitVec 4)
  | vredsum (d a b : BitVec 5) (rep : BitVec 3) (m : BitVec 4)
  | vredmin (d a b : BitVec 5) (rep : BitVec 3) (m : BitVec 4)
  | vredmax (d a b : BitVec 5) (rep : BitVec 3) (m : BitVec 4)
  | vredor (d a b : BitVec 5) (rep : BitVec 3) (m : BitVec 4)
  | vscansum (d a : BitVec 5) (m : BitVec 4)
  | vscanmin (d a : BitVec 5) (m : BitVec 4)
  | vscanmax (d a : BitVec 5) (m : BitVec 4)
  | vslideup (d a b : BitVec 5) (cv : Bool) (m : BitVec 4)
  | vslidedn (d a b : BitVec 5) (cv : Bool) (m : BitVec 4)
  | vslide1up (d a b : BitVec 5) (cv : Bool) (m : BitVec 4)
  | vslide1dn (d a b : BitVec 5) (cv : Bool) (m : BitVec 4)
  | vperm (d a b : BitVec 5) (rep : BitVec 3) (m : BitVec 4)
  | vcompress (d a : BitVec 5) (m : BitVec 4)
  | vexpand (d a : BitVec 5) (m : BitVec 4)
  | viota (d : BitVec 5) (m : BitVec 4)
  | vsegsort (d a : BitVec 5) (m : BitVec 4)
  | vsegsortkv (d a b : BitVec 5) (rep : BitVec 3) (m : BitVec 4)
  | vdupmerge (d a b : BitVec 5) (rep : BitVec 3) (m : BitVec 4)
  | vopaX1 (d a b : BitVec 5) (rep : BitVec 3) (cv : Bool) (m : BitVec 4)
  | vopaX2 (d a b : BitVec 5) (rep : BitVec 3) (cv : Bool) (m : BitVec 4)
  | vopaX4 (d a b : BitVec 5) (rep : BitVec 3) (cv : Bool) (m : BitVec 4)
  | vopaX8 (d a b : BitVec 5) (rep : BitVec 3) (cv : Bool) (m : BitVec 4)
  | vmvVg (d a : BitVec 5) (m : BitVec 4)
  | vmvVq (d : BitVec 5) (q : BitVec 3) (m : BitVec 4)
  | vmvQv (q : BitVec 3) (a : BitVec 5) (m : BitVec 4)
  -- vector memory (R221 to R234)
  | vld (d a : BitVec 5) (hint : BitVec 2) (cv : Bool) (m : BitVec 4)
  | vlds (d a b : BitVec 5) (hint : BitVec 2) (cv : Bool) (m : BitVec 4)
  | vldx (d a b : BitVec 5) (hint : BitVec 2) (cv : Bool) (m : BitVec 4)
  | vldff (d a : BitVec 5) (hint : BitVec 2) (cv : Bool) (m : BitVec 4)
  | vst (d a : BitVec 5) (nfy : Bool) (hint : BitVec 2) (cv : Bool) (m : BitVec 4)
  | vsts (d a b : BitVec 5) (nfy : Bool) (hint : BitVec 2) (cv : Bool) (m : BitVec 4)
  | vstx (d a b : BitVec 5) (nfy : Bool) (hint : BitVec 2) (cv : Bool) (m : BitVec 4)
  | vldseg (d a : BitVec 5) (nf : BitVec 3) (m : BitVec 4)
  | vstseg (d a : BitVec 5) (nf : BitVec 3) (m : BitVec 4)
  -- vector atomics and scatter-reduce (R333, R334)
  | vamoadd (d a b : BitVec 5) (m : BitVec 4)
  | vamomin (d a b : BitVec 5) (m : BitVec 4)
  | vamomax (d a b : BitVec 5) (m : BitVec 4)
  | vamoswap (d a b : BitVec 5) (m : BitVec 4)
  | vscredAdd (d a b : BitVec 5) (m : BitVec 4)
  | vscredMin (d a b : BitVec 5) (m : BitVec 4)
  | vscredMax (d a b : BitVec 5) (m : BitVec 4)
  | vscredOr (d a b : BitVec 5) (m : BitVec 4)
  -- bank operations (R40, R41, R315)
  | bankopAdd (a : BitVec 5)
  | bankopMin (a : BitVec 5)
  | bankopMax (a : BitVec 5)
  | bankopAnd (a : BitVec 5)
  | bankopOr (a : BitVec 5)
  | bankopXor (a : BitVec 5)
  -- lookup commands (R275 to R289)
  | cbload (a b : BitVec 5) (nest : BitVec 3) (e : EMod)
  | cbclr (a b : BitVec 5) (e : EMod)
  | tbuild (a b : BitVec 5) (nest : BitVec 3) (e : EMod)
  | tbload (a b : BitVec 5) (nest : BitVec 3) (e : EMod)
  | tbfree (a b : BitVec 5) (e : EMod)
  | lkinit (a b : BitVec 5) (e : EMod)
  | lkacc (a b : BitVec 5) (nest : BitVec 3) (e : EMod)
  | lkdrain (a b : BitVec 5) (nest : BitVec 3) (e : EMod)
  | lkdrainc (a b : BitVec 5) (nest : BitVec 3) (e : EMod)
  | lkread (a b : BitVec 5) (e : EMod)
  | lkclr (a : BitVec 5) (e : EMod)
  | lkstat (d a : BitVec 5) (e : EMod)
  | lkmeta (d a : BitVec 5) (e : EMod)
  | lkwait (d : BitVec 5) (e : EMod)
  -- transfer commands (R305 to R327)
  | xcopy (d a b : BitVec 5) (nest : BitVec 3) (e : EMod)
  | xshape (a : BitVec 5) (nest : BitVec 3) (e : EMod)
  | xfill (d a b : BitVec 5) (nest : BitVec 3) (e : EMod)
  | xgather (d a : BitVec 5) (e : EMod)
  | wsend (d a b : BitVec 5) (e : EMod)
  | wsendi (d a b : BitVec 5) (e : EMod)
  | wreg (d a : BitVec 5) (e : EMod)
  | wunreg (a : BitVec 5) (e : EMod)
  | wctr (d : BitVec 5) (e : EMod)
  | strain (d a b : BitVec 5) (e : EMod)
  | nmx (a : BitVec 5) (e : EMod)
  | nmxld (a b : BitVec 5) (e : EMod)
  | pgin (a b : BitVec 5) (e : EMod)
  | pgout (a b : BitVec 5) (e : EMod)
  | xwait (d : BitVec 5) (e : EMod)
  -- scalar atomics (R332)
  | amoaddw (d a b : BitVec 5) (order : BitVec 2)
  | amoaddd (d a b : BitVec 5) (order : BitVec 2)
  | amofadd (d a b : BitVec 5) (order : BitVec 2)
  | amoswapw (d a b : BitVec 5) (order : BitVec 2)
  | amoswapd (d a b : BitVec 5) (order : BitVec 2)
  | amoandw (d a b : BitVec 5) (order : BitVec 2)
  | amoandd (d a b : BitVec 5) (order : BitVec 2)
  | amoorw (d a b : BitVec 5) (order : BitVec 2)
  | amoord (d a b : BitVec 5) (order : BitVec 2)
  | amoxorw (d a b : BitVec 5) (order : BitVec 2)
  | amoxord (d a b : BitVec 5) (order : BitVec 2)
  | amominw (d a b : BitVec 5) (order : BitVec 2)
  | amomind (d a b : BitVec 5) (order : BitVec 2)
  | amomaxw (d a b : BitVec 5) (order : BitVec 2)
  | amomaxd (d a b : BitVec 5) (order : BitVec 2)
  | amominnw (d a b : BitVec 5) (order : BitVec 2)
  | amominnd (d a b : BitVec 5) (order : BitVec 2)
  | amomaxnw (d a b : BitVec 5) (order : BitVec 2)
  | amomaxnd (d a b : BitVec 5) (order : BitVec 2)
  | amocasw (d a b : BitVec 5) (order : BitVec 2)
  | amocasd (d a b : BitVec 5) (order : BitVec 2)
  -- near-memory add (R335)
  | nma (d a b : BitVec 5) (nest : BitVec 3) (e : EMod)
  -- synchronisation (R336 to R344)
  | fence (scope : Scope)
  | nmfence
  | bar (a : BitVec 5)
  | barexp (a b : BitVec 5)
  | itpost (a : BitVec 5)
  | itwait (a : BitVec 5)
  | pwait (a b : BitVec 5)
  | tkpush (k : BitVec 3)
  | tkpop (k : BitVec 3)
  | tkcnt (d : BitVec 5) (k : BitVec 3)
  -- system and task (R361, R377, R410 to R415)
  | syscall
  | brk
  | eret
  | wfe
  | yield
  | texit
  | feat (d : BitVec 5) (bit : BitVec 6)
  | launch (d a : BitVec 5)
  -- CSR access (R352)
  | csrrw (d : BitVec 5) (csr : BitVec 12) (a : BitVec 5)
  | csrrs (d : BitVec 5) (csr : BitVec 12) (a : BitVec 5)
  | csrrc (d : BitVec 5) (csr : BitVec 12) (a : BitVec 5)
  | csrrwi (d : BitVec 5) (csr : BitVec 12) (u : BitVec 5)
  | csrrsi (d : BitVec 5) (csr : BitVec 12) (u : BitVec 5)
  | csrrci (d : BitVec 5) (csr : BitVec 12) (u : BitVec 5)
  -- privileged (R370, R371)
  | tlbinvVa (a b : BitVec 5)
  | tlbinvAsid (a : BitVec 5)
  | tlbinvAll
  | ctxsave (a : BitVec 5)
  | ctxrest (a : BitVec 5)
  -- events: rows of the table that have no word
  | joinTTimeout
  | holdEnd
  | shed
  | icinvPerform
  | convoyIssue
  | configurationEntry
  | vectorWindow (k : Nat)
  | replayQueueReissue (key : Nat)
  | queueDeadlock
  | tokenDeadlock
  | trapEntry
  | interruptEntry
  | cycleCompare
  | doorbell (hart : Nat)
  | preemptionRequest (hart : Nat)
  | hardwareSave (hart : Nat)
  | lookupCommandStart
  | accumulatorCommandBegin (core : Nat)
  | lookupStep (core : Nat)
  | checkVerdict (core : Nat)
  | secondReplay (core : Nat)
  | lookupCommandRetire (hart : Nat) (k : Nat)
  | tableBuild (stack : Nat) (core : Nat)
  | tablePress (stack : Nat)
  | refresh (stack : Nat) (slice : Nat) (bank : Nat)
  | temperatureSample (stack : Nat) (temps : List Nat)
  | supervisorCommand (stack : Nat)
  | apertureStore (stack : Nat) (slice : Nat) (row : Nat) (off : Nat) (n : Nat) (x : Nat)
  | transferCommandStart
  | transferCommandRetire (hart : Nat)
  | pendingBytesSubtract (k : Nat)
  | trainArrival (hart : Nat) (elems : List (Nat × Nat)) (op : Nat) (w : Nat) (fmt : BitVec 4)
  | trainAcknowledgement (hart : Nat) (pkg : Nat) (cond : Nat) (dropped : List Nat)
  | sendArrival (k : Nat) (window : Nat) (tag : Nat) (off : Nat) (l : List Nat)
  | sendAcknowledgement (k : Nat) (cond : Nat)
  | nmxAccept (hart : Nat)
  | bankOperation
  | nmaElement
  | returnFreePerformed
  | barrierPhaseComplete (launch : Nat) (id : Nat)
  | progressWordResend
  | launchMessage (peer : Nat) (l : List Nat)
  | launchAccept
  | launchReady (n : Nat)
  | blockRequest
  | taskPlacement (die : Nat)
  | contextResume (hart : Nat)
  | completionRecordWrite (n : Nat)
  | completionIdWrite (n : Nat)
  | launchCancel (n : Nat)
  | dieFence (die : Nat)
  | masterElection
  | wearInterval (core : Nat) (stress : Nat) (mon : Nat)
  | ripeningReplication (core : Nat)
  | lastingFault (core : Nat)
  | laneRetirement (core : Nat) (lane : Nat)
  | powerCeilingStep (die : Nat) (up : Bool)
  | agreement (k : Nat) (outside : Nat)
  | agreementReply (k : Nat) (hart : Nat) (strip : Nat)
  | pairArrival (k : Nat) (hart : Nat)
  | rdmaWrite (qp : Nat) (asid : Nat) (session : Nat) (va : Nat) (l : List Nat)
  | managementRead (peer : Nat) (l : List Nat)
  | managementWrite (peer : Nat) (l : List Nat)
  | firmwareImageChunk (peer : Nat) (l : List Nat) (last : Bool)
  | attestationRequest (peer : Nat) (l : List Nat)
  | acknowledgement (peer : Nat) (l : List Nat)
  | sessionOpen (peer : Nat) (l : List Nat)
  | messageRetransmit (session : Nat) (k : Nat)
  | routeUpdate (pkg : Nat) (l : List Nat) (cost : Nat)
  | packetRetransmit (pkg : Nat)
  | destinationUnreachable (pkg : Nat)
  | linkDegrade (port : Nat)
  | linkFailure (port : Nat)
  | cxlLinkDown (port : Nat)
  | halt (hart : Nat)
  | resume (hart : Nat)
  | recordRemoval (die : Nat) (index : Nat)
  | contextImageWrite (hart : Nat) (off : Nat) (l : List Nat)
  | frqack (index : Nat)
  | lkerrClear
  | xerrClear
  | asidWrite (asid : BitVec 9) (root : BitVec 64)
  | registerWrite (csr : Nat) (x : BitVec 64)
  | powerOnBoot (image : List Nat) (params : List Nat) (cxl : List Nat)
  | supplyLossWarning (vstby : Bool)
  | junctionThrottle (die : Nat) (temp : Nat)
  | emergencySave (die : Nat)
  | hardTrip (vstby : Bool)
  | droop (die : Nat)
  | droopRecovery (die : Nat)
  | pllHop (die : Nat)
  | elementGroupIssue (k : Nat)
  | tableCommandApply (stack : Nat) (core : Nat)
  | remoteAccess (op : Nat) (key : Nat) (n : Nat) (x : Nat) (c : Nat)
  | l2Eviction (key : Nat)
  | tlbEntryDrop (place : Nat) (n : Nat) (k : Nat)
  | instructionLineEviction (cluster : Nat) (line : Nat)
  | stackFence (unit : Nat) (n : Nat) (slice : Nat)
  | priorityFlowControlFrame (mask : Nat) (pause : Bool)
  | congestionNotification (qp : Nat)
  | queuePairError (qp : Nat)
  deriving DecidableEq, Repr

end Sys2Proof
end

