-- ==== Sys2Proof/WellFormed.lean ====
section
/-! DEFINITION. Which instructions of the syntax have a word: the conditions of R42 that the operand types leave over,
and the CSR numbers of R354. -/

namespace Sys2Proof

/-- The replicate field is {enable, size}: with enable 0 the size must be 0 (R38, R42). -/
def legalRep (r : BitVec 3) : Bool := r == 0 || r.getLsbD 2

/-- A nest field names a depth 0 to 6; 7 is reserved (R39, R42). -/
def legalNest (n : BitVec 3) : Bool := n != 7

/-- A nest register number is 0 to 5 (R53). -/
def legalNestReg (n : BitVec 3) : Bool := n.toNat < 6

/-- LOOPN has a depth from 1 to 6 and a body length from 1 to 16 (R51). -/
def legalLoop (depth : BitVec 3) (len : BitVec 5) : Bool :=
  1 ≤ depth.toNat && depth.toNat ≤ 6 && 1 ≤ len.toNat && len.toNat ≤ 16

/-- The CSR numbers of R354. -/
def csrKnown (c : BitVec 12) : Bool :=
  let n := c.toNat
  (0x001 ≤ n && n ≤ 0x003) || (0x010 ≤ n && n ≤ 0x018) || (0x020 ≤ n && n ≤ 0x022) || (0x023 ≤ n && n ≤ 0x028) ||
  (0x030 ≤ n && n ≤ 0x037) || (0x040 ≤ n && n ≤ 0x045) || (0x100 ≤ n && n ≤ 0x113) || (0x400 ≤ n && n ≤ 0x41F)

/-- The conditions on an instruction's operands that their types do not already say. An event is no
encodable instruction, so it is not well formed as one. -/
def Instr.wf : Instr → Bool
  | .add _ _ _ => true
  | .sub _ _ _ => true
  | .and _ _ _ => true
  | .or _ _ _ => true
  | .xor _ _ _ => true
  | .andn _ _ _ => true
  | .sll _ _ _ => true
  | .srl _ _ _ => true
  | .sra _ _ _ => true
  | .slt _ _ _ => true
  | .sltn _ _ _ => true
  | .min _ _ _ => true
  | .max _ _ _ => true
  | .minn _ _ _ => true
  | .maxn _ _ _ => true
  | .mul _ _ _ => true
  | .mulh _ _ _ => true
  | .mulhn _ _ _ => true
  | .mulhsn _ _ _ => true
  | .div _ _ _ => true
  | .divn _ _ _ => true
  | .rem _ _ _ => true
  | .remn _ _ _ => true
  | .clz _ _ => true
  | .ctz _ _ => true
  | .cpop _ _ => true
  | .bswap _ _ => true
  | .addi _ _ _ => true
  | .slti _ _ _ => true
  | .sltni _ _ _ => true
  | .xori _ _ _ => true
  | .ori _ _ _ => true
  | .andi _ _ _ => true
  | .slli _ _ _ => true
  | .srli _ _ _ => true
  | .srai _ _ _ => true
  | .lui _ _ => true
  | .auipc _ _ => true
  | .fadd _ _ _ _ _ => true
  | .fsub _ _ _ _ _ => true
  | .fmul _ _ _ _ _ => true
  | .fdiv _ _ _ _ _ => true
  | .fsqrt _ _ _ _ => true
  | .fmin _ _ _ _ _ => true
  | .fmax _ _ _ _ _ => true
  | .fmacc _ _ _ _ _ => true
  | .fnmacc _ _ _ _ _ => true
  | .fsgnj _ _ _ _ _ => true
  | .fsgnjn _ _ _ _ _ => true
  | .fsgnjx _ _ _ _ _ => true
  | .feq _ _ _ _ _ => true
  | .flt _ _ _ _ _ => true
  | .fle _ _ _ _ _ => true
  | .fclass _ _ _ _ => true
  | .fcvtI64 _ _ _ _ => true
  | .fcvtN64 _ _ _ _ => true
  | .fcvtFmtI64 _ _ _ _ => true
  | .fcvtFmtN64 _ _ _ _ => true
  | .fcvtFmtOther _ _ _ _ => true
  | .qpush _ _ => true
  | .qpop _ _ => true
  | .qlen _ _ => true
  | .lb _ _ _ => true
  | .lh _ _ _ => true
  | .lw _ _ _ => true
  | .ld _ _ _ => true
  | .lbn _ _ _ => true
  | .lhn _ _ _ => true
  | .lwn _ _ _ => true
  | .sb _ _ _ => true
  | .sh _ _ _ => true
  | .sw _ _ _ => true
  | .sd _ _ _ => true
  | .lbAq _ _ _ => true
  | .lhAq _ _ _ => true
  | .lwAq _ _ _ => true
  | .ldAq _ _ _ => true
  | .lbnAq _ _ _ => true
  | .lhnAq _ _ _ => true
  | .lwnAq _ _ _ => true
  | .sbRl _ _ _ => true
  | .shRl _ _ _ => true
  | .swRl _ _ _ => true
  | .sdRl _ _ _ => true
  | .pref _ _ => true
  | .prefw _ _ => true
  | .cln _ _ => true
  | .cinv _ _ => true
  | .cflush _ _ => true
  | .jal _ _ => true
  | .jalr _ _ _ => true
  | .beq _ _ _ => true
  | .bne _ _ _ => true
  | .blt _ _ _ => true
  | .bge _ _ _ => true
  | .bltn _ _ _ => true
  | .bgen _ _ _ => true
  | .join _ => true
  | .joinT _ _ _ => true
  | .detach => true
  | .icinv _ _ => true
  | .loopn depth len => legalLoop depth len
  | .mand _ _ _ => true
  | .mor _ _ _ => true
  | .mxor _ _ _ => true
  | .mandn _ _ _ => true
  | .morn _ _ _ => true
  | .mxnor _ _ _ => true
  | .mnot _ _ => true
  | .mmov _ _ => true
  | .mset _ => true
  | .mclr _ => true
  | .msbf _ _ => true
  | .msif _ _ => true
  | .msof _ _ => true
  | .mcnt _ _ => true
  | .many _ _ => true
  | .mfirst _ _ => true
  | .setvl _ _ _ _ => true
  | .vtag _ _ _ => true
  | .vretag _ _ _ => true
  | .vgettag _ _ => true
  | .lpreq _ _ => true
  | .lprel _ => true
  | .nestld n _ => legalNestReg n
  | .nestst n _ => legalNestReg n
  | .vadd _ _ _ rep _ _ => legalRep rep
  | .vsub _ _ _ rep _ _ => legalRep rep
  | .vrsub _ _ _ rep _ _ => legalRep rep
  | .vmul _ _ _ rep _ _ => legalRep rep
  | .vmin _ _ _ rep _ _ => legalRep rep
  | .vmax _ _ _ rep _ _ => legalRep rep
  | .vsadd _ _ _ rep _ _ => legalRep rep
  | .vssub _ _ _ rep _ _ => legalRep rep
  | .vmacc _ _ _ rep _ _ => legalRep rep
  | .vnmsac _ _ _ rep _ _ => legalRep rep
  | .vmadd _ _ _ rep _ _ => legalRep rep
  | .vnmsub _ _ _ rep _ _ => legalRep rep
  | .vand _ _ _ rep _ _ => legalRep rep
  | .vor _ _ _ rep _ _ => legalRep rep
  | .vxor _ _ _ rep _ _ => legalRep rep
  | .vandn _ _ _ rep _ _ => legalRep rep
  | .vsll _ _ _ rep _ _ => legalRep rep
  | .vsrl _ _ _ rep _ _ => legalRep rep
  | .vsra _ _ _ rep _ _ => legalRep rep
  | .vrot _ _ _ rep _ _ => legalRep rep
  | .vmseq _ _ _ rep _ _ => legalRep rep
  | .vmsne _ _ _ rep _ _ => legalRep rep
  | .vmslt _ _ _ rep _ _ => legalRep rep
  | .vmsle _ _ _ rep _ _ => legalRep rep
  | .vmerge _ _ _ rep _ m => legalRep rep && m != 0
  | .vclamp _ _ _ rep _ _ => legalRep rep
  | .vmv _ _ _ _ => true
  | .vabs _ _ _ _ => true
  | .vdiv _ _ _ rep _ _ => legalRep rep
  | .vrem _ _ _ rep _ _ => legalRep rep
  | .vsqrt _ _ _ _ => true
  | .vrcp _ _ _ _ => true
  | .vexp2 _ _ _ _ => true
  | .vlog2 _ _ _ _ => true
  | .vrsqrt _ _ _ _ => true
  | .vtanh _ _ _ _ => true
  | .vsin _ _ _ _ => true
  | .vcos _ _ _ _ => true
  | .vclass _ _ _ _ => true
  | .vcvt _ _ _ _ _ => true
  | .vcvtsat _ _ _ _ _ => true
  | .vcvts d _ _ _ _ => d != 31
  | .vcvtssat d _ _ _ _ => d != 31
  | .vredsum _ _ _ rep _ => legalRep rep
  | .vredmin _ _ _ rep _ => legalRep rep
  | .vredmax _ _ _ rep _ => legalRep rep
  | .vredor _ _ _ rep _ => legalRep rep
  | .vscansum _ _ _ => true
  | .vscanmin _ _ _ => true
  | .vscanmax _ _ _ => true
  | .vslideup _ _ _ _ _ => true
  | .vslidedn _ _ _ _ _ => true
  | .vslide1up _ _ _ _ _ => true
  | .vslide1dn _ _ _ _ _ => true
  | .vperm _ _ _ rep _ => legalRep rep
  | .vcompress _ _ m => m != 0
  | .vexpand _ _ m => m != 0
  | .viota _ m => m != 0
  | .vsegsort _ _ _ => true
  | .vsegsortkv _ _ _ rep _ => legalRep rep
  | .vdupmerge _ _ _ rep _ => legalRep rep
  | .vopaX1 _ _ _ rep _ _ => legalRep rep
  | .vopaX2 _ _ _ rep _ _ => legalRep rep
  | .vopaX4 _ _ _ rep _ _ => legalRep rep
  | .vopaX8 _ _ _ rep _ _ => legalRep rep
  | .vmvVg _ _ _ => true
  | .vmvVq _ _ _ => true
  | .vmvQv _ _ _ => true
  | .vld _ _ _ _ _ => true
  | .vlds _ _ _ _ _ _ => true
  | .vldx _ _ _ _ _ _ => true
  | .vldff _ _ _ _ _ => true
  | .vst _ _ _ _ _ _ => true
  | .vsts _ _ _ _ _ _ _ => true
  | .vstx _ _ _ _ _ _ _ => true
  | .vldseg _ _ nf _ => nf != 0
  | .vstseg _ _ nf _ => nf != 0
  | .vamoadd _ _ _ _ => true
  | .vamomin _ _ _ _ => true
  | .vamomax _ _ _ _ => true
  | .vamoswap _ _ _ _ => true
  | .vscredAdd _ _ _ _ => true
  | .vscredMin _ _ _ _ => true
  | .vscredMax _ _ _ _ => true
  | .vscredOr _ _ _ _ => true
  | .bankopAdd _ => true
  | .bankopMin _ => true
  | .bankopMax _ => true
  | .bankopAnd _ => true
  | .bankopOr _ => true
  | .bankopXor _ => true
  | .cbload _ _ nest _ => legalNest nest
  | .cbclr _ _ _ => true
  | .tbuild _ _ nest _ => legalNest nest
  | .tbload _ _ nest _ => legalNest nest
  | .tbfree _ _ _ => true
  | .lkinit _ _ _ => true
  | .lkacc _ _ nest _ => legalNest nest
  | .lkdrain _ _ nest _ => legalNest nest
  | .lkdrainc _ _ nest _ => legalNest nest
  | .lkread _ _ _ => true
  | .lkclr _ _ => true
  | .lkstat _ _ _ => true
  | .lkmeta _ _ _ => true
  | .lkwait _ _ => true
  | .xcopy _ _ _ nest _ => legalNest nest
  | .xshape _ nest _ => legalNest nest
  | .xfill _ _ _ nest _ => legalNest nest
  | .xgather _ _ _ => true
  | .wsend _ _ _ _ => true
  | .wsendi _ _ _ _ => true
  | .wreg _ _ _ => true
  | .wunreg _ _ => true
  | .wctr _ _ => true
  | .strain _ _ _ _ => true
  | .nmx _ _ => true
  | .nmxld _ _ _ => true
  | .pgin _ _ _ => true
  | .pgout _ _ _ => true
  | .xwait _ _ => true
  | .amoaddw _ _ _ _ => true
  | .amoaddd _ _ _ _ => true
  | .amofadd _ _ _ _ => true
  | .amoswapw _ _ _ _ => true
  | .amoswapd _ _ _ _ => true
  | .amoandw _ _ _ _ => true
  | .amoandd _ _ _ _ => true
  | .amoorw _ _ _ _ => true
  | .amoord _ _ _ _ => true
  | .amoxorw _ _ _ _ => true
  | .amoxord _ _ _ _ => true
  | .amominw _ _ _ _ => true
  | .amomind _ _ _ _ => true
  | .amomaxw _ _ _ _ => true
  | .amomaxd _ _ _ _ => true
  | .amominnw _ _ _ _ => true
  | .amominnd _ _ _ _ => true
  | .amomaxnw _ _ _ _ => true
  | .amomaxnd _ _ _ _ => true
  | .amocasw _ _ _ _ => true
  | .amocasd _ _ _ _ => true
  | .nma _ _ _ nest _ => legalNest nest
  | .fence _ => true
  | .nmfence => true
  | .bar _ => true
  | .barexp _ _ => true
  | .itpost _ => true
  | .itwait _ => true
  | .pwait _ _ => true
  | .tkpush _ => true
  | .tkpop _ => true
  | .tkcnt _ _ => true
  | .syscall => true
  | .brk => true
  | .eret => true
  | .wfe => true
  | .yield => true
  | .texit => true
  | .feat _ _ => true
  | .launch _ _ => true
  | .csrrw _ csr _ => csrKnown csr
  | .csrrs _ csr _ => csrKnown csr
  | .csrrc _ csr _ => csrKnown csr
  | .csrrwi _ csr _ => csrKnown csr
  | .csrrsi _ csr _ => csrKnown csr
  | .csrrci _ csr _ => csrKnown csr
  | .tlbinvVa _ _ => true
  | .tlbinvAsid _ => true
  | .tlbinvAll => true
  | .ctxsave _ => true
  | .ctxrest _ => true
  | .joinTTimeout => false
  | .holdEnd => false
  | .shed => false
  | .icinvPerform => false
  | .convoyIssue => false
  | .configurationEntry => false
  | .vectorWindow _ => false
  | .replayQueueReissue _ => false
  | .queueDeadlock => false
  | .tokenDeadlock => false
  | .trapEntry => false
  | .interruptEntry => false
  | .cycleCompare => false
  | .doorbell _ => false
  | .preemptionRequest _ => false
  | .hardwareSave _ => false
  | .lookupCommandStart => false
  | .accumulatorCommandBegin _ => false
  | .lookupStep _ => false
  | .checkVerdict _ => false
  | .secondReplay _ => false
  | .lookupCommandRetire _ _ => false
  | .tableBuild _ _ => false
  | .tablePress _ => false
  | .refresh _ _ _ => false
  | .temperatureSample _ _ => false
  | .supervisorCommand _ => false
  | .apertureStore _ _ _ _ _ _ => false
  | .transferCommandStart => false
  | .transferCommandRetire _ => false
  | .pendingBytesSubtract _ => false
  | .trainArrival _ _ _ _ _ => false
  | .trainAcknowledgement _ _ _ _ => false
  | .sendArrival _ _ _ _ _ => false
  | .sendAcknowledgement _ _ => false
  | .nmxAccept _ => false
  | .bankOperation => false
  | .nmaElement => false
  | .returnFreePerformed => false
  | .barrierPhaseComplete _ _ => false
  | .progressWordResend => false
  | .launchMessage _ _ => false
  | .launchAccept => false
  | .launchReady _ => false
  | .blockRequest => false
  | .taskPlacement _ => false
  | .contextResume _ => false
  | .completionRecordWrite _ => false
  | .completionIdWrite _ => false
  | .launchCancel _ => false
  | .dieFence _ => false
  | .masterElection => false
  | .wearInterval _ _ _ => false
  | .ripeningReplication _ => false
  | .lastingFault _ => false
  | .laneRetirement _ _ => false
  | .powerCeilingStep _ _ => false
  | .agreement _ _ => false
  | .agreementReply _ _ _ => false
  | .pairArrival _ _ => false
  | .rdmaWrite _ _ _ _ _ => false
  | .managementRead _ _ => false
  | .managementWrite _ _ => false
  | .firmwareImageChunk _ _ _ => false
  | .attestationRequest _ _ => false
  | .acknowledgement _ _ => false
  | .sessionOpen _ _ => false
  | .messageRetransmit _ _ => false
  | .routeUpdate _ _ _ => false
  | .packetRetransmit _ => false
  | .destinationUnreachable _ => false
  | .linkDegrade _ => false
  | .linkFailure _ => false
  | .cxlLinkDown _ => false
  | .halt _ => false
  | .resume _ => false
  | .recordRemoval _ _ => false
  | .contextImageWrite _ _ _ => false
  | .frqack _ => false
  | .lkerrClear => false
  | .xerrClear => false
  | .asidWrite _ _ => false
  | .registerWrite _ _ => false
  | .powerOnBoot _ _ _ => false
  | .supplyLossWarning _ => false
  | .junctionThrottle _ _ => false
  | .emergencySave _ => false
  | .hardTrip _ => false
  | .droop _ => false
  | .droopRecovery _ => false
  | .pllHop _ => false
  | .elementGroupIssue _ => false
  | .tableCommandApply _ _ => false
  | .remoteAccess _ _ _ _ _ => false
  | .l2Eviction _ => false
  | .tlbEntryDrop _ _ _ => false
  | .instructionLineEviction _ _ => false
  | .stackFence _ _ _ => false
  | .priorityFlowControlFrame _ _ => false
  | .congestionNotification _ => false
  | .queuePairError _ => false

end Sys2Proof
end

