-- ==== Sys2Proof/Decode.lean ====
section
/-! DEFINITION. Decoding and encoding of instruction words (spec/02_encoding.md, R32 to R58). Every word has the same
five fields, bits [31:22], [21:17], [16:12], [11:7] and [6:0] (R33); the formats cut them further. -/

namespace Sys2Proof

/-- Why a word is no instruction of this machine (R42). -/
inductive DecodeError where
  /-- the illegal-instruction trap -/
  | illegalInstruction
  /-- the illegal-prefix trap of major 0x5F -/
  | illegalPrefix
  /-- the illegal-convoy trap: the convoy bit on a major that is not convoyable. It carries the instruction that the
  word would be without the bit, since a feature-absent trap comes first (R43) -/
  | illegalConvoy (i : Instr)
  deriving DecidableEq, Repr

/-- What a word decodes to. -/
inductive Decoded where
  | ok (i : Instr)
  | error (e : DecodeError)
  deriving DecidableEq, Repr

/-- The code of a scope (R39). -/
def Scope.code : Scope → BitVec 3
  | .hart => 0 | .core => 1 | .cluster => 2 | .die => 3 | .package => 4 | .domain => 5

/-- The scope of a code; 6 and 7 name none (R39, R42). -/
def Scope.ofCode (c : BitVec 3) : Option Scope :=
  match c.toNat with
  | 0 => some .hart | 1 => some .core | 2 => some .cluster | 3 => some .die | 4 => some .package | 5 => some .domain
  | _ => none

/-- The code of a scalar floating-point format (R49). -/
def FFmt.code : FFmt → BitVec 2
  | .f32 => 0 | .f64 => 1

/-- The format of a code; 2 and 3 trap (R49). -/
def FFmt.ofCode (c : BitVec 2) : Option FFmt :=
  match c.toNat with
  | 0 => some .f32 | 1 => some .f64 | _ => none

/-- The five fields of a word (R33). -/
structure Fields where
  top : BitVec 10
  b : BitVec 5
  a : BitVec 5
  d : BitVec 5
  maj : BitVec 7
  deriving DecidableEq, Repr

/-- The word made of the five fields (R33). -/
def Fields.pack (f : Fields) : BitVec 32 := f.top ++ f.b ++ f.a ++ f.d ++ f.maj

/-- The five fields of a word (R33). -/
def Fields.ofWord (w : BitVec 32) : Fields :=
  { top := w.extractLsb' 22 10, b := w.extractLsb' 17 5, a := w.extractLsb' 12 5, d := w.extractLsb' 7 5,
    maj := w.extractLsb' 0 7 }

/-- imm12 of the I form (R33). -/
def Fields.imm12 (f : Fields) : BitVec 12 := f.top ++ f.b.extractLsb' 3 2
/-- funct3 of the I form (R33). -/
def Fields.funct3 (f : Fields) : BitVec 3 := f.b.extractLsb' 0 3
/-- imm20 of the U form (R33). -/
def Fields.imm20 (f : Fields) : BitVec 20 := f.top ++ f.b ++ f.a
/-- off12 of the B form (R33, R35). -/
def Fields.off12 (f : Fields) : BitVec 12 := f.top ++ f.d.extractLsb' 3 2
/-- cond of the B form (R33). -/
def Fields.cond (f : Fields) : BitVec 3 := f.d.extractLsb' 0 3
/-- The function of the V form (R33). -/
def Fields.vfn (f : Fields) : BitVec 2 := f.top.extractLsb' 8 2
/-- The replicate field of the V form (R33, R38). -/
def Fields.rep (f : Fields) : BitVec 3 := f.top.extractLsb' 5 3
/-- The convoy bit of the V form (R33, R37). -/
def Fields.cv (f : Fields) : Bool := f.top.getLsbD 4
/-- The mask field of the V form (R33, R36). -/
def Fields.mask (f : Fields) : BitVec 4 := f.top.extractLsb' 0 4
/-- The nest field of the E form (R33, R39). -/
def Fields.nest (f : Fields) : BitVec 3 := f.top.extractLsb' 0 3
/-- The order, push, pop and channel fields of the E form (R33, R39). -/
def Fields.emod (f : Fields) : EMod :=
  { order := f.top.extractLsb' 8 2, push := f.top.getLsbD 7, pop := f.top.getLsbD 6, chan := f.top.extractLsb' 3 3 }

/-- Fields of an R-form or P-form word. -/
def Fields.r (fn : BitVec 10) (b a d : BitVec 5) (maj : BitVec 7) : Fields := { top := fn, b, a, d, maj }
/-- Fields of an I-form word. -/
def Fields.i (imm : BitVec 12) (funct3 : BitVec 3) (a d : BitVec 5) (maj : BitVec 7) : Fields :=
  { top := imm.extractLsb' 2 10, b := imm.extractLsb' 0 2 ++ funct3, a, d, maj }
/-- Fields of a U-form word. -/
def Fields.u (imm : BitVec 20) (d : BitVec 5) (maj : BitVec 7) : Fields :=
  { top := imm.extractLsb' 10 10, b := imm.extractLsb' 5 5, a := imm.extractLsb' 0 5, d, maj }
/-- Fields of a B-form word. -/
def Fields.br (off : BitVec 12) (cond : BitVec 3) (b a : BitVec 5) (maj : BitVec 7) : Fields :=
  { top := off.extractLsb' 2 10, b, a, d := off.extractLsb' 0 2 ++ cond, maj }
/-- Fields of a V-form word. -/
def Fields.v (fn : BitVec 2) (rep : BitVec 3) (cv : Bool) (mask : BitVec 4) (b a d : BitVec 5) (maj : BitVec 7) :
    Fields :=
  { top := fn ++ rep ++ BitVec.ofBool cv ++ mask, b, a, d, maj }
/-- Fields of an E-form word. -/
def Fields.e (m : EMod) (nest : BitVec 3) (b a d : BitVec 5) (maj : BitVec 7) : Fields :=
  { top := m.order ++ BitVec.ofBool m.push ++ BitVec.ofBool m.pop ++ m.chan ++ nest, b, a, d, maj }

/-- The low 3 bits of a register field that names a q, k or nest register (R34). -/
def low3 (x : BitVec 5) : BitVec 3 := x.extractLsb' 0 3
/-- The low 4 bits of a register field that names a mask register (R34). -/
def low4 (x : BitVec 5) : BitVec 4 := x.extractLsb' 0 4
/-- The unused high bits of a q, k or nest register field are zero (R34, R42). -/
def hiZero (x : BitVec 5) : Bool := x.extractLsb' 3 2 == 0
/-- The unused high bit of a mask register field is zero (R34, R42). -/
def topZero (x : BitVec 5) : Bool := x.extractLsb' 4 1 == 0

/- The definitions that build instructions carry the word noncomputable because the compiler of this Lean cannot
number more than about 245 constructors with fields; the kernel evaluates them all the same. -/

/-- The instruction, where the must-be conditions of its encoding hold (R42). -/
def need (c : Bool) (i : Instr) : Decoded := if c then .ok i else .error .illegalInstruction

/-- The same for a V-form major that is not convoyable: its convoy bit must be clear (R37, R42). -/
def needLone (f : Fields) (c : Bool) (i : Instr) : Decoded :=
  if c then (if f.cv then .error (.illegalConvoy i) else .ok i) else .error .illegalInstruction

/-- Major 0x01 (R47). -/
noncomputable def decodeOp (f : Fields) : Decoded :=
  match f.top.toNat with
  | 0 => .ok (.add f.d f.a f.b)
  | 1 => .ok (.sub f.d f.a f.b)
  | 2 => .ok (.and f.d f.a f.b)
  | 3 => .ok (.or f.d f.a f.b)
  | 4 => .ok (.xor f.d f.a f.b)
  | 5 => .ok (.andn f.d f.a f.b)
  | 6 => .ok (.sll f.d f.a f.b)
  | 7 => .ok (.srl f.d f.a f.b)
  | 8 => .ok (.sra f.d f.a f.b)
  | 9 => .ok (.slt f.d f.a f.b)
  | 10 => .ok (.sltn f.d f.a f.b)
  | 11 => .ok (.min f.d f.a f.b)
  | 12 => .ok (.max f.d f.a f.b)
  | 13 => .ok (.minn f.d f.a f.b)
  | 14 => .ok (.maxn f.d f.a f.b)
  | 15 => .ok (.mul f.d f.a f.b)
  | 16 => .ok (.mulh f.d f.a f.b)
  | 17 => .ok (.mulhn f.d f.a f.b)
  | 18 => .ok (.mulhsn f.d f.a f.b)
  | 19 => .ok (.div f.d f.a f.b)
  | 20 => .ok (.divn f.d f.a f.b)
  | 21 => .ok (.rem f.d f.a f.b)
  | 22 => .ok (.remn f.d f.a f.b)
  | 23 => need (f.b == 0) (.clz f.d f.a)
  | 24 => need (f.b == 0) (.ctz f.d f.a)
  | 25 => need (f.b == 0) (.cpop f.d f.a)
  | 26 => need (f.b == 0) (.bswap f.d f.a)
  | _ => .error .illegalInstruction

/-- Major 0x02 (R48). -/
noncomputable def decodeOpImm (f : Fields) : Decoded :=
  match f.funct3.toNat with
  | 0 => .ok (.addi f.d f.a f.imm12)
  | 1 => .ok (.slti f.d f.a f.imm12)
  | 2 => .ok (.sltni f.d f.a f.imm12)
  | 3 => .ok (.xori f.d f.a f.imm12)
  | 4 => .ok (.ori f.d f.a f.imm12)
  | 5 => .ok (.andi f.d f.a f.imm12)
  | 6 => need (f.imm12.extractLsb' 6 6 == 0) (.slli f.d f.a (f.imm12.extractLsb' 0 6))
  | 7 =>
    if f.imm12.extractLsb' 6 6 == 0 then .ok (.srli f.d f.a (f.imm12.extractLsb' 0 6))
    else need (f.imm12.extractLsb' 6 6 == 16) (.srai f.d f.a (f.imm12.extractLsb' 0 6))
  | _ => .error .illegalInstruction

/-- Major 0x05 with a legal format field (R49). -/
noncomputable def decodeFpOp (f : Fields) (fmt : FFmt) : Decoded :=
  match (f.top.extractLsb' 4 6).toNat with
  | 0 => .ok (.fadd f.d f.a f.b fmt (f.top.extractLsb' 0 2))
  | 1 => .ok (.fsub f.d f.a f.b fmt (f.top.extractLsb' 0 2))
  | 2 => .ok (.fmul f.d f.a f.b fmt (f.top.extractLsb' 0 2))
  | 3 => .ok (.fdiv f.d f.a f.b fmt (f.top.extractLsb' 0 2))
  | 4 => need (f.b == 0) (.fsqrt f.d f.a fmt (f.top.extractLsb' 0 2))
  | 5 => .ok (.fmin f.d f.a f.b fmt (f.top.extractLsb' 0 2))
  | 6 => .ok (.fmax f.d f.a f.b fmt (f.top.extractLsb' 0 2))
  | 7 => .ok (.fmacc f.d f.a f.b fmt (f.top.extractLsb' 0 2))
  | 8 => .ok (.fnmacc f.d f.a f.b fmt (f.top.extractLsb' 0 2))
  | 9 => .ok (.fsgnj f.d f.a f.b fmt (f.top.extractLsb' 0 2))
  | 10 => .ok (.fsgnjn f.d f.a f.b fmt (f.top.extractLsb' 0 2))
  | 11 => .ok (.fsgnjx f.d f.a f.b fmt (f.top.extractLsb' 0 2))
  | 12 => .ok (.feq f.d f.a f.b fmt (f.top.extractLsb' 0 2))
  | 13 => .ok (.flt f.d f.a f.b fmt (f.top.extractLsb' 0 2))
  | 14 => .ok (.fle f.d f.a f.b fmt (f.top.extractLsb' 0 2))
  | 15 => need (f.b == 0) (.fclass f.d f.a fmt (f.top.extractLsb' 0 2))
  | 16 => need (f.b == 0) (.fcvtI64 f.d f.a fmt (f.top.extractLsb' 0 2))
  | 17 => need (f.b == 0) (.fcvtN64 f.d f.a fmt (f.top.extractLsb' 0 2))
  | 18 => need (f.b == 0) (.fcvtFmtI64 f.d f.a fmt (f.top.extractLsb' 0 2))
  | 19 => need (f.b == 0) (.fcvtFmtN64 f.d f.a fmt (f.top.extractLsb' 0 2))
  | 20 => need (f.b == 0) (.fcvtFmtOther f.d f.a fmt (f.top.extractLsb' 0 2))
  | _ => .error .illegalInstruction

/-- Major 0x05: format codes 2 and 3 trap (R49). -/
noncomputable def decodeFp (f : Fields) : Decoded :=
  match FFmt.ofCode (f.top.extractLsb' 2 2) with
  | some fmt => decodeFpOp f fmt
  | none => .error .illegalInstruction

/-- Major 0x06 (R50). -/
noncomputable def decodeQueue (f : Fields) : Decoded :=
  match f.top.toNat with
  | 0 => need (f.b == 0 && hiZero f.d) (.qpush (low3 f.d) f.a)
  | 1 => need (f.b == 0 && hiZero f.a) (.qpop f.d (low3 f.a))
  | 2 => need (f.b == 0 && hiZero f.a) (.qlen f.d (low3 f.a))
  | _ => .error .illegalInstruction

/-- Major 0x08 (R48). -/
noncomputable def decodeLoad (f : Fields) : Decoded :=
  match f.funct3.toNat with
  | 0 => .ok (.lb f.d f.a f.imm12)
  | 1 => .ok (.lh f.d f.a f.imm12)
  | 2 => .ok (.lw f.d f.a f.imm12)
  | 3 => .ok (.ld f.d f.a f.imm12)
  | 4 => .ok (.lbn f.d f.a f.imm12)
  | 5 => .ok (.lhn f.d f.a f.imm12)
  | 6 => .ok (.lwn f.d f.a f.imm12)
  | _ => .error .illegalInstruction

/-- Major 0x09 (R48). -/
noncomputable def decodeStore (f : Fields) : Decoded :=
  match f.funct3.toNat with
  | 0 => .ok (.sb f.d f.a f.imm12)
  | 1 => .ok (.sh f.d f.a f.imm12)
  | 2 => .ok (.sw f.d f.a f.imm12)
  | 3 => .ok (.sd f.d f.a f.imm12)
  | _ => .error .illegalInstruction

/-- Major 0x0A with a legal scope (R48). -/
noncomputable def decodeLoadAOp (f : Fields) (scope : Scope) : Decoded :=
  match f.funct3.toNat with
  | 0 => .ok (.lbAq f.d f.a scope)
  | 1 => .ok (.lhAq f.d f.a scope)
  | 2 => .ok (.lwAq f.d f.a scope)
  | 3 => .ok (.ldAq f.d f.a scope)
  | 4 => .ok (.lbnAq f.d f.a scope)
  | 5 => .ok (.lhnAq f.d f.a scope)
  | 6 => .ok (.lwnAq f.d f.a scope)
  | _ => .error .illegalInstruction

/-- Major 0x0A: the scope is imm12[2:0] and imm12[11:3] is zero (R48, R42). -/
noncomputable def decodeLoadA (f : Fields) : Decoded :=
  match Scope.ofCode (f.imm12.extractLsb' 0 3) with
  | some scope => if f.imm12.extractLsb' 3 9 == 0 then decodeLoadAOp f scope else .error .illegalInstruction
  | none => .error .illegalInstruction

/-- Major 0x0B with a legal scope (R48). -/
noncomputable def decodeStoreLOp (f : Fields) (scope : Scope) : Decoded :=
  match f.funct3.toNat with
  | 0 => .ok (.sbRl f.d f.a scope)
  | 1 => .ok (.shRl f.d f.a scope)
  | 2 => .ok (.swRl f.d f.a scope)
  | 3 => .ok (.sdRl f.d f.a scope)
  | _ => .error .illegalInstruction

/-- Major 0x0B: the scope is imm12[2:0] and imm12[11:3] is zero (R48, R42). -/
noncomputable def decodeStoreL (f : Fields) : Decoded :=
  match Scope.ofCode (f.imm12.extractLsb' 0 3) with
  | some scope => if f.imm12.extractLsb' 3 9 == 0 then decodeStoreLOp f scope else .error .illegalInstruction
  | none => .error .illegalInstruction

/-- Major 0x0C (R48). -/
noncomputable def decodeCache (f : Fields) : Decoded :=
  match f.funct3.toNat with
  | 0 => need (f.d == 0) (.pref f.a f.imm12)
  | 1 => need (f.d == 0) (.prefw f.a f.imm12)
  | 2 => need (f.d == 0) (.cln f.a f.imm12)
  | 3 => need (f.d == 0) (.cinv f.a f.imm12)
  | 4 => need (f.d == 0) (.cflush f.a f.imm12)
  | _ => .error .illegalInstruction

/-- Major 0x12 (R51). -/
noncomputable def decodeBranch (f : Fields) : Decoded :=
  match f.cond.toNat with
  | 0 => .ok (.beq f.a f.b f.off12)
  | 1 => .ok (.bne f.a f.b f.off12)
  | 2 => .ok (.blt f.a f.b f.off12)
  | 3 => .ok (.bge f.a f.b f.off12)
  | 4 => .ok (.bltn f.a f.b f.off12)
  | 5 => .ok (.bgen f.a f.b f.off12)
  | _ => .error .illegalInstruction

/-- Major 0x13 (R51). -/
noncomputable def decodeGang (f : Fields) : Decoded :=
  match f.funct3.toNat with
  | 0 => need (f.d == 0 && f.a == 0) (.join f.imm12)
  | 1 => .ok (.joinT f.d f.a f.imm12)
  | 2 => need (f.d == 0 && f.a == 0 && f.imm12 == 0) (.detach)
  | 3 => need (f.d == 0) (.icinv f.a f.imm12)
  | _ => .error .illegalInstruction

/-- Major 0x18 (R52). -/
noncomputable def decodeMask (f : Fields) : Decoded :=
  match f.top.toNat with
  | 0 => need (topZero f.d && topZero f.a && topZero f.b) (.mand (low4 f.d) (low4 f.a) (low4 f.b))
  | 1 => need (topZero f.d && topZero f.a && topZero f.b) (.mor (low4 f.d) (low4 f.a) (low4 f.b))
  | 2 => need (topZero f.d && topZero f.a && topZero f.b) (.mxor (low4 f.d) (low4 f.a) (low4 f.b))
  | 3 => need (topZero f.d && topZero f.a && topZero f.b) (.mandn (low4 f.d) (low4 f.a) (low4 f.b))
  | 4 => need (topZero f.d && topZero f.a && topZero f.b) (.morn (low4 f.d) (low4 f.a) (low4 f.b))
  | 5 => need (topZero f.d && topZero f.a && topZero f.b) (.mxnor (low4 f.d) (low4 f.a) (low4 f.b))
  | 6 => need (topZero f.d && topZero f.a && f.b == 0) (.mnot (low4 f.d) (low4 f.a))
  | 7 => need (topZero f.d && topZero f.a && f.b == 0) (.mmov (low4 f.d) (low4 f.a))
  | 8 => need (topZero f.d && f.a == 0 && f.b == 0) (.mset (low4 f.d))
  | 9 => need (topZero f.d && f.a == 0 && f.b == 0) (.mclr (low4 f.d))
  | 10 => need (topZero f.d && topZero f.a && f.b == 0) (.msbf (low4 f.d) (low4 f.a))
  | 11 => need (topZero f.d && topZero f.a && f.b == 0) (.msif (low4 f.d) (low4 f.a))
  | 12 => need (topZero f.d && topZero f.a && f.b == 0) (.msof (low4 f.d) (low4 f.a))
  | 13 => need (topZero f.a && f.b == 0) (.mcnt f.d (low4 f.a))
  | 14 => need (topZero f.a && f.b == 0) (.many f.d (low4 f.a))
  | 15 => need (topZero f.a && f.b == 0) (.mfirst f.d (low4 f.a))
  | _ => .error .illegalInstruction

/-- Major 0x20 (R53). -/
noncomputable def decodeVcfg (f : Fields) : Decoded :=
  match f.funct3.toNat with
  | 0 => need (f.imm12.extractLsb' 6 6 == 0) (.setvl f.d f.a (f.imm12.extractLsb' 0 4) (f.imm12.extractLsb' 4 2))
  | 1 => need (f.a == 0 && f.imm12.extractLsb' 6 6 == 0) (.vtag f.d (f.imm12.extractLsb' 0 4) (f.imm12.extractLsb' 4 2))
  | 2 => need (f.a == 0 && f.imm12.extractLsb' 6 6 == 0) (.vretag f.d (f.imm12.extractLsb' 0 4) (f.imm12.extractLsb' 4 2))
  | 3 => need (f.imm12 == 0) (.vgettag f.d f.a)
  | 4 => need (f.imm12 == 0) (.lpreq f.d f.a)
  | 5 => need (f.imm12 == 0 && f.d == 0) (.lprel f.a)
  | 6 => need (f.imm12 == 0 && hiZero f.d && legalNestReg (low3 f.d)) (.nestld (low3 f.d) f.a)
  | 7 => need (f.imm12 == 0 && hiZero f.d && legalNestReg (low3 f.d)) (.nestst (low3 f.d) f.a)
  | _ => .error .illegalInstruction

/-- Major 0x30 (R54). -/
noncomputable def decodeV30 (f : Fields) : Decoded :=
  match f.vfn.toNat with
  | 0 => need (legalRep f.rep) (.vadd f.d f.a f.b f.rep f.cv f.mask)
  | 1 => need (legalRep f.rep) (.vsub f.d f.a f.b f.rep f.cv f.mask)
  | 2 => need (legalRep f.rep) (.vrsub f.d f.a f.b f.rep f.cv f.mask)
  | 3 => need (legalRep f.rep) (.vmul f.d f.a f.b f.rep f.cv f.mask)
  | _ => .error .illegalInstruction

/-- Major 0x31 (R54). -/
noncomputable def decodeV31 (f : Fields) : Decoded :=
  match f.vfn.toNat with
  | 0 => need (legalRep f.rep) (.vmin f.d f.a f.b f.rep f.cv f.mask)
  | 1 => need (legalRep f.rep) (.vmax f.d f.a f.b f.rep f.cv f.mask)
  | 2 => need (legalRep f.rep) (.vsadd f.d f.a f.b f.rep f.cv f.mask)
  | 3 => need (legalRep f.rep) (.vssub f.d f.a f.b f.rep f.cv f.mask)
  | _ => .error .illegalInstruction

/-- Major 0x32 (R54). -/
noncomputable def decodeV32 (f : Fields) : Decoded :=
  match f.vfn.toNat with
  | 0 => need (legalRep f.rep) (.vmacc f.d f.a f.b f.rep f.cv f.mask)
  | 1 => need (legalRep f.rep) (.vnmsac f.d f.a f.b f.rep f.cv f.mask)
  | 2 => need (legalRep f.rep) (.vmadd f.d f.a f.b f.rep f.cv f.mask)
  | 3 => need (legalRep f.rep) (.vnmsub f.d f.a f.b f.rep f.cv f.mask)
  | _ => .error .illegalInstruction

/-- Major 0x33 (R54). -/
noncomputable def decodeV33 (f : Fields) : Decoded :=
  match f.vfn.toNat with
  | 0 => need (legalRep f.rep) (.vand f.d f.a f.b f.rep f.cv f.mask)
  | 1 => need (legalRep f.rep) (.vor f.d f.a f.b f.rep f.cv f.mask)
  | 2 => need (legalRep f.rep) (.vxor f.d f.a f.b f.rep f.cv f.mask)
  | 3 => need (legalRep f.rep) (.vandn f.d f.a f.b f.rep f.cv f.mask)
  | _ => .error .illegalInstruction

/-- Major 0x34 (R54). -/
noncomputable def decodeV34 (f : Fields) : Decoded :=
  match f.vfn.toNat with
  | 0 => need (legalRep f.rep) (.vsll f.d f.a f.b f.rep f.cv f.mask)
  | 1 => need (legalRep f.rep) (.vsrl f.d f.a f.b f.rep f.cv f.mask)
  | 2 => need (legalRep f.rep) (.vsra f.d f.a f.b f.rep f.cv f.mask)
  | 3 => need (legalRep f.rep) (.vrot f.d f.a f.b f.rep f.cv f.mask)
  | _ => .error .illegalInstruction

/-- Major 0x35 (R54). -/
noncomputable def decodeV35 (f : Fields) : Decoded :=
  match f.vfn.toNat with
  | 0 => need (topZero f.d && legalRep f.rep) (.vmseq (low4 f.d) f.a f.b f.rep f.cv f.mask)
  | 1 => need (topZero f.d && legalRep f.rep) (.vmsne (low4 f.d) f.a f.b f.rep f.cv f.mask)
  | 2 => need (topZero f.d && legalRep f.rep) (.vmslt (low4 f.d) f.a f.b f.rep f.cv f.mask)
  | 3 => need (topZero f.d && legalRep f.rep) (.vmsle (low4 f.d) f.a f.b f.rep f.cv f.mask)
  | _ => .error .illegalInstruction

/-- Major 0x36 (R54). -/
noncomputable def decodeV36 (f : Fields) : Decoded :=
  match f.vfn.toNat with
  | 0 => need (legalRep f.rep && f.mask != 0) (.vmerge f.d f.a f.b f.rep f.cv f.mask)
  | 1 => need (legalRep f.rep) (.vclamp f.d f.a f.b f.rep f.cv f.mask)
  | 2 => need (f.b == 0 && f.rep == 0) (.vmv f.d f.a f.cv f.mask)
  | 3 => need (f.b == 0 && f.rep == 0) (.vabs f.d f.a f.cv f.mask)
  | _ => .error .illegalInstruction

/-- Major 0x37 (R54). -/
noncomputable def decodeV37 (f : Fields) : Decoded :=
  match f.vfn.toNat with
  | 0 => need (legalRep f.rep) (.vdiv f.d f.a f.b f.rep f.cv f.mask)
  | 1 => need (legalRep f.rep) (.vrem f.d f.a f.b f.rep f.cv f.mask)
  | 2 => need (f.b == 0 && f.rep == 0) (.vsqrt f.d f.a f.cv f.mask)
  | 3 => need (f.b == 0 && f.rep == 0) (.vrcp f.d f.a f.cv f.mask)
  | _ => .error .illegalInstruction

/-- Major 0x38 (R54). -/
noncomputable def decodeV38 (f : Fields) : Decoded :=
  match f.vfn.toNat with
  | 0 => need (f.b == 0 && f.rep == 0) (.vexp2 f.d f.a f.cv f.mask)
  | 1 => need (f.b == 0 && f.rep == 0) (.vlog2 f.d f.a f.cv f.mask)
  | 2 => need (f.b == 0 && f.rep == 0) (.vrsqrt f.d f.a f.cv f.mask)
  | 3 => need (f.b == 0 && f.rep == 0) (.vtanh f.d f.a f.cv f.mask)
  | _ => .error .illegalInstruction

/-- Major 0x39 (R54). -/
noncomputable def decodeV39 (f : Fields) : Decoded :=
  match f.vfn.toNat with
  | 0 => need (f.b == 0 && f.rep == 0) (.vsin f.d f.a f.cv f.mask)
  | 1 => need (f.b == 0 && f.rep == 0) (.vcos f.d f.a f.cv f.mask)
  | 2 => need (f.b == 0 && f.rep == 0) (.vclass f.d f.a f.cv f.mask)
  | _ => .error .illegalInstruction

/-- Major 0x3A (R54). -/
noncomputable def decodeV3A (f : Fields) : Decoded :=
  match f.vfn.toNat with
  | 0 =>
    if f.b.extractLsb' 2 3 == 0 then need (f.rep == 0) (.vcvt f.d f.a (f.b.extractLsb' 0 2) f.cv f.mask)
    else need (f.b.extractLsb' 2 3 == 1 && f.rep == 0) (.vcvtsat f.d f.a (f.b.extractLsb' 0 2) f.cv f.mask)
  | 1 =>
    if f.b.extractLsb' 2 3 == 0 then need (f.rep == 0 && f.d != 31) (.vcvts f.d f.a (f.b.extractLsb' 0 2) f.cv f.mask)
    else need (f.b.extractLsb' 2 3 == 1 && f.rep == 0 && f.d != 31) (.vcvtssat f.d f.a (f.b.extractLsb' 0 2) f.cv f.mask)
  | _ => .error .illegalInstruction

/-- Major 0x3B (R54). -/
noncomputable def decodeV3B (f : Fields) : Decoded :=
  match f.vfn.toNat with
  | 0 => needLone f (legalRep f.rep) (.vredsum f.d f.a f.b f.rep f.mask)
  | 1 => needLone f (legalRep f.rep) (.vredmin f.d f.a f.b f.rep f.mask)
  | 2 => needLone f (legalRep f.rep) (.vredmax f.d f.a f.b f.rep f.mask)
  | 3 => needLone f (legalRep f.rep) (.vredor f.d f.a f.b f.rep f.mask)
  | _ => .error .illegalInstruction

/-- Major 0x3C (R54). -/
noncomputable def decodeV3C (f : Fields) : Decoded :=
  match f.vfn.toNat with
  | 0 => needLone f (f.b == 0 && f.rep == 0) (.vscansum f.d f.a f.mask)
  | 1 => needLone f (f.b == 0 && f.rep == 0) (.vscanmin f.d f.a f.mask)
  | 2 => needLone f (f.b == 0 && f.rep == 0) (.vscanmax f.d f.a f.mask)
  | _ => .error .illegalInstruction

/-- Major 0x3D (R54). -/
noncomputable def decodeV3D (f : Fields) : Decoded :=
  match f.vfn.toNat with
  | 0 => need (f.rep == 0) (.vslideup f.d f.a f.b f.cv f.mask)
  | 1 => need (f.rep == 0) (.vslidedn f.d f.a f.b f.cv f.mask)
  | 2 => need (f.rep == 0) (.vslide1up f.d f.a f.b f.cv f.mask)
  | 3 => need (f.rep == 0) (.vslide1dn f.d f.a f.b f.cv f.mask)
  | _ => .error .illegalInstruction

/-- Major 0x3E (R54). -/
noncomputable def decodeV3E (f : Fields) : Decoded :=
  match f.vfn.toNat with
  | 0 => needLone f (legalRep f.rep) (.vperm f.d f.a f.b f.rep f.mask)
  | 1 => needLone f (f.b == 0 && f.rep == 0 && f.mask != 0) (.vcompress f.d f.a f.mask)
  | 2 => needLone f (f.b == 0 && f.rep == 0 && f.mask != 0) (.vexpand f.d f.a f.mask)
  | 3 => needLone f (f.a == 0 && f.b == 0 && f.rep == 0 && f.mask != 0) (.viota f.d f.mask)
  | _ => .error .illegalInstruction

/-- Major 0x3F (R54). -/
noncomputable def decodeV3F (f : Fields) : Decoded :=
  match f.vfn.toNat with
  | 0 => needLone f (f.b == 0 && f.rep == 0) (.vsegsort f.d f.a f.mask)
  | 1 => needLone f (legalRep f.rep) (.vsegsortkv f.d f.a f.b f.rep f.mask)
  | 2 => needLone f (legalRep f.rep) (.vdupmerge f.d f.a f.b f.rep f.mask)
  | _ => .error .illegalInstruction

/-- Major 0x40 (R54). -/
noncomputable def decodeV40 (f : Fields) : Decoded :=
  match f.vfn.toNat with
  | 0 => need (legalRep f.rep) (.vopaX1 f.d f.a f.b f.rep f.cv f.mask)
  | 1 => need (legalRep f.rep) (.vopaX2 f.d f.a f.b f.rep f.cv f.mask)
  | 2 => need (legalRep f.rep) (.vopaX4 f.d f.a f.b f.rep f.cv f.mask)
  | 3 => need (legalRep f.rep) (.vopaX8 f.d f.a f.b f.rep f.cv f.mask)
  | _ => .error .illegalInstruction

/-- Major 0x41 (R54). -/
noncomputable def decodeV41 (f : Fields) : Decoded :=
  match f.vfn.toNat with
  | 0 => needLone f (f.b == 0 && f.rep == 0) (.vmvVg f.d f.a f.mask)
  | 1 => needLone f (hiZero f.a && f.b == 0 && f.rep == 0) (.vmvVq f.d (low3 f.a) f.mask)
  | 2 => needLone f (hiZero f.d && f.b == 0 && f.rep == 0) (.vmvQv (low3 f.d) f.a f.mask)
  | _ => .error .illegalInstruction

/-- Major 0x48 (R54). -/
noncomputable def decodeV48 (f : Fields) : Decoded :=
  match f.vfn.toNat with
  | 0 => need (f.b == 0 && !f.rep.getLsbD 2) (.vld f.d f.a (f.rep.extractLsb' 0 2) f.cv f.mask)
  | 1 => need (!f.rep.getLsbD 2) (.vlds f.d f.a f.b (f.rep.extractLsb' 0 2) f.cv f.mask)
  | 2 => need (!f.rep.getLsbD 2) (.vldx f.d f.a f.b (f.rep.extractLsb' 0 2) f.cv f.mask)
  | 3 => need (f.b == 0 && !f.rep.getLsbD 2) (.vldff f.d f.a (f.rep.extractLsb' 0 2) f.cv f.mask)
  | _ => .error .illegalInstruction

/-- Major 0x49 (R54). -/
noncomputable def decodeV49 (f : Fields) : Decoded :=
  match f.vfn.toNat with
  | 0 => need (f.b == 0) (.vst f.d f.a (f.rep.getLsbD 2) (f.rep.extractLsb' 0 2) f.cv f.mask)
  | 1 => .ok (.vsts f.d f.a f.b (f.rep.getLsbD 2) (f.rep.extractLsb' 0 2) f.cv f.mask)
  | 2 => .ok (.vstx f.d f.a f.b (f.rep.getLsbD 2) (f.rep.extractLsb' 0 2) f.cv f.mask)
  | _ => .error .illegalInstruction

/-- Major 0x4A (R54). -/
noncomputable def decodeV4A (f : Fields) : Decoded :=
  match f.vfn.toNat with
  | 0 => needLone f (f.b.extractLsb' 3 2 == 0 && f.b.extractLsb' 0 3 != 0 && f.rep == 0) (.vldseg f.d f.a (f.b.extractLsb' 0 3) f.mask)
  | 1 => needLone f (f.b.extractLsb' 3 2 == 0 && f.b.extractLsb' 0 3 != 0 && f.rep == 0) (.vstseg f.d f.a (f.b.extractLsb' 0 3) f.mask)
  | _ => .error .illegalInstruction

/-- Major 0x4B (R54). -/
noncomputable def decodeV4B (f : Fields) : Decoded :=
  match f.vfn.toNat with
  | 0 => needLone f (f.rep == 0) (.vamoadd f.d f.a f.b f.mask)
  | 1 => needLone f (f.rep == 0) (.vamomin f.d f.a f.b f.mask)
  | 2 => needLone f (f.rep == 0) (.vamomax f.d f.a f.b f.mask)
  | 3 => needLone f (f.rep == 0) (.vamoswap f.d f.a f.b f.mask)
  | _ => .error .illegalInstruction

/-- Major 0x4C (R54). -/
noncomputable def decodeV4C (f : Fields) : Decoded :=
  match f.vfn.toNat with
  | 0 => needLone f (f.rep == 0) (.vscredAdd f.d f.a f.b f.mask)
  | 1 => needLone f (f.rep == 0) (.vscredMin f.d f.a f.b f.mask)
  | 2 => needLone f (f.rep == 0) (.vscredMax f.d f.a f.b f.mask)
  | 3 => needLone f (f.rep == 0) (.vscredOr f.d f.a f.b f.mask)
  | _ => .error .illegalInstruction

/-- Major 0x5F (R40). -/
noncomputable def decodeBankOp (f : Fields) : Decoded :=
  if f.top == 0 && f.b == 0 then
    match f.d.toNat with
    | 1 => .ok (.bankopAdd f.a)
    | 2 => .ok (.bankopMin f.a)
    | 3 => .ok (.bankopMax f.a)
    | 4 => .ok (.bankopAnd f.a)
    | 5 => .ok (.bankopOr f.a)
    | 6 => .ok (.bankopXor f.a)
    | _ => .error .illegalPrefix
  else .error .illegalPrefix

/-- Major 0x70 (R56): the operation is function [9:4] and the width is function [3:2]. -/
noncomputable def decodeAmo (f : Fields) : Decoded :=
  match (f.top.extractLsb' 4 6).toNat, (f.top.extractLsb' 2 2).toNat with
  | 0, 0 => .ok (.amoaddw f.d f.a f.b (f.top.extractLsb' 0 2))
  | 0, 1 => .ok (.amoaddd f.d f.a f.b (f.top.extractLsb' 0 2))
  | 0, 2 => .ok (.amofadd f.d f.a f.b (f.top.extractLsb' 0 2))
  | 1, 0 => .ok (.amoswapw f.d f.a f.b (f.top.extractLsb' 0 2))
  | 1, 1 => .ok (.amoswapd f.d f.a f.b (f.top.extractLsb' 0 2))
  | 2, 0 => .ok (.amoandw f.d f.a f.b (f.top.extractLsb' 0 2))
  | 2, 1 => .ok (.amoandd f.d f.a f.b (f.top.extractLsb' 0 2))
  | 3, 0 => .ok (.amoorw f.d f.a f.b (f.top.extractLsb' 0 2))
  | 3, 1 => .ok (.amoord f.d f.a f.b (f.top.extractLsb' 0 2))
  | 4, 0 => .ok (.amoxorw f.d f.a f.b (f.top.extractLsb' 0 2))
  | 4, 1 => .ok (.amoxord f.d f.a f.b (f.top.extractLsb' 0 2))
  | 5, 0 => .ok (.amominw f.d f.a f.b (f.top.extractLsb' 0 2))
  | 5, 1 => .ok (.amomind f.d f.a f.b (f.top.extractLsb' 0 2))
  | 6, 0 => .ok (.amomaxw f.d f.a f.b (f.top.extractLsb' 0 2))
  | 6, 1 => .ok (.amomaxd f.d f.a f.b (f.top.extractLsb' 0 2))
  | 7, 0 => .ok (.amominnw f.d f.a f.b (f.top.extractLsb' 0 2))
  | 7, 1 => .ok (.amominnd f.d f.a f.b (f.top.extractLsb' 0 2))
  | 8, 0 => .ok (.amomaxnw f.d f.a f.b (f.top.extractLsb' 0 2))
  | 8, 1 => .ok (.amomaxnd f.d f.a f.b (f.top.extractLsb' 0 2))
  | 9, 0 => .ok (.amocasw f.d f.a f.b (f.top.extractLsb' 0 2))
  | 9, 1 => .ok (.amocasd f.d f.a f.b (f.top.extractLsb' 0 2))
  | _, _ => .error .illegalInstruction

/-- Major 0x72 (R57). -/
noncomputable def decodeSync (f : Fields) : Decoded :=
  match (f.top.extractLsb' 3 7).toNat with
  | 0 =>
    match Scope.ofCode (f.top.extractLsb' 0 3) with
    | some scope => need (f.b == 0 && f.a == 0 && f.d == 0) (.fence scope)
    | none => .error .illegalInstruction
  | 1 => need (f.top.extractLsb' 0 3 == 0 && f.d == 0 && f.a == 0 && f.b == 0) (.nmfence)
  | 2 => need (f.top.extractLsb' 0 3 == 0 && f.d == 0 && f.b == 0) (.bar f.a)
  | 3 => need (f.top.extractLsb' 0 3 == 0 && f.d == 0) (.barexp f.a f.b)
  | 4 => need (f.top.extractLsb' 0 3 == 0 && f.d == 0 && f.b == 0) (.itpost f.a)
  | 5 => need (f.top.extractLsb' 0 3 == 0 && f.d == 0 && f.b == 0) (.itwait f.a)
  | 6 => need (f.top.extractLsb' 0 3 == 0 && f.d == 0) (.pwait f.a f.b)
  | 7 => need (f.top.extractLsb' 0 3 == 0 && f.b == 0 && f.a == 0 && hiZero f.d) (.tkpush (low3 f.d))
  | 8 => need (f.top.extractLsb' 0 3 == 0 && f.b == 0 && f.a == 0 && hiZero f.d) (.tkpop (low3 f.d))
  | 9 => need (f.top.extractLsb' 0 3 == 0 && f.b == 0 && hiZero f.a) (.tkcnt f.d (low3 f.a))
  | _ => .error .illegalInstruction

/-- Major 0x73, funct3 0: the selector is imm12 (R58). -/
noncomputable def decodeSysCall (f : Fields) : Decoded :=
  if f.a == 0 && f.d == 0 then
    match f.imm12.toNat with
    | 0 => .ok .syscall
    | 1 => .ok .brk
    | 2 => .ok .eret
    | 3 => .ok .wfe
    | 4 => .ok .yield
    | 5 => .ok .texit
    | _ => .error .illegalInstruction
  else .error .illegalInstruction

/-- Major 0x73 (R58). -/
noncomputable def decodeSys (f : Fields) : Decoded :=
  match f.funct3.toNat with
  | 0 => decodeSysCall f
  | 1 => need (f.a == 0 && f.imm12.extractLsb' 6 6 == 0) (.feat f.d (f.imm12.extractLsb' 0 6))
  | 2 => need (f.imm12 == 0) (.launch f.d f.a)
  | _ => .error .illegalInstruction

/-- Major 0x74 (R58). -/
noncomputable def decodeCsr (f : Fields) : Decoded :=
  match f.funct3.toNat with
  | 1 => need (csrKnown f.imm12) (.csrrw f.d f.imm12 f.a)
  | 2 => need (csrKnown f.imm12) (.csrrs f.d f.imm12 f.a)
  | 3 => need (csrKnown f.imm12) (.csrrc f.d f.imm12 f.a)
  | 5 => need (csrKnown f.imm12) (.csrrwi f.d f.imm12 f.a)
  | 6 => need (csrKnown f.imm12) (.csrrsi f.d f.imm12 f.a)
  | 7 => need (csrKnown f.imm12) (.csrrci f.d f.imm12 f.a)
  | _ => .error .illegalInstruction

/-- Major 0x75 (R58). -/
noncomputable def decodePriv (f : Fields) : Decoded :=
  match f.top.toNat with
  | 0 => need (f.d == 0) (.tlbinvVa f.a f.b)
  | 1 => need (f.d == 0 && f.b == 0) (.tlbinvAsid f.a)
  | 2 => need (f.d == 0 && f.a == 0 && f.b == 0) (.tlbinvAll)
  | 3 => need (f.d == 0 && f.b == 0) (.ctxsave f.a)
  | 4 => need (f.d == 0 && f.b == 0) (.ctxrest f.a)
  | _ => .error .illegalInstruction

/-- The instruction that a word's fields name, or why there is none: the major fixes everything else
(R32, R46). Every major not listed raises the illegal-instruction trap. -/
noncomputable def decodeFields (f : Fields) : Decoded :=
  match f.maj.toNat with
  | 0x01 => decodeOp f
  | 0x02 => decodeOpImm f
  | 0x03 => .ok (.lui f.d f.imm20)
  | 0x04 => .ok (.auipc f.d f.imm20)
  | 0x05 => decodeFp f
  | 0x06 => decodeQueue f
  | 0x08 => decodeLoad f
  | 0x09 => decodeStore f
  | 0x0A => decodeLoadA f
  | 0x0B => decodeStoreL f
  | 0x0C => decodeCache f
  | 0x10 => .ok (.jal f.d f.imm20)
  | 0x11 => need (f.funct3 == 0) (.jalr f.d f.a f.imm12)
  | 0x12 => decodeBranch f
  | 0x13 => decodeGang f
  | 0x14 => need (f.d == 0 && f.a == 0 && f.imm12.extractLsb' 5 7 == 0 && legalLoop f.funct3 (f.imm12.extractLsb' 0 5)) (.loopn f.funct3 (f.imm12.extractLsb' 0 5))
  | 0x18 => decodeMask f
  | 0x20 => decodeVcfg f
  | 0x30 => decodeV30 f
  | 0x31 => decodeV31 f
  | 0x32 => decodeV32 f
  | 0x33 => decodeV33 f
  | 0x34 => decodeV34 f
  | 0x35 => decodeV35 f
  | 0x36 => decodeV36 f
  | 0x37 => decodeV37 f
  | 0x38 => decodeV38 f
  | 0x39 => decodeV39 f
  | 0x3A => decodeV3A f
  | 0x3B => decodeV3B f
  | 0x3C => decodeV3C f
  | 0x3D => decodeV3D f
  | 0x3E => decodeV3E f
  | 0x3F => decodeV3F f
  | 0x40 => decodeV40 f
  | 0x41 => decodeV41 f
  | 0x48 => decodeV48 f
  | 0x49 => decodeV49 f
  | 0x4A => decodeV4A f
  | 0x4B => decodeV4B f
  | 0x4C => decodeV4C f
  | 0x50 => need (f.d == 0 && legalNest f.nest) (.cbload f.a f.b f.nest f.emod)
  | 0x51 => need (f.d == 0 && f.nest == 0) (.cbclr f.a f.b f.emod)
  | 0x52 => need (f.d == 0 && legalNest f.nest) (.tbuild f.a f.b f.nest f.emod)
  | 0x53 => need (f.d == 0 && legalNest f.nest) (.tbload f.a f.b f.nest f.emod)
  | 0x54 => need (f.d == 0 && f.nest == 0) (.tbfree f.a f.b f.emod)
  | 0x55 => need (f.d == 0 && f.nest == 0) (.lkinit f.a f.b f.emod)
  | 0x56 => need (f.d == 0 && legalNest f.nest) (.lkacc f.a f.b f.nest f.emod)
  | 0x57 => need (f.d == 0 && legalNest f.nest) (.lkdrain f.a f.b f.nest f.emod)
  | 0x58 => need (f.d == 0 && legalNest f.nest) (.lkdrainc f.a f.b f.nest f.emod)
  | 0x59 => need (f.d == 0 && f.nest == 0) (.lkread f.a f.b f.emod)
  | 0x5A => need (f.d == 0 && f.b == 0 && f.nest == 0) (.lkclr f.a f.emod)
  | 0x5B => need (f.b == 0 && f.nest == 0) (.lkstat f.d f.a f.emod)
  | 0x5C => need (f.b == 0 && f.nest == 0) (.lkmeta f.d f.a f.emod)
  | 0x5D => need (f.a == 0 && f.b == 0 && f.nest == 0) (.lkwait f.d f.emod)
  | 0x5F => decodeBankOp f
  | 0x60 => need (legalNest f.nest) (.xcopy f.d f.a f.b f.nest f.emod)
  | 0x61 => need (f.d == 0 && f.b == 0 && legalNest f.nest) (.xshape f.a f.nest f.emod)
  | 0x62 => need (legalNest f.nest) (.xfill f.d f.a f.b f.nest f.emod)
  | 0x63 => need (f.b == 0 && f.nest == 0) (.xgather f.d f.a f.emod)
  | 0x64 => need (f.nest == 0) (.wsend f.d f.a f.b f.emod)
  | 0x65 => need (f.nest == 0) (.wsendi f.d f.a f.b f.emod)
  | 0x66 => need (f.b == 0 && f.nest == 0) (.wreg f.d f.a f.emod)
  | 0x67 => need (f.d == 0 && f.b == 0 && f.nest == 0) (.wunreg f.a f.emod)
  | 0x68 => need (f.a == 0 && f.b == 0 && f.nest == 0) (.wctr f.d f.emod)
  | 0x69 => need (f.nest == 0) (.strain f.d f.a f.b f.emod)
  | 0x6A => need (f.d == 0 && f.b == 0 && f.nest == 0) (.nmx f.a f.emod)
  | 0x6B => need (f.d == 0 && f.nest == 0) (.nmxld f.a f.b f.emod)
  | 0x6C => need (f.d == 0 && f.nest == 0) (.pgin f.a f.b f.emod)
  | 0x6D => need (f.d == 0 && f.nest == 0) (.pgout f.a f.b f.emod)
  | 0x6E => need (f.a == 0 && f.b == 0 && f.nest == 0) (.xwait f.d f.emod)
  | 0x70 => decodeAmo f
  | 0x71 => need (legalNest f.nest) (.nma f.d f.a f.b f.nest f.emod)
  | 0x72 => decodeSync f
  | 0x73 => decodeSys f
  | 0x74 => decodeCsr f
  | 0x75 => decodePriv f
  | _ => .error .illegalInstruction

/-- Decoding is total: every word is one instruction or has one reason for being none (R42, R46). -/
noncomputable def decode (w : BitVec 32) : Decoded := decodeFields (Fields.ofWord w)

/-- The fields of an instruction's word, from the encoding tables R46 to R58. An event has no word: it gets the
reserved word of major 0x00. -/
def fieldsOf : Instr → Fields
  | .add d a b => .r 0 b a d 0x01
  | .sub d a b => .r 1 b a d 0x01
  | .and d a b => .r 2 b a d 0x01
  | .or d a b => .r 3 b a d 0x01
  | .xor d a b => .r 4 b a d 0x01
  | .andn d a b => .r 5 b a d 0x01
  | .sll d a b => .r 6 b a d 0x01
  | .srl d a b => .r 7 b a d 0x01
  | .sra d a b => .r 8 b a d 0x01
  | .slt d a b => .r 9 b a d 0x01
  | .sltn d a b => .r 10 b a d 0x01
  | .min d a b => .r 11 b a d 0x01
  | .max d a b => .r 12 b a d 0x01
  | .minn d a b => .r 13 b a d 0x01
  | .maxn d a b => .r 14 b a d 0x01
  | .mul d a b => .r 15 b a d 0x01
  | .mulh d a b => .r 16 b a d 0x01
  | .mulhn d a b => .r 17 b a d 0x01
  | .mulhsn d a b => .r 18 b a d 0x01
  | .div d a b => .r 19 b a d 0x01
  | .divn d a b => .r 20 b a d 0x01
  | .rem d a b => .r 21 b a d 0x01
  | .remn d a b => .r 22 b a d 0x01
  | .clz d a => .r 23 0 a d 0x01
  | .ctz d a => .r 24 0 a d 0x01
  | .cpop d a => .r 25 0 a d 0x01
  | .bswap d a => .r 26 0 a d 0x01
  | .addi d a imm => .i imm 0 a d 0x02
  | .slti d a imm => .i imm 1 a d 0x02
  | .sltni d a imm => .i imm 2 a d 0x02
  | .xori d a imm => .i imm 3 a d 0x02
  | .ori d a imm => .i imm 4 a d 0x02
  | .andi d a imm => .i imm 5 a d 0x02
  | .slli d a sh => .i (0#6 ++ sh) 6 a d 0x02
  | .srli d a sh => .i (0#6 ++ sh) 7 a d 0x02
  | .srai d a sh => .i (16#6 ++ sh) 7 a d 0x02
  | .lui d imm => .u imm d 0x03
  | .auipc d imm => .u imm d 0x04
  | .fadd d a b fmt rm => .r (0#6 ++ fmt.code ++ rm) b a d 0x05
  | .fsub d a b fmt rm => .r (1#6 ++ fmt.code ++ rm) b a d 0x05
  | .fmul d a b fmt rm => .r (2#6 ++ fmt.code ++ rm) b a d 0x05
  | .fdiv d a b fmt rm => .r (3#6 ++ fmt.code ++ rm) b a d 0x05
  | .fsqrt d a fmt rm => .r (4#6 ++ fmt.code ++ rm) 0 a d 0x05
  | .fmin d a b fmt rm => .r (5#6 ++ fmt.code ++ rm) b a d 0x05
  | .fmax d a b fmt rm => .r (6#6 ++ fmt.code ++ rm) b a d 0x05
  | .fmacc d a b fmt rm => .r (7#6 ++ fmt.code ++ rm) b a d 0x05
  | .fnmacc d a b fmt rm => .r (8#6 ++ fmt.code ++ rm) b a d 0x05
  | .fsgnj d a b fmt rm => .r (9#6 ++ fmt.code ++ rm) b a d 0x05
  | .fsgnjn d a b fmt rm => .r (10#6 ++ fmt.code ++ rm) b a d 0x05
  | .fsgnjx d a b fmt rm => .r (11#6 ++ fmt.code ++ rm) b a d 0x05
  | .feq d a b fmt rm => .r (12#6 ++ fmt.code ++ rm) b a d 0x05
  | .flt d a b fmt rm => .r (13#6 ++ fmt.code ++ rm) b a d 0x05
  | .fle d a b fmt rm => .r (14#6 ++ fmt.code ++ rm) b a d 0x05
  | .fclass d a fmt rm => .r (15#6 ++ fmt.code ++ rm) 0 a d 0x05
  | .fcvtI64 d a fmt rm => .r (16#6 ++ fmt.code ++ rm) 0 a d 0x05
  | .fcvtN64 d a fmt rm => .r (17#6 ++ fmt.code ++ rm) 0 a d 0x05
  | .fcvtFmtI64 d a fmt rm => .r (18#6 ++ fmt.code ++ rm) 0 a d 0x05
  | .fcvtFmtN64 d a fmt rm => .r (19#6 ++ fmt.code ++ rm) 0 a d 0x05
  | .fcvtFmtOther d a fmt rm => .r (20#6 ++ fmt.code ++ rm) 0 a d 0x05
  | .qpush q a => .r 0 0 a (0#2 ++ q) 0x06
  | .qpop d q => .r 1 0 (0#2 ++ q) d 0x06
  | .qlen d q => .r 2 0 (0#2 ++ q) d 0x06
  | .lb d a imm => .i imm 0 a d 0x08
  | .lh d a imm => .i imm 1 a d 0x08
  | .lw d a imm => .i imm 2 a d 0x08
  | .ld d a imm => .i imm 3 a d 0x08
  | .lbn d a imm => .i imm 4 a d 0x08
  | .lhn d a imm => .i imm 5 a d 0x08
  | .lwn d a imm => .i imm 6 a d 0x08
  | .sb d a imm => .i imm 0 a d 0x09
  | .sh d a imm => .i imm 1 a d 0x09
  | .sw d a imm => .i imm 2 a d 0x09
  | .sd d a imm => .i imm 3 a d 0x09
  | .lbAq d a scope => .i (0#9 ++ scope.code) 0 a d 0x0A
  | .lhAq d a scope => .i (0#9 ++ scope.code) 1 a d 0x0A
  | .lwAq d a scope => .i (0#9 ++ scope.code) 2 a d 0x0A
  | .ldAq d a scope => .i (0#9 ++ scope.code) 3 a d 0x0A
  | .lbnAq d a scope => .i (0#9 ++ scope.code) 4 a d 0x0A
  | .lhnAq d a scope => .i (0#9 ++ scope.code) 5 a d 0x0A
  | .lwnAq d a scope => .i (0#9 ++ scope.code) 6 a d 0x0A
  | .sbRl d a scope => .i (0#9 ++ scope.code) 0 a d 0x0B
  | .shRl d a scope => .i (0#9 ++ scope.code) 1 a d 0x0B
  | .swRl d a scope => .i (0#9 ++ scope.code) 2 a d 0x0B
  | .sdRl d a scope => .i (0#9 ++ scope.code) 3 a d 0x0B
  | .pref a imm => .i imm 0 a 0 0x0C
  | .prefw a imm => .i imm 1 a 0 0x0C
  | .cln a imm => .i imm 2 a 0 0x0C
  | .cinv a imm => .i imm 3 a 0 0x0C
  | .cflush a imm => .i imm 4 a 0 0x0C
  | .jal d imm => .u imm d 0x10
  | .jalr d a imm => .i imm 0 a d 0x11
  | .beq a b off => .br off 0 b a 0x12
  | .bne a b off => .br off 1 b a 0x12
  | .blt a b off => .br off 2 b a 0x12
  | .bge a b off => .br off 3 b a 0x12
  | .bltn a b off => .br off 4 b a 0x12
  | .bgen a b off => .br off 5 b a 0x12
  | .join tag => .i tag 0 0 0 0x13
  | .joinT d a tag => .i tag 1 a d 0x13
  | .detach => .i 0 2 0 0 0x13
  | .icinv a imm => .i imm 3 a 0 0x13
  | .loopn depth len => .i (0#7 ++ len) depth 0 0 0x14
  | .mand d a b => .r 0 (0#1 ++ b) (0#1 ++ a) (0#1 ++ d) 0x18
  | .mor d a b => .r 1 (0#1 ++ b) (0#1 ++ a) (0#1 ++ d) 0x18
  | .mxor d a b => .r 2 (0#1 ++ b) (0#1 ++ a) (0#1 ++ d) 0x18
  | .mandn d a b => .r 3 (0#1 ++ b) (0#1 ++ a) (0#1 ++ d) 0x18
  | .morn d a b => .r 4 (0#1 ++ b) (0#1 ++ a) (0#1 ++ d) 0x18
  | .mxnor d a b => .r 5 (0#1 ++ b) (0#1 ++ a) (0#1 ++ d) 0x18
  | .mnot d a => .r 6 0 (0#1 ++ a) (0#1 ++ d) 0x18
  | .mmov d a => .r 7 0 (0#1 ++ a) (0#1 ++ d) 0x18
  | .mset d => .r 8 0 0 (0#1 ++ d) 0x18
  | .mclr d => .r 9 0 0 (0#1 ++ d) 0x18
  | .msbf d a => .r 10 0 (0#1 ++ a) (0#1 ++ d) 0x18
  | .msif d a => .r 11 0 (0#1 ++ a) (0#1 ++ d) 0x18
  | .msof d a => .r 12 0 (0#1 ++ a) (0#1 ++ d) 0x18
  | .mcnt d a => .r 13 0 (0#1 ++ a) d 0x18
  | .many d a => .r 14 0 (0#1 ++ a) d 0x18
  | .mfirst d a => .r 15 0 (0#1 ++ a) d 0x18
  | .setvl d a fmt grp => .i (0#6 ++ grp ++ fmt) 0 a d 0x20
  | .vtag d fmt grp => .i (0#6 ++ grp ++ fmt) 1 0 d 0x20
  | .vretag d fmt grp => .i (0#6 ++ grp ++ fmt) 2 0 d 0x20
  | .vgettag d v => .i 0 3 v d 0x20
  | .lpreq d a => .i 0 4 a d 0x20
  | .lprel a => .i 0 5 a 0 0x20
  | .nestld n a => .i 0 6 a (0#2 ++ n) 0x20
  | .nestst n a => .i 0 7 a (0#2 ++ n) 0x20
  | .vadd d a b rep cv m => .v 0 rep cv m b a d 0x30
  | .vsub d a b rep cv m => .v 1 rep cv m b a d 0x30
  | .vrsub d a b rep cv m => .v 2 rep cv m b a d 0x30
  | .vmul d a b rep cv m => .v 3 rep cv m b a d 0x30
  | .vmin d a b rep cv m => .v 0 rep cv m b a d 0x31
  | .vmax d a b rep cv m => .v 1 rep cv m b a d 0x31
  | .vsadd d a b rep cv m => .v 2 rep cv m b a d 0x31
  | .vssub d a b rep cv m => .v 3 rep cv m b a d 0x31
  | .vmacc d a b rep cv m => .v 0 rep cv m b a d 0x32
  | .vnmsac d a b rep cv m => .v 1 rep cv m b a d 0x32
  | .vmadd d a b rep cv m => .v 2 rep cv m b a d 0x32
  | .vnmsub d a b rep cv m => .v 3 rep cv m b a d 0x32
  | .vand d a b rep cv m => .v 0 rep cv m b a d 0x33
  | .vor d a b rep cv m => .v 1 rep cv m b a d 0x33
  | .vxor d a b rep cv m => .v 2 rep cv m b a d 0x33
  | .vandn d a b rep cv m => .v 3 rep cv m b a d 0x33
  | .vsll d a b rep cv m => .v 0 rep cv m b a d 0x34
  | .vsrl d a b rep cv m => .v 1 rep cv m b a d 0x34
  | .vsra d a b rep cv m => .v 2 rep cv m b a d 0x34
  | .vrot d a b rep cv m => .v 3 rep cv m b a d 0x34
  | .vmseq d a b rep cv m => .v 0 rep cv m b a (0#1 ++ d) 0x35
  | .vmsne d a b rep cv m => .v 1 rep cv m b a (0#1 ++ d) 0x35
  | .vmslt d a b rep cv m => .v 2 rep cv m b a (0#1 ++ d) 0x35
  | .vmsle d a b rep cv m => .v 3 rep cv m b a (0#1 ++ d) 0x35
  | .vmerge d a b rep cv m => .v 0 rep cv m b a d 0x36
  | .vclamp d a b rep cv m => .v 1 rep cv m b a d 0x36
  | .vmv d a cv m => .v 2 0 cv m 0 a d 0x36
  | .vabs d a cv m => .v 3 0 cv m 0 a d 0x36
  | .vdiv d a b rep cv m => .v 0 rep cv m b a d 0x37
  | .vrem d a b rep cv m => .v 1 rep cv m b a d 0x37
  | .vsqrt d a cv m => .v 2 0 cv m 0 a d 0x37
  | .vrcp d a cv m => .v 3 0 cv m 0 a d 0x37
  | .vexp2 d a cv m => .v 0 0 cv m 0 a d 0x38
  | .vlog2 d a cv m => .v 1 0 cv m 0 a d 0x38
  | .vrsqrt d a cv m => .v 2 0 cv m 0 a d 0x38
  | .vtanh d a cv m => .v 3 0 cv m 0 a d 0x38
  | .vsin d a cv m => .v 0 0 cv m 0 a d 0x39
  | .vcos d a cv m => .v 1 0 cv m 0 a d 0x39
  | .vclass d a cv m => .v 2 0 cv m 0 a d 0x39
  | .vcvt d a rm cv m => .v 0 0 cv m (0#3 ++ rm) a d 0x3A
  | .vcvtsat d a rm cv m => .v 0 0 cv m (1#3 ++ rm) a d 0x3A
  | .vcvts d a rm cv m => .v 1 0 cv m (0#3 ++ rm) a d 0x3A
  | .vcvtssat d a rm cv m => .v 1 0 cv m (1#3 ++ rm) a d 0x3A
  | .vredsum d a b rep m => .v 0 rep false m b a d 0x3B
  | .vredmin d a b rep m => .v 1 rep false m b a d 0x3B
  | .vredmax d a b rep m => .v 2 rep false m b a d 0x3B
  | .vredor d a b rep m => .v 3 rep false m b a d 0x3B
  | .vscansum d a m => .v 0 0 false m 0 a d 0x3C
  | .vscanmin d a m => .v 1 0 false m 0 a d 0x3C
  | .vscanmax d a m => .v 2 0 false m 0 a d 0x3C
  | .vslideup d a b cv m => .v 0 0 cv m b a d 0x3D
  | .vslidedn d a b cv m => .v 1 0 cv m b a d 0x3D
  | .vslide1up d a b cv m => .v 2 0 cv m b a d 0x3D
  | .vslide1dn d a b cv m => .v 3 0 cv m b a d 0x3D
  | .vperm d a b rep m => .v 0 rep false m b a d 0x3E
  | .vcompress d a m => .v 1 0 false m 0 a d 0x3E
  | .vexpand d a m => .v 2 0 false m 0 a d 0x3E
  | .viota d m => .v 3 0 false m 0 0 d 0x3E
  | .vsegsort d a m => .v 0 0 false m 0 a d 0x3F
  | .vsegsortkv d a b rep m => .v 1 rep false m b a d 0x3F
  | .vdupmerge d a b rep m => .v 2 rep false m b a d 0x3F
  | .vopaX1 d a b rep cv m => .v 0 rep cv m b a d 0x40
  | .vopaX2 d a b rep cv m => .v 1 rep cv m b a d 0x40
  | .vopaX4 d a b rep cv m => .v 2 rep cv m b a d 0x40
  | .vopaX8 d a b rep cv m => .v 3 rep cv m b a d 0x40
  | .vmvVg d a m => .v 0 0 false m 0 a d 0x41
  | .vmvVq d q m => .v 1 0 false m 0 (0#2 ++ q) d 0x41
  | .vmvQv q a m => .v 2 0 false m 0 a (0#2 ++ q) 0x41
  | .vld d a hint cv m => .v 0 (0#1 ++ hint) cv m 0 a d 0x48
  | .vlds d a b hint cv m => .v 1 (0#1 ++ hint) cv m b a d 0x48
  | .vldx d a b hint cv m => .v 2 (0#1 ++ hint) cv m b a d 0x48
  | .vldff d a hint cv m => .v 3 (0#1 ++ hint) cv m 0 a d 0x48
  | .vst d a nfy hint cv m => .v 0 (BitVec.ofBool nfy ++ hint) cv m 0 a d 0x49
  | .vsts d a b nfy hint cv m => .v 1 (BitVec.ofBool nfy ++ hint) cv m b a d 0x49
  | .vstx d a b nfy hint cv m => .v 2 (BitVec.ofBool nfy ++ hint) cv m b a d 0x49
  | .vldseg d a nf m => .v 0 0 false m (0#2 ++ nf) a d 0x4A
  | .vstseg d a nf m => .v 1 0 false m (0#2 ++ nf) a d 0x4A
  | .vamoadd d a b m => .v 0 0 false m b a d 0x4B
  | .vamomin d a b m => .v 1 0 false m b a d 0x4B
  | .vamomax d a b m => .v 2 0 false m b a d 0x4B
  | .vamoswap d a b m => .v 3 0 false m b a d 0x4B
  | .vscredAdd d a b m => .v 0 0 false m b a d 0x4C
  | .vscredMin d a b m => .v 1 0 false m b a d 0x4C
  | .vscredMax d a b m => .v 2 0 false m b a d 0x4C
  | .vscredOr d a b m => .v 3 0 false m b a d 0x4C
  | .bankopAdd a => .r 0 0 a 1 0x5F
  | .bankopMin a => .r 0 0 a 2 0x5F
  | .bankopMax a => .r 0 0 a 3 0x5F
  | .bankopAnd a => .r 0 0 a 4 0x5F
  | .bankopOr a => .r 0 0 a 5 0x5F
  | .bankopXor a => .r 0 0 a 6 0x5F
  | .cbload a b nest e => .e e nest b a 0 0x50
  | .cbclr a b e => .e e 0 b a 0 0x51
  | .tbuild a b nest e => .e e nest b a 0 0x52
  | .tbload a b nest e => .e e nest b a 0 0x53
  | .tbfree a b e => .e e 0 b a 0 0x54
  | .lkinit a b e => .e e 0 b a 0 0x55
  | .lkacc a b nest e => .e e nest b a 0 0x56
  | .lkdrain a b nest e => .e e nest b a 0 0x57
  | .lkdrainc a b nest e => .e e nest b a 0 0x58
  | .lkread a b e => .e e 0 b a 0 0x59
  | .lkclr a e => .e e 0 0 a 0 0x5A
  | .lkstat d a e => .e e 0 0 a d 0x5B
  | .lkmeta d a e => .e e 0 0 a d 0x5C
  | .lkwait d e => .e e 0 0 0 d 0x5D
  | .xcopy d a b nest e => .e e nest b a d 0x60
  | .xshape a nest e => .e e nest 0 a 0 0x61
  | .xfill d a b nest e => .e e nest b a d 0x62
  | .xgather d a e => .e e 0 0 a d 0x63
  | .wsend d a b e => .e e 0 b a d 0x64
  | .wsendi d a b e => .e e 0 b a d 0x65
  | .wreg d a e => .e e 0 0 a d 0x66
  | .wunreg a e => .e e 0 0 a 0 0x67
  | .wctr d e => .e e 0 0 0 d 0x68
  | .strain d a b e => .e e 0 b a d 0x69
  | .nmx a e => .e e 0 0 a 0 0x6A
  | .nmxld a b e => .e e 0 b a 0 0x6B
  | .pgin a b e => .e e 0 b a 0 0x6C
  | .pgout a b e => .e e 0 b a 0 0x6D
  | .xwait d e => .e e 0 0 0 d 0x6E
  | .amoaddw d a b order => .r (0#6 ++ 0#2 ++ order) b a d 0x70
  | .amoaddd d a b order => .r (0#6 ++ 1#2 ++ order) b a d 0x70
  | .amofadd d a b order => .r (0#6 ++ 2#2 ++ order) b a d 0x70
  | .amoswapw d a b order => .r (1#6 ++ 0#2 ++ order) b a d 0x70
  | .amoswapd d a b order => .r (1#6 ++ 1#2 ++ order) b a d 0x70
  | .amoandw d a b order => .r (2#6 ++ 0#2 ++ order) b a d 0x70
  | .amoandd d a b order => .r (2#6 ++ 1#2 ++ order) b a d 0x70
  | .amoorw d a b order => .r (3#6 ++ 0#2 ++ order) b a d 0x70
  | .amoord d a b order => .r (3#6 ++ 1#2 ++ order) b a d 0x70
  | .amoxorw d a b order => .r (4#6 ++ 0#2 ++ order) b a d 0x70
  | .amoxord d a b order => .r (4#6 ++ 1#2 ++ order) b a d 0x70
  | .amominw d a b order => .r (5#6 ++ 0#2 ++ order) b a d 0x70
  | .amomind d a b order => .r (5#6 ++ 1#2 ++ order) b a d 0x70
  | .amomaxw d a b order => .r (6#6 ++ 0#2 ++ order) b a d 0x70
  | .amomaxd d a b order => .r (6#6 ++ 1#2 ++ order) b a d 0x70
  | .amominnw d a b order => .r (7#6 ++ 0#2 ++ order) b a d 0x70
  | .amominnd d a b order => .r (7#6 ++ 1#2 ++ order) b a d 0x70
  | .amomaxnw d a b order => .r (8#6 ++ 0#2 ++ order) b a d 0x70
  | .amomaxnd d a b order => .r (8#6 ++ 1#2 ++ order) b a d 0x70
  | .amocasw d a b order => .r (9#6 ++ 0#2 ++ order) b a d 0x70
  | .amocasd d a b order => .r (9#6 ++ 1#2 ++ order) b a d 0x70
  | .nma d a b nest e => .e e nest b a d 0x71
  | .fence scope => .r (0#7 ++ scope.code) 0 0 0 0x72
  | .nmfence => .r (1#7 ++ 0#3) 0 0 0 0x72
  | .bar a => .r (2#7 ++ 0#3) 0 a 0 0x72
  | .barexp a b => .r (3#7 ++ 0#3) b a 0 0x72
  | .itpost a => .r (4#7 ++ 0#3) 0 a 0 0x72
  | .itwait a => .r (5#7 ++ 0#3) 0 a 0 0x72
  | .pwait a b => .r (6#7 ++ 0#3) b a 0 0x72
  | .tkpush k => .r (7#7 ++ 0#3) 0 0 (0#2 ++ k) 0x72
  | .tkpop k => .r (8#7 ++ 0#3) 0 0 (0#2 ++ k) 0x72
  | .tkcnt d k => .r (9#7 ++ 0#3) 0 (0#2 ++ k) d 0x72
  | .syscall => .i 0 0 0 0 0x73
  | .brk => .i 1 0 0 0 0x73
  | .eret => .i 2 0 0 0 0x73
  | .wfe => .i 3 0 0 0 0x73
  | .yield => .i 4 0 0 0 0x73
  | .texit => .i 5 0 0 0 0x73
  | .feat d bit => .i (0#6 ++ bit) 1 0 d 0x73
  | .launch d a => .i 0 2 a d 0x73
  | .csrrw d csr a => .i csr 1 a d 0x74
  | .csrrs d csr a => .i csr 2 a d 0x74
  | .csrrc d csr a => .i csr 3 a d 0x74
  | .csrrwi d csr u => .i csr 5 u d 0x74
  | .csrrsi d csr u => .i csr 6 u d 0x74
  | .csrrci d csr u => .i csr 7 u d 0x74
  | .tlbinvVa a b => .r 0 b a 0 0x75
  | .tlbinvAsid a => .r 1 0 a 0 0x75
  | .tlbinvAll => .r 2 0 0 0 0x75
  | .ctxsave a => .r 3 0 a 0 0x75
  | .ctxrest a => .r 4 0 a 0 0x75
  | .joinTTimeout => .r 0 0 0 0 0x00
  | .holdEnd => .r 0 0 0 0 0x00
  | .shed => .r 0 0 0 0 0x00
  | .icinvPerform => .r 0 0 0 0 0x00
  | .convoyIssue => .r 0 0 0 0 0x00
  | .configurationEntry => .r 0 0 0 0 0x00
  | .vectorWindow _ => .r 0 0 0 0 0x00
  | .replayQueueReissue _ => .r 0 0 0 0 0x00
  | .queueDeadlock => .r 0 0 0 0 0x00
  | .tokenDeadlock => .r 0 0 0 0 0x00
  | .trapEntry => .r 0 0 0 0 0x00
  | .interruptEntry => .r 0 0 0 0 0x00
  | .cycleCompare => .r 0 0 0 0 0x00
  | .doorbell _ => .r 0 0 0 0 0x00
  | .preemptionRequest _ => .r 0 0 0 0 0x00
  | .hardwareSave _ => .r 0 0 0 0 0x00
  | .lookupCommandStart => .r 0 0 0 0 0x00
  | .accumulatorCommandBegin _ => .r 0 0 0 0 0x00
  | .lookupStep _ => .r 0 0 0 0 0x00
  | .checkVerdict _ => .r 0 0 0 0 0x00
  | .secondReplay _ => .r 0 0 0 0 0x00
  | .lookupCommandRetire _ _ => .r 0 0 0 0 0x00
  | .tableBuild _ _ => .r 0 0 0 0 0x00
  | .tablePress _ => .r 0 0 0 0 0x00
  | .refresh _ _ _ => .r 0 0 0 0 0x00
  | .temperatureSample _ _ => .r 0 0 0 0 0x00
  | .supervisorCommand _ => .r 0 0 0 0 0x00
  | .apertureStore _ _ _ _ _ _ => .r 0 0 0 0 0x00
  | .transferCommandStart => .r 0 0 0 0 0x00
  | .transferCommandRetire _ => .r 0 0 0 0 0x00
  | .pendingBytesSubtract _ => .r 0 0 0 0 0x00
  | .trainArrival _ _ _ _ _ => .r 0 0 0 0 0x00
  | .trainAcknowledgement _ _ _ _ => .r 0 0 0 0 0x00
  | .sendArrival _ _ _ _ _ => .r 0 0 0 0 0x00
  | .sendAcknowledgement _ _ => .r 0 0 0 0 0x00
  | .nmxAccept _ => .r 0 0 0 0 0x00
  | .bankOperation => .r 0 0 0 0 0x00
  | .nmaElement => .r 0 0 0 0 0x00
  | .returnFreePerformed => .r 0 0 0 0 0x00
  | .barrierPhaseComplete _ _ => .r 0 0 0 0 0x00
  | .progressWordResend => .r 0 0 0 0 0x00
  | .launchMessage _ _ => .r 0 0 0 0 0x00
  | .launchAccept => .r 0 0 0 0 0x00
  | .launchReady _ => .r 0 0 0 0 0x00
  | .blockRequest => .r 0 0 0 0 0x00
  | .taskPlacement _ => .r 0 0 0 0 0x00
  | .contextResume _ => .r 0 0 0 0 0x00
  | .completionRecordWrite _ => .r 0 0 0 0 0x00
  | .completionIdWrite _ => .r 0 0 0 0 0x00
  | .launchCancel _ => .r 0 0 0 0 0x00
  | .dieFence _ => .r 0 0 0 0 0x00
  | .masterElection => .r 0 0 0 0 0x00
  | .wearInterval _ _ _ => .r 0 0 0 0 0x00
  | .ripeningReplication _ => .r 0 0 0 0 0x00
  | .lastingFault _ => .r 0 0 0 0 0x00
  | .laneRetirement _ _ => .r 0 0 0 0 0x00
  | .powerCeilingStep _ _ => .r 0 0 0 0 0x00
  | .agreement _ _ => .r 0 0 0 0 0x00
  | .agreementReply _ _ _ => .r 0 0 0 0 0x00
  | .pairArrival _ _ => .r 0 0 0 0 0x00
  | .rdmaWrite _ _ _ _ _ => .r 0 0 0 0 0x00
  | .managementRead _ _ => .r 0 0 0 0 0x00
  | .managementWrite _ _ => .r 0 0 0 0 0x00
  | .firmwareImageChunk _ _ _ => .r 0 0 0 0 0x00
  | .attestationRequest _ _ => .r 0 0 0 0 0x00
  | .acknowledgement _ _ => .r 0 0 0 0 0x00
  | .sessionOpen _ _ => .r 0 0 0 0 0x00
  | .messageRetransmit _ _ => .r 0 0 0 0 0x00
  | .routeUpdate _ _ _ => .r 0 0 0 0 0x00
  | .packetRetransmit _ => .r 0 0 0 0 0x00
  | .destinationUnreachable _ => .r 0 0 0 0 0x00
  | .linkDegrade _ => .r 0 0 0 0 0x00
  | .linkFailure _ => .r 0 0 0 0 0x00
  | .cxlLinkDown _ => .r 0 0 0 0 0x00
  | .halt _ => .r 0 0 0 0 0x00
  | .resume _ => .r 0 0 0 0 0x00
  | .recordRemoval _ _ => .r 0 0 0 0 0x00
  | .contextImageWrite _ _ _ => .r 0 0 0 0 0x00
  | .frqack _ => .r 0 0 0 0 0x00
  | .lkerrClear => .r 0 0 0 0 0x00
  | .xerrClear => .r 0 0 0 0 0x00
  | .asidWrite _ _ => .r 0 0 0 0 0x00
  | .registerWrite _ _ => .r 0 0 0 0 0x00
  | .powerOnBoot _ _ _ => .r 0 0 0 0 0x00
  | .supplyLossWarning _ => .r 0 0 0 0 0x00
  | .junctionThrottle _ _ => .r 0 0 0 0 0x00
  | .emergencySave _ => .r 0 0 0 0 0x00
  | .hardTrip _ => .r 0 0 0 0 0x00
  | .droop _ => .r 0 0 0 0 0x00
  | .droopRecovery _ => .r 0 0 0 0 0x00
  | .pllHop _ => .r 0 0 0 0 0x00
  | .elementGroupIssue _ => .r 0 0 0 0 0x00
  | .tableCommandApply _ _ => .r 0 0 0 0 0x00
  | .remoteAccess _ _ _ _ _ => .r 0 0 0 0 0x00
  | .l2Eviction _ => .r 0 0 0 0 0x00
  | .tlbEntryDrop _ _ _ => .r 0 0 0 0 0x00
  | .instructionLineEviction _ _ => .r 0 0 0 0 0x00
  | .stackFence _ _ _ => .r 0 0 0 0 0x00
  | .priorityFlowControlFrame _ _ => .r 0 0 0 0 0x00
  | .congestionNotification _ => .r 0 0 0 0 0x00
  | .queuePairError _ => .r 0 0 0 0 0x00

/-- The word of an instruction (R33, R46 to R58). -/
def encode (i : Instr) : BitVec 32 := (fieldsOf i).pack

/-- The instruction is a row of the table without a word: an event of the machine. -/
def Instr.isEvent (i : Instr) : Bool := (fieldsOf i).maj == 0

/-- What the decoder reads from an instruction whose bits are `w`, numbered from the least significant bit of its one
word (R32). -/
noncomputable def decodeTableWord (_nbits w : Nat) : Option Instr :=
  match decode (BitVec.ofNat 32 w) with
  | .ok i => some i
  | .error _ => none

end Sys2Proof
end

