-- ==== Sys2Proof/Config.lean ====
section
/-! DEFINITION. What the spec leaves open, as constants without a body: no proof can learn their values. -/

namespace Sys2Proof.Config

/-- An open choice or an unstated value: a number for each count of choices taken and each place of use (log
entry 4). -/
opaque freeNat : Nat → Nat → Nat

/-- The main clocks that a core counts from one step to the next; the spec fixes no instruction's clocks as results (log
entry 7). -/
opaque clocks : Nat → Nat

/-- Which of the permitted results of a special function the hardware gives (R194): function, format, operand bits
(log entry 8). -/
opaque sfuPick : Nat → Nat → Nat → Nat

/-- SHAKE256 with 512 bits of output, over bytes: a standard that the spec names and does not define (R421, R427; log
entry 10, as for those that follow). -/
opaque digest : List Nat → Nat

/-- ML-DSA-65 verification (R421, R428): public key, digest, signature. -/
opaque verified : List Nat → Nat → List Nat → Bool

/-- The ML-DSA-65 signature of bytes by the package's identity key (R429). -/
opaque signature : List Nat → Nat

/-- A firmware image with the boot parameter block, which is signed together with it, passes the checks of R427 and R428: its
signature, and its version against the fused rollback counter. -/
opaque firmwareGood : List Nat → List Nat → Bool

/-- The boot stages that a firmware image holds (R429, R430). -/
opaque bootStages : List Nat → List (List Nat)

/-- The package's serial number, and the rollback counter fused into each die (R421, R428, R429). -/
opaque serial : Nat
opaque rollback : Nat → Nat

/-- The priority of the host port in which a message type, beyond 16 a queue pair's writes and answers, and by 0 congestion
notifications leave the device: R417 gives eight and assigns none (log entry 80). -/
opaque priority : Nat → Nat

/-- The pairs that a keyed throttle lock holds on other packages when this one's first member joins it, that of its start
first; empty where it is held nowhere (R407, R409; log entry 79). -/
opaque farPairs : Nat → List (BitVec 4 × Nat)

end Sys2Proof.Config
end

