-- ==== Sys2Proof/Machine/Flags.lean ====
section
/-! DEFINITION. The floating-point exception flags of R84 and how an operation's result carries them. -/

namespace Sys2Proof.Machine

/-- The flags of R84: bit 4 NV, 3 DZ, 2 OF, 1 UF, 0 NX. -/
abbrev FFlags := BitVec 5
/-- Invalid operation. -/
def flagNV : FFlags := 16
/-- Division of a finite nonzero value by zero. -/
def flagDZ : FFlags := 8
/-- Overflow, which sets NX as well (R81). -/
def flagOFNX : FFlags := 5
/-- Tiny and inexact. -/
def flagUFNX : FFlags := 3
/-- Inexact. -/
def flagNX : FFlags := 1

/-- A result's bits and the flags it raises. -/
structure FRes where
  bits : Nat
  fl : FFlags := 0
  deriving DecidableEq, Repr

/-- The union of two results' flags, which a vector instruction raises at retirement (R84). -/
def joinFlags (l : List FRes) : FFlags := l.foldl (fun f r => f ||| r.fl) 0

end Sys2Proof.Machine
end

