-- ==== Sys2Proof/Machine/Float.lean ====
section
/-! DEFINITION. Number formats, rounding and floating-point arithmetic (spec/03_numbers.md, R70 to R86). An element of
a format is held as the natural number of its bits, since its width is a run-time value of a tag. Every operation
computes the exact result and rounds it once (R79). -/

namespace Sys2Proof.Machine

/-- The formats of R78, in the order of their codes. -/
inductive Fmt where
  | i8 | i16 | i32 | i64 | n8 | n16 | n32 | n64 | e4m3 | e5m2 | bf16 | f16 | f32 | f64 | e8m0
  deriving DecidableEq, Repr

/-- The operation classes of R44. -/
inductive FmtClass where
  | int | float | scale
  deriving DecidableEq, Repr

/-- The rounding modes of R80, in the order of their codes. -/
inductive RM where
  | rne | rtz | rdn | rup
  deriving DecidableEq, Repr

/-- The mode of a code (R80). -/
def RM.ofCode (c : BitVec 2) : RM :=
  match c.toNat with
  | 0 => .rne | 1 => .rtz | 2 => .rdn | _ => .rup

/-- The format of a code; 15 is reserved (R78). -/
def Fmt.ofCode (c : BitVec 4) : Option Fmt :=
  match c.toNat with
  | 0 => some .i8 | 1 => some .i16 | 2 => some .i32 | 3 => some .i64
  | 4 => some .n8 | 5 => some .n16 | 6 => some .n32 | 7 => some .n64
  | 8 => some .e4m3 | 9 => some .e5m2 | 10 => some .bf16 | 11 => some .f16
  | 12 => some .f32 | 13 => some .f64 | 14 => some .e8m0 | _ => none

/-- The code of a format (R78). -/
def Fmt.code : Fmt → BitVec 4
  | .i8 => 0 | .i16 => 1 | .i32 => 2 | .i64 => 3 | .n8 => 4 | .n16 => 5 | .n32 => 6 | .n64 => 7
  | .e4m3 => 8 | .e5m2 => 9 | .bf16 => 10 | .f16 => 11 | .f32 => 12 | .f64 => 13 | .e8m0 => 14

/-- The class of a format (R44, R78). -/
def Fmt.cls : Fmt → FmtClass
  | .e4m3 | .e5m2 | .bf16 | .f16 | .f32 | .f64 => .float
  | .e8m0 => .scale
  | _ => .int

/-- The width in bits (R78). -/
def Fmt.width : Fmt → Nat
  | .i8 | .n8 | .e4m3 | .e5m2 | .e8m0 => 8
  | .i16 | .n16 | .bf16 | .f16 => 16
  | .i32 | .n32 | .f32 => 32
  | .i64 | .n64 | .f64 => 64

/-- The width in bytes. -/
def Fmt.bytes (f : Fmt) : Nat := f.width / 8

/-- The i formats are signed (R70). -/
def Fmt.signed : Fmt → Bool
  | .i8 | .i16 | .i32 | .i64 => true
  | _ => false

/-- The width of the fraction (R72). -/
def Fmt.frac : Fmt → Nat
  | .f64 => 52 | .f32 => 23 | .bf16 => 7 | .f16 => 10 | .e5m2 => 2 | .e4m3 => 3 | _ => 0

/-- The exponent bias (R72). -/
def Fmt.bias : Fmt → Nat
  | .f64 => 1023 | .f32 => 127 | .bf16 => 127 | .f16 => 15 | .e5m2 => 15 | .e4m3 => 7 | _ => 0

/-- The bits of the largest finite value without the sign (R72). -/
def Fmt.maxFinite : Fmt → Nat
  | .f64 => 0x7FEFFFFFFFFFFFFF | .f32 => 0x7F7FFFFF | .bf16 => 0x7F7F | .f16 => 0x7BFF | .e5m2 => 0x7B | .e4m3 => 0x7E
  | _ => 0

/-- The bits of positive infinity; e4m3 has none (R72). -/
def Fmt.infBits : Fmt → Nat
  | .f64 => 0x7FF0000000000000 | .f32 => 0x7F800000 | .bf16 => 0x7F80 | .f16 => 0x7C00 | .e5m2 => 0x7C
  | _ => 0

/-- The canonical NaN (R72, R75). -/
def Fmt.nanBits : Fmt → Nat
  | .f64 => 0x7FF8000000000000 | .f32 => 0x7FC00000 | .bf16 => 0x7FC0 | .f16 => 0x7E00 | .e5m2 => 0x7E | .e4m3 => 0x7F
  | .e8m0 => 0xFF | _ => 0

/-- The exponent of the least significant bit of a subnormal: 1 - bias - fraction width (R72). -/
def Fmt.qmin (f : Fmt) : Int := 1 - (f.bias : Int) - (f.frac : Int)

/-- An element with its sign bit set or clear. -/
def Fmt.withSign (f : Fmt) (neg : Bool) (b : Nat) : Nat := if neg then b + 2 ^ (f.width - 1) else b

/-- What a floating-point or scale element stands for: a NaN, an infinity, or (-1)^neg * m * 2^e. -/
inductive Num where
  | nan
  | inf (neg : Bool)
  | fin (neg : Bool) (m : Nat) (e : Int)
  deriving DecidableEq, Repr

/-- The value of the bits of a floating-point or scale format (R72, R75). -/
def Fmt.decode (f : Fmt) (b : Nat) : Num :=
  match f with
  | .e8m0 => if b == 0xFF then .nan else .fin false 1 ((b : Int) - 127)
  | .e4m3 =>
    let mag := b % 128
    let neg := b / 128 % 2 == 1
    if mag == 0x7F then .nan
    else if mag < 8 then .fin neg mag f.qmin
    else .fin neg (8 + mag % 8) ((mag / 8 : Nat) - 1 + f.qmin)
  | _ =>
    let mag := b % 2 ^ (f.width - 1)
    let neg := b / 2 ^ (f.width - 1) % 2 == 1
    let ex := mag / 2 ^ f.frac
    let fr := mag % 2 ^ f.frac
    if f.infBits < mag then .nan
    else if mag == f.infBits then .inf neg
    else if ex == 0 then .fin neg fr f.qmin
    else .fin neg (2 ^ f.frac + fr) ((ex : Int) - 1 + f.qmin)

/-- The value of the bits of an integer format (R70). -/
def Fmt.int (f : Fmt) (b : Nat) : Int :=
  if f.signed && 2 ^ (f.width - 1) ≤ b then (b : Int) - (2 ^ f.width : Nat) else (b : Int)

/-- The low bits of an integer as an element: wrapping modulo 2^w (R71). -/
def truncInt (w : Nat) (x : Int) : Nat := (x % ((2 ^ w : Nat) : Int)).toNat

/-- The range of an integer format (R70). -/
def Fmt.minInt (f : Fmt) : Int := if f.signed then -((2 ^ (f.width - 1) : Nat) : Int) else 0
/-- The range of an integer format (R70). -/
def Fmt.maxInt (f : Fmt) : Int := if f.signed then (2 ^ (f.width - 1) : Nat) - 1 else (2 ^ f.width : Nat) - 1

/-- sat(x, fmt): the nearest value of the format's range (R71). -/
def Fmt.clampInt (f : Fmt) (x : Int) : Int := if x < f.minInt then f.minInt else if f.maxInt < x then f.maxInt else x

/-- Dropping the low `k` bits of a magnitude under a rounding mode (R80), where `sticky` says that the exact value
lies strictly between `m` and `m + 1`. The second part says whether anything was dropped. -/
def roundShift (rm : RM) (neg : Bool) (m k : Nat) (sticky : Bool) : Nat × Bool :=
  let q := m / 2 ^ k
  let r := m % 2 ^ k
  let half := 2 ^ k / 2
  let inexact := r != 0 || sticky
  let up :=
    match rm with
    | .rne => k != 0 && (half < r || (r == half && (sticky || q % 2 == 1)))
    | .rtz => false
    | .rdn => inexact && neg
    | .rup => inexact && !neg
  (if up then q + 1 else q, inexact)

/-- How an overflow and an infinite source are resolved (R81). -/
inductive Overflow where
  /-- an arithmetic result -/
  | arith
  /-- a conversion without the saturate flag -/
  | convert
  /-- a conversion with the saturate flag -/
  | saturate
  deriving DecidableEq, Repr

/-- The bits that stand for a magnitude too large for the format (R81). -/
def overflowBits (f : Fmt) (rm : RM) (ov : Overflow) (neg : Bool) : Nat :=
  match ov with
  | .saturate => f.withSign neg f.maxFinite
  | .convert => if f == .e4m3 then f.nanBits else toInf
  | .arith => if f == .e4m3 then f.withSign neg f.maxFinite else toInf
where
  toInf : Nat :=
    let inf :=
      match rm with
      | .rne => true | .rtz => false | .rdn => neg | .rup => !neg
    f.withSign neg (if inf then f.infBits else f.maxFinite)

/-- The rounding of (-1)^neg * m * 2^e to a floating-point format, with its flags (R79 to R84). With `sticky` the
magnitude lies strictly between m and m + 1 units, and m must then hold at least two bits more than the format. -/
def roundFin (f : Fmt) (rm : RM) (ov : Overflow) (neg : Bool) (m : Nat) (e : Int) (sticky : Bool) : FRes :=
  if m == 0 then { bits := f.withSign neg 0 }
  else
    let top : Int := e + (m.log2 : Int)                                   -- floor(log2 |x|)
    let qn : Int := top - (f.frac : Int)                                  -- unit of the last place, exponent unbounded
    let q : Int := if qn < f.qmin then f.qmin else qn                     -- unit of the last place in the format
    let rs := if q ≤ e then (m * 2 ^ (e - q).toNat, sticky) else roundShift rm neg m (q - e).toNat sticky
    let mag := ((q - f.qmin).toNat) * 2 ^ f.frac + rs.1                   -- exponent field and fraction in one number
    if f.maxFinite < mag then { bits := overflowBits f rm ov neg, fl := flagOFNX }
    else
      let un := if qn ≤ e then (m * 2 ^ (e - qn).toNat, sticky) else roundShift rm neg m (qn - e).toNat sticky
      let tiny : Bool := qn < f.qmin && !(qn == f.qmin - 1 && un.1 == 2 ^ (f.frac + 1))
      { bits := f.withSign neg mag, fl := if !rs.2 then 0 else if tiny then flagUFNX else flagNX }

/-- A value in a floating-point format (R81). An infinity that a conversion without sat turns into e4m3's NaN raises no flag
(DESIGN CHOICE, log entry 84). -/
def roundNum (f : Fmt) (rm : RM) (ov : Overflow) : Num → FRes
  | .nan => { bits := f.nanBits }
  | .inf neg =>
    match ov with
    | .saturate => { bits := f.withSign neg f.maxFinite, fl := flagNX }
    | .convert => { bits := if f == .e4m3 then f.nanBits else f.withSign neg f.infBits }
    | .arith => { bits := if f == .e4m3 then f.withSign neg f.maxFinite else f.withSign neg f.infBits }
  | .fin neg m e => roundFin f rm ov neg m e false

/-- The result of an invalid operation (R82). -/
def invalid (f : Fmt) : FRes := { bits := f.nanBits, fl := flagNV }

/-- The signed integer of a sum's operand, at the exponent `e0`, which is at most its own. -/
def scaled (neg : Bool) (m : Nat) (e e0 : Int) : Int :=
  let v : Int := (m * 2 ^ (e - e0).toNat : Nat)
  if neg then -v else v

/-- The exact sum of two finite values, rounded once. A sum that is exactly zero is +0, or -0 in RDN, but for two zeros
of one sign, which keep it (R114). -/
def addFin (f : Fmt) (rm : RM) (n1 : Bool) (m1 : Nat) (e1 : Int) (n2 : Bool) (m2 : Nat) (e2 : Int) : FRes :=
  let e0 := min e1 e2
  let s := scaled n1 m1 e1 e0 + scaled n2 m2 e2 e0
  if s == 0 then
    let neg := if m1 == 0 && m2 == 0 && n1 == n2 then n1 else rm == .rdn
    { bits := f.withSign neg 0 }
  else roundFin f rm .arith (decide (s < 0)) s.natAbs e0 false

/-- Addition of values (R79, R82). -/
def addNum (f : Fmt) (rm : RM) : Num → Num → FRes
  | .nan, _ => { bits := f.nanBits }
  | _, .nan => { bits := f.nanBits }
  | .inf a, .inf b => if a == b then roundNum f rm .arith (.inf a) else invalid f
  | .inf a, .fin .. => roundNum f rm .arith (.inf a)
  | .fin .., .inf b => roundNum f rm .arith (.inf b)
  | .fin n1 m1 e1, .fin n2 m2 e2 => addFin f rm n1 m1 e1 n2 m2 e2

/-- The sign changed; a NaN stays one. -/
def Num.negate : Num → Num
  | .nan => .nan
  | .inf n => .inf !n
  | .fin n m e => .fin (!n) m e

/-- The exact product; 0 times infinity is none (R82). -/
def mulExact : Num → Num → Option Num
  | .nan, _ => some .nan
  | _, .nan => some .nan
  | .inf a, .inf b => some (.inf (a != b))
  | .inf a, .fin n m _ => if m == 0 then none else some (.inf (a != n))
  | .fin n m _, .inf b => if m == 0 then none else some (.inf (n != b))
  | .fin n1 m1 e1, .fin n2 m2 e2 => some (.fin (n1 != n2) (m1 * m2) (e1 + e2))

/-- Multiplication of values. -/
def mulNum (f : Fmt) (rm : RM) (x y : Num) : FRes :=
  match mulExact x y with
  | none => invalid f
  | some p => roundNum f rm .arith p

/-- x * y + z with one rounding (R79). A NaN operand gives NaN without NV (R82). -/
def fmaNum (f : Fmt) (rm : RM) (x y z : Num) : FRes :=
  match mulExact x y with
  | none => if z == .nan then { bits := f.nanBits } else invalid f
  | some p => addNum f rm p z

/-- Division of values (R82). -/
def divNum (f : Fmt) (rm : RM) : Num → Num → FRes
  | .nan, _ => { bits := f.nanBits }
  | _, .nan => { bits := f.nanBits }
  | .inf _, .inf _ => invalid f
  | .inf a, .fin n _ _ => roundNum f rm .arith (.inf (a != n))
  | .fin n _ _, .inf b => { bits := f.withSign (n != b) 0 }
  | .fin n1 m1 e1, .fin n2 m2 e2 =>
    if m2 == 0 then
      if m1 == 0 then invalid f
      else { bits := (roundNum f rm .arith (.inf (n1 != n2))).bits, fl := flagDZ }
    else if m1 == 0 then { bits := f.withSign (n1 != n2) 0 }
    else
      let k := m2.log2 + f.frac + 4                                       -- enough bits for the quotient
      let num := m1 * 2 ^ k
      roundFin f rm .arith (n1 != n2) (num / m2) (e1 - e2 - (k : Int)) (num % m2 != 0)

/-- The integer square root by its binary digits, from bit `k` down. -/
def isqrtFrom (n : Nat) : Nat → Nat → Nat
  | 0, r => if (r + 1) * (r + 1) ≤ n then r + 1 else r
  | k + 1, r => isqrtFrom n k (if (r + 2 ^ (k + 1)) * (r + 2 ^ (k + 1)) ≤ n then r + 2 ^ (k + 1) else r)

/-- The integer square root. -/
def isqrt (n : Nat) : Nat := isqrtFrom n (n.log2 / 2 + 1) 0

/-- Square root of a value (R82). -/
def sqrtNum (f : Fmt) (rm : RM) : Num → FRes
  | .nan => { bits := f.nanBits }
  | .inf neg => if neg then invalid f else roundNum f rm .arith (.inf false)
  | .fin neg m e =>
    if m == 0 then { bits := f.withSign neg 0 }
    else if neg then invalid f
    else
      let k := 2 * (f.frac + 4) + (if e % 2 == 0 then 0 else 1)
      let n := m * 2 ^ k
      let r := isqrt n
      roundFin f rm .arith false r ((e - (k : Int)) / 2) (r * r != n)

/-- x < y on values that are no NaN. -/
def Num.lt : Num → Num → Bool
  | .nan, _ => false
  | _, .nan => false
  | .inf a, .inf b => a && !b
  | .inf a, .fin .. => a
  | .fin .., .inf b => !b
  | .fin n1 m1 e1, .fin n2 m2 e2 =>
    let e0 := min e1 e2
    decide (scaled n1 m1 e1 e0 < scaled n2 m2 e2 e0)

/-- Equality of values; the two zeros are equal, a NaN equals nothing (R82). -/
def Num.feq (x y : Num) : Bool := x != .nan && y != .nan && !x.lt y && !y.lt x

/-- Whether the value is negative or -0. -/
def Num.sign : Num → Bool
  | .nan => false
  | .inf n => n
  | .fin n _ _ => n

/-- The order of min and max: -0 stands below +0 (R83). -/
def Num.below (x y : Num) : Bool := x.lt y || (x.feq y && x.sign && !y.sign)

/-- fmin and fmax on the bits of two elements (R83): one NaN gives the other operand, two give the canonical NaN. -/
def minMaxBits (f : Fmt) (isMax : Bool) (a b : Nat) : Nat :=
  match f.decode a, f.decode b with
  | .nan, .nan => f.nanBits
  | .nan, _ => b
  | _, .nan => a
  | x, y => if isMax then (if x.below y then b else a) else (if y.below x then b else a)

/-- The integer nearest to a value under a rounding mode, and whether it differs from the value (R80). -/
def roundInt (rm : RM) (neg : Bool) (m : Nat) (e : Int) : Int × Bool :=
  let r := if 0 ≤ e then (m * 2 ^ e.toNat, false) else roundShift rm neg m (-e).toNat false
  (if neg then -(r.1 : Int) else (r.1 : Int), r.2)

/-- Floating point to integer: rounded, then clamped; NaN gives 0 (R86). A NaN or clamped result sets NV alone: whether NX
accompanies it is open but for the scalar forms to 64 bits (DESIGN CHOICE, log entry 67). -/
def numToInt (dst : Fmt) (rm : RM) : Num → FRes
  | .nan => { bits := 0, fl := flagNV }
  | .inf neg => { bits := truncInt dst.width (if neg then dst.minInt else dst.maxInt), fl := flagNV }
  | .fin neg m e =>
    let r := roundInt rm neg m e
    let c := dst.clampInt r.1
    { bits := truncInt dst.width c, fl := if c != r.1 then flagNV else if r.2 then flagNX else 0 }

/-- Any value to e8m0: the clamped exponent (R86). -/
def numToScale : Num → FRes
  | .nan => { bits := 0xFF }
  | .inf _ => { bits := 0xFF }
  | .fin _ m e =>
    if m == 0 then { bits := 0 }
    else
      let x : Int := e + (m.log2 : Int)
      { bits := ((if x < -127 then -127 else if 127 < x then 127 else x) + 127).toNat }

/-- The exact value of an integer. -/
def intNum (x : Int) : Num := .fin (decide (x < 0)) x.natAbs 0

/-- A value that is no integer element, in any format (R86). -/
def numTo (dst : Fmt) (rm : RM) (sat : Bool) (x : Num) : FRes :=
  match dst.cls with
  | .int => numToInt dst rm x
  | .scale => numToScale x
  | .float => roundNum dst rm (if sat then .saturate else .convert) x

/-- Conversion of an element from one format to another (R86). Between e4m3 and e5m2, which have one width and no row of
R86's table, the value is rounded by rm with R81's overflow (DESIGN CHOICE, log entry 66). -/
def convert (src dst : Fmt) (rm : RM) (sat : Bool) (b : Nat) : FRes :=
  match src.cls with
  | .int =>
    let x := src.int b
    match dst.cls with
    | .int => { bits := truncInt dst.width (if sat then dst.clampInt x else x) }
    | _ => numTo dst rm sat (intNum x)
  | _ => numTo dst rm sat (src.decode b)

/-- A scalar operand from its g register to the element format (R87). No flag is set. -/
def scalarOperand (dst : Fmt) (g : Word) : Nat :=
  match dst.cls with
  | .int => g.toNat % 2 ^ dst.width
  | .scale => g.toNat % 256
  | .float => if dst == .f64 then g.toNat else (convert .f32 dst .rne false (g.toNat % 2 ^ 32)).bits

/-- The bit number of an element's class (R115). -/
def fclassBit (f : Fmt) (b : Nat) : Nat :=
  match f.decode b with
  | .nan => 8
  | .inf neg => if neg then 0 else 7
  | .fin neg m _ =>
    if m == 0 then (if neg then 3 else 4)
    else if m < 2 ^ f.frac then (if neg then 2 else 5)
    else (if neg then 1 else 6)

end Sys2Proof.Machine
end

