-- ==== Sys2Proof/Machine/Mem.lean ====
section
/-! DEFINITION. Sparse maps and byte memory as plain lists in one canonical form, and little-endian access (R5). -/

namespace Sys2Proof.Machine

/-- The value of a key, where it is listed. -/
def mapGet {α : Type} (m : AMap α) (k : Nat) : Option α :=
  match m with
  | [] => none
  | (k', v) :: t => if k' = k then some v else mapGet t k

/-- The map with a key's value replaced; the keys stay rising. -/
def mapSet {α : Type} (m : AMap α) (k : Nat) (v : α) : AMap α :=
  match m with
  | [] => [(k, v)]
  | (k', v') :: t => if k < k' then (k, v) :: (k', v') :: t else if k' = k then (k, v) :: t else (k', v') :: mapSet t k v

/-- The map without a key. -/
def mapErase {α : Type} (m : AMap α) (k : Nat) : AMap α :=
  match m with
  | [] => []
  | (k', v') :: t => if k' = k then t else (k', v') :: mapErase t k

/-- What a byte that no entry lists reads as. The spec gives memory no contents after power-on: DESIGN CHOICE, unsafe
(log entry 1). -/
def unlistedByte : Byte := 0

/-- The byte at a key. -/
def memGet (m : List Host.Cell) (k : Nat) : Byte :=
  match m with
  | [] => unlistedByte
  | (k', v) :: t => if k' = k then v else memGet t k

/-- The memory without an entry for a key, where it stands first among the entries from it on. -/
def memSet (m : List Host.Cell) (k : Nat) (v : Byte) : List Host.Cell :=
  match m with
  | [] => if v = unlistedByte then [] else [(k, v)]
  | (k', v') :: t =>
    if k < k' then (if v = unlistedByte then (k', v') :: t else (k, v) :: (k', v') :: t)
    else if k' = k then (if v = unlistedByte then t else (k, v) :: t)
    else (k', v') :: memSet t k v

/-- Every entry stands above `lo`, the keys rise, and no entry equals what an unlisted byte reads as. -/
def memAbove (lo : Nat) (m : List Host.Cell) : Bool :=
  match m with
  | [] => true
  | (k, v) :: t => decide (lo ≤ k) && v != unlistedByte && memAbove (k + 1) t

/-- The canonical form of memory. -/
def Memory.wf (m : List Host.Cell) : Bool := memAbove 0 m

/-- `n` bytes from a key, the lowest address least significant (R5). -/
def memRead (m : List Host.Cell) (k n : Nat) : Nat :=
  match n with
  | 0 => 0
  | n + 1 => (memGet m k).toNat + 256 * memRead m (k + 1) n

/-- The low `n` bytes of a value stored at a key, the least significant at the lowest address (R5). -/
def memWrite (m : List Host.Cell) (k n x : Nat) : List Host.Cell :=
  match n with
  | 0 => m
  | n + 1 => memWrite (memSet m k (BitVec.ofNat 8 x)) (k + 1) n (x / 256)

/-- The first element of a list for which a test holds, with its place. -/
def findIdx {α : Type} (p : α → Bool) (l : List α) (i : Nat := 0) : Option (Nat × α) :=
  match l with
  | [] => none
  | x :: t => if p x then some (i, x) else findIdx p t (i + 1)

/-- A fold over 0 .. n-1 in rising order. -/
def foldN {α : Type} (n : Nat) (f : Nat → α → α) (x : α) : α :=
  match n with
  | 0 => x
  | n + 1 => f n (foldN n f x)

/-- The numbers below `n` for which a test holds, rising. -/
def below (n : Nat) (p : Nat → Bool) : List Nat := (List.range n).filter p

/-- Bits [hi:lo] of a number. -/
def bits (x hi lo : Nat) : Nat := x / 2 ^ lo % 2 ^ (hi - lo + 1)

/-- One bit of a number. -/
def bit (x i : Nat) : Bool := x / 2 ^ i % 2 == 1

/-- A number with bits [hi:lo] replaced. -/
def setBits (x hi lo v : Nat) : Nat :=
  x - bits x hi lo * 2 ^ lo + v % 2 ^ (hi - lo + 1) * 2 ^ lo

/-- The two's-complement reading of the low `w` bits. -/
def sint (w x : Nat) : Int :=
  let y := x % 2 ^ w
  if 2 ^ (w - 1) ≤ y then (y : Int) - (2 ^ w : Nat) else (y : Int)

/-- The low n bytes of a number, lowest first. -/
def leBytes (n x : Nat) : List Nat :=
  match n with
  | 0 => []
  | n + 1 => x % 256 :: leBytes n (x / 256)

/-- The number that bytes form, lowest first. -/
def ofBytes (l : List Nat) : Nat :=
  match l with
  | [] => 0
  | b :: t => b + 256 * ofBytes t

/-- n bytes of a byte list at an offset, as a number. -/
def bytesAt (l : List Nat) (off n : Nat) : Nat := ofBytes ((l.drop off).take n)

end Sys2Proof.Machine
end

