-- ==== Sys2Proof/Machine/Expr.lean ====
section
/-! DEFINITION. Near-memory expression programs (spec/11_transfer.md, R318, R320): their check and their evaluation on one
element. -/

namespace Sys2Proof.Machine

/-- A program as a record of 128 bytes holds it. -/
structure Prog where
  len : Nat
  fmt : Fmt
  rm : RM
  acc : Bool
  /-- op and arg of each operator -/
  ops : List (Nat × Nat)
  consts : List Nat
  deriving DecidableEq, Repr

/-- The little-endian number at an offset of some bytes. -/
def numAt (l : List Nat) (off n : Nat) : Nat := ((l.drop off).take n).foldr (fun b x => b % 256 + 256 * x) 0

/-- The format of a program by its code: 0 to 7 and 10 to 13 (R318). -/
def progFmt (c : Nat) : Option Fmt :=
  if c < 8 ∨ (10 ≤ c ∧ c ≤ 13) then Fmt.ofCode (BitVec.ofNat 4 c) else none

/-- The fields of a record, where its format is permitted. -/
def parseProg (l : List Nat) : Option Prog :=
  (progFmt (numAt l 1 1)).map fun f =>
    { len := numAt l 0 1, fmt := f, rm := RM.ofCode (BitVec.ofNat 2 (numAt l 2 1)), acc := bit (numAt l 2 1) 2
      ops := (List.range (min 24 (numAt l 0 1))).map fun i => (numAt l (16 + 2 * i) 2 / 1024, numAt l (16 + 2 * i) 2 % 1024)
      consts := (List.range 8).map fun k => numAt l (64 + 8 * k) 8 % 2 ^ f.width }

/-- What an operator pops and pushes, where it is assigned and suits the format, and its arg is in range (R318). -/
def opShape (f : Fmt) (op arg : Nat) : Option (Nat × Nat) :=
  let int := f.cls == .int
  let w := f.width
  let sh : Option (Nat × Nat × Nat) := match op with
    | 0x01 => some (3, 0, 1) | 0x02 => some (7, 0, 1) | 0x03 => some (0, 0, 1)
    | 0x04 => some (0, 1, 2) | 0x05 => some (0, 2, 2) | 0x06 => some (0, 1, 0)
    | 0x08 | 0x09 | 0x0A | 0x0B | 0x0C => some (0, 2, 1)
    | 0x0D => some (0, 3, 1)
    | 0x0E | 0x0F => some (0, 1, 1)
    | 0x10 | 0x11 | 0x12 => if int then some (0, 2, 1) else none
    | 0x13 | 0x14 => if int then some (w - 1, 1, 1) else none
    | 0x15 | 0x16 => some (0, 3, 1)
    | 0x17 | 0x18 | 0x19 => some (0, 2, 1)
    | 0x1A | 0x1B => if int then none else some (0, 1, 1)
    | _ => none
  match sh with
  | some (lim, pop, push) => if arg ≤ lim then some (pop, push) else none
  | none => none

/-- The depth after the operators, where it stays from 1 to 4 after every push and nothing pops below 0. -/
def progDepth (f : Fmt) (l : List (Nat × Nat)) (d : Nat) : Option Nat :=
  match l with
  | [] => some d
  | o :: t =>
    match opShape f o.1 o.2 with
    | none => none
    | some (pop, push) => if d < pop ∨ 4 < d - pop + push then none else progDepth f t (d - pop + push)

/-- The checks of nmxld (R320). -/
def validProg (l : List Nat) : Bool :=
  match parseProg l with
  | none => false
  | some p =>
    decide (1 ≤ p.len) && decide (p.len ≤ 24) && decide (numAt l 2 1 < 8) && (List.range 13).all (fun i => numAt l (3 + i) 1 == 0) &&
    progDepth p.fmt p.ops 0 == some 1

/-- The inputs that a program reads. -/
def Prog.used (p : Prog) : List Nat := (List.range 4).filter fun k => p.ops.any fun o => o.1 = 1 && o.2 = k

/-- A truth value in the format. -/
def Fmt.ofBool (f : Fmt) (b : Bool) : Nat := if !b then 0 else if f.cls == .int then 1 else (numTo f .rne false (intNum 1)).bits

/-- An operator that computes, on its popped values: c lies above b and b above a (R318). -/
def exprOp (f : Fmt) (rm : RM) (op arg a b c : Nat) : Nat :=
  let w := f.width
  let fl := f.cls == .float
  let x := f.int a
  let y := f.int b
  let z := f.int c
  let t := truncInt w
  let na := f.decode a
  let nb := f.decode b
  match op with
  | 0x08 => if fl then (addNum f rm na nb).bits else t (x + y)
  | 0x09 => if fl then (addNum f rm na nb.negate).bits else t (x - y)
  | 0x0A => if fl then (mulNum f rm na nb).bits else t (x * y)
  | 0x0B => if fl then minMaxBits f false a b else if y < x then b else a
  | 0x0C => if fl then minMaxBits f true a b else if x < y then b else a
  | 0x0D => if fl then (fmaNum f rm na nb (f.decode c)).bits else t (x * y + z)
  | 0x0E => if fl then a % 2 ^ (w - 1) else t (if x < 0 then -x else x)
  | 0x0F => if fl then a ^^^ 2 ^ (w - 1) else t (-x)
  | 0x10 => a &&& b
  | 0x11 => a ||| b
  | 0x12 => a ^^^ b
  | 0x13 => t (x * 2 ^ arg)
  | 0x14 => t (x / 2 ^ arg)
  | 0x15 =>
    if fl then minMaxBits f false (minMaxBits f true a b) c
    else
      let m := if x < y then b else a
      if z < f.int m then c else m
  | 0x16 => if fl then (if (match f.decode c with | .fin _ 0 _ => true | _ => false) then b else a) else if c = 0 then b else a
  | 0x17 => f.ofBool (if fl then na.lt nb else decide (x < y))
  | 0x18 => f.ofBool (if fl then na.feq nb else x == y)
  | 0x19 => if fl then (divNum f rm na nb).bits else if b = 0 then 2 ^ w - 1 else t (x.tdiv y)
  | 0x1A => (sqrtNum f rm na).bits
  | _ => (divNum f rm (intNum 1) na).bits

/-- The stack, top first, after one operator. -/
def exprStep (p : Prog) (i : Nat) (ins : List Nat) (st : List Nat) (o : Nat × Nat) : List Nat :=
  match o.1, st with
  | 0x01, st => ins.getD o.2 0 :: st
  | 0x02, st => p.consts.getD o.2 0 :: st
  | 0x03, st => (if p.fmt.cls == .int then i % 2 ^ p.fmt.width else (numTo p.fmt .rne false (intNum i)).bits) :: st
  | 0x04, a :: st => a :: a :: st
  | 0x05, b :: a :: st => a :: b :: st
  | 0x06, _ :: st => st
  | op, st =>
    match opShape p.fmt op o.2, st with
    | some (1, _), a :: st => exprOp p.fmt p.rm op o.2 a 0 0 :: st
    | some (2, _), b :: a :: st => exprOp p.fmt p.rm op o.2 a b 0 :: st
    | some (3, _), c :: b :: a :: st => exprOp p.fmt p.rm op o.2 a b c :: st
    | _, _ => st

/-- A program's result for element i of its inputs (R318). -/
def Prog.eval (p : Prog) (i : Nat) (ins : List Nat) : Nat := (p.ops.foldl (exprStep p i ins) []).headD 0

/-- The output element after the program: the result, or with ACC the output plus it (R321). -/
def Prog.update (p : Prog) (i : Nat) (ins : List Nat) (old : Nat) : Nat :=
  let r := p.eval i ins
  if p.acc then exprOp p.fmt p.rm 0x08 0 old r 0 else r

end Sys2Proof.Machine
end

