-- ==== Sys2Proof/Machine/BoundaryState.lean ====
section
/-! DEFINITION. The package's state at its boundary: messages, sessions, queue pairs, links, routes and flash
(spec/15_boundary.md, R416 to R430, R434). -/

namespace Sys2Proof.Machine

/-- A message that the device sends to the host (R419): its type, its own sequence number and the highest received, and
its body in bytes. -/
structure Message where
  session : Nat
  type : Nat
  seq : Nat := 0
  ack : Nat := 0
  body : List Nat
  deriving DecidableEq, Repr

/-- What leaves by the host port: a message, an RDMA WRITE of the device, the answer to one of the host, true for ACK, or a
congestion notification (R417, R418). -/
inductive Outgoing where
  | message (m : Message)
  | write (qp addr : Nat) (bytes : List Nat)
  | answer (qp : Nat) (ack : Bool)
  | notice (qp : Nat)
  deriving DecidableEq, Repr

/-- A session of the Uavor host protocol (R420, R421), keyed by the peer's address and its session id. -/
structure Session where
  peer : Nat
  id : Nat
  /-- the next sequence number to apply, and messages that have arrived ahead of it, with their numbers and whether
  they end a firmware image -/
  expect : Nat := 1
  ahead : List (Nat × List Nat × Bool) := []
  /-- the device's next sequence number, and what the host has not acknowledged -/
  next : Nat := 1
  unacked : List Message := []
  /-- the proved key and the two nonces; an unproved session has no key -/
  key : Option (List Nat) := none
  hostNonce : List Nat := []
  devNonce : List Nat := []
  deriving DecidableEq, Repr

/-- A RoCEv2 queue pair (R418, R422): what management has bound it to, its error state, the answers given to the host's
writes, oldest first (true for ACK), and the writes that the device has made: host address and bytes. -/
structure QueuePair where
  asid : Nat
  session : Option Nat
  error : Bool := false
  answers : List Bool := []
  written : List (Nat × List Nat) := []
  deriving DecidableEq, Repr

/-- The state of a Uavor link, in the order of its codes (R423, R441). -/
inductive LinkState where
  | down | x64 | x32 | training
  deriving DecidableEq, Repr

/-- A Uavor port (R423, R424). A cost of 255 is infinite. -/
structure Port where
  link : LinkState := .down
  cost : Nat := 2
  deriving DecidableEq, Repr

/-- A CXL root port (R426): its link, whether it is fenced, and the capacity that its expander reports, in bytes. -/
structure CxlPort where
  up : Bool := false
  fenced : Bool := false
  reported : Nat := 0
  deriving DecidableEq, Repr

/-- An entry of the routing table (R424): up to four next-hop ports and the cost of the path. -/
structure Route where
  ports : List Nat := []
  cost : Nat := 0
  deriving DecidableEq, Repr

/-- Package flash (R404, R427, R428, R434): the active firmware image, the image being assembled, the boot parameter block,
replicas of the ripening records (WU, RATED, MON, INDEX and STATE by core), and the checkpoint marker. -/
structure Flash where
  image : List Nat := []
  assembly : List Nat := []
  params : List Nat := []
  ripening : AMap (List Nat) := []
  marker : Option (List Nat) := none
  deriving DecidableEq, Repr

end Sys2Proof.Machine
end

