-- ==== Sys2Proof/Machine/HartState.lean ====
section
/-! DEFINITION. The state of one hart that belongs to its own streams: scalar, vector, trap and gang state. -/

namespace Sys2Proof.Machine

/-- The privilege levels (R351). -/
inductive Level where
  | user | supervisor
  deriving DecidableEq, Repr

/-- A vector register's tag (R158): a format code and log2 of the group factor. -/
structure Tag where
  fmt : BitVec 4 := 2
  grp : BitVec 2 := 0
  deriving DecidableEq, Repr

/-- Entries or tokens that have been taken already and that discarded instructions push again when they run again, by the
level at which they run. -/
structure Owed where
  user : Nat := 0
  sup : Nat := 0
  deriving DecidableEq, Repr

/-- What is owed at a level. -/
def Owed.at (o : Owed) (l : Level) : Nat :=
  match l with
  | .user => o.user
  | .supervisor => o.sup

/-- What is owed at a level replaced. -/
def Owed.set (o : Owed) (l : Level) (n : Nat) : Owed :=
  match l with
  | .user => { o with user := n }
  | .supervisor => { o with sup := n }

/-- A token channel (R338): its tokens and the places that started commands hold for a push. In what a hart would go back to,
`owed` counts tokens that have been popped already and that a tkpush running again has still to push. -/
structure Tokens where
  count : Nat := 0
  reserved : Nat := 0
  owed : Owed := {}
  deriving DecidableEq, Repr

/-- The state of a lane quad with respect to a hart (R151), in the order of its codes. -/
inductive Quad where
  | free | owned | granted | leaving
  deriving DecidableEq, Repr

/-- The attach states of R130. -/
inductive Attach where
  | attached | detached | waiting
  deriving DecidableEq, Repr

/-- An instruction word in a drift window or private window (R124, R128): its PC, where the path goes on behind it, and
whether it is the second word of a pair, which takes no place of its own (R41). The path behind a control instruction is the
prediction, and the head's outcome once there is one; none while fetch stops behind it (R127, R136, R144). -/
structure Entry where
  pc : Word
  word : BitVec 32
  next : Option Word
  second : Bool := false
  deriving DecidableEq, Repr

/-- A hart's place in its gang. -/
structure Gang where
  state : Attach := .detached
  /-- CAUSE of `drift` (R125) -/
  cause : BitVec 4 := 0
  /-- the head's join.t holds the gang until this cycle count (R136) -/
  hold : Option Nat := none
  /-- the PC of the JOIN at which the hart last attached or holds the gang; and where its JOIN found no member attached, the
  clock, and for join.t the destination, what it held before, and the limit (R131) -/
  holdPc : Word := 0
  formed : Option (Word × Option (BitVec 5 × Word × Nat)) := none
  /-- JOIN waiting: tag, the clock in which the wait began, and for join.t the destination and the limit (R130, R131) -/
  joinTag : BitVec 12 := 0
  joinSince : Word := 0
  joinT : Option (BitVec 5 × Nat) := none
  /-- ICINV issued and not yet performed (R144) -/
  icinv : Option Nat := none
  deriving DecidableEq, Repr

/-- The loop state of `lstat` (R139). -/
structure LoopState where
  active : Bool := false
  depth : BitVec 3 := 0
  len : BitVec 5 := 0
  word : BitVec 4 := 0
  deriving DecidableEq, Repr

/-- The CSRs of a hart that hold a value of their own (R354), each without its reserved bits. -/
structure Csrs where
  fflags : FFlags := 0
  vrm : BitVec 2 := 0
  escope : BitVec 3 := 4
  vlFmt : BitVec 4 := 0
  vlGrp : BitVec 2 := 0
  vl : BitVec 12 := 0
  grantEff : BitVec 4 := 0xF
  grantThr : BitVec 4 := 0xF
  grantLife : BitVec 4 := 0xF
  vstrip : BitVec 32 := 0
  lchg : Bool := false
  quads : Vector Quad 4 := Vector.replicate 4 .free
  eix : BitVec 11 := 0
  vsidx : BitVec 35 := 0
  vpcm : Word := 0
  vprog : Word := 0
  vpcnt : Word := 0
  loop : LoopState := {}
  lbase : Word := 0
  lix : Vector (BitVec 32) 6 := Vector.replicate 6 0
  lkwin : Word
  lkerr : Word := 0
  lkepc : Word := 0
  xerr : Word := 0
  xepc : Word := 0
  xbar : Word := 0
  wout : Word := 0
  uie : Bool := true
  pp : Level := .user
  tvec : Word := 0
  tpc : Word := 0
  tcause : Word := 0
  tval : Word := 0
  sscratch : Word := 0
  pend : BitVec 3 := 0
  en : BitVec 3 := 7
  step : Bool := false
  brkh : Bool := false
  asid : BitVec 9 := 0
  ptroot : Word := 0
  cyccmp : Word := 0xFFFFFFFFFFFFFFFF
  cxstat : Word := 0
  frqidx : BitVec 12 := 0
  wear : Word := 0
  energy : Word := 0
  /-- the cluster count that ctxrest recorded (R380) -/
  sample : Word := 0
  deriving DecidableEq, Repr

/-- A position at which a hart can resume (R174, R374): PC, element index, start indices of the later convoy members
in the layout of `vsidx`, and the lane map in the layout of `vpcm`. -/
structure Position where
  pc : Word := 0
  eix : BitVec 11 := 0
  vsidx : BitVec 35 := 0
  lanes : Word := 0
  deriving DecidableEq, Repr

/-- What a hart's next instruction waits for. The instruction has not executed; it runs again from its start. -/
inductive Wait where
  | none
  /-- a read of an empty queue register, a write to a full one (R106) -/
  | queueEmpty (q : BitVec 3) | queueFull (q : BitVec 3)
  /-- a pop with no token, a push with no place (R338) -/
  | tokenEmpty (k : BitVec 3) | tokenFull (k : BitVec 3)
  /-- a full dispatch queue (R101) -/
  | dispatch
  /-- a drain that waits for older vector, engine or return-free work (R134, R355, R361) -/
  | drain
  /-- a g register that an outstanding command will write (R101) -/
  | register
  /-- JOIN and ICINV wait for the gang (R130, R144), and a delivery barrier or the window's end for the head (R124) -/
  | join | icinv | delivery
  /-- an iteration (R343), a progress word (R344), the arrival's release at a barrier (R341) -/
  | ring | progress | barrier
  /-- WFE (R414) -/
  | event
  /-- SETVL while a throttle pair is agreed (R408) -/
  | lock
  deriving DecidableEq, Repr

/-- Why a task is to leave its hart: a pre-emption or a drained core, for which a save uses the launch's save area and is
made at user level alone (R399, R405, R149); a lasting fault or an emergency, for which it may use the reserved area
(R406, R437); or the end of its launch, without a save (R403), which may be counted as an abort. -/
inductive Leave where
  | preempt | lasting | emergency
  | ended (aborted : Bool)
  deriving DecidableEq, Repr

/-- A cached leaf translation (R368): the page's first address, log2 of its size, and the entry's word. -/
structure TlbEntry where
  asid : BitVec 9
  va : Nat
  size : Nat
  leaf : Word
  deriving DecidableEq, Repr

/-- What one pending vector access does when it performs (R235). Register positions are bit offsets. -/
inductive AccessKind where
  | load (r : BitVec 5) (off : Nat)
  | store (data : Nat)
  /-- a store with the hint streaming (R38) -/
  | stream (data : Nat)
  /-- a bank operation of R40, by its bop code, on elements of a format (R315) -/
  | bankLoad (bop : Nat) (fmt : Fmt) (rm : RM) (x : Nat) (r : BitVec 5) (off : Nat)
  | bankStore (bop : Nat) (fmt : Fmt) (rm : RM) (data : Nat) (stream : Bool)
  /-- an element of a VAMO, by its function (R333) -/
  | amo (fn : Nat) (fmt : Fmt) (rm : RM) (data : Nat) (r : BitVec 5) (off : Nat)
  /-- the contributions of a VSCRED window to one address (R334) -/
  | scred (fn : Nat) (fmt : Fmt) (rm : RM) (data : List Nat)
  /-- the f32 term that an nma adds to one element (R335) -/
  | near (data : Nat)
  /-- the same for an element whose bytes lie in two pages, by the bytes' keys -/
  | nearSplit (data : Nat) (keys : List Nat)
  /-- element i of an expression program, by its bytes, with the keys of its four inputs (R321) -/
  | expr (prog : List Nat) (i : Nat) (inputs : List Nat)
  /-- the granule becomes poisoned (R302, R321, R335) -/
  | poison
  deriving DecidableEq, Repr

/-- The access returns data to the lanes, so that an error in them is handled by R230. -/
def AccessKind.returns (k : AccessKind) : Bool :=
  match k with
  | .load .. | .bankLoad .. | .amo .. => true
  | _ => false

/-- One element access of a vector memory instruction that has been checked and translated and has not performed:
its memory key, its bytes and its effect, the element's index and its virtual address. Stores of bank operations and nma
elements are return-free. -/
structure Access where
  key : Nat
  bytes : Nat
  kind : AccessKind
  elem : Nat := 0
  va : Word := 0
  deriving DecidableEq, Repr

/-- A return-free operation with element operations still to perform: a store pair of a bank operation, an nma or an nmx
(R319). A store pair's last window holds its pins and its progress word until its elements have performed (R226, R234,
R317). -/
structure ReturnFree where
  /-- the place of its instruction in the hart's program order -/
  id : Nat
  pc : Word
  elems : List Access
  pins : List TlbEntry := []
  word : Option (Nat × Nat) := none
  deriving DecidableEq, Repr

/-- The operations of the vector unit, one for each function of the V-form majors but for the prefix pair (R54). -/
inductive VOpc where
  | add | sub | rsub | mul | min | max | sadd | ssub | macc | nmsac | madd | nmsub | and | or | xor | andn
  | sll | srl | sra | rot | mseq | msne | mslt | msle | merge | clamp | mv | abs | div | rem | sqrt | rcp
  | exp2 | log2 | rsqrt | tanh | sin | cos | vclass | cvt | cvts
  | redsum | redmin | redmax | redor | scansum | scanmin | scanmax
  | slideup | slidedn | slide1up | slide1dn | perm | compress | expand | iota
  | segsort | segsortkv | dupmerge | opa1 | opa2 | opa4 | opa8 | mvVG | mvVQ | mvQV
  | ld | lds | ldx | ldff | st | sts | stx | ldseg | stseg
  | amoadd | amomin | amomax | amoswap | scredAdd | scredMin | scredMax | scredOr
  deriving DecidableEq, Repr

/-- A vector instruction as the vector unit holds it: the fields of its V-form word. `b` holds rm and sat for conversions and
nf - 1 for segment accesses; `rep` holds notify and hint for VLD and VST. -/
structure VOp where
  op : VOpc
  d : BitVec 5
  a : BitVec 5
  b : BitVec 5 := 0
  rep : BitVec 3 := 0
  cv : Bool := false
  m : BitVec 4 := 0
  /-- the bank operation of a prefix pair and its gs1 field (R40) -/
  bank : Option (Nat × BitVec 5) := none
  deriving DecidableEq, Repr

/-- What a vector instruction takes from the scalar stream when it issues there: the length, every tag, the rounding
mode, the lane count and the quads that carry the lanes, ascending (R85, R152, R158, R165). -/
structure VCtx where
  vl : Nat := 0
  tags : Vector Tag 32 := Vector.replicate 32 {}
  rm : BitVec 2 := 0
  lanes : Nat := 0
  quads : List Nat := []
  deriving DecidableEq, Repr

/-- What a notify store took at issue (R234): C0, its progress address and scope; then the word's key with the entry pinned
for it, and the element count last written. -/
structure Notify where
  c0 : Word
  va : Word
  scope : BitVec 3
  key : Option Nat := none
  entry : Option TlbEntry := none
  last : Nat := 0
  deriving DecidableEq, Repr

/-- A store of the scalar stream that may still be discarded: the count of instructions issued before it, its key, bytes
and value, and for a scalar store the PC and the address for the record of a granule that stays poisoned (R119, R121). With
`ack` it stores nothing and acknowledges a fault record (R364). -/
structure Kept where
  before : Nat
  key : Nat := 0
  bytes : Nat := 0
  value : Nat := 0
  note : Option (Word × Word) := none
  ack : Option Nat := none
  deriving DecidableEq, Repr

/-- The window that a member has issued last: its first element, the lane map it used, and the elements accessed, once for
each field. `sectors` are the 32-byte sectors that its loads access, in all windows so far, once for each access (R285). -/
structure Issued where
  first : Nat := 0
  lanes : Word := 0
  elems : List Nat := []
  sectors : List Nat := []
  deriving DecidableEq, Repr

/-- A vector instruction in the vector dispatch queue. `x`, `y` and `z` are the g registers that it read at issue: an
operand or a base, a stride, and a bank operation's operand. `next` is the first element of its first group or window
not yet issued, and `lanes` a lane map still to be completed in the window of `next` (R229). `pend` holds accesses of the
issued window that have not performed, `pins` the pages of that window (R226). -/
structure Member where
  op : VOp
  pc : Word
  words : Nat := 1
  /-- the word that a trap reports (R357) -/
  val : Word := 0
  x : Word := 0
  y : Word := 0
  z : Word := 0
  next : Nat := 0
  lanes : Word := 0
  /-- an ERET returned to it, so that its completion clears `vpcm` (R229) -/
  clears : Bool := false
  begun : Bool := false
  done : Bool := false
  pend : List Access := []
  pins : List TlbEntry := []
  issued : Issued := {}
  nfy : Option Notify := none
  /-- a check that will mismatch on both issues: its element and, for VOPA, its step (R184, R185). What such an instruction
  computes is not seen by anything, so it writes nothing -/
  chk : Option (Nat × Nat) := none
  deriving DecidableEq, Repr

/-- An entry of the vector dispatch queue: a convoy, a SETVL's configuration entry with the quads it frees and whether
it zeroes registers, the clearing of a vtag, or a mask function with its registers. -/
inductive VWork where
  | convoy (l : List Member)
  | cfg (freed : List Nat) (lanes : Nat) (zero : Bool)
  | clear (d : BitVec 5) (n : Nat)
  | mask (fn : Nat) (d a b : BitVec 4)
  deriving DecidableEq, Repr

/-- A vector dispatch queue entry. `id` is its place in the hart's program order. -/
structure VItem where
  id : Nat
  pc : Word
  ctx : VCtx
  work : VWork
  deriving DecidableEq, Repr

/-- The trap causes of R357, in the order of their codes from 0x01. -/
inductive Cause where
  | illegalInstruction | illegalPrefix | featureAbsent | privilege | illegalConvoy | illegalTag | illegalTagCombination
  | misalignedGroup | illegalScope | illegalLength | illegalOverlap | illegalLoopBody | lookupOperand | transferOperand
  | syncOperand | misalignedAccess | pageFault | protectionFault | tierMiss | accessFault | poisonedData | laneCheck
  | queueDeadlock | tokenDeadlock | ringFull | syscall | brk
  deriving DecidableEq, Repr

/-- A trap of the acting hart (R357): its cause, whether it arose on a fetch, whether a record of it was lost, its VAL,
and the resumable position, which for a system call is past it. -/
structure Trap where
  cause : Cause
  fetch : Bool := false
  lost : Bool := false
  val : Word
  pos : Position
  deriving DecidableEq, Repr

/-- What is due at a hart and is done once older work has retired (R121, R359, R374). -/
inductive Due where
  | trap (t : Trap)
  | interrupt (code : Nat) (pos : Position)
  | halt (pos : Position)
  deriving DecidableEq, Repr

/-- The operations of the lookup and transfer engines: one for each lookup and transfer major, and nma (R55, R56). -/
inductive EOpc where
  | cbload | cbclr | tbuild | tbload | tbfree | lkinit | lkacc | lkdrain | lkdrainc | lkread | lkclr | lkstat | lkmeta
  | lkwait | xcopy | xshape | xfill | xgather | wsend | wsendi | wreg | wunreg | wctr | strain | nmx | nmxld | pgin
  | pgout | xwait | nma
  deriving DecidableEq, Repr

/-- A report of a command that has not retired: its condition, the stack or package concerned, the bank, and the local
offset for a record (R290, R303). -/
structure Report where
  cond : Nat
  unit : Nat
  bank : Nat := 0
  addr : Nat := 0
  deriving DecidableEq, Repr

/-- What a write of a command does with its bytes: a value, a copy or conversion of what stands at an address when it
performs (R305, R306), an element of a train, with its op (R309), or poisoned data, with the key of the error (R302). A copy
within a run whose destination lies otherwise in its granules than its source names the run: its source granules are read once
and held for the writes that share them. -/
inductive Move where
  | value (x : Nat)
  | copy (src : Nat) (run : Option Nat)
  | convert (src : Nat) (f g : Fmt) (rm : RM) (sat : Bool)
  | train (op : Nat) (f : Fmt) (x : Nat)
  | spoilt (key : Nat)
  deriving DecidableEq, Repr

/-- A write that a command has still to make: its virtual address, its bytes, and what is written. -/
structure Pending where
  va : Nat
  bytes : Nat
  move : Move
  deriving DecidableEq, Repr

/-- A granule of 8 bytes of a copied run's source that has been read, by the run and its address: the bytes not yet written, by
offset, each with the key of an error (R302). -/
structure Held where
  run : Nat
  va : Nat
  left : List (Nat × Nat × Option Nat)
  deriving DecidableEq, Repr

/-- What the check unit keeps of a walk (R254, R283): by line, the chosen accumulator before the walk and as the check unit
sums it; the overflow bits that it and the bank have raised; and the row read last. -/
structure CheckSum where
  before : AMap (BitVec 48) := []
  sums : AMap (BitVec 48) := []
  ovf : Bool := false
  bankOvf : Bool := false
  row : Option Nat := none
  deriving DecidableEq, Repr

/-- A command of the lookup or transfer engine from its issue to its retirement (R267, R296). The operands are the
values read at issue. -/
structure ECmd where
  /-- the place in the hart's program order, by which older and younger are told -/
  id : Nat
  pc : Word
  op : EOpc
  /-- the instruction's word, for VAL of a trap -/
  word : Word := 0
  d : BitVec 5 := 0
  /-- values of gs1, gs2 and of the gd field where it is read -/
  a : Word := 0
  b : Word := 0
  x : Word := 0
  nest : List (BitVec 128) := []
  order : BitVec 2 := 0
  push : Bool := false
  pop : Bool := false
  chan : BitVec 3 := 0
  scope : BitVec 3 := 0
  xbar : Word := 0
  wout : Word := 0
  asid : BitVec 9 := 0
  level : Level := .user
  started : Bool := false
  /-- the place in the order in which commands started -/
  stamp : Nat := 0
  /-- the pages it has pinned, and those it has read a record from only -/
  pins : List TlbEntry := []
  /-- its turn at the slice has come; the steps made so far; its effect is complete -/
  begun : Bool := false
  step : Nat := 0
  done : Bool := false
  /-- steps applied in each stack of its reach -/
  prog : AMap Nat := []
  /-- what it read, by step: bytes, and whether an uncorrectable error was met -/
  data : AMap (List Nat × Bool) := []
  out : List Pending := []
  /-- source granules read; the bytes, by key, that it has written in check granules in error, and those that it has poisoned
  (R119, R302) -/
  held : List Held := []
  cover : List Nat := []
  spoilt : List Nat := []
  sum : CheckSum := {}
  /-- the issuing task's launch (R304) -/
  launch : Option Nat := none
  reports : List Report := []
  /-- the value to write to gd -/
  res : Word := 0
  deriving DecidableEq, Repr

end Sys2Proof.Machine
end

