-- ==== Sys2Proof/Machine/LookupState.lean ====
section
/-! DEFINITION. The state of one lookup stack and its base die, and its control window (spec/09_lookup_machine.md, R243 to
R266; spec/11_transfer.md, R318, R325, R326). -/

namespace Sys2Proof.Machine

/-- A table slot: the fields of its header (R243) and its 256 entries, as i16 bits; entries not listed are zero. -/
structure Slot where
  cb : Nat := 0
  exp : Int := 0
  part : Nat := 0
  shape : Nat := 0
  sat : Bool := false
  inv : Bool := false
  ready : Bool := false
  seq : Nat := 0
  entries : List Nat := []
  deriving DecidableEq, Repr

/-- One accumulator row of a bank (R245). -/
structure AccRow where
  k : Vector (BitVec 48) 32 := Vector.replicate 32 0
  exp : BitVec 9 := 0
  val : Bool := false
  poi : Bool := false
  ovf : Bool := false
  deriving DecidableEq, Repr

/-- A codebook: b, 0 where it is empty, and sixteen f32 values as bits (R66, R249). -/
structure Codebook where
  b : Nat := 0
  vals : List Nat := []
  deriving DecidableEq, Repr

/-- What a walk latched when it opened a row of a bank in the row buffer of the row's parity (R242, R259): the row, its
descriptor and scale bytes, and the clock. -/
structure Latch where
  row : Nat
  dsc : Nat
  scales : List Nat
  opened : Nat
  deriving DecidableEq, Repr

/-- Tables built and on their way to a stack's banks: the command they belong to, the slices and the first slot. -/
structure Built where
  hart : Nat
  id : Nat
  slices : List Nat
  slot : Nat
  tables : List Slot
  deriving DecidableEq, Repr

/-- What the check unit's first replay of a walk read in its slice: the rows of one bank, and the slots of one table as that
bank holds them, and whether one was written since (R254, R283). -/
structure Watch where
  slice : Nat
  bank : Nat := 0
  rows : List Nat := []
  slots : List Nat := []
  dirty : Bool := false
  deriving DecidableEq, Repr

/-- One lookup stack with its base die. -/
structure Stack where
  books : AMap Codebook := []
  /-- slots by 256 * slice + slot, and entries that the aperture changed in one bank, by ((slot key) * 32 + bank) * 256 +
  entry -/
  slots : AMap Slot := []
  edits : AMap Nat := []
  /-- accumulator lines by 64 * slice + line: one row for each of the 32 banks -/
  lines : AMap (Vector AccRow 32) := []
  /-- open rows by 64 * slice + 2 * bank + parity -/
  latches : AMap Latch := []
  built : List Built := []
  /-- tables written by tbuild and tbload since reset (R243) -/
  count : Nat := 0
  /-- the check unit's LFSR (R254) -/
  check : BitVec 32 := 1
  mode : BitVec 2 := 0
  tmax : BitVec 8 := 0
  tdie : BitVec 4 := 0
  prot : BitVec 32 := 0
  /-- the stack, or slices of it, are fenced (R294, R439) -/
  fenced : Bool := false
  fencedSlices : List Nat := []
  /-- fenced banks, as 32 * slice + bank -/
  fencedBanks : List Nat := []
  /-- banks marked suspect, as 32 * slice + bank (R283) -/
  suspect : List Nat := []
  corrected : Nat := 0
  transients : Nat := 0
  /-- uncorrectable errors not yet met, of slots and of lines, with the bank (R248) -/
  badSlots : List (Nat × Nat) := []
  badRows : List (Nat × Nat) := []
  /-- slices whose next walk's check sum differs, and whether the second one does as well (R283) -/
  wrong : List (Nat × Bool) := []
  watch : List Watch := []
  /-- the aperture's bank by slice, the supervisor command records by slice as 512-bit numbers, and the slices whose record
  holds a command, oldest first (R325, R326) -/
  sel : AMap Nat := []
  recs : AMap Nat := []
  sup : List Nat := []
  /-- valid programs of the expression engine by slot, as 128 bytes each (R318) -/
  progs : AMap (List Nat) := []
  deriving DecidableEq, Repr

/-! ### Parts of a stack -/

/-- Banks of a stack that are in service (R31). -/
def Stack.banks (t : Stack) : Nat :=
  if t.fenced then 0
  else 32 * (32 - t.fencedSlices.length) - (t.fencedBanks.filter fun b => !t.fencedSlices.contains (b / 32)).length

/-- A slot of a slice. -/
def Stack.slot (t : Stack) (slice slot : Nat) : Slot := (mapGet t.slots (256 * slice + slot)).getD {}

/-- An accumulator line of a slice. -/
def Stack.line (t : Stack) (slice a : Nat) : Vector AccRow 32 :=
  (mapGet t.lines (64 * slice + a)).getD (Vector.replicate 32 {})

/-- An accumulator line replaced. -/
def Stack.setLine (t : Stack) (slice a : Nat) (l : Vector AccRow 32) : Stack :=
  { t with lines := mapSet t.lines (64 * slice + a) l }

/-- A row of a line, by its bank. -/
def rowOf (l : Vector AccRow 32) (bank : Nat) : AccRow := l.toList.getD bank {}

/-- A codebook. -/
def Stack.book (t : Stack) (n : Nat) : Codebook := (mapGet t.books n).getD {}

/-- Entry e of a slot as a bank holds it. -/
def Stack.entry (t : Stack) (slice slot bank e : Nat) : Nat :=
  match mapGet t.edits (((256 * slice + slot) * 32 + bank) * 256 + e) with
  | some x => x
  | none => (t.slot slice slot).entries.getD e 0

/-- A slot is written, in one bank or in all: a walk whose check read it there cannot be replayed any more (R283). -/
def Stack.noteSlot (t : Stack) (slice slot : Nat) (bank : Option Nat) : Stack :=
  { t with watch := t.watch.map fun w =>
      if w.slice = slice && w.slots.contains slot && (bank.getD w.bank == w.bank) then { w with dirty := true } else w }

/-- A slot written whole in every bank (R244). -/
def Stack.setSlot (t : Stack) (slice slot : Nat) (x : Slot) : Stack :=
  let k := 256 * slice + slot
  { t.noteSlot slice slot none with
      slots := mapSet t.slots k x
      edits := t.edits.filter fun e => e.1 / 8192 ≠ k
      badSlots := t.badSlots.filter fun e => e.1 ≠ k }

/-- The slot header (R243). -/
def Slot.header (x : Slot) : Nat :=
  x.cb % 1024 * 2 ^ 34 + (x.exp % 256).toNat * 2 ^ 26 + x.part % 4 * 2 ^ 24 + x.shape % 4 * 2 ^ 22 + (if x.sat then 2 ^ 21 else 0) +
  (if x.inv then 2 ^ 20 else 0) + (if x.ready then 2 ^ 18 else 0) + x.seq % 65536

/-- The accumulator row header (R245). -/
def AccRow.header (r : AccRow) : Nat :=
  (if r.val then 2 ^ 15 else 0) + (if r.poi then 2 ^ 14 else 0) + (if r.ovf then 2 ^ 13 else 0) + r.exp.toNat

/-- The stack state word (R266). -/
def Stack.stateWord (t : Stack) : Nat :=
  t.tmax.toNat * 2 ^ 40 + t.tdie.toNat * 2 ^ 36 + t.mode.toNat * 2 ^ 32 + t.prot.toNat

/-! ### The control window (R255, R325, R326) -/

/-- The 8-byte word i of row ρ′ of a slice's control window. `unit` is what the lookup-issue unit's own words read as. -/
def Stack.windowWord (t : Stack) (unit slice row i : Nat) : Nat :=
  match row with
  | 0 => if 0xFF8 ≤ i then bits ((mapGet t.recs slice).getD 0) (64 * (i - 0xFF8) + 63) (64 * (i - 0xFF8)) else unit % 2 ^ 64
  | 1 =>
    if i < 256 then (t.slot slice i).header
    else if i < 2304 then (rowOf (t.line slice ((i - 256) % 64)) ((i - 256) / 64)).header
    else 0
  | 2 => if i = 0 then t.stateWord else 0
  | 3 => if i = 0 then (mapGet t.sel slice).getD 0 else 0
  | 8 =>
    if i < 2048 then
      let k := (rowOf (t.line slice (i / 32)) ((mapGet t.sel slice).getD 0)).k.toList.getD (i % 32) 0
      (k.signExtend 64).toNat
    else 0
  | 12 => if i < 128 then (List.range 8).foldr (fun n x => (t.book (8 * i + n)).b % 256 + 256 * x) 0 else 0
  | r =>
    if 4 ≤ r ∧ r ≤ 7 then
      let bank := (mapGet t.sel slice).getD 0
      (List.range 4).foldr (fun n x => t.entry slice ((r - 4) * 64 + i / 64) bank (4 * (i % 64) + n) + 65536 * x) 0
    else if r = 10 ∨ r = 11 then
      let v := (t.book ((r - 10) * 512 + i / 8)).vals
      v.getD (2 * (i % 8)) 0 + 2 ^ 32 * v.getD (2 * (i % 8) + 1) 0
    else 0

/-- A list with element k set, made long enough. -/
def setAt (l : List Nat) (n k x : Nat) : List Nat := (List.range n).map fun i => if i = k then x else l.getD i 0

/-- The word i of a row of the aperture written (R326). Rows 1 and 2 and the other areas ignore stores (R255). -/
def Stack.setWindowWord (t : Stack) (slice row i x : Nat) : Stack :=
  match row with
  | 3 => if i = 0 then { t with sel := mapSet t.sel slice (x % 32) } else t
  | 8 =>
    if i < 2048 then
      let l := t.line slice (i / 32)
      let bank := (mapGet t.sel slice).getD 0
      t.setLine slice (i / 32) (Vector.ofFn fun b =>
        if b.val = bank then { l[b] with k := Vector.ofFn fun c => if c.val = i % 32 then BitVec.ofNat 48 x else l[b].k[c] } else l[b])
    else t
  | 12 =>
    if i < 128 then
      (List.range 8).foldl (fun t n =>
        { t with books := mapSet t.books (8 * i + n) { t.book (8 * i + n) with b := bits x (8 * n + 7) (8 * n) } }) t
    else t
  | r =>
    if 4 ≤ r ∧ r ≤ 7 then
      let k := 256 * slice + (r - 4) * 64 + i / 64
      let bank := (mapGet t.sel slice).getD 0
      (List.range 4).foldl (fun t n =>
        { t with edits := mapSet t.edits ((k * 32 + bank) * 256 + 4 * (i % 64) + n) (bits x (16 * n + 15) (16 * n)) })
        (t.noteSlot slice (k % 256) (some bank))
    else if r = 10 ∨ r = 11 then
      let n := (r - 10) * 512 + i / 8
      let c := t.book n
      let v := setAt (setAt c.vals 16 (2 * (i % 8)) (x % 2 ^ 32)) 16 (2 * (i % 8) + 1) (x / 2 ^ 32 % 2 ^ 32)
      { t with books := mapSet t.books n { c with vals := v } }
    else t

/-- A byte of the control window. -/
def Stack.windowByte (t : Stack) (unit slice row o : Nat) : Nat :=
  bits (t.windowWord unit slice row (o / 8)) (8 * (o % 8) + 7) (8 * (o % 8))

/-- n bytes stored into the supervisor command record at offset o of it (R325): ignored while its major byte is not zero;
a nonzero major byte starts the command and sets the status to 0. -/
def Stack.storeRecord (t : Stack) (slice o n x : Nat) : Stack :=
  let r := (mapGet t.recs slice).getD 0
  if r % 256 ≠ 0 then t
  else
    let r' := setBits r (8 * (o + n) - 1) (8 * o) x % 2 ^ 512
    if r' % 256 ≠ 0 then { t with recs := mapSet t.recs slice (setBits r' 63 32 0), sup := t.sup ++ [slice] }
    else { t with recs := mapSet t.recs slice r' }

/-- n bytes stored into row ρ′ of a slice's control window at offset o. -/
def Stack.windowStore (t : Stack) (slice row o n x : Nat) : Stack :=
  if row = 0 then (if 0x7FC0 ≤ o then t.storeRecord slice (o - 0x7FC0) n x else t)
  else
    (List.range n).foldl (fun t k =>
      let w := t.windowWord 0 slice row ((o + k) / 8)
      let b := 8 * ((o + k) % 8)
      t.setWindowWord slice row ((o + k) / 8) (setBits w (b + 7) b (bits x (8 * k + 7) (8 * k)))) t

end Sys2Proof.Machine
end

