-- ==== Sys2Proof/Machine/TaskState.lean ====
section
/-! DEFINITION. The state of launches and their tasks: launch records, group tables and barriers, saved contexts, throttle
locks and iteration rings (spec/12_sync.md, R340, R343; spec/14_tasks.md, R382 to R409). -/

namespace Sys2Proof.Machine

/-- A task: the number of its launch and its linear index (R392). -/
structure TaskId where
  launch : Nat
  index : Nat
  deriving DecidableEq, Repr

/-- An entry of a launch's group table with its barrier record (R340, R390). `kind`, a, b and c are the specification's;
`first` is the specification's id, so that a block's number is the entry's id less it. -/
structure Group where
  kind : Nat
  a : Nat
  b : Nat
  c : Nat
  first : Nat
  members : Nat
  /-- arrivals of the present phase, and members that have executed texit -/
  arrived : Nat := 0
  exited : Nat := 0
  phase : BitVec 32 := 0
  pending : BitVec 32 := 0
  deriving DecidableEq, Repr

/-- Where a saved context lies: slot k of the launch's save area, or a die hart's slot in a reserved save area (R397). -/
inductive SaveSlot where
  | area (k : Nat)
  | reserved (die hart : Nat)
  deriving DecidableEq, Repr

/-- A saved context of a launch. `strip` is its saved `vstrip` (R408), `wear` and `energy` what it has been charged (R384). -/
structure Saved where
  index : Nat
  slot : SaveSlot
  strip : Nat
  wear : Nat := 0
  energy : Nat := 0
  deriving DecidableEq, Repr

/-- How far a launch has come: it awaits prerequisites, hands out tasks, has ended its tasks with a status, or has the
body of its completion record written by a queue pair (R383 to R389, R422). -/
inductive Stage where
  | accepted
  | running
  | ended (status : Nat)
  | bodyWritten (status qp : Nat)
  deriving DecidableEq, Repr

/-- A live launch, by its launch number (R383). -/
structure Launch where
  /-- the 128 bytes of its record (R382) -/
  record : List Nat
  /-- the order of acceptance -/
  order : Nat
  /-- the session that carried the record, or the hart and task that issued it -/
  session : Option Nat := none
  issuer : Option (Nat × TaskId) := none
  stage : Stage := .accepted
  /-- ids of prerequisites still awaited, and whether one has failed (R387) -/
  waits : List Nat := []
  blocked : Bool := false
  /-- from the image header: entry offset, lane request and minimum, feature mask (R68) -/
  entry : Nat := 0
  lanes : Nat := 4
  laneMin : Nat := 1
  features : Nat := 0
  groups : AMap Group := []
  /-- the next index block, and indices to be handed out again (R391, R402) -/
  nextBlock : Nat := 0
  again : List Nat := []
  /-- indices that a die holds and has not placed -/
  held : List (Nat × List Nat) := []
  /-- indices running on harts -/
  running : List Nat := []
  saved : List Saved := []
  /-- a status above 0 that applies: failed or cancelled (R385); 0 for none -/
  status : Nat := 0
  completed : Nat := 0
  aborted : Nat := 0
  lost : Nat := 0
  reissued : Nat := 0
  wear : Nat := 0
  energy : Nat := 0
  deriving DecidableEq, Repr

/-- An address-space entry of the management space (R441). -/
structure SpaceEntry where
  ptroot : Word := 0
  tvec : Word := 0
  sscratch : Word := 0
  lkwin : Word := 0
  configured : Bool := false
  deriving DecidableEq, Repr

/-- An entry of a die's iteration ring (R343). -/
structure RingEntry where
  launch : Nat
  group : Nat
  frontier : Nat := 0
  /-- bit i: iteration frontier + i is posted -/
  map : BitVec 64 := 0
  deriving DecidableEq, Repr

/-- A throttle lock (R407 to R409), by its key, or by its launch where the key is 0: the pairs kept, the ceiling last agreed,
and in an agreement the ceiling proposed, the replies, the largest reply of members that have left since, and the harts that have
not yet received the pair. `far` says whether members on other packages take part, and `farStrip` the smallest strip that they
are known to have reached. -/
structure Lock where
  key : Nat
  launch : Nat
  pairs : List (BitVec 4 × Nat) := []
  last : BitVec 4 := 0xF
  far : Bool := false
  farStrip : Nat := 0
  proposal : Option (BitVec 4) := none
  replies : List (Nat × Nat) := []
  gone : Nat := 0
  agreed : Option (BitVec 4 × Nat) := none
  toSend : List Nat := []
  deriving DecidableEq, Repr

end Sys2Proof.Machine
end

