-- ==== Sys2Proof/Machine/TransferState.lean ====
section
/-! DEFINITION. The package's state for windows and sends (spec/11_transfer.md, R304, R311 to R314). -/

namespace Sys2Proof.Machine

/-- An open window (R311): its base, size, counter address and tag, the address space, level and core that opened it, and
the translations held for it. -/
structure OpenWindow where
  base : Nat
  size : Nat
  counter : Nat
  tag : Nat
  asid : BitVec 9
  level : Level
  core : Nat
  pins : List TlbEntry
  deriving DecidableEq, Repr

/-- A window send whose bytes have been handed to the ports (R313). `landed` is none while it travels; then it holds the
condition of its acknowledgement, 0 for none, which has not reached the sender. -/
structure Send where
  hart : Nat
  /-- the place of its command in the hart's program order -/
  id : Nat
  pc : Word
  asid : BitVec 9
  level : Level
  pkg : Nat
  window : Nat
  tag : Nat
  off : Nat
  bytes : List Nat
  /-- offsets in the bytes that are poisoned data (R302) -/
  bad : List Nat := []
  /-- the outbound counter's memory key, where `wout` named one -/
  out : Option Nat := none
  /-- the launch and group whose pending-byte counter falls (R304) -/
  counts : Option (Nat × Nat) := none
  landed : Option Nat := none
  deriving DecidableEq, Repr

end Sys2Proof.Machine
end

