-- ==== Sys2Proof/Machine/State.lean ====
section
/-! DEFINITION. The state of a package as plain data, and its value after reset. One hart acts at a time: its state is
the field `me`, its number the field `cur`, and the other harts stand in `others`. Sparse parts are lists by number in
which an absent entry has the value it has at reset. -/

namespace Sys2Proof.Machine

/-- One hart. -/
structure Hart where
  /-- g0 to g31 of user and of supervisor level (R103, R351) -/
  ug : Vector Word 32
  sg : Vector Word 32
  level : Level
  pc : Word
  /-- queue registers, oldest entry first (R104) -/
  q : Vector (List Word) 8
  /-- in what a hart would go back to: entries popped already that a qpush running again has still to push (R106) -/
  debt : Vector Owed 8
  tok : Vector Tokens 8
  /-- mask registers: bit i belongs to element i (R141) -/
  m : Vector (BitVec 2048) 16
  /-- vector registers: lane k holds bits 256k to 256k + 255, byte 0 lowest (R157) -/
  v : Vector (BitVec 16384) 32
  tag : Vector Tag 32
  /-- nest registers: bound, then strides A, B and C from bit 0 up (R166) -/
  nest : Vector (BitVec 128) 6
  csr : Csrs
  gang : Gang
  /-- the drift window or the private window, next instruction first (R124, R128); the loop buffer's words by their place in
  the body, and the bounds that the loop in progress has read (R137, R167) -/
  win : List Entry
  loopBuf : AMap (BitVec 32)
  bounds : List Nat
  /-- the loop state of `csr` replays at this hart's present level (R140) -/
  loopLive : Bool
  wait : Wait
  /-- the restart position that ERET or a resumption leaves for the next instruction (R177, R375) -/
  restart : Option Position
  /-- the restart position comes from an ERET, not from a halt: the CSRs that name it are then used up (R177, R229) -/
  viaEret : Bool
  /-- the vector dispatch queue, oldest first: what has not retired (R100, R169, R172) -/
  vq : List VItem
  /-- lookup and transfer commands, oldest first, from issue to retirement (R267, R296) -/
  lq : List ECmd
  xq : List ECmd
  /-- return-free operations not yet performed; their number is `nmpend` (R319) -/
  rf : List ReturnFree
  /-- stores and acknowledgements of fault records that an older instruction can still cause to be discarded, newest first
  (R121) -/
  sb : List Kept
  /-- scalar stores are kept back although nothing can discard them any more: they perform later (R120, R346) -/
  late : Bool
  due : Option Due
  /-- an arrived barrier's group and phase, and the level that waits for it (R341) -/
  barWait : Option (Nat × BitVec 32 × Level)
  /-- the task on the hart, and whether the hart is idle, running, or its context saved -/
  task : Option TaskId
  halted : Bool
  haltPos : Position
  /-- a halt is asked for (R374), the cycle count at which a pre-emption was (R399), and why the task is to leave the hart -/
  haltReq : Bool
  preempt : Option Word
  leave : Option Leave
  /-- the declared feature mask of the hart's program (R372) -/
  features : Word
  /-- ctxrest restored a partition in change (R373) -/
  changed : Bool
  /-- the event bit (R413) -/
  eventBit : Bool
  /-- an exception was entered in the present step -/
  entered : Bool
  /-- issue slots used since the last wear interval (R381) -/
  slots : Nat
  /-- a throttle lock of which the hart is a member: a proposal is open, and its pairs (ceiling, n) (R408, R409) -/
  locked : Bool
  proposed : Bool
  pairs : List (BitVec 4 × Nat)
  deriving DecidableEq, Repr

/-- A hart with no task. -/
def Hart.reset : Hart where
  ug := Vector.replicate 32 0
  sg := Vector.replicate 32 0
  level := .user
  pc := 0
  q := Vector.replicate 8 []
  debt := Vector.replicate 8 {}
  tok := Vector.replicate 8 {}
  m := Vector.replicate 16 0
  v := Vector.replicate 32 0
  tag := Vector.replicate 32 {}
  nest := Vector.replicate 6 0
  csr := { lkwin := 0xBFEF0000FF00FC08 }
  gang := {}
  win := []
  loopBuf := []
  bounds := []
  loopLive := false
  wait := .none
  restart := none
  viaEret := false
  vq := []
  lq := []
  xq := []
  rf := []
  sb := []
  late := false
  due := none
  barWait := none
  task := none
  halted := false
  haltPos := {}
  haltReq := false
  preempt := none
  leave := none
  features := 0
  changed := false
  eventBit := false
  entered := false
  slots := 0
  locked := false
  proposed := false
  pairs := []

/-- The life states of a core (R404). -/
inductive Life where
  | fresh | derated | drained | retired
  deriving DecidableEq, Repr

/-- One core. -/
structure Core where
  life : Life := .fresh
  /-- the ripening record: wear units, rated life, the monitors' index, and INDEX in ‰ (R404) -/
  wu : Nat := 0
  rated : Nat := 2 ^ 64 - 1
  mon : Nat := 0
  index : Nat := 0
  /-- the carries of the four slots, as fractions (R381) -/
  carry : Vector (Nat × Nat) 4 := Vector.replicate 4 (0, 1)
  /-- the clock count at the core's reset, and how far its counter has since drifted from that count (R29, R379) -/
  epoch : Word := 0
  skew : Word := 0
  fmask : BitVec 15 := 0x7FFF
  lmap : BitVec 32 := 0x80808080
  lfsr : BitVec 16 := 1
  tlb : List TlbEntry := []
  /-- the instruction TLB of the private fetch unit -/
  itlb : List TlbEntry := []
  /-- the walk cache: addresses and words of table entries of levels 5 to 1 (R369) -/
  walk : List (Nat × Word) := []
  /-- transient errors (R119, R365) -/
  transients : Nat := 0
  /-- architectural lanes marked suspect (R185) -/
  suspect : List Nat := []
  /-- a lane's next checked result is wrong: whether it is wrong again when the instruction issues again (R185) -/
  checkErr : Option Bool := none
  deriving DecidableEq, Repr

/-- One cluster: its front end's instruction TLB, and by code line how many words had been overwritten in all when an ICINV
last covered it: its fetches return none of those (R145). -/
structure Cluster where
  itlb : List TlbEntry := []
  icinv : AMap Nat := []
  deriving DecidableEq, Repr

/-- A record of a die's fault record queue (R363). `hart` is 0xFFF for none. -/
structure FaultRecord where
  kind : Nat
  code : Nat
  hart : Nat := 0xFFF
  asid : Nat := 0
  eix : Nat := 0
  pc : Word := 0
  addr : Word := 0
  stack : Nat := 0
  slice : Nat := 0
  bank : Nat := 0
  lane : Nat := 0
  deriving DecidableEq, Repr

/-- One die. -/
structure Die where
  /-- the fault record queue, oldest first, each with its index (R362) -/
  frq : List (Nat × FaultRecord) := []
  lost : Nat := 0
  /-- the power ceiling of `vgrant` (R162, R433) -/
  pwr : BitVec 4 := 0xF
  ring : List RingEntry := []
  /-- the die is fenced (R439), and no task is placed on it (R434, R437) -/
  fenced : Bool := false
  closed : Bool := false
  /-- the hottest junction in °C, and PWR being lowered for it (R436) -/
  junction : Nat := 0
  throttled : Bool := false
  /-- the main clock is stretched; which PLL feeds it; a hop is to be tried again (R432) -/
  stretched : Bool := false
  pll : Bool := false
  hopAgain : Bool := false
  deriving DecidableEq, Repr

/-- A check granule in error: its first key, its bytes, and whether a second read meets the error again (R119). -/
structure Poison where
  key : Nat
  bytes : Nat
  persist : Bool
  deriving DecidableEq, Repr

/-- What a boot that is refused leaves for the next one to resume (R438): the live launches with the number accepted and those
completed, the address spaces, the master and its mirror, and whether that boot was a restart. -/
structure Asleep where
  launches : AMap Launch
  accepted : Nat
  recent : List (Nat × Nat)
  spaces : AMap SpaceEntry
  master : Nat
  mirror : Nat
  restart : Bool
  deriving DecidableEq, Repr

/-- The package's own registers. -/
structure Package where
  number : BitVec 11 := 0
  /-- shared scratch in steps of 16 MiB, 0 to 12 (R18) -/
  scratchSteps : Nat := 0
  /-- CXL capacity in use behind each of the four ports, in bytes; a fenced port has 0 (R426) -/
  cxl : Vector Nat 4 := Vector.replicate 4 0
  /-- packages that no route reaches, and ranges of other packages' addresses that they assign to no memory (R303, R424) -/
  unreachable : List Nat := []
  holes : List (Nat × Nat) := []
  /-- the package status word (R440): STATE, BOOT and DPRESENT; DFENCE and TJMAX are the dies' -/
  status : Nat := 0
  boot : Nat := 0
  present : BitVec 9 := 0x1FF
  /-- the master die, the die that mirrors its records, an election under way (R401), and the die served last (R391) -/
  master : Nat := 0
  mirror : Nat := 1
  electing : Bool := false
  served : Nat := 8
  /-- the host port: its link, whether it accepts messages (R434), paused priorities with what waits for
  them, congestion notifications received and sent, its drop counter, sessions, queue pairs by number, and launch records that await acceptance with their session -/
  hostUp : Bool := false
  hostOpen : Bool := true
  paused : BitVec 8 := 0
  outbox : List Outgoing := []
  congested : Nat := 0
  notified : Nat := 0
  drops : Nat := 0
  sessions : List Session := []
  qps : AMap QueuePair := []
  inbox : List (Nat × List Nat) := []
  /-- Uavor ports, CXL ports, and the routing table by package (R423, R424, R426) -/
  ports : Vector Port 32 := Vector.replicate 32 {}
  cxlPorts : Vector CxlPort 4 := Vector.replicate 4 {}
  routes : AMap Route := []
  /-- digests of the host keys (R427) -/
  keys : List Nat := []
  flash : Flash := {}
  /-- every die's clocks stand still; TRIPN is low (R436); the stacks are in self-refresh (R434, R436) -/
  stopped : Bool := false
  tripn : Bool := false
  selfRefresh : Bool := false
  /-- what a restart resumes, while boot is stopped (R428, R438) -/
  asleep : Option Asleep := none
  deriving DecidableEq, Repr

/-- What acts next where the spec leaves the order open: plain data that the step reads from the front
(DESIGN CHOICE, log entry 5). -/
inductive Turn where
  /-- an event of the opcode table -/
  | event (i : Instr)
  /-- this hart of the package acts from now on -/
  | act (hart : Nat)
  /-- the acting hart's next instruction runs -/
  | run
  /-- the acting hart's pending vector access with this place in its list performs -/
  | perform (k : Nat)
  /-- element k of the acting hart's n-th return-free operation performs -/
  | element (n k : Nat)
  /-- the front end brings the next instruction of the acting hart's path into the windows -/
  | deliver
  /-- the acting hart's scalar stores are kept back from now on, or no longer; the k-th oldest of those kept back performs -/
  | late (b : Bool)
  | storePerforms (k : Nat)
  /-- an uncorrectable error arises in a check granule -/
  | poison (p : Poison)
  /-- the next checked result of a core's lanes is wrong, once or persistently (R185) -/
  | laneError (core : Nat) (persist : Bool)
  /-- write k of those that the n-th started command of a hart's lookup or (`x`) transfer queue has still to make performs -/
  | write (hart : Nat) (x : Bool) (n k : Nat)
  /-- the n-th started command of a hart's transfer queue goes on with what is no write -/
  | work (hart n : Nat)
  /-- the next check sum of a slice's walk differs, and whether the second one does as well (R283) -/
  | checkError (stack slice : Nat) (persist : Bool)
  /-- an uncorrectable error arises in a slot or an accumulator line, in one bank (R248) -/
  | slotError (stack slice slot bank : Nat)
  | rowError (stack slice line bank : Nat)
  /-- a stack corrects a single error (R248) -/
  | corrected (stack : Nat)
  /-- bytes that another package, a CXL expander or the host writes without a row of the table of its own -/
  | outside (key n x : Nat)
  /-- a range of another package's addresses turns out to have no memory (R303) -/
  | hole (lo hi : Nat)
  deriving DecidableEq, Repr

/-- The whole machine. -/
structure State where
  /-- the acting hart's number in the package (R21) and its state -/
  cur : Nat
  me : Hart
  others : AMap Hart
  /-- the acting or another hart as it stood before a command issued, by the command's id, while the command is queued:
  younger instructions are discarded to it (R121, R270) -/
  snaps : AMap Hart
  cores : AMap Core
  clusters : AMap Cluster
  dies : AMap Die
  /-- memory by key: a global physical address, or beyond them the TCMs and cluster scratchpads -/
  mem : List Host.Cell
  /-- what stack DRAM and CXL memory still hold where the L2 holds a later byte, the dirty lines homed in CXL memory, oldest
  first, and lines that are known to be in no L2 (R18, R38, R214, R426) -/
  dram : AMap Byte
  cxlDirty : List Nat
  uncached : List Nat
  /-- the words that stores have overwritten, by key, newest first: instruction fetch may still return them (R145) -/
  oldCode : List (Nat × BitVec 32)
  poison : List Poison
  /-- the eighteen lookup stacks -/
  lkStacks : AMap Stack
  /-- open windows by number, sends on their way, and bytes counted off a group's pending bytes when they performed: launch,
  group and number (R304, R311, R313) -/
  windows : AMap OpenWindow
  sends : List Send
  counted : List (Nat × Nat × Nat)
  pkg : Package
  /-- live launches by launch number, the id and status of those completed, newest first, and the number accepted
  (R383, R387) -/
  launches : AMap Launch
  recent : List (Nat × Nat)
  accepted : Nat
  /-- address-space entries by ASID (R441), and throttle locks -/
  spaces : AMap SpaceEntry
  locks : List Lock
  /-- the count of open choices taken: it selects the next free value -/
  free : Nat
  /-- counts issued commands and the arrival of waiting harts, so that older and younger can be told -/
  seq : Nat
  /-- main clocks since reset (R28, R379) -/
  clock : Word
  /-- messages sent to the host, oldest first -/
  sent : List Message
  agenda : List Turn
  deriving DecidableEq, Repr

/-- Why the machine stops for good. -/
inductive Fault where
  /-- raised by the step after HARD_TRIP: every die's clocks stand still (R436). Safe: the spec gives the machine no
  further step before the supplies return -/
  | clocksStopped
  deriving DecidableEq, Repr

/-- Why the model has no meaning for an instruction. -/
inductive Refusal where
  /-- raised by an arm of the dispatch whose instruction has no meaning yet. Safe: the model stops -/
  | notModelled (mnemonic : String)
  deriving DecidableEq, Repr

/-- What executing an instruction answers. -/
abbrev Result := Host.Outcome State Fault Refusal

/-- The machine right after reset, before boot (R430). -/
def State.reset : State where
  cur := 0
  me := Hart.reset
  others := []
  snaps := []
  cores := []
  clusters := []
  dies := []
  mem := []
  dram := []
  cxlDirty := []
  uncached := []
  oldCode := []
  poison := []
  lkStacks := []
  windows := []
  sends := []
  counted := []
  pkg := {}
  launches := []
  recent := []
  accepted := 0
  spaces := []
  locks := []
  free := 0
  seq := 0
  clock := 0
  sent := []
  agenda := []

end Sys2Proof.Machine
end

