-- ==== Sys2Proof/Machine/Ops.lean ====
section
/-! DEFINITION. The named operations over the state: registers, memory by key, the gang, taking an exception and
returning from one, and moving to the next instruction. Each is a plain function of the state. -/

namespace Sys2Proof.Machine

/-! ### Numbers (R21) -/

/-- The core of a hart. -/
def coreOf (hart : Nat) : Nat := hart / 4
/-- The slot of a hart in its core. -/
def slotOf (hart : Nat) : Nat := hart % 4
/-- The cluster of a hart in the package. -/
def clusterOf (hart : Nat) : Nat := hart / 32
/-- The die of a hart. -/
def dieOf (hart : Nat) : Nat := hart / 256
/-- The core's place in its cluster. -/
def placeOf (hart : Nat) : Nat := hart / 4 % 8

/-! ### Parts of the state -/

/-- The acting hart changed. -/
def State.updMe (s : State) (f : Hart → Hart) : State := { s with me := f s.me }

/-- The acting hart's CSRs changed. -/
def State.updCsr (s : State) (f : Csrs → Csrs) : State := { s with me := { s.me with csr := f s.me.csr } }

/-- The acting hart's gang record changed. -/
def State.updGang (s : State) (f : Gang → Gang) : State := { s with me := { s.me with gang := f s.me.gang } }

/-- A hart by its number. -/
def State.hart (s : State) (n : Nat) : Hart := if n = s.cur then s.me else (mapGet s.others n).getD Hart.reset

/-- A hart replaced. -/
def State.setHart (s : State) (n : Nat) (h : Hart) : State :=
  if n = s.cur then { s with me := h } else { s with others := mapSet s.others n h }

/-- A hart changed. -/
def State.updHart (s : State) (n : Nat) (f : Hart → Hart) : State := s.setHart n (f (s.hart n))

/-- Another hart becomes the acting one. -/
def State.switchTo (s : State) (n : Nat) : State :=
  if n = s.cur then s
  else { s with cur := n, me := s.hart n, others := mapErase (mapSet s.others s.cur s.me) n }

/-- A core by its number. -/
def State.coreAt (s : State) (c : Nat) : Core := (mapGet s.cores c).getD {}

/-- A core changed. -/
def State.updCore (s : State) (c : Nat) (f : Core → Core) : State := { s with cores := mapSet s.cores c (f (s.coreAt c)) }

/-- `cycle`: main clocks of a core since its reset, by the core's own counter: no two cores share a time base (R29,
R379). -/
def State.cycle (s : State) (core : Nat) : Word := s.clock - (s.coreAt core).epoch + (s.coreAt core).skew

/-- The acting hart's core. -/
def State.core (s : State) : Core := s.coreAt (coreOf s.cur)

/-- A cluster by its number. -/
def State.clusterAt (s : State) (c : Nat) : Cluster := (mapGet s.clusters c).getD {}

/-- A cluster changed. -/
def State.updCluster (s : State) (c : Nat) (f : Cluster → Cluster) : State :=
  { s with clusters := mapSet s.clusters c (f (s.clusterAt c)) }

/-- A die by its number. -/
def State.dieAt (s : State) (d : Nat) : Die := (mapGet s.dies d).getD {}

/-- A die changed. -/
def State.updDie (s : State) (d : Nat) (f : Die → Die) : State := { s with dies := mapSet s.dies d (f (s.dieAt d)) }

/-! ### Open choices -/

/-- One of `n` possibilities, chosen by the free value of this place. -/
def State.pick (s : State) (salt n : Nat) : Nat := if n ≤ 1 then 0 else Config.freeNat s.free salt % n

/-- The next count of open choices. -/
def State.bump (s : State) : State := { s with free := s.free + 1 }

/-- One of the values of a list, chosen freely where they differ. -/
def State.pickOf {α : Type} [DecidableEq α] (s : State) (salt : Nat) (x : α) (l : List α) : α :=
  if l.all (· = x) then x else (x :: l).getD (s.pick salt (l.length + 1)) x

/-! ### Registers -/

/-- A register of a file of 2^w by its number. -/
def fileGet {α : Type} {w : Nat} (r : BitVec w) (v : Vector α (2 ^ w)) : α := v[r.toNat]'r.isLt

/-- A register of a file of 2^w replaced. -/
def fileSet {α : Type} {w : Nat} (r : BitVec w) (v : Vector α (2 ^ w)) (x : α) : Vector α (2 ^ w) := v.set r.toNat x r.isLt

/-- The g register of the bank of the hart's level; g0 reads as zero (R34, R351). -/
def Hart.g (h : Hart) (r : BitVec 5) : Word :=
  if r = 0 then 0 else
    match h.level with
    | .user => fileGet (w := 5) r h.ug
    | .supervisor => fileGet (w := 5) r h.sg

/-- A write of a g register; a write to g0 is discarded (R34). -/
def Hart.setG (h : Hart) (r : BitVec 5) (x : Word) : Hart :=
  if r = 0 then h else
    match h.level with
    | .user => { h with ug := fileSet (w := 5) r h.ug x }
    | .supervisor => { h with sg := fileSet (w := 5) r h.sg x }

/-- The acting hart's g register. -/
def State.g (s : State) (r : BitVec 5) : Word := s.me.g r

/-- A write of the acting hart's g register. -/
def State.setG (s : State) (r : BitVec 5) (x : Word) : State := { s with me := s.me.setG r x }

/-- The sticky flags with new ones raised (R84). -/
def State.raiseFlags (s : State) (f : FFlags) : State := s.updCsr fun c => { c with fflags := c.fflags ||| f }

/-- The tag of a vector register. -/
def Hart.tagOf (h : Hart) (r : BitVec 5) : Tag := fileGet (w := 5) r h.tag

/-- A mask register. -/
def Hart.mask (h : Hart) (r : BitVec 4) : BitVec 2048 := fileGet (w := 4) r h.m

/-- A nest register by its number, 0 to 5. -/
def Hart.nestAt (h : Hart) (n : Nat) : BitVec 128 := h.nest.toList.getD n 0

/-- The bound of a nest record (R65). -/
def nestBound (r : BitVec 128) : Nat := (r.extractLsb' 0 32).toNat
/-- Stride A of a nest record, in bytes. -/
def nestA (r : BitVec 128) : Int := (r.extractLsb' 32 32).toInt
/-- Stride B of a nest record. -/
def nestB (r : BitVec 128) : Int := (r.extractLsb' 64 32).toInt
/-- Stride C of a nest record. -/
def nestC (r : BitVec 128) : Int := (r.extractLsb' 96 32).toInt

/-! ### Fault records (R362, R363) -/

/-- The lowest index of a die's queue that no record holds. -/
def freeIndex (l : List (Nat × FaultRecord)) (fuel i : Nat) : Nat :=
  match fuel with
  | 0 => i
  | fuel + 1 => if l.any (·.1 = i) then freeIndex l fuel (i + 1) else i

/-- The four words of a record (R363). -/
def FaultRecord.words (r : FaultRecord) : List Nat :=
  [r.eix * 2 ^ 48 + r.asid * 2 ^ 32 + r.hart * 2 ^ 16 + r.code * 2 ^ 8 + r.kind, r.pc.toNat, r.addr.toNat,
   r.stack * 2 ^ 24 + r.slice * 2 ^ 16 + r.bank * 2 ^ 8 + r.lane]

/-! ### What leaves by the host port (R417 to R420) -/

/-- The priority class in which something leaves (R417). -/
def Outgoing.priority (o : Outgoing) : Nat :=
  match o with
  | .message m => Config.priority m.type % 8
  | .write qp _ _ | .answer qp _ => Config.priority (16 + qp) % 8
  | .notice _ => Config.priority 0 % 8

/-- It is a write or an answer on a queue pair. -/
def Outgoing.onPair (o : Outgoing) (qp : Nat) : Bool :=
  match o with
  | .message _ | .notice _ => false
  | .write k _ _ | .answer k _ => k == qp

/-- It leaves: a message for the host, a write or an answer on its queue pair, or a notification (R417 to R419, R422). -/
def State.emit (s : State) (o : Outgoing) : State :=
  match o with
  | .message m => { s with sent := s.sent ++ [m] }
  | .write qp addr l =>
    match mapGet s.pkg.qps qp with
    | some q => { s with pkg := { s.pkg with qps := mapSet s.pkg.qps qp { q with written := q.written ++ [(addr, l)] } } }
    | none => s
  | .answer qp ack =>
    match mapGet s.pkg.qps qp with
    | some q => { s with pkg := { s.pkg with qps := mapSet s.pkg.qps qp { q with answers := q.answers ++ [ack] } } }
    | none => s
  | .notice _ => { s with pkg := { s.pkg with notified := s.pkg.notified + 1 } }

/-- Something leaves while the host port's link is up, or waits while its priority is paused (R417). -/
def State.transmit (s : State) (o : Outgoing) : State :=
  if !s.pkg.hostUp then s
  else if s.pkg.paused = 0 || !s.pkg.paused.getLsbD o.priority then s.emit o
  else { s with pkg := { s.pkg with outbox := s.pkg.outbox ++ [o] } }

/-- A message leaves on a session, with the next sequence number, and awaits its acknowledgement (R419, R420). -/
def State.sendOn (s : State) (k type : Nat) (body : List Nat) : State :=
  match s.pkg.sessions[k]? with
  | none => s
  | some x =>
    let m : Message := { session := k, type, seq := x.next, ack := x.expect - 1, body }
    ({ s with pkg := { s.pkg with sessions := s.pkg.sessions.set k { x with next := x.next + 1, unacked := x.unacked ++ [m] } } }).transmit
      (.message m)

/-- An event message on every session (R419; DESIGN CHOICE, log entry 81). -/
def State.tellHost (s : State) (body : List Nat) : State :=
  (List.range s.pkg.sessions.length).foldl (fun t k => t.sendOn k 10 body) s

/-- A record enters a die's queue, or is lost when it holds 4,096; the second part says whether it was written. The
host is told of each record written by an event message (R419). -/
def State.faultRecord (s : State) (die : Nat) (r : FaultRecord) : State × Bool :=
  let d := s.dieAt die
  if 4096 ≤ d.frq.length then (s.updDie die fun d => { d with lost := d.lost + 1 }, false)
  else
    ((s.updDie die fun d => { d with frq := d.frq ++ [(freeIndex d.frq 4096 0, r)] }).tellHost (r.words.flatMap (leBytes 8)), true)

/-! ### Memory by key -/

/-- Where a local offset lies (R213). -/
inductive Region where
  | stack (σ off : Nat)
  /-- the control window of a stack (R255) -/
  | window (σ off : Nat)
  /-- the reserved save area of a die (R398) -/
  | saveArea (die off : Nat)
  | shared (die off : Nat)
  | tcm (off : Nat)
  | scratch (off : Nat)
  | cxl (off : Nat)
  | absent
  deriving DecidableEq, Repr

/-- The row of R213 that assigns a local offset, before sizes set at boot are looked at. -/
def regionOf (off : Nat) : Region :=
  if off < 0x12000000000 then
    let σ := off / 0x1000000000
    let o := off % 0x1000000000
    if 0xC00000000 ≤ o then .absent
    else if 0xBFF000000 ≤ o then .window σ (o - 0xBFF000000)
    else if σ % 2 = 0 ∧ 0xBFA000000 ≤ o then .saveArea (σ / 2) (o - 0xBFA000000)
    else .stack σ o
  else if 0x14000000000 ≤ off ∧ off < 0x14900000000 then
    let o := (off - 0x14000000000) % 0x100000000
    if o < 192 * 0x100000 then .shared ((off - 0x14000000000) / 0x100000000) o else .absent
  else if 0x1F000000000 ≤ off ∧ off < 0x1F000040000 then .tcm (off - 0x1F000000000)
  else if 0x1F001000000 ≤ off ∧ off < 0x1F001400000 then .scratch (off - 0x1F001000000)
  else if 0x40000000000 ≤ off ∧ off < 0x80000000000 then .cxl (off - 0x40000000000)
  else .absent

/-- The package number of a global physical address (R212). -/
def gpaPackage (gpa : Nat) : Nat := gpa / 2 ^ 45
/-- The local offset of a global physical address (R212). -/
def gpaOffset (gpa : Nat) : Nat := gpa % 2 ^ 45

/-- The first key of a core's TCM, which lies above every global physical address. -/
def tcmBase (core : Nat) : Nat := 2 ^ 56 + core * 2 ^ 18
/-- The first key of a cluster's scratchpad. -/
def scratchBase (cluster : Nat) : Nat := 2 ^ 57 + cluster * 2 ^ 22

/-- Whether a global physical address names another package. -/
def State.isRemote (s : State) (gpa : Nat) : Bool := gpaPackage gpa != s.pkg.number.toNat

/-- The memory key of a global physical address as a core accesses it, or none where the access fault of R118 arises:
no row of R213 assigns it, it lies beyond the shared scratch or CXL capacity in use, or in a reserved save area, or it
names TCM or scratchpad of another package. At user level the control window faults as well (R255). -/
def State.keyOf (s : State) (core : Nat) (lvl : Level) (gpa : Nat) : Option Nat :=
  match regionOf (gpaOffset gpa) with
  | .stack .. => some gpa
  | .window .. => if lvl = .supervisor then some gpa else none
  | .saveArea .. => none
  | .shared _ o => if s.isRemote gpa || o < s.pkg.scratchSteps * 0x1000000 then some gpa else none
  | .tcm o => if s.isRemote gpa then none else some (tcmBase core + o)
  | .scratch o => if s.isRemote gpa then none else some (scratchBase (core / 8) + o)
  | .cxl o => if s.isRemote gpa || o % 2 ^ 40 < s.pkg.cxl.toList.getD (o / 2 ^ 40) 0 then some gpa else none
  | .absent => none

/-- Whether a key lies in the stack memory of a package: the memory that lookups and bank operations reach. -/
def keyInStack (key : Nat) : Bool :=
  if key < 2 ^ 56 then
    match regionOf (gpaOffset key) with
    | .stack .. => true
    | _ => false
  else false

/-- The CXL port behind which a key lies, where it lies in CXL memory. -/
def keyCxl (key : Nat) : Option Nat :=
  if key < 2 ^ 56 then
    match regionOf (gpaOffset key) with
    | .cxl o => some (o / 2 ^ 40)
    | _ => none
  else none

/-- Whether an L2 caches the memory at a key: stack memory and CXL memory, at the die where they are homed (R18, R214). -/
def keyCached (key : Nat) : Bool := keyInStack key || (keyCxl key).isSome

/-- The check granule of the memory at a key, in bytes (R214). -/
def granuleOf (key : Nat) : Nat :=
  if 2 ^ 56 ≤ key then 4
  else
    match regionOf (gpaOffset key) with
    | .cxl _ => 64
    | _ => 32

/-- A stack by its number. -/
def State.stackAt (s : State) (n : Nat) : Stack := (mapGet s.lkStacks n).getD {}

/-- A stack changed. -/
def State.updStack (s : State) (n : Nat) (f : Stack → Stack) : State :=
  { s with lkStacks := mapSet s.lkStacks n (f (s.stackAt n)) }

/-- Where a key lies in a control window of this package: the stack, the window's row and slice, and the byte in the
slice line (R240, R255). -/
def State.windowAt (s : State) (key : Nat) : Option (Nat × Nat × Nat × Nat) :=
  if 2 ^ 56 ≤ key || gpaPackage key != s.pkg.number.toNat then none
  else
    match regionOf (gpaOffset key) with
    | .window σ o => some (σ, o / 0x100000, o % 0x100000 / 0x8000, o % 0x8000)
    | _ => none

/-- A byte at its home. The words of a command area that the lookup-issue unit owns read as a free value (R325). -/
def State.byteAt (s : State) (key : Nat) : Byte :=
  match s.windowAt key with
  | some (σ, row, j, o) => BitVec.ofNat 8 ((s.stackAt σ).windowByte (Config.freeNat s.free (key / 8)) j row o)
  | none => memGet s.mem key

/-- n bytes read one by one. -/
def State.readBytes (s : State) (key n : Nat) : Nat :=
  match n with
  | 0 => 0
  | n + 1 => (s.byteAt key).toNat + 256 * s.readBytes (key + 1) n

/-- Bytes at their home, L2 copies included: of memory, or of a control window (R255). -/
def State.read (s : State) (key n : Nat) : Nat :=
  if (s.windowAt key).isSome || (s.windowAt (key + n - 1)).isSome then s.readBytes key n else memRead s.mem key n

/-- A byte as stack DRAM holds it, beneath the L2 (R214, R220). -/
def State.dramByte (s : State) (key : Nat) : Byte := (mapGet s.dram key).getD (memGet s.mem key)

/-- Bytes as stack DRAM holds them. -/
def State.dramRead (s : State) (key n : Nat) : Nat :=
  match n with
  | 0 => 0
  | n + 1 => (s.dramByte key).toNat + 256 * s.dramRead (key + 1) n

/-- The old DRAM bytes kept for bytes that the L2 is about to change; a byte that is dirty already keeps its own. -/
def noteDram (mem : List Host.Cell) (dram : AMap Byte) (key n : Nat) : AMap Byte :=
  match n with
  | 0 => dram
  | n + 1 =>
    noteDram mem (if (mapGet dram key).isSome then dram else mapSet dram key (memGet mem key)) (key + 1) n

/-- The DRAM image forgets what it held beneath `n` bytes: they stand in DRAM as at their home. -/
def cleanDram (dram : AMap Byte) (key n : Nat) : AMap Byte := dram.filter fun e => !(key ≤ e.1 && e.1 < key + n)

/-- The first key of the 64-byte line that holds a key (R214). -/
def lineOf (key : Nat) : Nat := key / 64 * 64

/-- The lines of n bytes from a key. -/
def linesOf (key n : Nat) : List Nat := (List.range ((key + n + 63) / 64 - key / 64)).map fun i => 64 * (key / 64 + i)

/-- A line written back to DRAM: no byte of it is dirty any more (R214, R220). -/
def State.cleanLine (s : State) (key : Nat) : State :=
  { s with dram := cleanDram s.dram (lineOf key) 64, cxlDirty := s.cxlDirty.filter (· ≠ lineOf key) }

/-- A line is dirty. -/
def State.dirtyLine (s : State) (line : Nat) : Bool := s.dram.any fun e => line ≤ e.1 && e.1 < line + 64

/-- The lines known to be in no L2 but for those of n bytes. -/
def stillUncached (l : List Nat) (key n : Nat) : List Nat := if l.isEmpty then l else l.filter fun x => !(linesOf key n).contains x

/-- Lines are in their L2 from now on, as far as is known (R214). -/
def State.allocate (s : State) (key n : Nat) : State := { s with uncached := stillUncached s.uncached key n }

/-- The DRAM image and the dirty lines homed in CXL memory, oldest first, after a store: the oldest behind a port are written
back beyond 4 MiB, the limit of the die that hosts it (R426). -/
def limitCxl (dram : AMap Byte) (dirty : List Nat) (key n : Nat) : AMap Byte × List Nat :=
  match keyCxl key with
  | none => (dram, dirty)
  | some port =>
    let lines := dirty ++ (linesOf key n).filter fun l => !dirty.contains l
    let here := lines.filter fun l => keyCxl l = some port
    (here.take (here.length - 65536)).foldl (fun x l => (cleanDram x.1 l 64, x.2.filter (· ≠ l))) (dram, lines)

/-- The words of memory that a store overwrites, by key (R145). -/
def overwritten (mem : List Host.Cell) (key n : Nat) : List (Nat × BitVec 32) :=
  (List.range ((key + n + 3) / 4 - key / 4)).map fun i => (4 * (key / 4 + i), BitVec.ofNat 32 (memRead mem (4 * (key / 4 + i)) 4))

/-- Two ranges of bytes meet. -/
def overlap (key n key' n' : Nat) : Bool := decide (key < key' + n') && decide (key' < key + n)

/-- Whether an uncorrectable error lies in the granule of some of `n` bytes. -/
def Poison.hits (p : Poison) (key n : Nat) : Bool := p.key < key + n && key < p.key + p.bytes

/-- The check granules in which poisoned bytes lie: the first key of the first, and the bytes of all (R214). -/
def Poison.span (p : Poison) : Nat × Nat :=
  let g := granuleOf p.key
  (p.key / g * g, (p.key + p.bytes + g - 1) / g * g - p.key / g * g)

/-- A write covers the check granules of poisoned bytes whole: it replaces their data and check bits (R119). -/
def Poison.covered (p : Poison) (key n : Nat) : Bool := decide (key ≤ p.span.1) && decide (p.span.1 + p.span.2 ≤ key + n)

/-- A granule that a write covers whole is no longer poisoned (R119). -/
def clearPoison (l : List Poison) (key n : Nat) : List Poison := l.filter fun p => !p.covered key n

/-- A store of n bytes that reaches a bank's row which the check unit's first replay of a walk read is noted (R283, R240). -/
def Stack.noteRow (t : Stack) (off n : Nat) : Stack :=
  { t with watch := t.watch.map fun w =>
      if w.rows.any fun r => overlap off n (r * 0x100000 + w.slice * 0x8000 + w.bank * 0x400) 0x400 then { w with dirty := true } else w }

/-- The stacks after a store of n bytes to stack memory. -/
def State.noteRows (s : State) (key n : Nat) : AMap Stack :=
  if keyInStack key && gpaPackage key == s.pkg.number.toNat then
    s.lkStacks.map fun e => if e.1 = gpaOffset key / 0x1000000000 then (e.1, e.2.noteRow (gpaOffset key % 0x1000000000) n) else e
  else s.lkStacks

/-- Bytes written to memory at their home: the L2 line becomes dirty where the memory is cached there, fetch may still
return the old words, and granules covered whole lose their error. -/
def State.storeMem (s : State) (key n x : Nat) : State :=
  let d := limitCxl (if keyCached key then noteDram s.mem s.dram key n else s.dram) s.cxlDirty key n
  { s with
    mem := memWrite s.mem key n x
    dram := d.1
    cxlDirty := d.2
    uncached := stillUncached s.uncached key n
    oldCode := overwritten s.mem key n ++ s.oldCode
    lkStacks := s.noteRows key n
    poison := clearPoison s.poison key n }

/-- Bytes written at their home: in memory, or in a control window, whose words have effects of their own (R255). -/
def State.store (s : State) (key n x : Nat) : State :=
  match s.windowAt key with
  | some (σ, row, j, o) => s.updStack σ fun t => t.windowStore j row o n x
  | none => s.storeMem key n x

/-- The bytes of lines that stand in DRAM as at their home. -/
def State.cleanBytes (s : State) (key n : Nat) : State :=
  let d := cleanDram s.dram key n
  { s with dram := d, cxlDirty := s.cxlDirty.filter fun l => d.any fun e => l ≤ e.1 && e.1 < l + 64 }

/-- Bytes written to stack DRAM and the home L2 together, as the transfer engine does (R220). -/
def State.storeThrough (s : State) (key n x : Nat) : State := (s.store key n x).cleanBytes key n

/-- Bytes stored with the hint streaming (R38, R214, R221). A line that the L2 does not hold is not allocated there: the bytes
go to DRAM. The L2 holds a dirty line certainly, a line known to be in none certainly not, and otherwise either is so. -/
def State.storeStream (s : State) (key n x : Nat) : State :=
  let misses (l : Nat) : Bool := !s.dirtyLine l && (s.uncached.contains l || s.pick (key + 3) 2 = 1)
  let lines := if keyCached key then (linesOf key n).filter misses else []
  lines.foldl (fun t l =>
    { (t.cleanLine l) with uncached := if s.uncached.contains l then l :: t.uncached.filter (· ≠ l) else t.uncached })
    (s.store key n x)

/-- The smaller of two numbers, where there are any. -/
def minId (a : Option Nat) (b : Nat) : Option Nat :=
  match a with
  | none => some b
  | some x => some (min x b)

/-- The access of a vector instruction returns data to the lanes, so that an error in it is handled by R230. -/
def VOp.returns (o : VOp) : Bool :=
  match o.op with
  | .ld | .lds | .ldx | .ldff | .ldseg | .amoadd | .amomin | .amomax | .amoswap => true
  | _ => false

/-- The item can neither trap nor be stopped any more: all its groups have issued, and what has not performed returns nothing,
so that scalar accesses behind it are not ordered after it (R174, R230, R235, R346). -/
def VItem.firm (i : VItem) : Bool :=
  match i.work with
  | .convoy l => l.all fun m => m.done && (m.pend.isEmpty || !m.op.returns)
  | _ => false

/-- The oldest instruction of the hart, by its place in program order, that has issued and can still trap or be stopped:
a queued engine command that has not started, or a vector instruction that has not issued whole or may still meet an error
(R121, R174, R230, R270). -/
def Hart.oldestOpen (h : Hart) : Option Nat :=
  (((h.lq ++ h.xq).filter fun c => !c.started).map (·.id) ++ (h.vq.filter fun i => !i.firm).map (·.id)).foldl minId none

/-- Some older instruction of the hart may still cause everything younger to be discarded. -/
def Hart.speculative (h : Hart) : Bool := h.oldestOpen.isSome

/-- A store that covers only part of a granule in error leaves it poisoned, and a record of it is written with its PC and
address (R119, R363). -/
def State.recordPoisoned (s : State) (key n : Nat) (pc va : Word) : State :=
  if s.poison.any fun p => p.persist && overlap p.span.1 p.span.2 key n && !p.covered key n then
    (s.faultRecord (dieOf s.cur) { kind := 2, code := 0x15, hart := s.cur, asid := s.me.csr.asid.toNat, pc, addr := va }).1
  else s

/-- A record of a die's queue is removed if it is the hart's (R364). -/
def State.removeRecord (s : State) (i : Nat) : State :=
  s.updDie (dieOf s.cur) fun d => { d with frq := d.frq.filter fun e => !(e.1 = i && e.2.hart = s.cur) }

/-- A store performs, with the record that a scalar store may leave, or an acknowledgement takes effect. -/
def State.performKept (s : State) (e : Kept) : State :=
  match e.ack, e.note with
  | some i, _ => s.removeRecord i
  | none, some (pc, va) => (s.recordPoisoned e.key e.bytes pc va).store e.key e.bytes e.value
  | none, none => s.store e.key e.bytes e.value

/-- A store of the acting hart's own streams. While an older instruction can still cause it to be discarded, the store
is kept back: it performs once that is no longer so, or later still where stores of the hart are late. `note` is a scalar
store's PC and address. -/
def State.storeMe (s : State) (key n x : Nat) (note : Option (Word × Word)) : State :=
  let e : Kept := { before := s.seq, key, bytes := n, value := x, note }
  if s.me.speculative || s.me.late then s.updMe fun h => { h with sb := e :: h.sb } else s.performKept e

/-- The byte that a kept-back store holds for a key, newest first. -/
def sbByte (l : List Kept) (key : Nat) : Option Byte :=
  match l with
  | [] => none
  | e :: t => if e.key ≤ key ∧ key < e.key + e.bytes then some (BitVec.ofNat 8 (e.value / 256 ^ (key - e.key))) else sbByte t key

/-- The errors that a load of the acting hart can meet: a kept-back store of its own that covers a granule whole has
replaced it (R119, R120). -/
def State.poisonMe (s : State) : List Poison :=
  s.poison.filter fun p => !s.me.sb.any fun e => p.covered e.key e.bytes

/-- Bytes as the acting hart's own loads read them: its own kept-back stores are seen (R120). -/
def State.readMe (s : State) (key n : Nat) : Nat :=
  match n with
  | 0 => 0
  | n + 1 => ((sbByte s.me.sb key).getD (s.byteAt key)).toNat + 256 * s.readMe (key + 1) n

/-- A kept-back store can no longer be discarded. -/
def Hart.ready (h : Hart) (e : Kept) : Bool :=
  match h.oldestOpen with
  | some id => e.before ≤ id
  | none => true

/-- Kept-back stores that no older instruction can discard any more perform, oldest first, and acknowledgements take
effect. -/
def State.flushStores (s : State) : State :=
  (s.me.sb.reverse.foldl (fun t e => if s.me.ready e then t.performKept e else t) s).updMe fun h =>
    { h with sb := h.sb.filter fun e => !s.me.ready e }

/-- Scalar stores that have been kept back perform before an access that must follow them. -/
def State.inOrder (s : State) : State := if s.me.sb.isEmpty then s else s.flushStores

/-- The same, unless the hart's stores are late. -/
def State.commitStores (s : State) : State := if s.me.late then s else s.flushStores

/-- The place from which element k of a list must be taken first, where an earlier element that meets a later one goes
before it: the first of a chain of such elements that ends in k. -/
def dueFirst {α : Type} (meets : α → α → Bool) (l : List α) : Nat → Nat → Nat
  | 0, k => k
  | fuel + 1, k =>
    match l[k]? with
    | none => k
    | some x =>
      match findIdx (meets x) (l.take k) with
      | some (j, _) => dueFirst meets l fuel j
      | none => k

/-- The k-th oldest of the kept-back stores performs, if nothing can discard it: with other scalar accesses of the hart it
has no order but at the same bytes (R120, R346). -/
def State.performStore (s : State) (k : Nat) : State :=
  let l := s.me.sb.reverse
  let k := dueFirst (fun a b => overlap a.key a.bytes b.key b.bytes) l k k
  match l[k]? with
  | some e => if s.me.ready e then (s.performKept e).updMe fun h => { h with sb := (l.eraseIdx k).reverse } else s
  | none => s

/-- A transient error met by a read is gone on the re-read and is counted (R119, R365). -/
def State.clearTransient (s : State) (key n : Nat) : State :=
  let hit := (s.poison.filter fun p => !p.persist && p.hits key n).length
  if hit = 0 then s
  else
    { (s.updCore (coreOf s.cur) fun c => { c with transients := c.transients + hit }) with
      poison := s.poison.filter fun p => p.persist || !p.hits key n }

/-! ### Pending vector accesses -/

/-- Bits of a vector register replaced. -/
def depositV (v : BitVec 16384) (off w x : Nat) : BitVec 16384 := BitVec.ofNat 16384 (setBits v.toNat (off + w - 1) off x)

/-- A bank operation on two elements of a format: bop 1 to 6 of R40, with R315's rounding and wrapping. -/
def bankOp (bop : Nat) (f : Fmt) (rm : RM) (a b : Nat) : FRes :=
  match bop with
  | 1 => if f.cls == .float then addNum f rm (f.decode a) (f.decode b) else { bits := (a + b) % 2 ^ f.width }
  | 2 => { bits := if f.cls == .float then minMaxBits f false a b else if f.int b < f.int a then b else a }
  | 3 => { bits := if f.cls == .float then minMaxBits f true a b else if f.int a < f.int b then b else a }
  | 4 => { bits := a &&& b }
  | 5 => { bits := a ||| b }
  | _ => { bits := a ^^^ b }

/-- The bop code that does what a VAMO's or a VSCRED's function does; vamoswap has none (R333, R334). -/
def amoBop (swap : Bool) (fn : Nat) : Option Nat :=
  match fn with
  | 0 => some 1
  | 1 => some 2
  | 2 => some 3
  | _ => if swap then none else some 5

/-- A list in an order of free choice. -/
def shuffle {α : Type} (pick : Nat → Nat) (fuel : Nat) (l : List α) : List α :=
  match fuel with
  | 0 => l
  | fuel + 1 =>
    match l with
    | [] => []
    | [x] => [x]
    | x :: t =>
      let k := pick fuel % (t.length + 1)
      (x :: t).getD k x :: shuffle pick fuel ((x :: t).eraseIdx k)

/-- The places in program order of the instructions in the hart's queues. -/
def Hart.ids (h : Hart) : List Nat := (h.lq ++ h.xq).map (·.id) ++ h.vq.map (·.id)

/-- The acting hart changed by an instruction of its vector unit: what that instruction and younger ones would go back to
changes with it, so that entries moved to a q register stay when a stop gives it back what younger instructions took (DESIGN
CHOICE, log entry 85). -/
def State.updVector (s : State) (id : Nat) (f : Hart → Hart) : State :=
  { s with me := f s.me, snaps := s.snaps.map fun e => if s.me.ids.contains e.1 && id ≤ e.1 then (e.1, f e.2) else e }

/-- Bits of a vector register replaced. -/
def Hart.deposit (h : Hart) (r : BitVec 5) (off w x : Nat) : Hart :=
  { h with v := fileSet (w := 5) r h.v (depositV (fileGet (w := 5) r h.v) off w x) }

/-- Bytes written as poisoned data: a later load of them meets a lasting error (R119, R302). -/
def State.poisonBytes (s : State) (key n : Nat) : State :=
  { s with poison := { key, bytes := n, persist := true } ::
      (clearPoison s.poison key n).filter fun p => !(p.key = key && p.bytes = n) }

/-- An element of nma that lies in two pages: its four bytes, each by its key, are updated in one action (R335). -/
def State.addSplit (s : State) (keys : List Nat) (y : Nat) : State :=
  let old := keys.foldr (fun k x => s.read k 1 + 256 * x) 0
  let new := (addNum .f32 .rne (Fmt.f32.decode old) (Fmt.f32.decode y)).bits
  ((List.range keys.length).zip keys).foldl (fun t e => t.store e.2 1 (new / 256 ^ e.1 % 256)) s

/-- One access of the instruction with an id performs at its home: a load fixes its register's bytes (R235). Of what returns
data a transient error is gone on the second reading, and counted (R230). -/
def State.performAccess (s : State) (id : Nat) (a : Access) : State :=
  let s := if a.kind.returns then s.clearTransient a.key a.bytes else s
  let old := s.read a.key a.bytes
  match a.kind with
  | .load r off => s.updVector id (·.deposit r off (8 * a.bytes) old)
  | .store x => s.store a.key a.bytes x
  | .stream x => s.storeStream a.key a.bytes x
  | .bankLoad bop f rm y r off => s.updVector id (·.deposit r off (8 * a.bytes) (bankOp bop f rm old y).bits)
  | .bankStore bop f rm y stream =>
    let x := (bankOp bop f rm old y).bits
    if stream then s.storeStream a.key a.bytes x else s.store a.key a.bytes x
  | .amo fn f rm y r off =>
    let x : FRes := match amoBop true fn with
      | some bop => bankOp bop f rm old y
      | none => { bits := y }
    (s.store a.key a.bytes x.bits).updVector id fun h =>
      { h.deposit r off (8 * a.bytes) old with csr := { h.csr with fflags := h.csr.fflags ||| x.fl } }
  | .scred fn f rm l =>
    let order := if fn = 0 ∧ f.cls = .float ∧ 2 ≤ l.length then
        shuffle (fun k => Config.freeNat s.free (a.key + k)) (l.length + 1) (old :: l)
      else old :: l
    s.store a.key a.bytes (order.tail.foldl (fun x y => (bankOp ((amoBop false fn).getD 5) f rm x y).bits) (order.headD old))
  | .near y => s.store a.key a.bytes (addNum .f32 .rne (Fmt.f32.decode old) (Fmt.f32.decode y)).bits
  | .nearSplit y keys => s.addSplit keys y
  | .expr prog i inputs =>
    match parseProg prog with
    | some p => s.store a.key a.bytes (p.update i (inputs.map fun k => s.read k a.bytes) old)
    | none => s
  | .poison => s.poisonBytes (a.key / granuleOf a.key * granuleOf a.key) (granuleOf a.key)

/-- The accesses of an instruction perform in their order: the order within a strip is open (R235), and this is one. -/
def State.performList (s : State) (id : Nat) (l : List Access) : State := l.foldl (fun t a => t.performAccess id a) s

/-- The accesses of a convoy's members that have not performed. -/
def VItem.pending (i : VItem) : List Access :=
  match i.work with
  | .convoy l => l.flatMap (·.pend)
  | _ => []

/-- A load from memory. -/
def VOpc.isLoad (o : VOpc) : Bool :=
  match o with
  | .ld | .lds | .ldx | .ldff | .ldseg => true
  | _ => false

/-- A store of its vd register. -/
def VOpc.isStore (o : VOpc) : Bool :=
  match o with
  | .st | .sts | .stx | .stseg => true
  | _ => false

/-- A store pair of a bank operation, whose elements are return-free (R317). -/
def VOp.returnFree (o : VOp) : Bool := o.bank.isSome && o.op.isStore

/-- The word of a notify store that counts the elements below one, where it has not been written yet: its key and value
(R234). -/
def Notify.word (n : Notify) (next : Nat) : Option (Nat × Nat) :=
  match n.key with
  | some k => if n.last < next then some (k, (n.c0 + BitVec.ofNat 64 next).toNat) else none
  | none => none

/-- The progress word that a member has to write now that its issued windows have performed. That of a store pair waits
for the elements at their homes. -/
def Member.progress (m : Member) : Option (Nat × Nat) :=
  if m.pend.isEmpty && !m.op.returnFree then m.nfy.bind fun n => n.word m.next else none

/-- A member whose issued window has performed: its pins are released (R226) and its progress stands written. -/
def Member.settled (m : Member) : Member :=
  if m.pend.isEmpty then { m with pins := [], nfy := m.nfy.map fun n => { n with last := max n.last m.next } } else m

/-- An item with its members changed. -/
def VItem.mapMembers (i : VItem) (f : Member → Member) : VItem :=
  match i.work with
  | .convoy l => { i with work := .convoy (l.map f) }
  | _ => i

/-- The members of an item. -/
def VItem.members (i : VItem) : List Member :=
  match i.work with
  | .convoy l => l
  | _ => []

/-- The entries that a member pins: those of its window, and a notify store's progress word to its end (R226, R234). -/
def Member.pinned (m : Member) : List TlbEntry :=
  m.pins ++ if m.done && m.pend.isEmpty then [] else (m.nfy.bind (·.entry)).toList

/-- The entries that a hart's vector memory instructions and store pairs pin (R226, R231, R317). -/
def Hart.pinned (h : Hart) : List TlbEntry :=
  (h.vq.flatMap fun i => i.members.flatMap (·.pinned)) ++ h.rf.flatMap (·.pins)

/-- Every group of every member of an item has issued. -/
def VItem.issuedAll (i : VItem) : Bool :=
  match i.work with
  | .convoy l => l.all (·.done)
  | _ => false

/-- Whether the item has retired: every member has issued all of its groups, and every access has performed. -/
def VItem.retired (i : VItem) : Bool :=
  match i.work with
  | .convoy l => l.all fun m => m.done && m.pend.isEmpty
  | _ => false

/-- Snapshots of instructions that have left the hart's queues are dropped. -/
def State.dropSnaps (s : State) (ids : List Nat) : State :=
  if ids.isEmpty then s else { s with snaps := s.snaps.filter fun e => !ids.contains e.1 }

/-- The member at which an ERET arrived has retired: `vpcm` is cleared (R229). -/
def State.clearLanes (s : State) : State :=
  match s.me.vq with
  | i :: _ =>
    match i.members with
    | m :: _ =>
      if m.clears && m.done && m.pend.isEmpty then
        (s.updVector i.id fun h => { h with csr := { h.csr with vpcm := 0 } }).updMe fun h =>
          { h with vq := h.vq.map fun x => if x.id = i.id then x.mapMembers fun m => { m with clears := false } else x }
      else s
    | [] => s
  | [] => s

/-- Retired items leave the head of the vector queue. -/
def State.retireVector (s : State) : State :=
  let s := s.clearLanes
  let n := (s.me.vq.takeWhile (·.retired)).length
  if n = 0 then s
  else ((s.dropSnaps ((s.me.vq.take n).map (·.id))).updMe fun h => { h with vq := h.vq.drop n }).commitStores

/-- Windows whose accesses have all performed are closed: their progress words are written and their pins released; what is
then complete retires (R226, R234), and scalar stores that nothing holds back perform. -/
def State.closeWindows (s : State) : State :=
  ((((s.me.vq.flatMap (·.members)).filterMap (·.progress)).foldl (fun u p => u.store p.1 8 p.2) s).updMe fun h =>
    { h with vq := h.vq.map fun i => i.mapMembers (·.settled) }).retireVector.commitStores

/-- The issued accesses of the items that are asked for perform. -/
def State.settleWhere (s : State) (p : Nat → Bool) : State :=
  (((s.me.vq.filter fun i => p i.id).foldl (fun t i => t.performList i.id i.pending) s).updMe fun h =>
    { h with vq := h.vq.map fun i => if p i.id then i.mapMembers fun m => { m with pend := [] } else i }).closeWindows

/-- Every access of the vector queue that has issued performs, and what is then complete retires. -/
def State.settleVector (s : State) : State := s.settleWhere fun _ => true

/-! ### Gangs (R122 to R131) -/

/-- The harts of a hart's gang: its slot on the cluster's eight cores. -/
def gangHarts (hart : Nat) : List Nat := (List.range 8).map fun j => 32 * clusterOf hart + 4 * j + slotOf hart

/-- The attached members, lowest core first. -/
def State.attachedSet (s : State) (hart : Nat) : List Nat :=
  (gangHarts hart).filter fun x => (s.hart x).gang.state = .attached && (s.hart x).task.isSome

/-- The head: the lowest-numbered attached core (R123). -/
def State.gangHead (s : State) (hart : Nat) : Option Nat := (s.attachedSet hart).head?

/-- A waiting hart attaches at its JOIN with an empty window: it has executed it, and a join.t writes 1 (R130). With STEP it
then halts (R376). `now` is the clock where the attached set is made of it and others (R131). -/
def Hart.attachAt (h : Hart) (now : Option Word) : Hart :=
  let h' := match h.gang.joinT with
    | some (d, _) => h.setG d 1
    | none => h
  { h' with pc := h.pc + 4, wait := .none, restart := none, win := [], haltReq := h.haltReq || h.csr.step
            gang := { h.gang with state := .attached, joinT := none, holdPc := h.pc,
                                  formed := now.map fun t => (t, h.gang.joinT.map fun e => (e.1, h.g e.1, e.2)) } }

/-- The harts waiting in a JOIN of a gang. -/
def State.waitingSet (s : State) (hart : Nat) : List Nat := (gangHarts hart).filter fun x => (s.hart x).gang.state = .waiting

/-- Every hart of the gang that waits at this ASID, tag and PC attaches (R130, R131). -/
def State.attachWaiting (s : State) (hart : Nat) (asid : BitVec 9) (tag : BitVec 12) (pc : Word) (now : Option Word := none) : State :=
  (s.waitingSet hart).foldl (fun t x =>
    let h := t.hart x
    if h.csr.asid = asid ∧ h.gang.joinTag = tag ∧ h.pc = pc then t.setHart x (h.attachAt now) else t) s

/-- When the attached set is empty, the hart that has waited longest, in clocks, becomes head, and those at its JOIN attach
with it; ties go to the lowest core (R131). -/
def State.settleGang (s : State) (hart : Nat) : State :=
  if (s.attachedSet hart).isEmpty then
    match (s.waitingSet hart).foldl (fun (best : Option Nat) x =>
        match best with
        | none => some x
        | some y => if s.clock - (s.hart y).gang.joinSince < s.clock - (s.hart x).gang.joinSince then some x else some y) none with
    | none => s
    | some x => s.attachWaiting hart (s.hart x).csr.asid (s.hart x).gang.joinTag (s.hart x).pc
  else s

/-- A hart leaves its gang's attached set or stops waiting, with a cause of R125. -/
def State.detachHart (s : State) (n : Nat) (cause : BitVec 4) : State :=
  let h := s.hart n
  if h.gang.state = .detached then s
  else
    (s.setHart n { h with wait := if h.gang.state = .waiting then .none else h.wait
                          gang := { h.gang with state := .detached, cause, hold := none, joinT := none, formed := none, icinv := none } }).settleGang n

/-- The acting hart leaves its gang. -/
def State.detach (s : State) (cause : BitVec 4) : State := s.detachHart s.cur cause

/-- Each hart's event bit is set by what R413 lists. -/
def Hart.setEvent (h : Hart) : Hart := { h with eventBit := true }

/-! ### Taking an exception and returning from one (R356 to R361) -/

/-- The code of a cause (R357). -/
def Cause.code : Cause → Nat
  | .illegalInstruction => 0x01 | .illegalPrefix => 0x02 | .featureAbsent => 0x03 | .privilege => 0x04
  | .illegalConvoy => 0x05 | .illegalTag => 0x06 | .illegalTagCombination => 0x07 | .misalignedGroup => 0x08
  | .illegalScope => 0x09 | .illegalLength => 0x0A | .illegalOverlap => 0x0B | .illegalLoopBody => 0x0C
  | .lookupOperand => 0x0D | .transferOperand => 0x0E | .syncOperand => 0x0F | .misalignedAccess => 0x10
  | .pageFault => 0x11 | .protectionFault => 0x12 | .tierMiss => 0x13 | .accessFault => 0x14 | .poisonedData => 0x15
  | .laneCheck => 0x16 | .queueDeadlock => 0x17 | .tokenDeadlock => 0x18 | .ringFull => 0x19 | .syscall => 0x1A
  | .brk => 0x1B

/-- `tcause` of an exception (R356). -/
def causeWord (int : Bool) (lost fetch : Bool) (code : Nat) : Word :=
  BitVec.ofNat 64 ((if int then 2 ^ 63 else 0) + (if lost then 512 else 0) + (if fetch then 256 else 0) + code)

/-- The one step of exception entry (R358): the hart detaches, the position, cause and VAL are saved, the level before
goes to PP, and the hart continues at supervisor level at `tvec`. -/
def State.enter (s : State) (cause val : Word) (pos : Position) : State :=
  (s.detach 4).updMe fun h =>
    { h with
      csr := { h.csr with tpc := pos.pc &&& ~~~3, eix := pos.eix, vsidx := pos.vsidx, vpcm := pos.lanes,
                          tcause := cause, tval := val, pp := h.level }
      level := .supervisor
      pc := h.csr.tvec &&& ~~~3
      win := []
      loopBuf := []
      loopLive := false
      wait := .none
      restart := none
      due := none
      entered := true }

/-- The halt of a hart: its position is recorded apart from the CSRs, and it detaches (R374). -/
def State.haltAt (s : State) (pos : Position) : State :=
  (s.detach 4).updMe fun h =>
    { h with halted := true, haltPos := pos, haltReq := false, win := [], loopBuf := [], wait := .none, restart := none, due := none,
             entered := true }

/-- The record of a double trap (R360, R363). -/
def State.doubleTrap (s : State) (t : Trap) : State :=
  ((s.faultRecord (dieOf s.cur)
      { kind := 8, code := t.cause.code, hart := s.cur, asid := s.me.csr.asid.toNat, eix := t.pos.eix.toNat, pc := t.pos.pc,
        addr := if 0x10 ≤ t.cause.code ∧ t.cause.code ≤ 0x15 then t.val else 0 }).1).haltAt t.pos

/-- What is due is done: a trap is entered, or is a double trap at supervisor level; an interrupt is entered and clears
UIE; a halt takes effect (R358, R359, R360, R374). A system call has retired, so with STEP the hart halts behind it, at
the handler's first instruction (R376; DEDUCED, log entry 57). -/
def State.deliver (s : State) : Due → State
  | .trap t =>
    if s.me.level = .supervisor ∧ t.cause ≠ .syscall then s.doubleTrap t
    else
      let u := s.enter (causeWord false t.lost t.fetch t.cause.code) t.val t.pos
      if t.cause = .syscall ∧ u.me.csr.step then u.haltAt { pc := u.me.pc } else u
  | .interrupt code pos => (s.enter (causeWord true false false code) 0 pos).updCsr fun c => { c with uie := false }
  | .halt pos => s.haltAt pos

/-- Every vector instruction and engine command of the hart has retired. -/
def Hart.quiet (h : Hart) : Bool := h.lq.isEmpty && h.xq.isEmpty && h.vq.isEmpty

/-- A discarded instruction waits in its gang no more: a wait in a JOIN ends as a detach with cause 4 (R121, R130, R144). -/
def Gang.discarded (g : Gang) : Gang :=
  { g with state := if g.state = .waiting then .detached else g.state, cause := if g.state = .waiting then 4 else g.cause,
           joinT := none, icinv := none }

/-- Something becomes due at the acting hart: it is done at once if nothing of the hart is outstanding, and otherwise
when the last vector instruction and engine command before it has retired (R121, R270, R299). A JOIN or ICINV at which the
hart waits is then discarded. -/
def State.post (s : State) (d : Due) : State :=
  if s.me.quiet then s.deliver d else s.updMe fun h => { h with due := some d, wait := .none, gang := h.gang.discarded }

/-- The position of the instruction at the PC, where nothing of it has been done since an ERET or a resumption. -/
def State.stopHere (s : State) : Position := s.me.restart.getD { pc := s.me.pc }

/-- The position of the instruction at the PC, from its first element. -/
def State.here (s : State) : Position := { pc := s.me.pc }

/-- VAL of a decode trap is the instruction word (R357). -/
def wordVal (w : BitVec 32) : Word := w.setWidth 64

/-- The instruction at the PC waits; it has not executed. -/
def State.stall (s : State) (w : Wait) : State := s.updMe fun h => { h with wait := w }

/-- Whether a loop replays from a PC: ACTIVE, and the PC is that of the body word that issues next (R140). -/
def Csrs.loopAt (c : Csrs) (pc : Word) : Bool := c.loop.active && pc == c.lbase + BitVec.ofNat 64 (4 * c.loop.word.toNat)

/-- Return from an exception, or from a halt, to a position (R361, R140, R177, R375). -/
def Hart.resumeAt (h : Hart) (pos : Position) (viaEret : Bool) : Hart :=
  let live := h.csr.loopAt pos.pc
  { h with
    pc := pos.pc
    win := []
    loopBuf := []
    loopLive := live
    csr := if live then h.csr else { h.csr with loop := { word := h.csr.loop.word } }
    restart := some pos
    viaEret
    wait := .none }

/-! ### Moving on -/

/-- The bound of a dimension of the loop in progress: as its LOOPN read it (R167), or from the nest register where trap code
has run a loop of its own since (DEDUCED, log entry 78). -/
def Hart.bound (h : Hart) (d : Nat) : Nat := h.bounds.getD d (nestBound (h.nestAt d))

/-- The indices of a loop after the last body word: each dimension that has reached its bound returns to 0 and the
next one advances; none when all have (R137). -/
def loopWrap (h : Hart) (n d : Nat) (lix : List (BitVec 32)) : Option (List (BitVec 32)) :=
  match n with
  | 0 => none
  | n + 1 =>
    let i := lix.getD d 0
    if i.toNat + 1 = h.bound d then loopWrap h n (d + 1) (lix.set d 0) else some (lix.set d (i + 1))

/-- A vector of six loop indices from a list. -/
def lixOf (l : List (BitVec 32)) : Vector (BitVec 32) 6 := Vector.ofFn fun i => l.getD i.val 0

/-- The window after n words have issued from it: words of a later iteration come from the loop buffer (R124, R137). -/
def Hart.issueWords (h : Hart) (n : Nat) : List Entry :=
  match h.win with
  | [] => []
  | e :: _ => if e.pc = h.pc then h.win.drop n else h.win

/-- The entries of a window; the two words of a pair take one place (R41, R124). -/
def Hart.occ (h : Hart) : Nat := (h.win.filter fun e => !e.second).length

/-- The hart moves past an instruction of `n` words: to the following word, or within a live loop as R137 gives. -/
def Hart.advance (h : Hart) (n : Nat) : Hart :=
  let h := { h with wait := .none, restart := none, win := h.issueWords n }
  if h.loopLive && h.csr.loop.active then
    let w := h.csr.loop.word.toNat + n
    if w < h.csr.loop.len.toNat then
      { h with pc := h.pc + BitVec.ofNat 64 (4 * n), csr := { h.csr with loop := { h.csr.loop with word := BitVec.ofNat 4 w } } }
    else
      match loopWrap h h.csr.loop.depth.toNat 0 h.csr.lix.toList with
      | some lix => { h with pc := h.csr.lbase, csr := { h.csr with loop := { h.csr.loop with word := 0 }, lix := lixOf lix } }
      | none =>
        { h with pc := h.csr.lbase + BitVec.ofNat 64 (4 * h.csr.loop.len.toNat), loopLive := false, bounds := [],
                 csr := { h.csr with loop := {}, lix := lixOf ((List.range 6).map fun d =>
                            if d < h.csr.loop.depth.toNat then 0 else h.csr.lix.toList.getD d 0) } }
  else { h with pc := h.pc + BitVec.ofNat 64 (4 * n) }

/-- A waiting join.t whose limit has passed: it writes 0 and goes on, detached with cause 7 (R130). With STEP the hart then
halts (R376). -/
def Hart.timeOut (h : Hart) : Hart :=
  match h.gang.joinT with
  | none => h
  | some (d, _) =>
    let t := (h.setG d 0).advance 1
    { t with gang := { h.gang with state := .detached, cause := 7, joinT := none }, haltReq := h.haltReq || h.csr.step }

/-! ### Stopping: interrupts and halts (R174, R270, R299, R359, R374) -/

/-- A hart changed otherwise than by its scalar stream, with the snapshots of its queued instructions. -/
def State.updAsync (s : State) (n : Nat) (f : Hart → Hart) : State :=
  let h := s.hart n
  { s.updHart n f with snaps := s.snaps.map fun e => if h.ids.contains e.1 then (e.1, f e.2) else e }

/-- A hart changed by the retirement of an engine command: what younger instructions would go back to changes with it. -/
def State.updAfter (s : State) (n id : Nat) (f : Hart → Hart) : State :=
  let h := s.hart n
  { s.updHart n f with snaps := s.snaps.map fun e => if h.ids.contains e.1 && id < e.1 then (e.1, f e.2) else e }

/-- The hart past convoy members that have retired: beyond their words, with a notify store's positions counted. -/
def Hart.past (h : Hart) (vl : Nat) (l : List Member) : Hart :=
  match l with
  | [] => h
  | m :: t =>
    if m.done && m.pend.isEmpty then
      let n := h.advance m.words
      Hart.past (if m.nfy.isSome then { n with csr := { n.csr with vpcnt := n.csr.vpcnt + BitVec.ofNat 64 vl } } else n) vl t
    else h

/-- The commands of a queue that stay when an instruction and everything younger are discarded: older ones, and those that
have started, which run to retirement (R270, R299). Of a younger one, the instruction counts as discarded: it runs again,
and writes no gd now. -/
def keptCmds (id : Nat) (l : List ECmd) : List ECmd :=
  (l.filter fun c => c.started || c.id < id).map fun c => if id ≤ c.id then { c with d := 0 } else c

/-- The acting hart goes back to where an instruction issued: it and everything younger are discarded, but for the first
members of a convoy that have retired, and commands that have started. Quads that it gave up are its own again (R155; DESIGN
CHOICE, log entry 88). -/
def State.rollbackTo (s : State) (id : Nat) : State :=
  match mapGet s.snaps id with
  | none => s
  | some h =>
    let gone := s.me.ids.filter fun i => id ≤ i
    let h' := match s.me.vq.find? (·.id = id) with
      | some { work := .convoy l, ctx, .. } => h.past ctx.vl l
      | _ => h
    { s with
      me := { h' with lq := keptCmds id s.me.lq, xq := keptCmds id s.me.xq, vq := s.me.vq.filter (·.id < id)
                      sb := s.me.sb.filter (·.before ≤ id), rf := s.me.rf, gang := s.me.gang.discarded, win := s.me.win, late := s.me.late
                      haltReq := s.me.haltReq, preempt := s.me.preempt, leave := s.me.leave, slots := s.me.slots, due := none }
      snaps := s.snaps.filter fun e => !gone.contains e.1 }

/-- The position of convoy members in issue (R174, R176): that of the oldest unretired one, from its first element not
yet issued. -/
def memberPosition (l : List Member) : Position :=
  match l.dropWhile (·.done) with
  | [] => {}
  | m :: rest =>
    { pc := m.pc
      eix := BitVec.ofNat 11 m.next
      vsidx := BitVec.ofNat 35 (rest.length * 2 ^ 33 + (rest.map (·.next)).foldr (fun n acc => n % 2048 + 2048 * acc) 0)
      lanes := m.lanes }

/-- The resumable position of a vector queue entry. -/
def VItem.position (i : VItem) : Position :=
  match i.work with
  | .convoy l => memberPosition l
  | _ => { pc := i.pc }

/-- The resumable position where nothing older is open. A wait in WFE resumes after it (R414), a barrier's wait after
the bar, where the PC stands already (R341); any other wait resumes at its own instruction. -/
def Hart.position (h : Hart) : Position :=
  if h.wait = .event then { pc := h.pc + 4 } else h.restart.getD { pc := h.pc }

/-- The position of the oldest open instruction of the hart, by its id. -/
def Hart.openPosition (h : Hart) (id : Nat) : Position :=
  match h.vq.find? (·.id = id) with
  | some i => i.position
  | none =>
    match (h.lq ++ h.xq).find? (·.id = id) with
    | some c => { pc := c.pc }
    | none => { pc := h.pc }

/-- The lowest interrupt that is pending and enabled, at user level with UIE = 1 (R359). -/
def Hart.takeable (h : Hart) : Option Nat :=
  if h.level = .user ∧ h.csr.uie then
    let p := h.csr.pend &&& h.csr.en
    if p.getLsbD 0 then some 0 else if p.getLsbD 1 then some 1 else if p.getLsbD 2 then some 2 else none
  else none

/-- The task is to leave and the hart may be stopped for it: at user level, or wherever it stands (R397, R399). -/
def Hart.mustLeave (h : Hart) : Bool :=
  match h.leave with
  | none => false
  | some .preempt => h.level = .user
  | some _ => true

/-- What is due is done once every engine command of the hart has retired. -/
def State.deliverDue (s : State) : State :=
  match s.me.due with
  | some d => if s.me.quiet then (s.updMe fun h => { h with due := none }).deliver d else s
  | none => s

/-- An interrupt becomes pending at a hart, which sets its event bit (R359, R413). -/
def State.raiseInterrupt (s : State) (hart code : Nat) : State :=
  s.updAsync hart fun h => ({ h with csr := { h.csr with pend := h.csr.pend ||| BitVec.ofNat 3 (2 ^ code) } }).setEvent

/-! ### Conditions of transfer commands (R303) -/

/-- A report reaches a hart's `xerr` and `xepc`; conditions 1, 3 and 7 also write a record to the die's queue (R303, R363). -/
def State.reportTransfer (s : State) (hart : Nat) (pc : Word) (cond pkg addr : Nat) : State :=
  let t := s.updAsync hart fun h =>
    let e := h.csr.xerr.toNat
    let count := min 0xFFFF (e / 2 ^ 48 + 1)
    let first := if e % 2 = 1 then e % 2 ^ 48 else pkg % 2048 * 2 ^ 32 + cond * 2 ^ 8 + 1
    { h with csr := { h.csr with xerr := BitVec.ofNat 64 (count * 2 ^ 48 + first),
                                 xepc := if e % 2 = 1 then h.csr.xepc else pc &&& ~~~3 } }
  if cond = 1 ∨ cond = 3 ∨ cond = 7 then
    (t.faultRecord (dieOf hart)
      { kind := 6, code := cond, hart, asid := (s.hart hart).csr.asid.toNat, pc, addr := BitVec.ofNat 64 addr }).1
  else t

/-- A key lies in memory of a fenced stack or die of this package: writes of engines to it are dropped (condition 7). -/
def State.fencedKey (s : State) (key : Nat) : Bool :=
  if 2 ^ 56 ≤ key || gpaPackage key != s.pkg.number.toNat then false
  else
    match regionOf (gpaOffset key) with
    | .stack σ _ | .window σ _ => (s.stackAt σ).fenced
    | .shared d _ => (s.dieAt d).fenced
    | _ => false

/-- A key of another package that it assigns to no memory: writes to it are dropped (condition 8). -/
def State.holeKey (s : State) (key : Nat) : Bool :=
  decide (key < 2 ^ 56) && gpaPackage key != s.pkg.number.toNat && s.pkg.holes.any fun h => h.1 ≤ key && key < h.2

/-- The condition under which an engine's write to a key is dropped. -/
def State.dropCond (s : State) (key : Nat) : Option Nat :=
  if s.fencedKey key then some 7 else if s.holeKey key then some 8 else none

/-- The package that a key names. -/
def State.keyPackage (s : State) (key : Nat) : Nat := if key < 2 ^ 56 then gpaPackage key else s.pkg.number.toNat

/-! ### The next instruction -/

/-- What a vector instruction takes from the scalar stream at issue. -/
def Hart.vctx (h : Hart) : VCtx :=
  let quads := below 4 fun k => h.csr.quads.toList.getD k .free == .owned || h.csr.quads.toList.getD k .free == .leaving
  { vl := h.csr.vl.toNat, tags := h.tag, rm := h.csr.vrm, lanes := 16 * quads.length, quads }

/-- Work enters the vector dispatch queue behind what is there; the hart's state before the instruction is kept, so that
the instruction and everything younger can still be discarded. -/
def State.enqueue (s : State) (pc : Word) (ctx : VCtx) (w : VWork) (before : Hart) : State :=
  { s with me := { s.me with vq := s.me.vq ++ [{ id := s.seq, pc, ctx, work := w }] }
           snaps := mapSet s.snaps s.seq before
           seq := s.seq + 1 }

/-- The places that an entry of the vector queue takes (R100). -/
def VItem.places (i : VItem) : Nat :=
  match i.work with
  | .convoy l => l.length
  | _ => 1

/-- The vector queue is full (R100). -/
def Hart.vqFull (h : Hart) : Bool := 32 ≤ (h.vq.map (·.places)).sum

/-- Nothing older stands before a vector instruction that would issue now. -/
def Hart.vectorFree (h : Hart) : Bool := h.vq.isEmpty && !h.speculative

/-- The acting hart moves past an instruction of one word. -/
def State.next (s : State) : State := { s with me := s.me.advance 1 }

/-- A result written and the hart moved on: the shape of most scalar instructions. -/
def State.write (s : State) (d : BitVec 5) (x : Word) : State := (s.setG d x).next

end Sys2Proof.Machine
end

