-- ==== Sys2Proof/Machine/Translate.lean ====
section
/-! DEFINITION. Translation of virtual addresses, its caches, and instruction fetch (R366 to R369, R118, R132, R145). -/

namespace Sys2Proof.Machine

/-- What an access asks of its translation (R367). `probe` checks no permission (ICINV, R144). -/
inductive Kind where
  | fetch | load | store | both | probe
  deriving DecidableEq, Repr

/-- A level of the walk: its number, the shift of its index field and the width of that field (R366). -/
def walkLevels : List (Nat × Nat × Nat) := [(5, 57, 7), (4, 48, 9), (3, 39, 9), (2, 30, 9), (1, 21, 9), (0, 16, 5)]

/-- The GPA bits [55:12] of an entry (R367). -/
def entryAddr (e : Nat) : Nat := bits e 55 12 * 4096

/-- An entry that a walk refuses at a level (R367): V = 0, a reserved bit, LEAF at levels 3 to 5 or none at level 0, or
a leaf that is not aligned to its page. -/
def badEntry (lvl shift e : Nat) : Bool :=
  !bit e 0 || bits e 63 56 != 0 || bits e 11 8 != 0 || (bit e 1 && 3 ≤ lvl) || (!bit e 1 && lvl == 0) ||
  (bit e 1 && entryAddr e % 2 ^ shift != 0)

/-- The table entry at a key as the walk may see it: memory's word, or an older one that the walk cache still holds. -/
def State.entry (s : State) (core key : Nat) : Nat :=
  let now := s.read key 8
  s.pickOf key now (((s.coreAt core).walk.filter (·.1 = key)).map fun e => e.2.toNat)

/-- A load from a key meets a package that stays unreachable, and so an access fault (R424). -/
def State.unreached (s : State) (key : Nat) : Bool := decide (key < 2 ^ 56) && s.pkg.unreachable.contains (gpaPackage key)

/-- A walk from a table's address through the remaining levels: the leaf's page size, word and key, or the cause. The
entries it read on the way come with it, for the walk cache. Each is read as a supervisor load reads (R119, R367, R424). -/
def State.walk (s : State) (core va : Nat) : List (Nat × Nat × Nat) → Nat → List (Nat × Word) →
    Except Cause (Nat × Nat × Nat × List (Nat × Word))
  | [], _, _ => .error .pageFault
  | (lvl, shift, width) :: rest, table, seen =>
    match s.keyOf core .supervisor (table + va / 2 ^ shift % 2 ^ width * 8) with
    | none => .error .accessFault
    | some key =>
      if s.unreached key then .error .accessFault
      else if s.poison.any fun p => p.persist && p.hits key 8 then .error .poisonedData
      else
        let e := s.entry core key
        if badEntry lvl shift e then .error .pageFault
        else if bit e 1 then .ok (shift, e, key, seen)
        else s.walk core va rest (entryAddr e) ((key, BitVec.ofNat 64 e) :: seen)

/-- An entry of a TLB that translates an address: its ASID, or G, and its page (R368). -/
def TlbEntry.covers (t : TlbEntry) (asid : BitVec 9) (va : Nat) : Bool :=
  (t.asid == asid || t.leaf.getLsbD 7) && va / 2 ^ t.size * 2 ^ t.size == t.va

/-- A translation that an access used: the physical address, the leaf, what the caches now may hold, and the leaf's key
where a walk read it. -/
structure Xlate where
  gpa : Nat
  entry : TlbEntry
  seen : List (Nat × Word) := []
  leafKey : Option Nat := none
  deriving DecidableEq, Repr

/-- The physical address of an address under a cached leaf. -/
def TlbEntry.gpa (t : TlbEntry) (va : Nat) : Nat := entryAddr t.leaf.toNat + va % 2 ^ t.size

/-- The translation of an address before permissions: by a walk of the tables, or by a cached entry. Where the two differ,
each access may use either, a fault of the walk among them, until a TLBINV covers the page (R368). -/
def State.lookup (s : State) (core : Nat) (tlb : List TlbEntry) (asid : BitVec 9) (root : Word) (va : Nat) :
    Except Cause Xlate :=
  let fresh : Except Cause Xlate :=
    match s.walk core va walkLevels (entryAddr root.toNat) [] with
    | .error c => .error c
    | .ok (size, e, key, seen) =>
      let t : TlbEntry := { asid, va := va / 2 ^ size * 2 ^ size, size, leaf := BitVec.ofNat 64 e }
      .ok { gpa := t.gpa va, entry := t, seen, leafKey := some key }
  match tlb.filter (·.covers asid va) with
  | [] => fresh
  | t :: ts =>
    let cached : List (Except Cause Xlate) := (t :: ts).map fun t => .ok { gpa := t.gpa va, entry := t }
    let known : Bool := match fresh with
      | .ok x => (t :: ts).contains x.entry
      | .error _ => false
    let all := if known then cached else fresh :: cached
    all.getD (s.pick va all.length) fresh

/-- The permission that an access needs and its leaf lacks (R367). -/
def denied (leaf : Word) (k : Kind) (lvl : Level) : Bool :=
  (lvl == .user && !leaf.getLsbD 5) ||
  match k with
  | .fetch => !leaf.getLsbD 4
  | .load => !leaf.getLsbD 2
  | .store => !leaf.getLsbD 3
  | .both => !(leaf.getLsbD 2 && leaf.getLsbD 3)
  | .probe => false

/-- Items 2 to 5 of R118 for one address: page fault, protection fault, tier-miss, access fault. An engine's accesses
raise no tier-miss (R213, R322). The answer is the memory key and the translation used. -/
def State.translate (s : State) (core : Nat) (tlb : List TlbEntry) (asid : BitVec 9) (root : Word) (lvl : Level)
    (engine : Bool) (k : Kind) (va : Nat) : Except Cause (Nat × Xlate) :=
  match s.lookup core tlb asid root va with
  | .error c => .error c
  | .ok x =>
    let leaf := x.entry.leaf
    let tier := leaf.getLsbD 6
    let inCxl : Bool := match regionOf (gpaOffset x.gpa) with | .cxl _ => true | _ => false
    if k != .probe && denied leaf k lvl then .error .protectionFault
    else if k != .probe && tier && inCxl && lvl == .user && !engine then .error .tierMiss
    else if k != .probe && tier && !inCxl then .error .accessFault
    else
      match s.keyOf core lvl x.gpa with
      | none => .error .accessFault
      | some key => .ok (key, x)

/-- A data access of the acting hart. One that loads from a package that stays unreachable raises an access fault
(R424). -/
def State.xlate (s : State) (k : Kind) (va : Word) : Except Cause (Nat × Xlate) :=
  match s.translate (coreOf s.cur) s.core.tlb s.me.csr.asid s.me.csr.ptroot s.me.level false k va.toNat with
  | .error c => .error c
  | .ok (key, x) =>
    if (k = .load ∨ k = .both) ∧ s.unreached key then .error .accessFault
    else .ok (key, x)

/-- The core's TLB and walk cache after a translation. The replacement rule is open (R368): the oldest entry goes, and
events may drop any. -/
def Core.touch (c : Core) (x : Xlate) : Core :=
  { c with tlb := (x.entry :: c.tlb.filter (· ≠ x.entry)).take 512
           walk := (x.seen ++ c.walk.filter fun e => !x.seen.contains e).take 64 }

/-- Transient errors that the walk of a translation met in table entries are cleared and counted (R119, R367). -/
def State.walked (s : State) (x : Xlate) : State :=
  (x.leafKey.toList ++ x.seen.map (·.1)).foldl (fun t key => t.clearTransient key 8) s

/-- The keys of the table entries that a walk reads before it ends or fails. -/
def State.walkKeys (s : State) (core va : Nat) : List (Nat × Nat × Nat) → Nat → List Nat
  | [], _ => []
  | (lvl, shift, width) :: rest, table =>
    match s.keyOf core .supervisor (table + va / 2 ^ shift % 2 ^ width * 8) with
    | none => []
    | some key =>
      let e := s.entry core key
      if s.unreached key || s.poison.any (fun p => p.persist && p.hits key 8) || badEntry lvl shift e || bit e 1 then [key]
      else key :: s.walkKeys core va rest (entryAddr e)

/-- Transient errors that the walk of a translation which ends in a fault met in table entries are cleared and counted as well
(R119, R367). -/
def State.walkFailed (s : State) (core : Nat) (tlb : List TlbEntry) (va : Nat) : State :=
  let keys : List Nat := match s.lookup core tlb s.me.csr.asid s.me.csr.ptroot va with
    | .ok x => x.leafKey.toList ++ (x.seen.map (·.1))
    | .error _ => s.walkKeys core va walkLevels (entryAddr s.me.csr.ptroot.toNat)
  keys.foldl (fun t key => t.clearTransient key 8) s

/-- The same for a data access of the acting hart. -/
def State.xlateFailed (s : State) (va : Word) : State := s.walkFailed (coreOf s.cur) s.core.tlb va.toNat

/-- A translation used by the acting hart's core. -/
def State.touch (s : State) (x : Xlate) : State := (s.walked x).updCore (coreOf s.cur) (·.touch x)

/-- The instruction TLB of the hart: its cluster front end's while it is attached, its core's private fetch unit's
otherwise (R368). -/
def State.fetchTlb (s : State) : List TlbEntry :=
  if s.me.gang.state = .attached then (s.clusterAt (clusterOf s.cur)).itlb else s.core.itlb

/-- The core whose near memories a fetch means: the head's for a fetch by the front end (R367). -/
def State.fetchCore (s : State) : Nat :=
  if s.me.gang.state = .attached then coreOf ((s.gangHead s.cur).getD s.cur) else coreOf s.cur

/-- What a fetch delivers: the word, and the translation that its caches now hold. -/
structure Fetched where
  word : BitVec 32
  key : Nat
  x : Xlate
  deriving DecidableEq, Repr

/-- The words that fetch in a cluster may return for the one at a key: those that stores have overwritten since an ICINV of the
cluster last covered its line (R145). -/
def State.staleWords (s : State) (cluster key : Nat) : List (BitVec 32) :=
  let since := (mapGet (s.clusterAt cluster).icinv (key / 64)).getD 0
  ((s.oldCode.take (s.oldCode.length - since)).filter (·.1 = key)).map (·.2)

/-- The word at an address as instruction fetch reads it, or the cause of its fetch fault (R132, R367). A word that a store
has overwritten may be the old one or the new one (R145). -/
def State.fetch (s : State) (pc : Word) : Except Cause Fetched :=
  match s.translate s.fetchCore s.fetchTlb s.me.csr.asid s.me.csr.ptroot s.me.level false .fetch pc.toNat with
  | .error c => .error c
  | .ok (key, x) =>
    if s.poison.any fun p => p.persist && p.hits key 4 then .error .poisonedData
    else
      .ok { word := s.pickOf key (BitVec.ofNat 32 (s.read key 4)) (s.staleWords (clusterOf s.cur) key), key, x }

/-- The instruction TLB after a fetch: the cluster front end's, or the core's private fetch unit's (R368). -/
def State.touchFetch (s : State) (f : Fetched) : State :=
  let t := (s.walked f.x).clearTransient f.key 4
  let used (l : List TlbEntry) := (f.x.entry :: l.filter (· ≠ f.x.entry)).take 64
  if s.me.gang.state = .attached then t.updCluster (clusterOf s.cur) fun c => { c with itlb := used c.itlb }
  else t.updCore (coreOf s.cur) fun c => { c with itlb := used c.itlb }

/-! ### Precise traps of the scalar stream -/

/-- The cause is one of an access, met at or behind its translation (R118). -/
def Cause.ofAccess (c : Cause) : Bool := decide (0x11 ≤ c.code) && decide (c.code ≤ 0x15)

/-- The instruction at the PC takes a precise trap, without effect. -/
def State.trap (s : State) (cause : Cause) (val : Word) : State :=
  (if cause.ofAccess then s.xlateFailed val else s).post (.trap { cause, val, pos := s.here })

/-- The same for a fault of a fetch (R132, R357). -/
def State.trapFetch (s : State) (cause : Cause) (val : Word) : State :=
  (s.walkFailed s.fetchCore s.fetchTlb val.toNat).post (.trap { cause, val, fetch := true, pos := s.here })

end Sys2Proof.Machine
end

