-- ==== Sys2Proof/Machine/Operands.lean ====
section
/-! DEFINITION. Operand forms of the scalar instructions: immediates, addresses and floating-point operands
(R35, R49, R103, R117), and the placement of vector elements in their registers (R157). -/

namespace Sys2Proof.Machine

/-- VAL of a decode-class trap: the instruction's word, from its fields (R357). -/
def fieldsVal (f : Fields) : Word := f.pack.setWidth 64

/-- The index of the lowest 1 of a number from bit i on, within `fuel` bits; i + fuel where there is none. -/
def trailFrom (a : Nat) (fuel i : Nat) : Nat :=
  match fuel with
  | 0 => i
  | fuel + 1 => if bit a i then i else trailFrom a fuel (i + 1)

/-- The number of 1 bits among the low n. -/
def popFrom (a n : Nat) : Nat :=
  match n with
  | 0 => 0
  | n + 1 => popFrom a n + (if bit a n then 1 else 0)

/-- imm12 as a 64-bit value (R35). -/
def imm12 (i : BitVec 12) : Word := i.signExtend 64

/-- LUI's and AUIPC's value: imm20 above twelve zero bits, sign-extended (R35). -/
def upper20 (i : BitVec 20) : Word := (i ++ (0 : BitVec 12)).signExtend 64

/-- The distance of a JAL (R35). -/
def jalOff (i : BitVec 20) : Word := i.signExtend 64 * 4

/-- The distance of a branch (R35). -/
def branchOff (i : BitVec 12) : Word := i.signExtend 64 * 4

/-- The address gs1 + imm12 (R117). -/
def State.addr (s : State) (a : BitVec 5) (i : BitVec 12) : Word := s.g a + imm12 i

/-- The format of a scalar floating-point instruction (R49). -/
def ffmt : FFmt → Fmt
  | .f32 => .f32
  | .f64 => .f64

/-- A floating-point operand's bits: f32 stands in bits [31:0] (R103). -/
def State.fbits (s : State) (f : FFmt) (r : BitVec 5) : Nat :=
  match f with
  | .f32 => (s.g r).toNat % 2 ^ 32
  | .f64 => (s.g r).toNat

/-- A floating-point operand's value. -/
def State.fval (s : State) (f : FFmt) (r : BitVec 5) : Num := (ffmt f).decode (s.fbits f r)

/-- A floating-point result as a register holds it: an f32 result sets bits [63:32] to ones (R49). -/
def fbox (f : FFmt) (b : Nat) : Word :=
  match f with
  | .f32 => BitVec.ofNat 64 (0xFFFFFFFF00000000 + b % 2 ^ 32)
  | .f64 => BitVec.ofNat 64 b

/-! ### Elements (R157) -/

/-- The number of quads that carry the hart's lanes: owned or leaving (R152). -/
def Csrs.quadsHeld (c : Csrs) : Nat := (c.quads.toList.filter fun q => q = .owned ∨ q = .leaving).length

/-- The hart's lane count L (R152). -/
def Hart.lanes (h : Hart) : Nat := 16 * h.csr.quadsHeld

/-- The granted length in force (R165). -/
def Hart.vl (h : Hart) : Nat := h.csr.vl.toNat

/-- The group factor of a tag. -/
def Tag.group (t : Tag) : Nat := 2 ^ t.grp.toNat

/-- The largest element count of a format and group factor on L lanes (R157). -/
def vlmax (lanes width group : Nat) : Nat := lanes * 256 / width * group

/-- Where element i of a group lies: the register's distance from the group's first, and the bit in it (R157). -/
def elemPlace (lanes width i : Nat) : Nat × Nat :=
  let byte := i / lanes * (width / 8)
  (byte / 32, 256 * (i % lanes) + 8 * (byte % 32))

/-- A vector register by a number below 32. -/
def Hart.vreg (h : Hart) (r : Nat) : BitVec 16384 := h.v.toList.getD r 0

/-- Element i of the group at register r, of a width, on L lanes. -/
def Hart.elem (h : Hart) (lanes : Nat) (r : BitVec 5) (width i : Nat) : Nat :=
  let p := elemPlace lanes width i
  bits (h.vreg (r.toNat + p.1)).toNat (p.2 + width - 1) p.2

/-- Element i of the group at register r replaced. -/
def Hart.setElem (h : Hart) (lanes : Nat) (r : BitVec 5) (width i x : Nat) : Hart :=
  let p := elemPlace lanes width i
  h.deposit (r + BitVec.ofNat 5 p.1) p.2 width x

end Sys2Proof.Machine
end

