-- ==== Sys2Proof/Machine/Front.lean ====
section
/-! DEFINITION. The cluster front end and the private fetch units: what they bring into the windows (R123, R124, R127, R128,
R445), and the word that a hart issues next, from its window or its loop buffer (R137). -/

namespace Sys2Proof.Machine

/-- Where the path goes on behind a word at decode (R127, R445): a branch with a negative offset is taken, and a JAL; behind a
JALR, a JOIN and an ICINV fetch stops. -/
def pathNext (pc : Word) (w : BitVec 32) : Option Word :=
  let f := Fields.ofWord w
  match f.maj.toNat with
  | 0x10 => some (pc + jalOff f.imm20)
  | 0x11 => none
  | 0x12 => some (if f.off12.msb then pc + branchOff f.off12 else pc + 4)
  | 0x13 => if f.funct3 = 2 then some (pc + 4) else none
  | _ => some (pc + 4)

/-- A window's last entry is a prefix whose second word is still to come (R41). -/
def openPair (l : List Entry) : Bool :=
  match l.getLast? with
  | some e => !e.second && (Fields.ofWord e.word).maj == 0x5F
  | none => false

/-- An entry as it is decoded behind a window. -/
def entryOf (win : List Entry) (pc : Word) (w : BitVec 32) : Entry := { pc, word := w, next := pathNext pc w, second := openPair win }

/-- The word that the loop buffer holds for the hart's PC (R137). -/
def Hart.bufWord (h : Hart) : Option (BitVec 32) :=
  if h.loopLive && h.csr.loop.active then mapGet h.loopBuf h.csr.loop.word.toNat else none

/-- The word that the window holds for the hart's PC. -/
def Hart.winWord (h : Hart) : Option (BitVec 32) := (h.win.head?.filter (·.pc = h.pc)).map (·.word)

/-- Where fetch goes on behind the hart's window; behind an empty one at the PC, or behind the body of a loop that replays. -/
def Hart.pathEnd (h : Hart) : Option Word :=
  match h.win.getLast? with
  | some e => e.next
  | none => some (if h.bufWord.isSome then h.csr.lbase + BitVec.ofNat 64 (4 * h.csr.loop.len.toNat) else h.pc)

/-- A window has room for another entry, or for the second word of its last one (R124, R41). -/
def Hart.room (h : Hart) : Bool := h.occ < 32 || openPair h.win

/-- The member whose path the front end follows: the head, or, while a trap or a stop of the head is due, the first member that
has none due. The head then stands at an instruction that has been discarded, and its gang goes on without it (R131, R132; DEDUCED, log entry
95). -/
def State.pathMember (s : State) : Option Nat := (s.attachedSet s.cur).find? fun x => (s.hart x).due.isNone

/-- The attached member at whose join.t the gang is held: the hold is that hart's, whoever becomes head (R136; DEDUCED, log entry
94). -/
def State.holder (s : State) (hart : Nat) : Option Nat := (s.attachedSet hart).find? fun x => (s.hart x).gang.hold.isSome

/-- The PC of the next instruction that the front end of the acting hart can bring in: for an attached hart the gang's, while
every member has room and neither a hold nor an ICINV stops delivery (R124, R136, R144). A hart that waits in a JOIN does not
fetch (R128). -/
def State.deliverAt (s : State) : Option Word :=
  match s.me.gang.state with
  | .waiting => none
  | .detached => if s.me.room && s.me.gang.icinv.isNone then s.me.pathEnd else none
  | .attached =>
    match s.pathMember with
    | none => none
    | some x =>
      let h := s.hart x
      if (s.holder s.cur).isSome || h.gang.icinv.isSome || !(s.attachedSet s.cur).all (fun y => (s.hart y).room) then none
      else h.pathEnd

/-- The harts whose windows an instruction enters: every attached member's, or the detached hart's own (R123, R128). -/
def State.receivers (s : State) : List Nat := if s.me.gang.state = .attached then s.attachedSet s.cur else [s.cur]

/-- An instruction fetched and decoded once enters the windows of all that it is delivered to (R123). -/
def State.delivered (s : State) (pc : Word) (f : Fetched) : State :=
  s.receivers.foldl (fun t x => t.updHart x fun h => { h with win := h.win ++ [entryOf h.win pc f.word] }) (s.touchFetch f)

/-- The front end brings in the next instruction of the acting hart's path, if it can. A fetch that faults brings in nothing:
its fault is raised when a hart reaches the PC (R132). -/
def State.fetchAhead (s : State) : State :=
  match s.deliverAt with
  | none => s
  | some pc =>
    match s.fetch pc with
    | .error _ => s
    | .ok f => s.delivered pc f

/-- The word that the acting hart, as `h` has it, issues next, and the machine once it stands in its window or its loop buffer.
`h` is the acting hart itself, or what it will be behind words that issue together with the next one: its window is an end of
the acting hart's. An error is the cause of a fetch fault, or none where the word is not delivered yet. -/
def State.present (s : State) (h : Hart) : Except (Option Cause) (State × BitVec 32) :=
  match h.bufWord, h.winWord with
  | some w, _ => .ok (s, w)
  | none, some w => .ok (s, w)
  | none, none =>
    if s.me.gang.state = .attached then
      if h.win.isEmpty && s.deliverAt = some h.pc then
        match s.fetch h.pc with
        | .error c => .error (some c)
        | .ok f => .ok (s.delivered h.pc f, f.word)
      else .error none
    else
      match s.fetch h.pc with
      | .error c => .error (some c)
      | .ok f =>
        let t := s.updMe fun m => { m with win := m.win.take (m.win.length - h.win.length) }
        .ok (t.delivered h.pc f, f.word)

/-- What the acting hart will be behind words of `s`, once more words have come into its window and loop buffer in `t`. -/
def Hart.behind (h : Hart) (s t : State) : Hart :=
  { h with win := t.me.win.drop (s.me.win.length - h.win.length), loopBuf := t.me.loopBuf }

/-- A loop that ERET or a resumption continues fills its loop buffer as its words issue (R137, R140): `w` is the word at the PC
of `h`, which is the acting hart or what it will be behind words that issue together with this one. -/
def State.keepWord (s : State) (h : Hart) (w : BitVec 32) : State :=
  if h.loopLive && h.csr.loop.active then s.updMe fun m => { m with loopBuf := mapSet m.loopBuf h.csr.loop.word.toNat w } else s

end Sys2Proof.Machine
end

