-- ==== Sys2Proof/Machine/Phys.lean ====
section
/-! DEFINITION. Reads and writes at a physical place as instructions make them: plain memory, the control windows, and
granules in error (R118, R119, R255). -/

namespace Sys2Proof.Machine

/-- n bytes at a key, as the acting hart's own loads read them. -/
def State.physRead (s : State) (key n : Nat) : Nat := s.readMe key n

/-- n bytes stored at a key by a scalar store at the PC; one that leaves a poisoned granule writes a record (R119). -/
def State.physStore (s : State) (key n x : Nat) (va : Word) : State := s.storeMe key n x (some (s.me.pc, va))

/-- An uncorrectable error that persists lies in the granules of n bytes, as a load of the acting hart meets it (R119). -/
def State.poisonedAt (s : State) (key n : Nat) : Bool := s.poisonMe.any fun p => p.persist && p.hits key n

end Sys2Proof.Machine
end

