-- ==== Sys2Proof/Machine/Control.lean ====
section
/-! DEFINITION. Control flow and the cluster front end (spec/05_control.md): jumps and branches R133 with their
resolution in a gang R127, gang instructions R135, R136, R144, loops R137 to R140, and the front end's events. -/

namespace Sys2Proof.Machine

/-! ### Branches and jumps -/

/-- The gang direction at the control instruction that issues: its window's entry for it says where the path goes on (R127). -/
def Hart.direction (h : Hart) : Option Word := (h.win.head?.filter (·.pc = h.pc)).bind (·.next)

/-- The window behind a control instruction that goes to a target: what has been fetched along another path is discarded
(R127, R445). -/
def Hart.winAfter (h : Hart) (target : Word) : List Entry :=
  let rest := h.issueWords 1
  if (rest.head?.map (·.pc)) = some target then rest else []

/-- The hart goes to a control instruction's successor. -/
def Hart.goto (h : Hart) (target : Word) : Hart :=
  { h with pc := target, wait := .none, restart := none, win := h.winAfter target }

/-- A window that goes on elsewhere behind a control instruction which `rest` entries follow (R127). -/
def redirect (win : List Entry) (rest : Nat) (target : Word) : List Entry :=
  let l := win.take (win.length - rest)
  l.take (l.length - 1) ++ (l.getLast?.map fun e => { e with next := some target }).toList

/-- The head resolves a control instruction otherwise than predicted (R127): in members that have not issued it the entries
after it are discarded and the path goes on at the target; those that have issued it, and followed the prediction, detach. A hart
that has become head since its former head resolved the instruction counts as the head (R131; DESIGN CHOICE, log entry 87). -/
def State.redirectGang (s : State) (target : Word) (cause : BitVec 4) : State :=
  let rest := (s.me.issueWords 1).length
  ((s.attachedSet s.cur).filter (· ≠ s.cur)).foldl (fun u x =>
    let h := s.hart x
    if rest < h.win.length then u.updHart x fun k => { k with win := redirect k.win rest target } else u.detachHart x cause) s

/-- A control instruction resolved to a successor (R127): the head's outcome decides, and before it the prediction. A member
that disagrees detaches with the cause. The member has completed the instruction in every case. Outcomes are compared by their
successors, so those of a branch to PC + 4 agree (DESIGN CHOICE, log entry 87). -/
def State.resolve (s : State) (target : Word) (cause : BitVec 4) : State :=
  if s.me.gang.state ≠ .attached || s.me.direction = some target then s.updMe (·.goto target)
  else if s.gangHead s.cur = some s.cur then (s.redirectGang target cause).updMe (·.goto target)
  else (s.updMe (·.goto target)).detach cause

/-- A conditional branch (R127, R133). -/
def State.branch (s : State) (cond : Bool) (off : BitVec 12) : State :=
  s.resolve (if cond then s.me.pc + branchOff off else s.me.pc + 4) 1

/-- JAL writes the return address and jumps (R133). -/
def execJal (d : BitVec 5) (i : BitVec 20) (s : State) : Result :=
  .next ((s.setG d (s.me.pc + 4)).resolve (s.me.pc + jalOff i) 1)

/-- JALR reads gs1 before it writes gd and clears bits [1:0] of the target. A member ahead of the head waits for the
head's target (R127, R133). -/
def execJalr (d a : BitVec 5) (i : BitVec 12) (s : State) : Result :=
  let target := s.addr a i &&& ~~~3
  if s.me.gang.state = .attached && s.gangHead s.cur != some s.cur && s.me.direction.isNone then .next (s.stall .delivery)
  else .next ((s.setG d (s.me.pc + 4)).resolve target 2)

def execBeq (a b : BitVec 5) (off : BitVec 12) (s : State) : Result := .next (s.branch (s.g a == s.g b) off)
def execBne (a b : BitVec 5) (off : BitVec 12) (s : State) : Result := .next (s.branch (s.g a != s.g b) off)
def execBlt (a b : BitVec 5) (off : BitVec 12) (s : State) : Result := .next (s.branch ((s.g a).slt (s.g b)) off)
def execBge (a b : BitVec 5) (off : BitVec 12) (s : State) : Result := .next (s.branch (!(s.g a).slt (s.g b)) off)
def execBltn (a b : BitVec 5) (off : BitVec 12) (s : State) : Result := .next (s.branch ((s.g a).ult (s.g b)) off)
def execBgen (a b : BitVec 5) (off : BitVec 12) (s : State) : Result := .next (s.branch (!(s.g a).ult (s.g b)) off)

/-! ### JOIN, JOIN.T and DETACH -/

/-- A hart of the gang has a task and is detached and not waiting: what a join.t's hold waits for (R136). -/
def State.gangStray (s : State) : Bool :=
  (gangHarts s.cur).any fun x => (s.hart x).task.isSome && (s.hart x).gang.state == .detached && x != s.cur

/-- A member attached where no hart was, in this clock, and stands behind its JOIN with nothing delivered (R131). -/
def State.justFormed (s : State) (h : Hart) : Bool :=
  (h.gang.formed.map (·.1)) == some s.clock && h.win.isEmpty && h.pc == h.gang.holdPc + 4

/-- A member attached at the JOIN that the acting hart issues: same ASID, tag and PC. -/
def State.sameJoin (s : State) (h : Hart) (tag : BitVec 12) : Bool :=
  h.csr.asid == s.me.csr.asid && h.gang.joinTag == tag && h.gang.holdPc == s.me.pc

/-- The gang is held at the JOIN that a detached hart issues, or its attached set has been made there in this clock (R131,
R136). -/
def State.heldHere (s : State) (tag : BitVec 12) : Bool :=
  (s.attachedSet s.cur).any fun x => let h := s.hart x; (h.gang.hold.isSome || s.justFormed h) && s.sameJoin h tag

/-- The attached set has been made in this clock by harts of higher cores than the acting one's, whose own JOIN goes before
theirs (R131). -/
def State.goesBefore (s : State) : Bool :=
  (s.attachedSet s.cur).all fun x => s.justFormed (s.hart x) && decide (s.cur < x)

/-- A hart whose JOIN gives way to that of a lower core in one clock: it has not attached, and waits (R131). -/
def Hart.giveWay (h : Hart) : Hart :=
  let t := match h.gang.formed with
    | some (_, some (d, x, _)) => h.setG d x
    | _ => h
  { t with pc := h.gang.holdPc, wait := .join
           gang := { h.gang with state := .waiting, formed := none, joinSince := (h.gang.formed.map (·.1)).getD 0
                                 joinT := (h.gang.formed.bind (·.2)).map fun e => (e.1, e.2.2) } }

/-- A hold ends when no hart of the gang is left that it waits for (R136). -/
def State.endHold (s : State) (hart : Nat) : State :=
  match s.holder hart with
  | none => s
  | some x =>
    if (gangHarts hart).any fun y => (s.hart y).task.isSome && (s.hart y).gang.state == .detached then s
    else s.updHart x fun h => { h with gang := { h.gang with hold := none } }

/-- The acting hart's window is discarded: at a JOIN it starts empty (R130). -/
def State.emptied (s : State) : State := s.updMe fun h => { h with win := [] }

/-- A detached hart attaches at the JOIN that it issues: it has executed it (R130). `now` is the clock where the attached set is
made of it and others (R131). -/
def State.attachHere (s : State) (tag : BitVec 12) (timed : Option (BitVec 5 × Nat)) (now : Option Word) : State :=
  let t := match timed with
    | some (d, _) => s.setG d 1
    | none => s
  (t.updGang fun g =>
    { g with state := .attached, joinTag := tag, holdPc := s.me.pc
             formed := now.map fun c => (c, timed.map fun e => (e.1, s.g e.1, (s.cycle (coreOf s.cur)).toNat + e.2)) }).next.emptied

/-- A detached hart waits in the JOIN that it issues (R130). -/
def State.waitJoin (s : State) (tag : BitVec 12) (timed : Option (BitVec 5 × Nat)) : State :=
  (s.emptied.updGang fun g =>
    { g with state := .waiting, joinTag := tag, joinSince := s.clock
             joinT := timed.map fun e => (e.1, (s.cycle (coreOf s.cur)).toNat + e.2) }).stall .join

/-- JOIN and JOIN.T of an attached hart (R136): the head's attaches those that wait there, and its join.t holds the gang while a
member is detached and not waiting. -/
def State.joinAttached (s : State) (tag : BitVec 12) (timed : Option (BitVec 5 × Nat)) : State :=
  let t := (match timed with
    | some (d, _) => s.setG d 1
    | none => s).next
  if s.gangHead s.cur = some s.cur then
    let u := t.attachWaiting s.cur s.me.csr.asid tag s.me.pc
    match timed with
    | some (_, limit) =>
      if u.gangStray then
        u.updGang fun g => { g with hold := some ((s.cycle (coreOf s.cur)).toNat + limit), holdPc := s.me.pc, joinTag := tag }
      else u
    | none => u
  else t

/-- JOIN and JOIN.T of a detached hart (R130, R131, R136): it attaches where the attached set is empty or the gang is held, goes
before harts of higher cores that have made the attached set in this clock, and waits otherwise. A join.t whose limit is 0
gives 0 at once with cause 7, as one whose limit passes while it waits (DESIGN CHOICE, log entry 73). -/
def State.joinDetached (s : State) (tag : BitVec 12) (timed : Option (BitVec 5 × Nat)) : State :=
  let set := s.attachedSet s.cur
  if set.isEmpty then s.attachHere tag timed (some s.clock)
  else if s.heldHere tag then
    (s.attachHere tag timed (if set.all fun x => s.justFormed (s.hart x) then some s.clock else none)).endHold s.cur
  else if s.goesBefore then
    ((set.foldl (fun t x => t.updHart x Hart.giveWay) s).attachHere tag timed (some s.clock)).attachWaiting
      s.cur s.me.csr.asid tag s.me.pc (some s.clock)
  else
    match timed with
    | some (d, 0) => ((s.setG d 0).updGang fun g => { g with cause := 7 }).next
    | _ => s.waitJoin tag timed

/-- JOIN and JOIN.T (R136). -/
def State.join (s : State) (tag : BitVec 12) (timed : Option (BitVec 5 × Nat)) : State :=
  match s.me.gang.state with
  | .waiting => s.stall .join
  | .attached => s.joinAttached tag timed
  | .detached => s.joinDetached tag timed

def execJoin (tag : BitVec 12) (s : State) : Result := .next (s.join tag none)
def execJoinT (d a : BitVec 5) (tag : BitVec 12) (s : State) : Result := .next (s.join tag (some (d, (s.g a).toNat)))

/-- DETACH leaves the gang with cause 3; a detached hart only moves on (R135). -/
def execDetach (s : State) : Result := .next (s.detach 3).next

/-- A waiting join.t whose limit has passed detaches with cause 7, writes 0 and goes on (R130); with STEP the hart halts (R376). -/
def execJoinTTimeout (s : State) : Result :=
  match s.me.gang.state, s.me.gang.joinT with
  | .waiting, some (_, limit) =>
    if limit ≤ (s.cycle (coreOf s.cur)).toNat then .next (s.updMe Hart.timeOut) else .next s
  | _, _ => .next s

/-- The head's hold ends once its limit has passed, or no member is left to wait for (R136). -/
def execHoldEnd (s : State) : Result :=
  match s.me.gang.hold with
  | some limit =>
    if limit ≤ (s.cycle (coreOf s.cur)).toNat then .next (s.updGang fun g => { g with hold := none })
    else .next (s.endHold s.cur)
  | none => .next s

/-- How far an attached hart trails the member with the fewest entries in its window (R125). An instruction counts as an entry
of its window until it has issued, the CSR instruction that reads this among them (DESIGN CHOICE, log entry 86). -/
def State.lag (s : State) : Nat :=
  if s.me.gang.state = .attached then
    s.me.occ - (s.attachedSet s.cur).foldl (fun m x => min m (s.hart x).occ) s.me.occ
  else 0

/-- Members whose windows are full and stop delivery are shed with cause 5, all in one clock (R126). The event stands for the
4,096 clocks having passed at the acting hart's gang. -/
def execShed (s : State) : Result :=
  .next (((s.attachedSet s.cur).filter fun x => !(s.hart x).room).foldl (fun t x => t.detachHart x 5) s)

/-! ### ICINV -/

/-- A code line leaves the cluster's instruction caches: no word overwritten before is fetched from it again (R144, R145). -/
def State.dropCode (s : State) (cluster line : Nat) : State :=
  s.updCluster cluster fun c => { c with icinv := mapSet c.icinv line s.oldCode.length }

/-- The lines of harts that have all issued their ICINV leave the cluster's caches, and the harts move on, fetching anew
(R144). -/
def State.performIcinv (s : State) (harts : List Nat) : State :=
  harts.foldl (fun t x =>
    match (t.hart x).gang.icinv with
    | none => t
    | some line =>
      (t.dropCode (clusterOf s.cur) line).updHart x fun h =>
        { h.advance 1 with gang := { h.gang with icinv := none }, win := [], haltReq := h.haltReq || (h.csr.step && x != s.cur) }) s

/-- Every attached member has issued an ICINV: the rendezvous of R144. -/
def State.icinvReady (s : State) : Bool := (s.attachedSet s.cur).all fun x => (s.hart x).gang.icinv.isSome

/-- The hart waits at an ICINV that it has issued, until every member has. -/
def State.waitIcinv (s : State) : State := if s.icinvReady then s.performIcinv (s.attachedSet s.cur) else s.stall .icinv

/-- ICINV (R144): a page fault before any effect; earlier vector instructions retire and earlier scalar stores perform; then
the line leaves the cluster, for an attached hart when every member has issued it. -/
def execIcinv (a : BitVec 5) (i : BitVec 12) (s : State) : Result :=
  let va := s.addr a i
  if s.me.gang.icinv.isSome then .next s.waitIcinv
  else
    match s.lookup (coreOf s.cur) s.core.tlb s.me.csr.asid s.me.csr.ptroot va.toNat with
    | .error c => .next (s.trap c va)
    | .ok x =>
      let key := (s.keyOf (coreOf s.cur) .supervisor x.gpa).getD x.gpa
      let t := s.inOrder
      if !s.me.vq.isEmpty || t.me.sb.any (·.ack.isNone) then .next (t.stall .drain)
      else
        let u := ((t.touch x).updGang fun g => { g with icinv := some (key / 64) }).updMe fun h => { h with win := h.issueWords 1 }
        .next (if s.me.gang.state = .attached then u.waitIcinv else u.performIcinv [s.cur])

/-- The invalidation performs once every member has issued and drained (R144). -/
def execIcinvPerform (s : State) : Result :=
  .next (if s.me.gang.state = .attached ∧ s.icinvReady then s.performIcinv (s.attachedSet s.cur) else s)

/-- A line leaves a cluster's instruction caches at a time of their choosing: what later fetches may return stays as it was
(R145). -/
def execInstructionLineEviction (_cluster _line : Nat) (s : State) : Result := .next s

/-! ### Loops -/

/-- A body word that a LOOPN may not run: majors 0x10 to 0x14, SYS, PRIV, and nestld (R138). -/
def illegalBody (w : BitVec 32) : Bool :=
  let f := Fields.ofWord w
  let m := f.maj.toNat
  (0x10 ≤ m && m ≤ 0x14) || m == 0x73 || m == 0x75 || (m == 0x20 && f.funct3 == 6)

/-- The body words brought into the window or the loop buffer and checked in rising address: the first problem decides (R138).
The hart is as it will be behind the words before; the result holds the words. -/
def State.checkBody (s : State) (h : Hart) (n : Nat) : Except (Option (Cause × Word)) (State × List (BitVec 32)) :=
  match n with
  | 0 => .ok (s, [])
  | n + 1 =>
    match s.present h with
    | .error none => .error none
    | .error (some c) => .error (some (c, h.pc))
    | .ok (t, w) =>
      if illegalBody w then .error (some (.illegalLoopBody, h.pc))
      else
        match t.checkBody ((h.behind s t).advance 1) n with
        | .error e => .error e
        | .ok (u, l) => .ok (u, w :: l)

/-- LOOPN (R137, R138, R167): it waits for its body, which is checked; a bound of 0 skips it, and otherwise the loop begins at
its first word, with the bounds as they are now. -/
def execLoopn (depth : BitVec 3) (len : BitVec 5) (s : State) : Result :=
  let first := { s.me with loopLive := false }.advance 1
  match s.checkBody first len.toNat with
  | .error none => .next (s.stall .delivery)
  | .error (some (.illegalLoopBody, _)) => .next (s.trap .illegalLoopBody (fieldsVal (.i (0#7 ++ len) depth 0 0 0x14)))
  | .error (some (c, va)) => .next (s.trapFetch c va)
  | .ok (t, words) =>
    let body := s.me.pc + 4
    let bounds := (List.range depth.toNat).map fun d => nestBound (s.me.nestAt d)
    let h := first.behind s t
    if bounds.contains 0 then
      let past := h.win.drop len.toNat
      .next (t.updMe fun m => { m with pc := body + BitVec.ofNat 64 (4 * len.toNat), wait := .none, restart := none, win := past })
    else
      .next (t.updMe fun m =>
        { m with
          pc := body
          wait := .none
          restart := none
          win := h.win
          loopLive := true
          loopBuf := (List.range len.toNat).zip words
          bounds
          csr := { m.csr with loop := { active := true, depth, len, word := 0 }, lbase := body,
                              lix := lixOf ((List.range 6).map fun d =>
                                if d < depth.toNat then 0 else m.csr.lix.toList.getD d 0) } })

end Sys2Proof.Machine
end

