-- ==== Sys2Proof/Machine/Csr.lean ====
section
/-! DEFINITION. The control and status registers and the instructions that access them (spec/13_system.md, R351 to R356,
R364, R377 to R381, with the layouts that R354 names). -/

namespace Sys2Proof.Machine

/-! ### Fields -/

/-- The code of a quad's state (R151). -/
def Quad.code : Quad → Nat
  | .free => 0 | .owned => 1 | .granted => 2 | .leaving => 3

/-- The quad state of a code. -/
def Quad.ofCode (n : Nat) : Quad :=
  match n with
  | 0 => .free | 1 => .owned | 2 => .granted | _ => .leaving

/-- `lpart` (R151). -/
def Csrs.lpart (c : Csrs) : Nat :=
  (if c.lchg then 256 else 0) + foldN 4 (fun i n => n + (c.quads.toList.getD i .free).code * 4 ^ i) 0

/-- `vl` (R161). -/
def Csrs.vlWord (c : Csrs) : Nat := c.vlFmt.toNat * 2 ^ 18 + c.vlGrp.toNat * 2 ^ 16 + c.vl.toNat

/-- `lstat` (R139). -/
def LoopState.wordOf (l : LoopState) : Nat :=
  l.word.toNat * 1024 + l.len.toNat * 32 + l.depth.toNat * 4 + (if l.active then 1 else 0)

/-- The loop state of a written `lstat`. -/
def LoopState.ofWord (x : Nat) : LoopState :=
  { word := BitVec.ofNat 4 (bits x 13 10), len := BitVec.ofNat 5 (bits x 9 5), depth := BitVec.ofNat 3 (bits x 4 2),
    active := bit x 0 }

/-- The life-state ceiling of a core (R162). -/
def Life.ceiling : Life → Nat
  | .fresh => 0xF
  | _ => 0xB

/-- The code of a life state in `rpn` (R381). -/
def Life.code : Life → Nat
  | .fresh => 0 | .derated => 1 | .drained => 2 | .retired => 3

/-- PWR: the power ceiling of the hart's die, or 0xF for a member of a throttle lock (R162, R407). -/
def State.pwr (s : State) : Nat := if s.me.locked then 0xF else (s.dieAt (dieOf s.cur)).pwr.toNat

/-- `vgrant` (R162): EFF, THR and LIFE as of the latest SETVL (R405), and PWR as the die has it now (log entry 37). -/
def State.vgrant (s : State) : Nat :=
  s.me.csr.grantEff.toNat * 4096 + s.me.csr.grantThr.toNat * 256 + s.me.csr.grantLife.toNat * 16 + s.pwr

/-- The code of an attach state in `drift` (R125). -/
def Attach.code : Attach → Nat
  | .attached => 0 | .detached => 1 | .waiting => 2

/-- `drift` (R125). -/
def State.drift (s : State) : Nat :=
  let head := match s.gangHead s.cur with
    | some h => placeOf h
    | none => 0xF
  head * 2 ^ 24 + s.me.gang.state.code * 2 ^ 20 + s.me.gang.cause.toNat * 2 ^ 16 + s.lag * 256 + s.me.occ

/-- PEND, whose bit 1 is a level: it is 1 in every clock in which COUNT has reached CMP, and in no other (R379). -/
def State.pendNow (s : State) : BitVec 3 :=
  if s.me.csr.cyccmp ≤ s.cycle (coreOf s.cur) then s.me.csr.pend ||| 2 else s.me.csr.pend &&& 5

/-- The records of the acting hart in its die's queue, but for those that it has acknowledged. -/
def State.ownRecords (s : State) : List (Nat × FaultRecord) :=
  (s.dieAt (dieOf s.cur)).frq.filter fun e => e.2.hart = s.cur && !s.me.sb.any fun k => k.ack = some e.1

/-- The oldest record of the hart in its die's queue, by its index (R364). -/
def State.frqnext (s : State) : Nat :=
  match s.ownRecords.head? with
  | some (i, _) => i
  | none => 2 ^ 63

/-- A word of the record that `frqidx` selects, where the record is the hart's (R364). -/
def State.frqword (s : State) (k : Nat) : Nat :=
  match s.ownRecords.find? fun e => e.1 = s.me.csr.frqidx.toNat with
  | some (_, r) => r.words.getD k 0
  | none => 0

/-- The acknowledgement of a record by the hart's own stream (R364): while an older instruction can still cause it to be
discarded, it is kept back (R121). -/
def State.frqack (s : State) (i : Nat) : State :=
  if s.me.speculative then s.updMe fun h => { h with sb := { before := s.seq, ack := some i } :: h.sb } else s.removeRecord i

/-- The cluster's energy count, of which the spec fixes no value (R380). -/
def State.energyCount (s : State) : Word := BitVec.ofNat 64 (Config.freeNat s.free 0x44)

/-- The energy charged to a hart's context with what has been counted since the sample (R380). -/
def State.energyOf (s : State) (h : Hart) : Word := h.csr.energy + (s.energyCount - h.csr.sample)

/-- The same of the acting hart. -/
def State.energyNow (s : State) : Word := s.energyOf s.me

/-! ### Reads and writes -/

/-- The value that a read of a CSR returns (R354). WORD of `lstat` is that of the reading instruction itself (R139; DESIGN CHOICE,
log entry 93). -/
def State.csrRead (s : State) (n : Nat) : Word :=
  let c := s.me.csr
  match n with
  | 0x001 => c.fflags.setWidth 64
  | 0x002 => c.vrm.setWidth 64
  | 0x003 => c.escope.setWidth 64
  | 0x010 => BitVec.ofNat 64 c.vlWord
  | 0x011 => BitVec.ofNat 64 s.vgrant
  | 0x012 => c.vstrip.setWidth 64
  | 0x013 => BitVec.ofNat 64 c.lpart
  | 0x014 => c.eix.setWidth 64
  | 0x015 => c.vsidx.setWidth 64
  | 0x016 => BitVec.ofNat 64 (c.vpcm.toNat % 2 ^ s.me.lanes)
  | 0x017 => c.vprog
  | 0x018 => c.vpcnt
  | 0x020 => BitVec.ofNat 64 s.drift
  | 0x021 => BitVec.ofNat 64 c.loop.wordOf
  | 0x022 => c.lbase
  | 0x030 => c.lkwin
  | 0x031 => c.lkerr
  | 0x032 => c.lkepc
  | 0x033 => c.xerr
  | 0x034 => c.xepc
  | 0x035 => c.xbar
  | 0x036 => c.wout
  | 0x037 => BitVec.ofNat 64 s.me.rf.length
  | 0x040 => s.cycle (coreOf s.cur)
  | 0x041 => BitVec.ofNat 64 (s.pkg.number.toNat * 4096 + s.cur)
  | 0x042 => s.core.fmask.setWidth 64
  | 0x043 => c.wear
  | 0x044 => s.energyNow
  | 0x045 => BitVec.ofNat 64 (s.core.life.code * 4096 + s.core.index)
  | 0x100 => BitVec.ofNat 64 ((if c.uie then 2 else 0) + (if c.pp = .supervisor then 1 else 0))
  | 0x101 => c.tvec
  | 0x102 => c.tpc
  | 0x103 => c.tcause
  | 0x104 => c.tval
  | 0x105 => c.sscratch
  | 0x106 => BitVec.ofNat 64 (s.pendNow.toNat * 256 + c.en.toNat)
  | 0x107 => BitVec.ofNat 64 ((if c.step then 2 else 0) + (if c.brkh then 1 else 0))
  | 0x108 => c.asid.setWidth 64
  | 0x109 => c.ptroot
  | 0x10A => c.cyccmp
  | 0x10B => s.core.lmap.setWidth 64
  | 0x10C => c.cxstat
  | 0x10D => BitVec.ofNat 64 s.frqnext
  | 0x10E => c.frqidx.setWidth 64
  | _ =>
    if 0x023 ≤ n ∧ n ≤ 0x028 then (c.lix.toList.getD (n - 0x023) 0).setWidth 64
    else if 0x10F ≤ n ∧ n ≤ 0x112 then BitVec.ofNat 64 (s.frqword (n - 0x10F))
    else if 0x401 ≤ n ∧ n ≤ 0x41F then s.me.ug.toList.getD (n - 0x400) 0
    else 0

/-- `lkerr` or `xerr` with V cleared: the report fields and the PC go to zero (R292, R303). -/
def Csrs.clearLkerr (c : Csrs) : Csrs := { c with lkerr := 0, lkepc := 0 }
/-- The same for `xerr`. -/
def Csrs.clearXerr (c : Csrs) : Csrs := { c with xerr := 0, xepc := 0 }

/-- Every later fetch of the hart uses a new address space or root (R355): what its private window holds is discarded. -/
def State.fetchAnew (s : State) : State := if s.me.gang.state = .detached then s.updMe fun h => { h with win := [] } else s

/-- A write of a CSR, field by field (R8, R354): reserved and RO fields ignore it, and W1C fields are cleared where the
new value holds a 1. -/
def State.csrWrite (s : State) (n : Nat) (x : Word) : State :=
  match n with
  | 0x001 => s.updCsr fun c => { c with fflags := c.fflags &&& ~~~(x.setWidth 5) }
  | 0x002 => s.updCsr fun c => { c with vrm := x.setWidth 2 }
  | 0x003 => s.updCsr fun c => { c with escope := x.setWidth 3 }
  | 0x013 => s.updCsr fun c => { c with lchg := c.lchg && !x.getLsbD 8 }
  | 0x014 => s.updCsr fun c => { c with eix := x.setWidth 11 }
  | 0x015 => s.updCsr fun c => { c with vsidx := x.setWidth 35 }
  | 0x016 => s.updCsr fun c => { c with vpcm := x }
  | 0x017 => s.updCsr fun c => { c with vprog := x &&& ~~~7 }
  | 0x018 => s.updCsr fun c => { c with vpcnt := x }
  | 0x021 => (s.updCsr fun c => { c with loop := LoopState.ofWord x.toNat }).updMe fun h => { h with bounds := [] }
  | 0x022 => s.updCsr fun c => { c with lbase := x &&& ~~~3 }
  | 0x030 => s.updCsr fun c => { c with lkwin := x &&& ~~~3 }
  | 0x031 => if x.getLsbD 0 then s.updCsr Csrs.clearLkerr else s
  | 0x033 => if x.getLsbD 0 then s.updCsr Csrs.clearXerr else s
  | 0x035 => s.updCsr fun c => { c with xbar := x &&& 0x1FF }
  | 0x036 => s.updCsr fun c => { c with wout := x &&& ~~~7 }
  | 0x100 => s.updCsr fun c => { c with uie := x.getLsbD 1, pp := if x.getLsbD 0 then .supervisor else .user }
  | 0x101 => s.updCsr fun c => { c with tvec := x &&& ~~~3 }
  | 0x102 => s.updCsr fun c => { c with tpc := x &&& ~~~3 }
  | 0x103 => s.updCsr fun c => { c with tcause := x &&& 0x80000000000003FF }
  | 0x104 => s.updCsr fun c => { c with tval := x }
  | 0x105 => s.updCsr fun c => { c with sscratch := x }
  | 0x106 => s.updCsr fun c => { c with pend := c.pend &&& ~~~(x.extractLsb' 8 3), en := x.setWidth 3 }
  | 0x107 => s.updCsr fun c => { c with step := x.getLsbD 1, brkh := x.getLsbD 0 }
  | 0x108 => (s.updCsr fun c => { c with asid := x.setWidth 9 }).fetchAnew
  | 0x109 => (s.updCsr fun c => { c with ptroot := x &&& 0x00FFFFFFFFFFF000 }).fetchAnew
  | 0x10A => s.updCsr fun c => { c with cyccmp := x }
  | 0x10E => s.updCsr fun c => { c with frqidx := x.setWidth 12 }
  | 0x113 => s.frqack (x.toNat % 4096)
  | _ =>
    if 0x023 ≤ n ∧ n ≤ 0x028 then
      s.updCsr fun c => { c with lix := lixOf (c.lix.toList.set (n - 0x023) (x.setWidth 32)) }
    else if 0x401 ≤ n ∧ n ≤ 0x41F then
      s.updMe fun h => { h with ug := fileSet (w := 5) (BitVec.ofNat 5 (n - 0x400)) h.ug x }
    else s

/-- What a writing instruction meets at a CSR (R354). -/
inductive OnWrite where
  | trap | userTrap | byField | ignored
  deriving DecidableEq, Repr

/-- The write column of R354. -/
def csrOnWrite (n : Nat) : OnWrite :=
  if n = 0x010 ∨ n = 0x011 ∨ n = 0x012 ∨ n = 0x020 ∨ n = 0x032 ∨ n = 0x034 ∨ (0x037 ≤ n ∧ n ≤ 0x045) ∨ n = 0x10C ∨ n = 0x10D ∨
      (0x10F ≤ n ∧ n ≤ 0x112) then .trap
  else if (0x014 ≤ n ∧ n ≤ 0x016) ∨ (0x021 ≤ n ∧ n ≤ 0x028) ∨ n = 0x030 then .userTrap
  else if n = 0x10B then .ignored
  else .byField

/-- The read level column of R354: S. -/
def csrSupervisor (n : Nat) : Bool := 0x100 ≤ n

/-- A CSR access (R352, R353, R355): its traps in their order, its waits, then the old value to gd and the write. -/
def State.csrOp (s : State) (val : Word) (csr : BitVec 12) (d : BitVec 5) (writes : Bool) (new : Word → Word) : State :=
  let n := csr.toNat
  if csrSupervisor n && s.me.level = .user then s.trap .privilege val
  else if writes && csrOnWrite n = .trap then s.trap .illegalInstruction val
  else if writes && csrOnWrite n = .userTrap && s.me.level = .user then s.trap .privilege val
  else if n = 0x001 && !s.me.vq.isEmpty then s.stall .drain
  else if writes && (n = 0x108 || n = 0x109) && !s.me.quiet then s.stall .drain
  else
    let old := s.csrRead n
    (if writes then s.csrWrite n (new old) else s).write d old

def execCsrrw (d : BitVec 5) (csr : BitVec 12) (a : BitVec 5) (s : State) : Result :=
  .next (s.csrOp (fieldsVal (.i csr 1 a d 0x74)) csr d true fun _ => s.g a)
def execCsrrs (d : BitVec 5) (csr : BitVec 12) (a : BitVec 5) (s : State) : Result :=
  .next (s.csrOp (fieldsVal (.i csr 2 a d 0x74)) csr d (a != 0) fun old => old ||| s.g a)
def execCsrrc (d : BitVec 5) (csr : BitVec 12) (a : BitVec 5) (s : State) : Result :=
  .next (s.csrOp (fieldsVal (.i csr 3 a d 0x74)) csr d (a != 0) fun old => old &&& ~~~(s.g a))
def execCsrrwi (d : BitVec 5) (csr : BitVec 12) (u : BitVec 5) (s : State) : Result :=
  .next (s.csrOp (fieldsVal (.i csr 5 u d 0x74)) csr d true fun _ => u.setWidth 64)
def execCsrrsi (d : BitVec 5) (csr : BitVec 12) (u : BitVec 5) (s : State) : Result :=
  .next (s.csrOp (fieldsVal (.i csr 6 u d 0x74)) csr d (u != 0) fun old => old ||| u.setWidth 64)
def execCsrrci (d : BitVec 5) (csr : BitVec 12) (u : BitVec 5) (s : State) : Result :=
  .next (s.csrOp (fieldsVal (.i csr 7 u d 0x74)) csr d (u != 0) fun old => old &&& ~~~(u.setWidth 64))

/-- feat reads one bit of `fmask` (R377); bits 15 to 63 read as zero. -/
def execFeat (d : BitVec 5) (i : BitVec 6) (s : State) : Result :=
  .next (s.write d (if s.core.fmask.getLsbD i.toNat then 1 else 0))

/-! ### Register writes as events: the effect of a CSR instruction's write, or of the management interface's -/

/-- FRQACK (R364): the hart's record with this index is removed. -/
def execFrqack (i : Nat) (s : State) : Result := .next (s.removeRecord (i % 4096))
/-- LKERR_CLEAR (R292). -/
def execLkerrClear (s : State) : Result := .next (s.updCsr Csrs.clearLkerr)
/-- XERR_CLEAR (R303). -/
def execXerrClear (s : State) : Result := .next (s.updCsr Csrs.clearXerr)
/-- ASID_WRITE (R355): once older instructions have retired, `asid` and `ptroot` govern later accesses. -/
def execAsidWrite (asid : BitVec 9) (root : Word) (s : State) : Result :=
  if s.me.quiet then
    .next (s.updCsr fun c => { c with asid, ptroot := root &&& 0x00FFFFFFFFFFF000 }).fetchAnew
  else .next s
/-- REGISTER_WRITE (R8): a CSR's fields are set by their access codes. -/
def execRegisterWrite (csr : Nat) (x : Word) (s : State) : Result := .next (s.csrWrite csr x)
/-- CYCLE_COMPARE (R379): interrupt 1 is pending while the count has reached `cyccmp`, and its becoming so sets the event
bit (R413). -/
def State.cycleCompare (s : State) : State :=
  let hit : Bool := decide (s.me.csr.cyccmp ≤ s.cycle (coreOf s.cur)) && !s.me.csr.pend.getLsbD 1
  let p := s.pendNow
  s.updAsync s.cur fun h => { h with csr := { h.csr with pend := (h.csr.pend &&& 5) ||| (p &&& 2) }, eventBit := h.eventBit || hit }
def execCycleCompare (s : State) : Result := .next s.cycleCompare

end Sys2Proof.Machine
end

