-- ==== Sys2Proof/Machine/Context.lean ====
section
/-! DEFINITION. The context image: its bytes, its seal, and a hart restored from it (spec/13_system.md, R371 to R373);
and quads that are free (R151, R155). -/

namespace Sys2Proof.Machine

/-! ### Bytes -/

/-- One bit's step of CRC-32C, on the reflected register. -/
def crcBit (c : Nat) : Nat := if c % 2 = 1 then (c / 2) ^^^ 0x82F63B78 else c / 2

/-- CRC-32C (Castagnoli) of bytes: all-ones start, reflected, inverted at the end (R372). -/
def crc32c (l : List Nat) : Nat :=
  (l.foldl (fun c b => crcBit (crcBit (crcBit (crcBit (crcBit (crcBit (crcBit (crcBit (c ^^^ b))))))))) 0xFFFFFFFF) ^^^
    0xFFFFFFFF

/-- The seal word of bytes: 0x5345_414C above their CRC (R372, R398). -/
def sealWord (l : List Nat) : Nat := 0x5345414C * 2 ^ 32 + crc32c l

/-! ### Quads -/

/-- Bit PRESENT of a quad in `lmap` (R148). -/
def Core.present (c : Core) (q : Nat) : Bool := c.lmap.getLsbD (8 * q + 7)

/-- Whether a hart holds a quad in a state other than 0b00, or its configuration entry has not yet freed it. -/
def Hart.holdsQuad (h : Hart) (q : Nat) : Bool :=
  h.csr.quads.toList.getD q .free != .free || h.vq.any fun i =>
    match i.work with
    | .cfg l _ _ => l.contains q
    | _ => false

/-- A hart may still go back to where it held a quad: an lprel or SETVL that gave it up can be discarded (R121). -/
def State.couldHold (s : State) (hart q : Nat) : Bool :=
  let h := s.hart hart
  match h.oldestOpen with
  | none => false
  | some id => s.snaps.any fun e => id ≤ e.1 && h.ids.contains e.1 && e.2.csr.quads.toList.getD q .free != .free

/-- The free quads of a core for a hart to take, ascending (R151); the quads of `own` count as released. A quad given up by an
instruction of another hart that can still be discarded is not free yet (DESIGN CHOICE, log entry 88). -/
def State.freeQuads (s : State) (core : Nat) (own : Option Nat) : List Nat :=
  below 4 fun q => (s.coreAt core).present q &&
    (List.range 4).all fun k =>
      let x := 4 * core + k
      some x == own || (!(s.hart x).holdsQuad q && (x = s.cur || !s.couldHold x q))

/-- A quad's state replaced. -/
def Csrs.setQuad (c : Csrs) (q : Nat) (x : Quad) : Csrs :=
  { c with quads := Vector.ofFn fun i => if i.val = q then x else c.quads[i] }

/-! ### The image -/

/-- The word of a task identifier (R392). -/
def taskWord (t : Option TaskId) : Nat :=
  match t with
  | some i => i.launch % 4096 * 2 ^ 32 + i.index % 2 ^ 32
  | none => 0

/-- The size of an image without its seal, for L lanes (R372). -/
def imageBody (lanes : Nat) : Nat := 6144 + 1024 * lanes

/-- The 32 CSR slots of an image (R372). The four position slots are given: a hardware save fills them from the user
context's position (R397). -/
def imageSlots (h : Hart) (p : Position) : List Nat :=
  let c := h.csr
  [p.pc.toNat, p.eix.toNat, p.vsidx.toNat, p.lanes.toNat, (if c.uie then 2 else 0) + (if c.pp = .supervisor then 1 else 0),
   c.fflags.toNat, c.vrm.toNat, c.vlWord] ++
  [c.vstrip.toNat, c.lpart, c.escope.toNat, c.xbar.toNat, c.wout.toNat, c.vprog.toNat, c.vpcnt.toNat, c.lkwin.toNat] ++
  [c.lkerr.toNat, c.lkepc.toNat, c.xerr.toNat, c.xepc.toNat, c.loop.wordOf, c.lbase.toNat] ++
  c.lix.toList.map (·.toNat) ++
  [c.ptroot.toNat, c.cyccmp.toNat,
   (match h.barWait with
    | some (g, phase, _) => phase.toNat * 2 ^ 32 + 256 + g % 256
    | none => 0),
   if h.eventBit then 1 else 0]

/-- The image without its seal (R372). -/
def imageBytes (h : Hart) (p : Position) : List Nat :=
  let c := h.csr
  let q := c.quadsHeld
  let lanes := 16 * q
  let pend := c.quads.toList.any fun x => x = .granted ∨ x = .leaving
  let leave := (c.quads.toList.filter (· = .leaving)).length
  leBytes 4 0x4F4D4358 ++ leBytes 2 1 ++ [q, (if pend then 1 else 0) + 2 * leave] ++ leBytes 4 (6208 + 1024 * lanes) ++
  leBytes 2 c.asid.toNat ++ leBytes 2 0 ++ leBytes 8 h.features.toNat ++ leBytes 8 (taskWord h.task) ++
  leBytes 8 c.wear.toNat ++ leBytes 8 c.energy.toNat ++ leBytes 16 0 ++
  (imageSlots h p).flatMap (leBytes 8) ++ leBytes 256 0 ++
  (0 :: (h.ug.toList.drop 1).map (·.toNat)).flatMap (leBytes 8) ++
  h.nest.toList.flatMap (fun n => leBytes 16 n.toNat) ++
  h.tag.toList.map (fun t => t.fmt.toNat + 16 * t.grp.toNat) ++
  h.tok.toList.map (fun t => t.count) ++
  h.q.toList.map (fun l => l.length) ++ leBytes 48 0 ++
  h.q.toList.flatMap (fun l => leBytes 128 (ofBytes (l.flatMap fun w => leBytes 8 w.toNat))) ++
  h.m.toList.flatMap (fun m => leBytes 256 m.toNat) ++
  h.v.toList.flatMap (fun v => leBytes (32 * lanes) v.toNat)

/-- A sealed image: the body, the seal word and 56 zero bytes (R372). -/
def sealedImage (h : Hart) (p : Position) : List Nat :=
  let l := imageBytes h p
  l ++ leBytes 8 (sealWord l) ++ leBytes 56 0

/-- The conditions of R373 in their order, but for condition 4; 0 is none. `l` is an image of Q quads with its seal. -/
def imageCheck (l : List Nat) (fmask : BitVec 15) : Nat :=
  let q := bytesAt l 6 1
  let body := imageBody (16 * q)
  if bytesAt l body 8 ≠ sealWord (l.take body) then 1
  else if bytesAt l 0 4 ≠ 0x4F4D4358 ∨ bytesAt l 4 2 ≠ 1 ∨ bytesAt l 8 4 ≠ 6208 + 1024 * (16 * q) then 2
  else if bytesAt l 16 8 &&& (2 ^ 64 - 1 - fmask.toNat) ≠ 0 then 3
  else 0

/-- Slot i of an image. -/
def slotAt (l : List Nat) (i : Nat) : Nat := bytesAt l (64 + 8 * i) 8

/-- The level that a stored PP bit names. -/
def levelOf (b : Bool) : Level := if b then .supervisor else .user

/-- The bits of `lkerr` that are not reserved (R292). -/
def lkerrBits : Word := 0xFFFF001F1F1F0F01
/-- The bits of `xerr` that are not reserved (R303). -/
def xerrBits : Word := 0xFFFF07FF00000F01

/-- The CSRs as an image holds them, without their reserved bits (R9); quads come in the states given. `tpc` to `vpcm` go to their CSRs. -/
def imageCsrs (c : Csrs) (l : List Nat) (quads : Vector Quad 4) (sample : Word) : Csrs :=
  { c with
    asid := BitVec.ofNat 9 (bytesAt l 12 2)
    wear := BitVec.ofNat 64 (bytesAt l 32 8)
    energy := BitVec.ofNat 64 (bytesAt l 40 8)
    sample
    tpc := BitVec.ofNat 64 (slotAt l 0) &&& ~~~3
    eix := BitVec.ofNat 11 (slotAt l 1)
    vsidx := BitVec.ofNat 35 (slotAt l 2)
    vpcm := BitVec.ofNat 64 (slotAt l 3)
    uie := bit (slotAt l 4) 1
    pp := levelOf (bit (slotAt l 4) 0)
    fflags := BitVec.ofNat 5 (slotAt l 5)
    vrm := BitVec.ofNat 2 (slotAt l 6)
    vlFmt := BitVec.ofNat 4 (bits (slotAt l 7) 21 18)
    vlGrp := BitVec.ofNat 2 (bits (slotAt l 7) 17 16)
    vl := BitVec.ofNat 12 (slotAt l 7)
    vstrip := BitVec.ofNat 32 (slotAt l 8)
    lchg := bit (slotAt l 9) 8
    quads
    escope := BitVec.ofNat 3 (slotAt l 10)
    xbar := BitVec.ofNat 64 (slotAt l 11 % 512)
    wout := BitVec.ofNat 64 (slotAt l 12) &&& ~~~7
    vprog := BitVec.ofNat 64 (slotAt l 13) &&& ~~~7
    vpcnt := BitVec.ofNat 64 (slotAt l 14)
    lkwin := BitVec.ofNat 64 (slotAt l 15) &&& ~~~3
    lkerr := BitVec.ofNat 64 (slotAt l 16) &&& lkerrBits
    lkepc := BitVec.ofNat 64 (slotAt l 17) &&& ~~~3
    xerr := BitVec.ofNat 64 (slotAt l 18) &&& xerrBits
    xepc := BitVec.ofNat 64 (slotAt l 19) &&& ~~~3
    loop := LoopState.ofWord (slotAt l 20)
    lbase := BitVec.ofNat 64 (slotAt l 21) &&& ~~~3
    lix := Vector.ofFn fun i => BitVec.ofNat 32 (slotAt l (22 + i.val))
    ptroot := BitVec.ofNat 64 (slotAt l 28) &&& 0x00FFFFFFFFFFF000
    cyccmp := BitVec.ofNat 64 (slotAt l 29) }

/-- A hart with the user context of an image in the quads given (R373). Of a queue the image gives at most the 16 entries
that it has room for, and of a token channel at most 8 tokens, whatever its count bytes say (DESIGN CHOICE, log entry
64). -/
def Hart.loadImage (h : Hart) (l : List Nat) (quads : Vector Quad 4) (sample : Word) : Hart :=
  let lanes := 16 * bytesAt l 6 1
  { h with
    csr := imageCsrs h.csr l quads sample
    bounds := []
    loopBuf := []
    debt := Vector.replicate 8 {}
    features := BitVec.ofNat 64 (bytesAt l 16 8)
    task := some { launch := bits (bytesAt l 24 8) 43 32, index := bits (bytesAt l 24 8) 31 0 }
    barWait := if bit (slotAt l 30) 8 then
        some (slotAt l 30 % 256, BitVec.ofNat 32 (slotAt l 30 / 2 ^ 32), .user)
      else none
    eventBit := bit (slotAt l 31) 0
    ug := Vector.ofFn fun i => if i.val = 0 then 0 else BitVec.ofNat 64 (bytesAt l (576 + 8 * i.val) 8)
    nest := Vector.ofFn fun i => BitVec.ofNat 128 (bytesAt l (832 + 16 * i.val) 16)
    tag := Vector.ofFn fun i => { fmt := BitVec.ofNat 4 (bytesAt l (928 + i.val) 1), grp := BitVec.ofNat 2 (bytesAt l (928 + i.val) 1 / 16) }
    tok := Vector.ofFn fun i => { count := min 8 (bytesAt l (960 + i.val) 1), reserved := 0 }
    q := Vector.ofFn fun i => (List.range (min 16 (bytesAt l (968 + i.val) 1))).map fun j =>
      BitVec.ofNat 64 (bytesAt l (1024 + 128 * i.val + 8 * j) 8)
    m := Vector.ofFn fun i => BitVec.ofNat 2048 (bytesAt l (2048 + 256 * i.val) 256)
    v := Vector.ofFn fun i => BitVec.ofNat 16384 (bytesAt l (6144 + 32 * (lanes * i.val)) (32 * lanes))
    changed := bit (bytesAt l 7 1) 0 }

/-- The quads that a restore takes: the lowest Q free ones, the highest LEAVE of them leaving (R373). -/
def takeQuads (free : List Nat) (q leave : Nat) : Vector Quad 4 :=
  let own := free.take q
  Vector.ofFn fun i =>
    match findIdx (· = i.val) own with
    | some (k, _) => if q ≤ k + leave then .leaving else .owned
    | none => .free

/-- An image restored into the acting hart, or the `cxstat` that says why not (R373). Issue slots of the context that was
there count no more (R381). -/
def State.restoreImage (s : State) (l : List Nat) : Except Nat State :=
  let q := bytesAt l 6 1
  let c := imageCheck l s.core.fmask
  let free := s.freeQuads (coreOf s.cur) (some s.cur)
  if c ≠ 0 then .error c
  else if free.length < q then .error 4
  else
    .ok ((s.updMe fun h =>
      { h.loadImage l (takeQuads free q (bits (bytesAt l 7 1) 3 1)) s.energyCount with slots := 0 }).detach 4)

/-! ### Ranges of virtual addresses -/

/-- A range of virtual addresses cut at multiples of 64 KiB, the smallest page: first address and bytes of each part. -/
def pageParts (fuel va n : Nat) : List (Nat × Nat) :=
  match fuel with
  | 0 => []
  | fuel + 1 =>
    if n = 0 then []
    else
      let k := min n (65536 - va % 65536)
      (va, k) :: pageParts fuel (va + k) (n - k)

/-- A translated part of a range: its key and bytes, and the translation used. -/
structure Part where
  va : Nat
  key : Nat
  bytes : Nat
  x : Xlate
  deriving DecidableEq, Repr

/-- A range of the acting hart translated part by part, in rising address: the parts, or the first fault with the
address that meets it. -/
def State.xlateRange (s : State) (k : Kind) (va n : Nat) : Except (Cause × Word) (List Part) :=
  (pageParts (n / 65536 + 2) va n).foldl (fun acc p =>
    match acc with
    | .error e => .error e
    | .ok l =>
      match s.xlate k (BitVec.ofNat 64 p.1) with
      | .error c => .error (c, BitVec.ofNat 64 p.1)
      | .ok (key, x) => .ok (l ++ [{ va := p.1, key, bytes := p.2, x }])) (.ok [])

/-- The core's caches after the translations of a range. -/
def State.touchParts (s : State) (l : List Part) : State := l.foldl (fun t p => t.touch p.x) s

/-- The bytes of a translated range. -/
def State.readParts (s : State) (l : List Part) : List Nat := l.flatMap fun p => leBytes p.bytes (s.readMe p.key p.bytes)

/-- Bytes written to a translated range. -/
def State.writeParts (s : State) (l : List Part) (b : List Nat) : State :=
  (l.foldl (fun (a : State × List Nat) p => (a.1.store p.key p.bytes (ofBytes (a.2.take p.bytes)), a.2.drop p.bytes)) (s, b)).1

/-- An uncorrectable error lies in a translated range, whether or not a second read would meet it. -/
def State.poisonedParts (s : State) (l : List Part) : Bool := l.any fun p => s.poisonMe.any fun e => e.hits p.key p.bytes

/-- Errors in a translated range that a second read does not meet are gone once it has been read. -/
def State.passParts (s : State) (l : List Part) : State :=
  { s with poison := s.poison.filter fun e => e.persist || !l.any fun p => e.hits p.key p.bytes }

/-! ### The instructions -/

/-- The word of a one-register PRIV instruction (R55). -/
def privVal (fn : BitVec 10) (b a : BitVec 5) : Word := fieldsVal (.r fn b a 0 0x75)

/-- ctxsave (R371): its checks, its wait, then the image with its seal; `cxstat` becomes 0. -/
def execCtxsave (a : BitVec 5) (s : State) : Result :=
  let va := s.g a
  if s.me.level = .user then .next (s.trap .privilege (privVal 3 0 a))
  else if va.toNat % 64 ≠ 0 then .next (s.trap .misalignedAccess va)
  else
    match s.xlateRange .store va.toNat (imageBody s.me.lanes + 64) with
    | .error (c, x) => .next (s.trap c x)
    | .ok parts =>
      if !s.me.quiet || !s.me.rf.isEmpty then .next (s.stall .drain)
      else
        let t := (s.inOrder.touchParts parts).updCsr fun c => { c with energy := s.energyNow, sample := s.energyCount }
        let p : Position := { pc := t.me.csr.tpc, eix := t.me.csr.eix, vsidx := t.me.csr.vsidx, lanes := t.me.csr.vpcm }
        .next ((t.writeParts parts (sealedImage t.me p)).updCsr fun c => { c with cxstat := 0 }).next

/-- ctxrest (R371, R373): its checks, then the image's, whose first failure sets `cxstat`; otherwise the hart's user
context becomes the image's. It waits until the vector queue has retired, and for engine commands (DEDUCED, log entry
56). Any uncorrectable error that its read meets fails it, with no second reading (DEDUCED, log entry 65). -/
def execCtxrest (a : BitVec 5) (s : State) : Result :=
  let va := s.g a
  if s.me.level = .user then .next (s.trap .privilege (privVal 4 0 a))
  else if va.toNat % 64 ≠ 0 then .next (s.trap .misalignedAccess va)
  else
    match s.xlateRange .load va.toNat 64 with
    | .error (c, x) => .next (s.trap c x)
    | .ok header =>
      let q := bytesAt (s.readParts header) 6 1
      match s.xlateRange .load va.toNat (imageBody (16 * q) + 64) with
      | .error (c, x) => .next (s.trap c x)
      | .ok parts =>
        if !s.me.quiet then .next (s.stall .drain)
        else
          let t := (s.touchParts parts).passParts parts
          if s.poisonedParts parts then .next (t.updCsr fun c => { c with cxstat := 1 }).next
          else
            match t.restoreImage (t.readParts parts) with
            | .error n => .next (t.updCsr fun c => { c with cxstat := BitVec.ofNat 64 n }).next
            | .ok u => .next (u.updCsr fun c => { c with cxstat := 0 }).next

end Sys2Proof.Machine
end

