-- ==== Sys2Proof/Machine/Queue.lean ====
section
/-! DEFINITION. Queue registers (spec/04_scalar.md, R104 to R108) and token instructions (R338). A blocked instruction
has not executed: it waits at its PC. -/

namespace Sys2Proof.Machine

/-- A queue register. -/
def Hart.queue (h : Hart) (q : BitVec 3) : List Word := fileGet (w := 3) q h.q

/-- A queue register replaced. -/
def Hart.setQueue (h : Hart) (q : BitVec 3) (l : List Word) : Hart := { h with q := fileSet (w := 3) q h.q l }

/-- An entry appended to a q register. After a stop a vmv.qv's can stand beyond the sixteenth (R104, R106; DESIGN CHOICE, log entry
85). -/
def Hart.appendEntry (h : Hart) (q : BitVec 3) (x : Word) : Hart := h.setQueue q (h.queue q ++ [x])

/-- A qpush appends its entry; one that runs again for an entry popped already makes up for that one (log entry 3). -/
def Hart.pushEntry (h : Hart) (q : BitVec 3) (x : Word) : Hart :=
  let o := fileGet (w := 3) q h.debt
  match o.at h.level with
  | 0 => h.appendEntry q x
  | n + 1 => { h with debt := fileSet (w := 3) q h.debt (o.set h.level n) }

/-- The oldest entry leaves a q register; in what a hart would go back to, one that is not there yet is owed. -/
def Hart.dropEntry (h : Hart) (q : BitVec 3) : Hart :=
  match h.queue q with
  | [] =>
    let o := fileGet (w := 3) q h.debt
    { h with debt := fileSet (w := 3) q h.debt (o.set h.level (o.at h.level + 1)) }
  | _ :: l => h.setQueue q l

/-- qpush appends all 64 bits, and blocks on 16 entries (R108). -/
def execQpush (q : BitVec 3) (a : BitVec 5) (s : State) : Result :=
  if 16 ≤ (s.me.queue q).length then .next (s.stall (.queueFull q))
  else .next (s.updMe fun h => h.pushEntry q (s.g a)).next

/-- qpop removes the oldest entry, and blocks on none (R108). -/
def execQpop (d : BitVec 5) (q : BitVec 3) (s : State) : Result :=
  match s.me.queue q with
  | [] => .next (s.stall (.queueEmpty q))
  | x :: _ => .next ((s.updMe fun h => h.dropEntry q).write d x)

/-- qlen counts the entries present (R108). -/
def execQlen (d : BitVec 5) (q : BitVec 3) (s : State) : Result :=
  .next (s.write d (BitVec.ofNat 64 (s.me.queue q).length))

/-- A token channel. -/
def Hart.tokens (h : Hart) (k : BitVec 3) : Tokens := fileGet (w := 3) k h.tok

/-- A token channel replaced. -/
def Hart.setTokens (h : Hart) (k : BitVec 3) (t : Tokens) : Hart := { h with tok := fileSet (w := 3) k h.tok t }

/-- A tkpush's token, unless it runs again for one that has been popped already (log entry 3). -/
def Tokens.push (t : Tokens) (l : Level) : Tokens :=
  match t.owed.at l with
  | 0 => { t with count := t.count + 1 }
  | n + 1 => { t with owed := t.owed.set l n }

/-- A token fewer; in what a hart would go back to, one that is not there yet is owed. -/
def Tokens.pop (t : Tokens) (l : Level) : Tokens :=
  if t.count = 0 then { t with owed := t.owed.set l (t.owed.at l + 1) } else { t with count := t.count - 1 }

/-- tkpush blocks while count and reserved places make 8 (R338). -/
def execTkpush (k : BitVec 3) (s : State) : Result :=
  let t := s.me.tokens k
  if 8 ≤ t.count + t.reserved then .next (s.stall (.tokenFull k))
  else .next (s.updMe fun h => h.setTokens k (t.push h.level)).next

/-- tkpop blocks while the channel holds no token (R338). -/
def execTkpop (k : BitVec 3) (s : State) : Result :=
  let t := s.me.tokens k
  if t.count = 0 then .next (s.stall (.tokenEmpty k))
  else .next (s.updMe fun h => h.setTokens k (t.pop h.level)).next

/-- tkcnt reads the count (R338). -/
def execTkcnt (d : BitVec 5) (k : BitVec 3) (s : State) : Result :=
  .next (s.write d (BitVec.ofNat 64 (s.me.tokens k).count))

/-! ### Results that are still to come -/

/-- The lookup and transfer opcodes whose commands write gd (R267, R296). -/
def EOpc.writesG : EOpc → Bool
  | .lkstat | .lkmeta | .lkwait | .wctr | .xwait | .wreg => true
  | _ => false

/-- The token and the place that a command needs to start are there: its pop comes before its push (R338). -/
def Hart.hasTokens (h : Hart) (c : ECmd) : Bool :=
  let t := h.tokens c.chan
  let n := if c.pop then t.count - 1 else t.count
  (!c.pop || 0 < t.count) && (!c.push || n + t.reserved < 8)

/-- A memory access in a place of the hart's program order follows the acquire of an engine command before it, which the command
makes at its start (R267, R296, R346, R349; DEDUCED, log entry 92). -/
def Hart.acquiring (h : Hart) (id : Nat) : Bool := (h.lq ++ h.xq).any fun o => o.order.getLsbD 0 && !o.started && o.id < id

/-- A g register that an outstanding command of the hart will write holds no value yet: an instruction that names it waits
(R101; for a second write of it, DEDUCED, log entry 35). -/
def Hart.busy (h : Hart) (r : BitVec 5) : Bool :=
  r != 0 && (h.lq ++ h.xq).any fun c => c.op.writesG && c.d == r && c.level == h.level

end Sys2Proof.Machine
end

