-- ==== Sys2Proof/Machine/Engine.lean ====
section
/-! DEFINITION. What lookup and transfer commands share (spec/10_lookup_instructions.md, R267 to R274; spec/11_transfer.md,
R296 to R301; R39, R338, R447): issue, start with its translations and tokens, nests, and retirement. -/

namespace Sys2Proof.Machine

/-! ### Commands in their queues -/

/-- A hart's lookup queue, or with `x` its transfer queue. -/
def Hart.cmds (h : Hart) (x : Bool) : List ECmd := if x then h.xq else h.lq

/-- A command of a hart changed. -/
def Hart.updCmd (h : Hart) (x : Bool) (id : Nat) (f : ECmd → ECmd) : Hart :=
  let g (l : List ECmd) := l.map fun c => if c.id = id then f c else c
  if x then { h with xq := g h.xq } else { h with lq := g h.lq }

/-- A command of a hart of the package changed. -/
def State.updCmd (s : State) (hart : Nat) (x : Bool) (id : Nat) (f : ECmd → ECmd) : State :=
  s.updHart hart (·.updCmd x id f)

/-! ### Nests (R262, R274) -/

/-- The product of the bounds of a nest. -/
def nestProduct (l : List (BitVec 128)) : Nat := l.foldl (fun n r => n * nestBound r) 1

/-- The sums of A, B and C of each step of a nest, n0 fastest. -/
def nestSums (l : List (BitVec 128)) : List (Int × Int × Int) :=
  l.foldr (fun r inner =>
    inner.flatMap fun o => (List.range (nestBound r)).map fun (i : Nat) =>
      (o.1 + i * nestA r, o.2.1 + i * nestB r, o.2.2 + i * nestC r)) [(0, 0, 0)]

/-- An address modulo 2^64. -/
def addr64 (x : Int) : Nat := (x % 2 ^ 64).toNat

/-! ### Issue -/

/-- The fields of an engine instruction's word and what it reads at issue. -/
structure EIssue where
  op : EOpc
  /-- the transfer queue -/
  x : Bool
  word : Word
  /-- gd as it stands in the word; its value is read where the entry says so -/
  d : BitVec 5 := 0
  a : BitVec 5 := 0
  b : BitVec 5 := 0
  nest : BitVec 3 := 0
  e : EMod
  deriving DecidableEq, Repr

/-- The command of an instruction at the PC. -/
def State.command (s : State) (i : EIssue) : ECmd :=
  { id := s.seq, pc := s.me.pc, op := i.op, word := i.word, d := i.d, a := s.g i.a, b := s.g i.b, x := s.g i.d
    nest := (List.range i.nest.toNat).map s.me.nestAt
    order := i.e.order, push := i.e.push, pop := i.e.pop, chan := i.e.chan
    scope := s.me.csr.escope, xbar := s.me.csr.xbar, wout := s.me.csr.wout
    asid := s.me.csr.asid, level := s.me.level, launch := s.me.task.map (·.launch) }

/-- Issue of an engine command (R43, R267, R271, R296, R298): a full queue stops it; then its traps in their order: the
feature of the word, the feature of its operands, an illegal scope, and the checks of its entry, which give a cause and
VAL; otherwise it enters the queue. -/
def State.issueCmd (s : State) (i : EIssue) (hasFeature hasLate : Bool) (check : ECmd → Option (Cause × Word)) : State :=
  let c := s.command i
  if 16 ≤ ((s.me.cmds i.x).filter fun c => !c.started).length then s.stall .dispatch
  else if !hasFeature then s.trap .featureAbsent i.word
  else if !hasLate then s.trap .featureAbsent i.word
  else if i.e.order ≠ 0 ∧ 6 ≤ s.me.csr.escope.toNat then s.trap .illegalScope i.word
  else
    match check c with
    | some (cause, val) => s.trap cause val
    | none =>
      let h := if i.x then { s.me with xq := s.me.xq ++ [c] } else { s.me with lq := s.me.lq ++ [c] }
      { s with me := h, snaps := mapSet s.snaps s.seq s.me, seq := s.seq + 1 }.next

/-! ### Start -/

/-- A range of bytes that a command touches: first address, bytes, and what its pages must permit. A tier operand raises
no tier-miss (R301). What is read at the start, a record or a list, is `early`. -/
structure Touch where
  va : Nat
  bytes : Nat
  kind : Kind
  tier : Bool := false
  early : Bool := false
  deriving DecidableEq, Repr

/-- The parts of a range, cut at the smallest page and at the end of the address space. -/
def Touch.parts (t : Touch) : List Touch :=
  (pageParts (t.bytes / 65536 + 2) t.va t.bytes).map fun p => { t with va := p.1 % 2 ^ 64, bytes := p.2 }

/-- A part among others of one step in ascending page; parts of one page that need the same permission are joined. -/
def insertTouch (t : Touch) : List Touch → List Touch
  | [] => [t]
  | u :: l =>
    if t.va / 65536 < u.va / 65536 then t :: u :: l
    else if t.va / 65536 = u.va / 65536 ∧ t.kind = u.kind ∧ t.tier = u.tier then
      { u with va := min t.va u.va, bytes := max (t.va + t.bytes) (u.va + u.bytes) - min t.va u.va } :: l
    else u :: insertTouch t l

/-- The ranges of one step as parts in ascending address (R271 item 5, R298 item 5). -/
def oneStep (l : List Touch) : List Touch := (l.flatMap (·.parts)).foldl (fun acc t => insertTouch t acc) []

/-- The translation of a part for a command of the acting hart. What a lookup command reads, or what is read at the start, is
loaded, so that a package which stays unreachable is an access fault (R424; DESIGN CHOICE, log entry 75). -/
def State.xlateCmd (s : State) (c : ECmd) (t : Touch) : Except Cause (Nat × Xlate) :=
  match s.translate (coreOf s.cur) s.core.tlb c.asid s.me.csr.ptroot c.level t.tier t.kind t.va with
  | .error e => .error e
  | .ok (key, x) => if t.early && s.unreached key then .error .accessFault else .ok (key, x)

/-- The lowest address that the command touches in the page that faults at an address (R447). -/
def State.faultAddress (s : State) (c : ECmd) (l : List Touch) (va : Nat) : Word :=
  let size := match s.lookup (coreOf s.cur) s.core.tlb c.asid s.me.csr.ptroot va with
    | .ok x => x.entry.size
    | .error _ => 16
  let lo := va / 2 ^ size * 2 ^ size
  BitVec.ofNat 64 ((l.filter fun t => t.va < lo + 2 ^ size && lo < t.va + t.bytes).foldl (fun m t => min m (max t.va lo)) va)

/-- What pinning has gathered: entries pinned, each with the kind checked, the caches touched, another package met, and
the first fault. -/
structure Pinned where
  pins : List (TlbEntry × Kind × Bool) := []
  state : State
  remote : Bool := false
  fault : Option (Cause × Nat) := none

/-- The translations of a command's ranges, in their order (R271 item 5, R298 items 4 and 5): the pages to pin, or the
trap; an access to another package by a core without feature bit 13 is decided first (R378). `before` are the ranges that the
command has touched already. -/
def State.pin (s : State) (c : ECmd) (l : List Touch) (before : List Touch := []) : Except (Cause × Word) (List TlbEntry × State) :=
  let parts := l.flatMap (·.parts)
  let r := parts.foldl (fun (acc : Pinned) t =>
    if acc.pins.any fun p => p.1.covers c.asid t.va && p.2.1 = t.kind && p.2.2 == t.tier then acc
    else
      match acc.state.xlateCmd c t with
      | .error e => if acc.fault.isSome then acc else { acc with fault := some (e, t.va) }
      | .ok (key, x) =>
        { acc with pins := (x.entry, t.kind, t.tier) :: acc.pins, state := acc.state.touch x,
                   remote := acc.remote || (s.isRemote x.gpa && key < 2 ^ 56) }) { state := s }
  if r.remote && !s.core.fmask.getLsbD 13 then .error (.featureAbsent, c.word)
  else
    match r.fault with
    | some (e, va) => .error (e, s.faultAddress c (before.flatMap (·.parts) ++ parts) va)
    | none => .ok ((r.pins.map (·.1)).eraseDups, r.state)

/-- The memory key of an address under a command's pinned pages. -/
def State.pinKey (s : State) (core : Nat) (c : ECmd) (va : Nat) : Option Nat :=
  match c.pins.find? (·.covers c.asid va) with
  | some t => s.keyOf core c.level (t.gpa va)
  | none => none

/-- Two writes of a command share a byte of memory, wherever its pages map them. -/
def State.meets (s : State) (core : Nat) (c : ECmd) (p q : Pending) : Bool :=
  match s.pinKey core c p.va, s.pinKey core c q.va with
  | some x, some y => overlap x p.bytes y q.bytes
  | _, _ => false

/-- The command at the head of a hart's queue: the oldest that has not started. -/
def Hart.head (h : Hart) (x : Bool) : Option ECmd := (h.cmds x).find? fun c => !c.started

/-- Every engine command and vector instruction that precedes a command in program order has retired. -/
def Hart.nothingBefore (h : Hart) (c : ECmd) : Bool :=
  (h.lq ++ h.xq).all (fun o => c.id ≤ o.id) && h.vq.all fun i => c.id < i.id

/-- No scalar store that precedes a command is kept back by an older instruction. -/
def Hart.storesReady (h : Hart) (c : ECmd) : Bool := h.sb.all fun e => h.ready e || c.id < e.before

/-- A command's records are read after every earlier store of the hart (R307, R308, R321). -/
def EOpc.hasRecord (o : EOpc) : Bool := o == .xshape || o == .xgather || o == .nmx

/-- No vector store that precedes a command is outstanding, and no earlier scalar store is kept back by an older
instruction. -/
def Hart.storesBefore (h : Hart) (c : ECmd) : Bool :=
  h.vq.all (fun i => c.id < i.id || i.members.all fun m => !m.op.op.isStore) && h.storesReady c

/-- A command that accesses no memory: its acquire orders nothing of its own (R269). -/
def EOpc.noMemory (o : EOpc) : Bool :=
  match o with
  | .cbclr | .tbfree | .lkinit | .lkclr | .lkstat | .lkmeta | .lkwait | .wunreg | .wctr | .xwait => true
  | _ => false

/-- The head of a queue may start: its pop has a token, its push a place (R338), no earlier acquire is still to be made before
its accesses (R349), and with an acquire of its own every earlier access has performed, whatever its scope (R269, R297). -/
def Hart.mayStart (h : Hart) (c : ECmd) : Bool :=
  h.hasTokens c && (c.op.noMemory || !h.acquiring c.id) && (!c.order.getLsbD 0 || (h.nothingBefore c && h.storesReady c)) && (!c.op.hasRecord || h.storesBefore c)

/-- A command with release may retire: every earlier access of the hart has performed, and at package and domain scope its
return-free operations (R319, R346, R347, R350). -/
def Hart.mayRelease (h : Hart) (c : ECmd) : Bool :=
  !c.order.getLsbD 1 || (h.nothingBefore c && h.sb.all (fun e => c.id < e.before) &&
    (c.scope.toNat < 4 || h.rf.all fun r => c.id < r.id))

/-- The token popped, and the place for the push reserved (R338). -/
def Hart.takeTokens (h : Hart) (c : ECmd) : Hart :=
  let h := if c.pop then h.setTokens c.chan ((h.tokens c.chan).pop h.level) else h
  if c.push then h.setTokens c.chan { h.tokens c.chan with reserved := (h.tokens c.chan).reserved + 1 } else h

/-- The next place in the order of starts. -/
def State.bumpSeq (s : State) : State := { s with seq := s.seq + 1 }

/-- The earlier stores that a command's acquire or its record's read follows perform before its start. -/
def State.beforeStart (s : State) (c : ECmd) : State :=
  if c.order.getLsbD 0 || c.op.hasRecord then s.flushStores else s

/-- The acting hart's command starts with its pages pinned; scalar stores that it kept from performing perform. -/
def State.startCmd (s : State) (x : Bool) (c : ECmd) (pins : List TlbEntry) (f : ECmd → ECmd) : State :=
  ((s.updAsync s.cur fun h => h.takeTokens c).updMe fun h =>
    h.updCmd x c.id fun k => { f k with started := true, stamp := s.seq, pins }).bumpSeq.commitStores

/-- A vector instruction before a place in program order has an access that will meet an error (R230). -/
def State.olderError (s : State) (id : Nat) : Bool :=
  s.me.vq.any fun i => decide (i.id < id) && i.members.any fun m => m.pend.any fun a =>
    a.kind.returns && s.poison.any fun p => p.persist && p.hits a.key a.bytes

/-- The acting hart's command traps at its start: it and everything younger are discarded (R270, R271, R299). Where an older
vector instruction will trap, it does not start (R121). -/
def State.trapCmd (s : State) (c : ECmd) (cause : Cause) (val : Word) : State :=
  if s.olderError c.id then s
  else
    let s := if cause.ofAccess then s.xlateFailed val else s
    ((s.settleWhere (· < c.id)).rollbackTo c.id).post (.trap { cause, val, pos := { pc := c.pc } })

/-! ### Retirement -/

/-- A g register of a level's bank written. -/
def Hart.setGAt (h : Hart) (lvl : Level) (r : BitVec 5) (x : Word) : Hart :=
  if r = 0 then h else
    match lvl with
    | .user => { h with ug := fileSet (w := 5) r h.ug x }
    | .supervisor => { h with sg := fileSet (w := 5) r h.sg x }

/-- The reservation of a push becomes a token (R338). -/
def Hart.pushToken (h : Hart) (c : ECmd) : Hart :=
  if c.push then
    let t := h.tokens c.chan
    h.setTokens c.chan { t with count := t.count + 1, reserved := t.reserved - 1 }
  else h

/-- Reports in the order of R290: ascending condition, then ascending unit, one for each pair, with the lowest bank. -/
def sortReports (l : List Report) : List Report :=
  l.foldl (fun acc r =>
    match acc.find? fun o => o.cond = r.cond && o.unit = r.unit with
    | some _ => acc.map fun o => if o.cond = r.cond ∧ o.unit = r.unit then { o with bank := min o.bank r.bank } else o
    | none =>
      acc.takeWhile (fun o => o.cond < r.cond || (o.cond = r.cond && o.unit < r.unit)) ++ r ::
        acc.dropWhile fun o => o.cond < r.cond || (o.cond = r.cond && o.unit < r.unit)) []

/-- A command leaves its queue: gd is written where it writes it, for what follows in program order, and its token is
pushed. -/
def State.leave (s : State) (hart : Nat) (x : Bool) (c : ECmd) : State :=
  let t := (s.updAfter hart c.id fun h => if c.op.writesG then h.setGAt c.level c.d c.res else h).updAsync hart (·.pushToken c)
  (t.updHart hart fun h =>
    if x then { h with xq := h.xq.filter (·.id ≠ c.id) } else { h with lq := h.lq.filter (·.id ≠ c.id) }).dropSnaps [c.id]

/-! ### Memory as an engine reaches it -/

/-- The bytes of a range under a command's pinned pages, and the key of the first part in which an error persists or that no
route reaches any more. A transient error is gone on the second read (R302). A byte that no memory answers for reads as
zero. -/
def State.readCmd (s : State) (core : Nat) (c : ECmd) (va n : Nat) : List Nat × Option Nat :=
  (({ va, bytes := n, kind := .load } : Touch).parts).foldl (fun (acc : List Nat × Option Nat) p =>
    match s.pinKey core c p.va with
    | none => (acc.1 ++ leBytes p.bytes 0, acc.2)
    | some key =>
      (acc.1 ++ leBytes p.bytes (s.read key p.bytes),
       if acc.2.isNone && ((s.poison.any fun e => e.persist && e.hits key p.bytes) || s.unreached key) then some key else acc.2)) ([], none)

end Sys2Proof.Machine
end

