-- ==== Sys2Proof/Machine/ScalarMem.lean ====
section
/-! DEFINITION. Scalar memory and cache instructions (spec/04_scalar.md R117 to R120, spec/08_vector_memory.md R218 to
R220). -/

namespace Sys2Proof.Machine

/-- sext or zext of the low n bytes to 64 bits (R117). -/
def extendBytes (n : Nat) (signed : Bool) (x : Nat) : Word :=
  if signed then BitVec.ofInt 64 (sint (8 * n) x) else BitVec.ofNat 64 x

/-- VAL of a scalar access's trap: its address, or for feature-absent its word (R357). -/
def Cause.memVal (c : Cause) (va w : Word) : Word := if c = .featureAbsent then w else va

/-- A translated address in another package needs feature bit 13 (R377, R378). R118 and R378 do not say where the trap
for want of it stands among R118's: here it follows the access fault and comes before poisoned data (DESIGN CHOICE, log
entry 63). -/
def State.lacksRemote (s : State) (x : Xlate) : Bool := s.isRemote x.gpa && !s.core.fmask.getLsbD 13

/-- The word of a load-acquire or store-release (R48). -/
def orderVal (maj : BitVec 7) (fn : BitVec 3) (d a : BitVec 5) (scope : Scope) : Word :=
  fieldsVal (.i (0#9 ++ scope.code) fn a d maj)

/-- A scalar read of n bytes: its exceptions in the order of R118, then the value and the state after it. Feature-absent, which
R118 does not order, stands before poisoned data (DESIGN CHOICE, log entry 63). -/
def State.scalarRead (s : State) (n : Nat) (k : Kind) (va : Word) : Except Cause (Nat × Nat × State) :=
  if va.toNat % n ≠ 0 then .error .misalignedAccess
  else
    match s.xlate k va with
    | .error c => .error c
    | .ok (key, x) =>
      if s.lacksRemote x then .error .featureAbsent
      else if s.poisonedAt key n then .error .poisonedData
      else .ok (key, s.physRead key n, ((s.touch x).clearTransient key n).allocate key n)

/-- A load of n bytes into gd, or its precise trap with the address as VAL (R117 to R119). -/
def State.load (s : State) (n : Nat) (signed : Bool) (w : Word) (d : BitVec 5) (va : Word) : State :=
  match s.scalarRead n .load va with
  | .error c => s.trap c (c.memVal va w)
  | .ok (_, x, t) => t.write d (extendBytes n signed x)

/-- A store of the low n bytes of a value, or its precise trap. A store that leaves a poisoned granule writes a fault
record and retires (R119). -/
def State.storeScalar (s : State) (n : Nat) (w va x : Word) : State :=
  if va.toNat % n ≠ 0 then s.trap .misalignedAccess va
  else
    match s.xlate .store va with
    | .error c => s.trap c va
    | .ok (key, xl) =>
      if s.lacksRemote xl then s.trap .featureAbsent w
      else ((s.touch xl).physStore key n (x.toNat % 2 ^ (8 * n)) va).next

/-- Every earlier memory access of the hart has performed at a scope of a release or fence: its vector accesses
perform, and it waits for its engine commands, and at package and domain scope for return-free operations (R219, R336,
R350). None: it must wait. -/
def State.drained (s : State) (scope : Nat) : Option State :=
  if scope = 0 then some s
  else if s.me.quiet && (scope < 4 || s.me.rf.isEmpty) then some s.inOrder
  else none

/-- A release, then a continuation; the instruction waits while earlier accesses are outstanding. -/
def State.release (s : State) (scope : Nat) (k : State → State) : State :=
  match s.drained scope with
  | some t => k t
  | none => s.stall .drain

def execLb (d a : BitVec 5) (i : BitVec 12) (s : State) : Result :=
  .next (s.load 1 true (fieldsVal (.i i 0 a d 0x08)) d (s.addr a i))
def execLh (d a : BitVec 5) (i : BitVec 12) (s : State) : Result :=
  .next (s.load 2 true (fieldsVal (.i i 1 a d 0x08)) d (s.addr a i))
def execLw (d a : BitVec 5) (i : BitVec 12) (s : State) : Result :=
  .next (s.load 4 true (fieldsVal (.i i 2 a d 0x08)) d (s.addr a i))
def execLd (d a : BitVec 5) (i : BitVec 12) (s : State) : Result :=
  .next (s.load 8 false (fieldsVal (.i i 3 a d 0x08)) d (s.addr a i))
def execLbn (d a : BitVec 5) (i : BitVec 12) (s : State) : Result :=
  .next (s.load 1 false (fieldsVal (.i i 4 a d 0x08)) d (s.addr a i))
def execLhn (d a : BitVec 5) (i : BitVec 12) (s : State) : Result :=
  .next (s.load 2 false (fieldsVal (.i i 5 a d 0x08)) d (s.addr a i))
def execLwn (d a : BitVec 5) (i : BitVec 12) (s : State) : Result :=
  .next (s.load 4 false (fieldsVal (.i i 6 a d 0x08)) d (s.addr a i))

/-- The data register of a store is its gd field (R48). -/
def execSb (d a : BitVec 5) (i : BitVec 12) (s : State) : Result :=
  .next (s.storeScalar 1 (fieldsVal (.i i 0 a d 0x09)) (s.addr a i) (s.g d))
def execSh (d a : BitVec 5) (i : BitVec 12) (s : State) : Result :=
  .next (s.storeScalar 2 (fieldsVal (.i i 1 a d 0x09)) (s.addr a i) (s.g d))
def execSw (d a : BitVec 5) (i : BitVec 12) (s : State) : Result :=
  .next (s.storeScalar 4 (fieldsVal (.i i 2 a d 0x09)) (s.addr a i) (s.g d))
def execSd (d a : BitVec 5) (i : BitVec 12) (s : State) : Result :=
  .next (s.storeScalar 8 (fieldsVal (.i i 3 a d 0x09)) (s.addr a i) (s.g d))

/-- A load-acquire at gs1: no later access of the hart performs before it, and the step performs it at once (R219). -/
def execLbAq (d a : BitVec 5) (scope : Scope) (s : State) : Result :=
  .next (s.load 1 true (orderVal 0x0A 0 d a scope) d (s.g a))
def execLhAq (d a : BitVec 5) (scope : Scope) (s : State) : Result :=
  .next (s.load 2 true (orderVal 0x0A 1 d a scope) d (s.g a))
def execLwAq (d a : BitVec 5) (scope : Scope) (s : State) : Result :=
  .next (s.load 4 true (orderVal 0x0A 2 d a scope) d (s.g a))
def execLdAq (d a : BitVec 5) (scope : Scope) (s : State) : Result :=
  .next (s.load 8 false (orderVal 0x0A 3 d a scope) d (s.g a))
def execLbnAq (d a : BitVec 5) (scope : Scope) (s : State) : Result :=
  .next (s.load 1 false (orderVal 0x0A 4 d a scope) d (s.g a))
def execLhnAq (d a : BitVec 5) (scope : Scope) (s : State) : Result :=
  .next (s.load 2 false (orderVal 0x0A 5 d a scope) d (s.g a))
def execLwnAq (d a : BitVec 5) (scope : Scope) (s : State) : Result :=
  .next (s.load 4 false (orderVal 0x0A 6 d a scope) d (s.g a))

/-- A store-release at gs1: it performs after every earlier access of the hart (R219). -/
def execSbRl (d a : BitVec 5) (scope : Scope) (s : State) : Result :=
  .next (s.release (scope.code.toNat) fun t => t.storeScalar 1 (orderVal 0x0B 0 d a scope) (s.g a) (s.g d))
def execShRl (d a : BitVec 5) (scope : Scope) (s : State) : Result :=
  .next (s.release (scope.code.toNat) fun t => t.storeScalar 2 (orderVal 0x0B 1 d a scope) (s.g a) (s.g d))
def execSwRl (d a : BitVec 5) (scope : Scope) (s : State) : Result :=
  .next (s.release (scope.code.toNat) fun t => t.storeScalar 4 (orderVal 0x0B 2 d a scope) (s.g a) (s.g d))
def execSdRl (d a : BitVec 5) (scope : Scope) (s : State) : Result :=
  .next (s.release (scope.code.toNat) fun t => t.storeScalar 8 (orderVal 0x0B 3 d a scope) (s.g a) (s.g d))

/-- The bytes of a line return to what DRAM holds beneath the L2. -/
def revertLine (mem : List Host.Cell) (dram : AMap Byte) (key n : Nat) : List Host.Cell :=
  match n with
  | 0 => mem
  | n + 1 =>
    revertLine (match mapGet dram key with | some b => memSet mem key b | none => mem) dram (key + 1) n

/-- A line is in no L2 (R214, R220). -/
def State.uncache (s : State) (key : Nat) : State :=
  if keyCached key then { s with uncached := lineOf key :: s.uncached.filter (· ≠ lineOf key) } else s

/-- A line removed from the L2 without being written back (R220). -/
def State.dropLine (s : State) (key : Nat) : State :=
  ({ s with mem := revertLine s.mem s.dram (lineOf key) 64 }.cleanLine key).uncache key

/-- A line written back and removed from the L2 (R220). -/
def State.flushLine (s : State) (key : Nat) : State := (s.cleanLine key).uncache key

/-- A CACHE instruction that faults as R118 items 2 to 5 give, and then acts on the line of its address (R220). -/
def State.cacheOp (s : State) (k : Kind) (va : Word) (f : State → Nat → State) : State :=
  if s.me.speculative then s.stall .drain
  else
    let s := s.inOrder
    match s.xlate k va with
    | .error c => s.trap c va
    | .ok (key, x) => (f (s.touch x) key).next

/-- A prefetch: the line of a translated address comes into its home L2; no effect on any value, and no fault (R220). -/
def State.prefetch (s : State) (k : Kind) (va : Word) : State :=
  match s.xlate k va with
  | .ok (key, x) => ((s.touch x).allocate (lineOf key) 64).next
  | .error _ => s.next

/-- pref fetches the line for reading (R220). -/
def execPref (a : BitVec 5) (i : BitVec 12) (s : State) : Result := .next (s.prefetch .load (s.addr a i))
/-- prefw is as pref, where the translation permits writing (R220). -/
def execPrefw (a : BitVec 5) (i : BitVec 12) (s : State) : Result := .next (s.prefetch .store (s.addr a i))
def execCln (a : BitVec 5) (i : BitVec 12) (s : State) : Result :=
  .next (s.cacheOp .load (s.addr a i) State.cleanLine)
/-- cinv is supervisor-only, and needs read and write permission (R220, R367). -/
def execCinv (a : BitVec 5) (i : BitVec 12) (s : State) : Result :=
  if s.me.level = .user then .next (s.trap .privilege (fieldsVal (.i i 3 a 0 0x0C)))
  else .next (s.cacheOp .both (s.addr a i) State.dropLine)
/-- cflush writes back and removes the line: every value stays, and DRAM holds it (R220). -/
def execCflush (a : BitVec 5) (i : BitVec 12) (s : State) : Result :=
  .next (s.cacheOp .load (s.addr a i) State.flushLine)

end Sys2Proof.Machine
end

