-- ==== Sys2Proof/Machine/Masks.lean ====
section
/-! DEFINITION. Mask functions (spec/05_control.md, R141 to R143). None of them sets a flag. -/

namespace Sys2Proof.Machine

/-- The index of a mask's lowest 1 below a length, or the length (R142). -/
def firstSet (x : BitVec 2048) (vl : Nat) : Nat := trailFrom x.toNat vl 0

/-- Bits 0 to n - 1 set. -/
def lowOnes (n : Nat) : BitVec 2048 := BitVec.ofNat 2048 (2 ^ n - 1)

/-- The mask functions by a number of their own, in the order of R142, on two masks and the length. -/
def maskValue (fn vl : Nat) (x y : BitVec 2048) : BitVec 2048 :=
  match fn with
  | 0 => x &&& y
  | 1 => x ||| y
  | 2 => x ^^^ y
  | 3 => x &&& ~~~y
  | 4 => x ||| ~~~y
  | 5 => ~~~(x ^^^ y)
  | 6 => ~~~x
  | 7 => x
  | 8 => BitVec.allOnes 2048
  | 9 => 0
  | 10 => lowOnes (firstSet x vl)
  | 11 => lowOnes (min (firstSet x vl + 1) vl)
  | _ => if firstSet x vl < vl then BitVec.ofNat 2048 (2 ^ firstSet x vl) else 0

/-- A mask register written by a mask function. -/
def Hart.maskWrite (h : Hart) (fn vl : Nat) (d a b : BitVec 4) : Hart :=
  { h with m := fileSet (w := 4) d h.m (maskValue fn vl (h.mask a) (h.mask b)) }

/-- A mask function executes in the vector unit, in program order with the hart's vector instructions (R134): at once
where nothing is queued before it. -/
def State.maskOp (s : State) (fn : Nat) (d a b : BitVec 4) : State :=
  if s.me.vectorFree then (s.updMe fun h => h.maskWrite fn h.vl d a b).next
  else if s.me.vqFull then s.stall .dispatch
  else (s.enqueue s.me.pc s.me.vctx (.mask fn d a b) s.me).next

def execMand (d a b : BitVec 4) (s : State) : Result := .next (s.maskOp 0 d a b)
def execMor (d a b : BitVec 4) (s : State) : Result := .next (s.maskOp 1 d a b)
def execMxor (d a b : BitVec 4) (s : State) : Result := .next (s.maskOp 2 d a b)
def execMandn (d a b : BitVec 4) (s : State) : Result := .next (s.maskOp 3 d a b)
def execMorn (d a b : BitVec 4) (s : State) : Result := .next (s.maskOp 4 d a b)
def execMxnor (d a b : BitVec 4) (s : State) : Result := .next (s.maskOp 5 d a b)
def execMnot (d a : BitVec 4) (s : State) : Result := .next (s.maskOp 6 d a 0)
def execMmov (d a : BitVec 4) (s : State) : Result := .next (s.maskOp 7 d a 0)
def execMset (d : BitVec 4) (s : State) : Result := .next (s.maskOp 8 d 0 0)
def execMclr (d : BitVec 4) (s : State) : Result := .next (s.maskOp 9 d 0 0)
/-- Bits below the lowest 1 (R142). -/
def execMsbf (d a : BitVec 4) (s : State) : Result := .next (s.maskOp 10 d a 0)
/-- Bits up to the lowest 1, or all below vl (R142). -/
def execMsif (d a : BitVec 4) (s : State) : Result := .next (s.maskOp 11 d a 0)
/-- The lowest 1 alone (R142). -/
def execMsof (d a : BitVec 4) (s : State) : Result := .next (s.maskOp 12 d a 0)

/-- A value of a mask register to gd, once every earlier vector instruction has retired (R134, R143). -/
def State.maskRead (s : State) (d : BitVec 5) (x : Word) : State :=
  if s.me.vq.isEmpty then s.write d x else s.stall .drain

def execMcnt (d : BitVec 5) (a : BitVec 4) (s : State) : Result :=
  .next (s.maskRead d (BitVec.ofNat 64 (popFrom (s.me.mask a).toNat s.me.vl)))
def execMany (d : BitVec 5) (a : BitVec 4) (s : State) : Result :=
  .next (s.maskRead d (if firstSet (s.me.mask a) s.me.vl < s.me.vl then 1 else 0))
def execMfirst (d : BitVec 5) (a : BitVec 4) (s : State) : Result :=
  .next (s.maskRead d (if firstSet (s.me.mask a) s.me.vl < s.me.vl then BitVec.ofNat 64 (firstSet (s.me.mask a) s.me.vl)
    else BitVec.allOnes 64))

end Sys2Proof.Machine
end

