-- ==== Sys2Proof/Machine/Sfu.lean ====
section
/-! DEFINITION. The special functions (spec/07_vector_arith.md, R194 to R196). An exact result is enclosed between
m * 2^e and (m + 1) * 2^e to some 300 bits, which decides every rounding; where the spec bounds the error and gives no
value (f32 and f64), the result is one of the values within the bound, chosen by an open function of the operand. -/

namespace Sys2Proof.Machine

/-- The special functions of R194. -/
inductive Sfu where
  | exp2 | log2 | rsqrt | tanh | sin | cos
  deriving DecidableEq, Repr

/-- The number of a function, for the open choice. -/
def Sfu.code : Sfu → Nat
  | .exp2 => 0 | .log2 => 1 | .rsqrt => 2 | .tanh => 3 | .sin => 4 | .cos => 5

/-- The error bound in ulp for f32 and f64 (R194). -/
def Sfu.ulps : Sfu → Nat
  | .exp2 | .log2 | .rsqrt => 1
  | _ => 2

/-! ### Fixed point: a number x stands for x / 2^p -/

/-- The working precision. -/
def sfuP : Nat := 320

/-- The sum of y^k / k! from a term on. -/
def expTerms (p y : Nat) : Nat → Nat → Nat → Nat → Nat
  | 0, _, _, acc => acc
  | fuel + 1, k, term, acc =>
    let t := term * y / 2 ^ p / k
    if t = 0 then acc else expTerms p y fuel (k + 1) t (acc + t)

/-- e^y for 0 ≤ y < 1. -/
def expFix (p y : Nat) : Nat := expTerms p y (2 * p) 1 (2 ^ p) (2 ^ p)

/-- The sum of z^(2k+1) / (2k+1), signs alternating where `alt`. -/
def atanTerms (p zz : Nat) (alt : Bool) : Nat → Nat → Nat → Int → Int
  | 0, _, _, acc => acc
  | fuel + 1, k, pow, acc =>
    let t : Int := (pow / k : Nat)
    if pow = 0 then acc
    else atanTerms p zz alt fuel (k + 2) (pow * zz / 2 ^ p) (if alt && k / 2 % 2 == 1 then acc - t else acc + t)

/-- atanh z for 0 ≤ z ≤ 1/3. -/
def atanhFix (p z : Nat) : Nat := (atanTerms p (z * z / 2 ^ p) false p 1 z 0).toNat

/-- ln 2. -/
def ln2Fix (p : Nat) : Nat := 2 * atanhFix p (2 ^ p / 3)

/-- atan (1/n). -/
def atanInv (p n : Nat) : Int := atanTerms p (2 ^ p / (n * n)) true p 1 (2 ^ p / n) 0

/-- pi / 2, by Machin's formula. -/
def halfPi (p : Nat) : Nat := ((16 * atanInv (p + 16) 5 - 4 * atanInv (p + 16) 239).toNat / 2) / 2 ^ 16

/-- The alternating series of sine and cosine from a term on. -/
def trigTerms (p rr : Nat) : Nat → Nat → Nat → Bool → Int → Int
  | 0, _, _, _, acc => acc
  | fuel + 1, k, term, neg, acc =>
    if term = 0 then acc
    else trigTerms p rr fuel (k + 2) (term * rr / 2 ^ p / ((k + 1) * (k + 2))) (!neg) (if neg then acc - (term : Int) else acc + (term : Int))

/-- sin r for 0 ≤ r ≤ pi / 2. -/
def sinFix (p r : Nat) : Nat := (trigTerms p (r * r / 2 ^ p) p 1 r false 0).toNat
/-- cos r for 0 ≤ r ≤ pi / 2. -/
def cosFix (p r : Nat) : Nat := (trigTerms p (r * r / 2 ^ p) p 0 (2 ^ p) false 0).toNat

/-- An inexact value: (-1)^neg times a number strictly between m and m + 1 units of 2^e. -/
structure Enclosed where
  neg : Bool := false
  m : Nat
  e : Int
  deriving DecidableEq, Repr

/-- The number m * 2^e in fixed point, rounded down. -/
def toFix (p m : Nat) (e : Int) : Nat := if 0 ≤ e + p then m * 2 ^ (e + p).toNat else m / 2 ^ (-(e + p)).toNat

/-- A value just below x, by less than any format can tell. -/
def justBelow (neg : Bool) (m : Nat) (e : Int) : Enclosed := { neg, m := m * 2 ^ sfuP - 1, e := e - sfuP }

/-- 2^x for a finite x that is no integer. -/
def encExp2 (neg : Bool) (m : Nat) (e : Int) : Enclosed :=
  let top := e + (m.log2 : Int)
  if top < -100 then (if neg then justBelow false 1 0 else { m := 2 ^ sfuP, e := -sfuP })
  else if 20 < top then (if neg then { m := 1, e := -2 ^ 21 } else { m := 1, e := 2 ^ 21 })
  else
    let p := sfuP
    let x : Int := (toFix p m e : Nat)
    let y : Int := if neg then -x else x
    let n := y / (2 ^ p : Nat)
    let f := (y % (2 ^ p : Nat)).toNat
    { m := expFix p (f * ln2Fix p / 2 ^ p), e := n - p }

/-- log2 of a finite positive value that is no power of two. -/
def encLog2 (m : Nat) (e : Int) : Enclosed :=
  let p := 2 * sfuP
  let k := m.log2
  let num := (m - 2 ^ k) * 2 ^ p
  let l := 2 * atanhFix p (num / (m + 2 ^ k)) * 2 ^ p / ln2Fix p      -- log2 (m / 2^k)
  let v : Int := (e + (k : Int)) * (2 ^ p : Nat) + (l : Int)
  if v < 0 then { neg := true, m := v.natAbs - 1, e := -p } else { m := v.toNat, e := -p }

/-- 1 / sqrt of a finite positive value that is no even power of two. -/
def encRsqrt (m : Nat) (e : Int) : Enclosed :=
  let odd := e % 2 ≠ 0
  let m' := if odd then 2 * m else m
  let e' := if odd then e - 1 else e
  { m := isqrt (2 ^ (2 * sfuP + 128) / m'), e := -e' / 2 - (sfuP + 64) }

/-- tanh of a finite value that is not zero. -/
def encTanh (neg : Bool) (m : Nat) (e : Int) : Enclosed :=
  let top := e + (m.log2 : Int)
  if top < -40 then justBelow neg m e
  else if 7 ≤ top then justBelow neg 1 0
  else
    let p := 2 * sfuP
    -- e^(2x) = 2^n * e^f
    let y := 2 * toFix p m e
    let l := ln2Fix p
    let n := y / l
    let u := expFix p (y % l) * 2 ^ n
    { neg, m := (u - 2 ^ p) * 2 ^ p / (u + 2 ^ p), e := -p }

/-- The quadrant and the remainder of a magnitude modulo pi / 2, in fixed point of `sfuP` bits. -/
def reduce (m : Nat) (e : Int) : Nat × Nat :=
  let q := sfuP + (e + (m.log2 : Int) + 8).toNat
  let h := halfPi q
  let x := toFix q m e
  (x / h % 4, x % h / 2 ^ (q - sfuP))

/-- sin or cos of a finite value that is not zero. -/
def encTrig (cosine : Bool) (neg : Bool) (m : Nat) (e : Int) : Enclosed :=
  let top := e + (m.log2 : Int)
  if top < -40 then (if cosine then justBelow false 1 0 else justBelow neg m e)
  else
    let (k, r) := reduce m e
    let k' := if cosine then k + 1 else k
    let v := if k' % 2 = 0 then sinFix sfuP r else cosFix sfuP r
    let flip := k' % 4 ≥ 2
    { neg := if cosine then flip else (neg != flip), m := v, e := -sfuP }

/-! ### Results -/

/-- An infinite result; e4m3 has the largest finite value in its place (R195). -/
def sfuInf (f : Fmt) (neg : Bool) : Nat := if f == .e4m3 then f.withSign neg f.maxFinite else f.withSign neg f.infBits

/-- A rounded result; one beyond the largest finite value is an infinity (R195). -/
def sfuRound (f : Fmt) (rm : RM) (x : Enclosed) : FRes :=
  let r := roundFin f rm .arith x.neg x.m x.e true
  if r.fl &&& 4 ≠ 0 then { r with bits := sfuInf f x.neg } else r

/-- Whether a magnitude's bits lie within n ulp of every value that an enclosure admits; an ulp is that of the exact result
(R194). -/
def sfuWithin (f : Fmt) (n : Nat) (x : Enclosed) (mag : Nat) : Bool :=
  match f.decode mag with
  | .fin _ m e =>
    let top := x.e + (x.m.log2 : Int)
    let ulp := max (top - (f.frac : Int)) f.qmin
    let e0 := min e (min x.e ulp)
    let a := m * 2 ^ (e - e0).toNat
    let b := x.m * 2 ^ (x.e - e0).toNat
    let d := if b < a then a - b else b + 2 ^ (x.e - e0).toNat - a
    decide (d ≤ n * 2 ^ (ulp - e0).toNat)
  | _ => false

/-- A result of f32 or f64: one of the values within the bound, chosen by the open function (R194). NX is set, and UF
where the result is tiny. -/
def sfuChoose (fn : Sfu) (f : Fmt) (operand : Nat) (x : Enclosed) : FRes :=
  let r := sfuRound f .rtz { x with neg := false }
  if r.fl &&& 4 ≠ 0 then { r with bits := sfuInf f x.neg }
  else
    let all := ((List.range 9).map fun i => r.bits + i - 4).filter fun c => sfuWithin f fn.ulps x c
    let c := all.getD (Config.sfuPick fn.code f.code.toNat operand % max 1 all.length) r.bits
    { bits := f.withSign x.neg c, fl := if c < 2 ^ f.frac then flagUFNX else flagNX }

/-- A result that is not exact, by the accuracy of R194. -/
def sfuInexact (fn : Sfu) (f : Fmt) (rm : RM) (operand : Nat) (x : Enclosed) : FRes :=
  if f == .f32 || f == .f64 then sfuChoose fn f operand x else sfuRound f rm x

/-- An exact result, which a narrow format may still have to round. -/
def sfuRounded (f : Fmt) (rm : RM) (neg : Bool) (m : Nat) (e : Int) : FRes :=
  let r := roundFin f rm .arith neg m e false
  if r.fl &&& 4 ≠ 0 then { r with bits := sfuInf f neg } else r

/-- A result that is known exactly. Where f32 or f64 cannot hold it, it is of the fixed algorithm as any other (R194). -/
def sfuExact (fn : Sfu) (f : Fmt) (rm : RM) (operand : Nat) (neg : Bool) (m : Nat) (e : Int) : FRes :=
  let r := sfuRounded f rm neg m e
  if (f == .f32 || f == .f64) && r.fl &&& 4 = 0 && r.fl ≠ 0 then sfuChoose fn f operand (justBelow neg m e) else r

/-- The exponent of a power of two, or none. -/
def powerOfTwo (m : Nat) (e : Int) : Option Int := if m = 2 ^ m.log2 then some (e + (m.log2 : Int)) else none

/-- A special function of an element (R194, R195). `operand` are its bits. -/
def sfu (fn : Sfu) (f : Fmt) (rm : RM) (operand : Nat) : FRes :=
  match fn, f.decode operand with
  | _, .nan => { bits := f.nanBits }
  | .exp2, .inf neg => if neg then { bits := 0 } else { bits := sfuInf f false }
  | .exp2, .fin neg m e =>
    if m = 0 then sfuExact fn f rm operand false 1 0
    else if 12 ≤ e + (m.log2 : Int) then sfuInexact fn f rm operand (encExp2 neg m e)
    else if m * 2 ^ e.toNat % 2 ^ (-e).toNat = 0 then
      let n : Int := (m * 2 ^ e.toNat / 2 ^ (-e).toNat : Nat)
      sfuExact fn f rm operand false 1 (if neg then -n else n)
    else sfuInexact fn f rm operand (encExp2 neg m e)
  | .log2, .inf neg => if neg then invalid f else { bits := sfuInf f false }
  | .log2, .fin neg m e =>
    if m = 0 then { bits := sfuInf f true, fl := flagDZ }
    else if neg then invalid f
    else match powerOfTwo m e with
      | some k => sfuExact fn f rm operand (decide (k < 0)) k.natAbs 0
      | none => sfuInexact fn f rm operand (encLog2 m e)
  | .rsqrt, .inf neg => if neg then invalid f else { bits := 0 }
  | .rsqrt, .fin neg m e =>
    if m = 0 then { bits := sfuInf f neg, fl := flagDZ }
    else if neg then invalid f
    else match powerOfTwo m e with
      | some k => if k % 2 = 0 then sfuExact fn f rm operand false 1 (-k / 2) else sfuInexact fn f rm operand (encRsqrt m e)
      | none => sfuInexact fn f rm operand (encRsqrt m e)
  | .tanh, .inf neg => sfuExact fn f rm operand neg 1 0
  | .tanh, .fin neg m e => if m = 0 then { bits := f.withSign neg 0 } else sfuInexact fn f rm operand (encTanh neg m e)
  | .sin, .inf _ => invalid f
  | .sin, .fin neg m e => if m = 0 then { bits := f.withSign neg 0 } else sfuInexact fn f rm operand (encTrig false neg m e)
  | .cos, .inf _ => invalid f
  | .cos, .fin neg m e => if m = 0 then sfuExact fn f rm operand false 1 0 else sfuInexact fn f rm operand (encTrig true neg m e)

end Sys2Proof.Machine
end

