-- ==== Sys2Proof/Machine/VArith.lean ====
section
/-! DEFINITION. Vector operations on elements (spec/07_vector_arith.md): the table of operations and their words, what an
instruction checks at issue (R43 to R45, R165, R173, R181, R182, R223), and what each does to its elements. -/

namespace Sys2Proof.Machine

/-! ### The words of vector instructions (R54) -/

/-- The functions of each V-form major, in order. -/
def vopTable : List (Nat × List VOpc) :=
  [(0x30, [.add, .sub, .rsub, .mul]), (0x31, [.min, .max, .sadd, .ssub]), (0x32, [.macc, .nmsac, .madd, .nmsub]),
   (0x33, [.and, .or, .xor, .andn]), (0x34, [.sll, .srl, .sra, .rot]), (0x35, [.mseq, .msne, .mslt, .msle]),
   (0x36, [.merge, .clamp, .mv, .abs]), (0x37, [.div, .rem, .sqrt, .rcp])] ++
  [(0x38, [.exp2, .log2, .rsqrt, .tanh]), (0x39, [.sin, .cos, .vclass]), (0x3A, [.cvt, .cvts]),
   (0x3B, [.redsum, .redmin, .redmax, .redor]), (0x3C, [.scansum, .scanmin, .scanmax]),
   (0x3D, [.slideup, .slidedn, .slide1up, .slide1dn]), (0x3E, [.perm, .compress, .expand, .iota])] ++
  [(0x3F, [.segsort, .segsortkv, .dupmerge]), (0x40, [.opa1, .opa2, .opa4, .opa8]), (0x41, [.mvVG, .mvVQ, .mvQV]),
   (0x48, [.ld, .lds, .ldx, .ldff]), (0x49, [.st, .sts, .stx]), (0x4A, [.ldseg, .stseg]),
   (0x4B, [.amoadd, .amomin, .amomax, .amoswap]), (0x4C, [.scredAdd, .scredMin, .scredMax, .scredOr])]

/-- The major and function of an operation. -/
def VOpc.code (o : VOpc) : Nat × Nat :=
  match vopTable.find? fun e => e.2.contains o with
  | some (m, l) => (m, ((findIdx (· = o) l).map (·.1)).getD 0)
  | none => (0, 0)

/-- The major of an operation. -/
def VOpc.major (o : VOpc) : Nat := o.code.1
/-- The function of an operation in its major. -/
def VOpc.fn (o : VOpc) : Nat := o.code.2

/-- The V-form word of a vector instruction (R33, R54). -/
def VOp.word (o : VOp) : BitVec 32 :=
  (Fields.v (BitVec.ofNat 2 o.op.fn) o.rep o.cv o.m o.b o.a o.d (BitVec.ofNat 7 o.op.major)).pack

/-- The convoyable majors (R54). -/
def convoyable (maj : Nat) : Bool := (0x30 ≤ maj && maj ≤ 0x3A) || maj == 0x3D || maj == 0x40 || maj == 0x48 || maj == 0x49

/-- A vector source stands in vs2, so that the word may replicate it (R183). -/
def VOpc.replicates (o : VOpc) : Bool :=
  (0x30 ≤ o.major && o.major ≤ 0x35) || o.major == 0x3B || o.major == 0x40 ||
  match o with
  | .merge | .clamp | .div | .rem | .perm | .segsortkv | .dupmerge => true
  | _ => false

/-- The fields of a V-form word are legal for its operation (R36, R42, R54, R198, R223). -/
def vfieldsOk (o : VOpc) (f : Fields) : Bool :=
  let noRep := f.rep == 0
  match o with
  | .mseq | .msne | .mslt | .msle => legalRep f.rep && !f.d.getLsbD 4
  | .merge => legalRep f.rep && f.mask != 0
  | .perm => legalRep f.rep
  | .compress | .expand => noRep && f.b == 0 && f.mask != 0
  | .iota => noRep && f.b == 0 && f.a == 0 && f.mask != 0
  | .mv | .abs | .sqrt | .rcp | .exp2 | .log2 | .rsqrt | .tanh | .sin | .cos | .vclass | .scansum | .scanmin | .scanmax
  | .segsort | .mvVG => noRep && f.b == 0
  | .cvt => noRep && f.b.extractLsb' 3 2 == 0
  | .cvts => noRep && f.b.extractLsb' 3 2 == 0 && f.d != 31
  | .mvVQ => noRep && f.b == 0 && f.a.extractLsb' 3 2 == 0
  | .mvQV => noRep && f.b == 0 && f.d.extractLsb' 3 2 == 0
  | .ld | .ldff => f.b == 0 && !f.rep.getLsbD 2
  | .lds | .ldx => !f.rep.getLsbD 2
  | .st => f.b == 0
  | .sts | .stx => true
  | .ldseg | .stseg => noRep && f.b.extractLsb' 3 2 == 0 && f.b.extractLsb' 0 3 != 0
  | .slideup | .slidedn | .slide1up | .slide1dn | .amoadd | .amomin | .amomax | .amoswap
  | .scredAdd | .scredMin | .scredMax | .scredOr => noRep
  | _ => legalRep f.rep

/-- The vector instruction of a word's fields, if it is one of a convoyable major or has no convoy bit. -/
def vopOf (f : Fields) : Option VOp :=
  match vopTable.find? (·.1 = f.maj.toNat) with
  | none => none
  | some (_, l) =>
    match l[f.vfn.toNat]? with
    | none => none
    | some o =>
      if vfieldsOk o f then some { op := o, d := f.d, a := f.a, b := f.b, rep := f.rep, cv := f.cv, m := f.mask } else none

/-! ### Operands -/

/-- The format of a tag; code 15 is refused before an instruction executes. -/
def Tag.format (t : Tag) : Fmt := (Fmt.ofCode t.fmt).getD .i8

/-- The tag of a register as an instruction took it at issue. -/
def VCtx.tag (c : VCtx) (r : BitVec 5) : Tag := fileGet (w := 5) r c.tags

/-- The rounding mode that an instruction took at issue (R85). -/
def VCtx.round (c : VCtx) : RM := RM.ofCode c.rm

/-- vs1 names a vector register. -/
def VOpc.hasVs1 (o : VOpc) : Bool :=
  (o.major ≤ 0x41 && match o with | .iota | .mvVG | .mvVQ => false | _ => true) || o.major == 0x4C

/-- vs2 names a vector register. -/
def VOpc.hasVs2 (o : VOpc) : Bool :=
  o.replicates || o.major == 0x4B || o.major == 0x4C || o == .ldx || o == .stx

/-- vd names a vector register; that of a store is its data register. -/
def VOpc.hasVd (o : VOpc) : Bool := o.major != 0x35 && o.major != 0x4C && o != .mvQV

/-- An operation on memory. -/
def VOpc.isMem (o : VOpc) : Bool := 0x48 ≤ o.major

/-- The register that holds the governing tag (R44). -/
def VOp.governor (o : VOp) : BitVec 5 :=
  if o.op.major = 0x35 ∨ o.op.major = 0x3B ∨ o.op.major = 0x4C ∨ o.op = .mvQV then o.a else o.d

/-- The governing format (R44). -/
def VOp.fmt (o : VOp) (c : VCtx) : Fmt := (c.tag o.governor).format

/-- The repeat count of a VOPA (R210). -/
def VOp.repeats (o : VOp) : Nat := 2 ^ o.op.fn

/-- The fields of a segment access (R222). -/
def VOp.fields (o : VOp) : Nat := if o.op.major = 0x4A then (o.b.extractLsb' 0 3).toNat + 1 else 1

/-- Group bases from vd up in steps of its group factor. -/
def VOp.groups (o : VOp) (c : VCtx) (n : Nat) : List Nat := (List.range n).map fun k => o.d.toNat + k * (c.tag o.d).group

/-- A register by its number, and none above 31. -/
def regOf (n : Nat) : Option (BitVec 5) := if n < 32 then some (BitVec.ofNat 5 n) else none

/-- The vector registers that an instruction names as destinations, or as a store's data, implied ones included (R181). -/
def VOp.dests (o : VOp) (c : VCtx) : List (BitVec 5) :=
  if !o.op.hasVd then []
  else
    match o.op with
    | .cvts => [o.d, o.d + 1]
    | .segsortkv => (o.groups c 2).filterMap regOf
    | .opa1 | .opa2 | .opa4 | .opa8 => (o.groups c o.repeats).filterMap regOf
    | .ldseg | .stseg => (o.groups c o.fields).filterMap regOf
    | _ => [o.d]

/-- The vector registers that it names as sources besides. -/
def VOp.srcs (o : VOp) : List (BitVec 5) := (if o.op.hasVs1 then [o.a] else []) ++ (if o.op.hasVs2 then [o.b] else [])

/-- The span of a register (R182). -/
def VCtx.span (c : VCtx) (r : BitVec 5) : List Nat := (List.range (c.tag r).group).map (r.toNat + ·)

/-- Two spans intersect. -/
def VCtx.meets (c : VCtx) (x y : BitVec 5) : Bool := (c.span x).any (c.span y).contains

/-! ### Checks at issue -/

/-- The classes that an operation applies to (R54, R315, R333). -/
def VOp.applies (o : VOp) (f : Fmt) : Bool :=
  let i := f.cls == .int
  let fl := f.cls == .float
  match o.op with
  | .sadd | .ssub | .sll | .srl | .sra | .rot | .rem | .redor | .scredOr => i
  | .sqrt | .rcp | .exp2 | .log2 | .rsqrt | .tanh | .sin | .cos | .vclass => fl
  | .merge | .mv | .cvt | .cvts | .slideup | .slidedn | .slide1up | .slide1dn | .perm | .compress | .expand | .iota
  | .mvVG | .mvVQ | .mvQV => true
  | .amoadd | .amomin | .amomax | .amoswap => (i || fl) && f.width != 64
  | .ld | .lds | .ldx | .ldff | .st | .sts | .stx | .ldseg | .stseg =>
    match o.bank with
    | none => true
    | some (bop, _) => i || (bop ≤ 3 && (f == .f64 || f == .f32 || f == .bf16 || f == .f16))
  | _ => i || fl

/-- The further conditions of illegal tag combination (R181, R198, R199, R207, R210, R223). -/
def VOp.badTags (o : VOp) (c : VCtx) : Bool :=
  let f := o.fmt c
  let intB := ((c.tag o.b).format).cls == .int
  !o.applies f ||
  match o.op with
  | .sll | .srl | .sra | .rot | .perm | .ldx | .stx | .amoadd | .amomin | .amomax | .amoswap
  | .scredAdd | .scredMin | .scredMax | .scredOr => !intB
  | .redsum | .redmin | .redmax | .redor => (c.tag o.d).fmt != (c.tag o.a).fmt
  | .segsort => c.tag o.a != c.tag o.d
  | .cvts => (c.tag o.d).grp != 0 || c.tag (o.d + 1) != { fmt := 14, grp := 0 } ||
      (f != .e4m3 && (c.tag o.a).format != .e4m3)
  | .opa1 | .opa2 | .opa4 | .opa8 | .ldseg | .stseg => (o.dests c).any fun r => c.tag r != c.tag o.d
  | _ => false

/-- Misaligned groups (R45, R207, R210, R223). A value group of vsegsortkv that would pass v31 raises the same trap: the spec
names none for it (DESIGN CHOICE, log entry 70). -/
def VOp.misaligned (o : VOp) (c : VCtx) : Bool :=
  let g := (c.tag o.d).group
  (o.dests c ++ o.srcs).any (fun r => r.toNat % (c.tag r).group != 0) ||
  match o.op with
  | .opa1 | .opa2 | .opa4 | .opa8 => 32 < o.d.toNat + o.repeats * g
  | .ldseg | .stseg => 32 < o.d.toNat + o.fields * g
  | .segsortkv =>
    (match regOf (o.d.toNat + g) with
    | some r => 32 < r.toNat + (c.tag r).group
    | none => true)
  | _ => false

/-- Feature bits that an instruction needs by its formats (R377): vf64 and fp8. -/
def VOp.lacksFormat (o : VOp) (c : VCtx) (fmask : BitVec 15) : Bool :=
  let small (f : Fmt) : Bool := f == .e4m3 || f == .e5m2
  let srcs := (if o.op.hasVs1 then [o.a] else []) ++ (if o.op.hasVs2 && o.op != .perm then [o.b] else [])
  (o.fmt c == .f64 && !fmask.getLsbD 9) ||
  ((o.op.major ≤ 0x40 || o.op.major == 0x4B || o.op.major == 0x4C) && !fmask.getLsbD 10 &&
    (small (o.fmt c) || (!o.op.isMem && srcs.any fun r => small (c.tag r).format)))

/-- The feature bit that an instruction needs by its word (R377). -/
def VOp.lacksFeature (o : VOp) (fmask : BitVec 15) : Bool :=
  let maj := o.op.major
  ((maj == 0x38 || maj == 0x39) && !fmask.getLsbD 0) || (maj == 0x3F && !fmask.getLsbD 1) ||
  (maj == 0x40 && !fmask.getLsbD 2) || (maj == 0x4B && !fmask.getLsbD 12) || (o.bank.isSome && !fmask.getLsbD 11)

/-- Illegal-overlap (R182, R223, R333). -/
def VOp.overlaps (o : VOp) (c : VCtx) : Bool :=
  let strict := (o.dests c).any fun x => o.srcs.any fun y => c.meets x y
  match o.op with
  | .redsum | .redmin | .redmax | .redor | .mvVQ | .mvQV => false
  | .cvts => strict
  | _ =>
    if o.op.isMem then
      (match o.op with
      | .ldx | .amoadd | .amomin | .amomax | .amoswap => c.meets o.d o.b
      | _ => false)
    else if 0x3D ≤ o.op.major && o.op.major ≤ 0x40 then strict
    else (o.dests c).any fun x => o.srcs.any (fun y => x != y && c.meets x y) || (o.rep.getLsbD 2 && c.meets x o.b)

/-- The checks of places 5 and 6 of R43 and those after it, in their order. -/
def VOp.check (o : VOp) (c : VCtx) (fmask : BitVec 15) (escope : BitVec 3) : Option Cause :=
  let named := o.dests c ++ o.srcs
  if named.any fun r => (c.tag r).fmt == 15 then some .illegalTag
  else if o.badTags c then some .illegalTagCombination
  else if o.misaligned c then some .misalignedGroup
  else if o.lacksFormat c fmask then some .featureAbsent
  else if o.op.major == 0x49 && o.rep.getLsbD 2 && 6 ≤ escope.toNat then some .illegalScope
  else if named.any fun r => vlmax c.lanes (c.tag r).format.width (c.tag r).group < c.vl then some .illegalLength
  else if c.vl != 0 && o.overlaps c then some .illegalOverlap
  else none

/-! ### Convoys (R169, R173) -/

/-- The latency class, by its place in R169. -/
def VOpc.latClass (o : VOpc) : Nat :=
  if o == .mul || o.major == 0x32 || o.major == 0x40 then 1
  else if o.major == 0x37 then 2
  else if o.major == 0x38 || o.major == 0x39 then 3
  else if o.isMem then 5
  else if 0x3B ≤ o.major then 4
  else 0

/-- What an instruction reads: registers below 32, masks from 32 on. -/
def VOp.reads (o : VOp) (c : VCtx) : List Nat :=
  let acc := o.op.major == 0x32 || o.op == .clamp || o.op.isStore || o.op.major == 0x40 || o.op.major == 0x4B
  (if o.m = 0 then [] else [32 + o.m.toNat]) ++ o.srcs.flatMap c.span ++
  (if acc then (o.dests c).flatMap c.span else if o.op = .cvts ∧ o.fmt c ≠ .e4m3 then c.span (o.d + 1) else [])

/-- What an instruction writes. A dequantising vcvts reads its scales and writes vd alone (R198). -/
def VOp.writes (o : VOp) (c : VCtx) : List Nat :=
  if o.op.isStore then []
  else if o.op.major = 0x35 then [32 + o.d.toNat]
  else if o.op = .cvts ∧ o.fmt c ≠ .e4m3 then c.span o.d
  else (o.dests c).flatMap c.span ++ (if o.op = .dupmerge then [32] else [])

/-- Two members of a convoy that break a rule of R173, the first standing before the second: the third rule is about registers,
not masks. -/
def VOp.conflicts (c : VCtx) (x y : VOp) : Bool :=
  x.op.latClass == y.op.latClass || (y.writes c).any (x.reads c).contains ||
  (y.op.latClass == 4 && (y.reads c).any fun r => r < 32 && (x.writes c).contains r)

/-! ### One element (R179 to R198) -/

/-- The rule of an operation on integer elements: w-bit patterns of a format. -/
def vint (op : VOpc) (f : Fmt) (a b c : Nat) : Nat :=
  let x := f.int a
  let y := f.int b
  let z := f.int c
  let w := f.width
  match op with
  | .add => truncInt w (x + y)
  | .sub => truncInt w (x - y)
  | .rsub => truncInt w (y - x)
  | .mul => truncInt w (x * y)
  | .min => if y < x then b else a
  | .max => if x < y then b else a
  | .sadd => truncInt w (f.clampInt (x + y))
  | .ssub => truncInt w (f.clampInt (x - y))
  | .macc => truncInt w (z + x * y)
  | .nmsac => truncInt w (z - x * y)
  | .madd => truncInt w (z * x + y)
  | .nmsub => truncInt w (y - z * x)
  | .sll => a * 2 ^ (b % w) % 2 ^ w
  | .srl => a / 2 ^ (b % w)
  | .sra => truncInt w (sint w a / 2 ^ (b % w))
  | .rot => (a * 2 ^ (b % w) + a / 2 ^ (w - b % w)) % 2 ^ w
  | .clamp => truncInt w (min (max x y) z)
  | .abs => x.natAbs % 2 ^ w
  | .div => if y = 0 then 2 ^ w - 1 else truncInt w (x.tdiv y)
  | .rem => if y = 0 then a else truncInt w (x.tmod y)
  | _ => a

/-- The rule of an operation on floating-point elements. -/
def vfloat (op : VOpc) (f : Fmt) (rm : RM) (a b c : Nat) : FRes :=
  let x := f.decode a
  let y := f.decode b
  let z := f.decode c
  match op with
  | .add => addNum f rm x y
  | .sub => addNum f rm x y.negate
  | .rsub => addNum f rm y x.negate
  | .mul => mulNum f rm x y
  | .min => { bits := minMaxBits f false a b }
  | .max => { bits := minMaxBits f true a b }
  | .macc => fmaNum f rm x y z
  | .nmsac => fmaNum f rm x.negate y z
  | .madd => fmaNum f rm z x y
  | .nmsub => fmaNum f rm z.negate x y
  | .clamp => { bits := minMaxBits f false (minMaxBits f true a b) c }
  | .abs => { bits := if x = .nan then f.nanBits else a % 2 ^ (f.width - 1) }
  | .div => divNum f rm x y
  | .sqrt => sqrtNum f rm x
  | .rcp => divNum f rm (.fin false 1 0) x
  | .exp2 => sfu .exp2 f rm a
  | .log2 => sfu .log2 f rm a
  | .rsqrt => sfu .rsqrt f rm a
  | .tanh => sfu .tanh f rm a
  | .sin => sfu .sin f rm a
  | .cos => sfu .cos f rm a
  | .vclass => { bits := fclassBit f a }
  | _ => { bits := a }

/-- The rule f(a, b, c) of R179 under the governing format; logic and moves act on bit patterns (R189, R192). -/
def velem (op : VOpc) (f : Fmt) (rm : RM) (a b c : Nat) : FRes :=
  match op with
  | .and => { bits := a &&& b }
  | .or => { bits := a ||| b }
  | .xor => { bits := a ^^^ b }
  | .andn => { bits := a &&& (2 ^ f.width - 1 - b) }
  | .mv => { bits := a }
  | _ => if f.cls == .int then { bits := vint op f a b c } else vfloat op f rm a b c

/-- The rule of a compare (R191): the mask bit, and NV where vmslt or vmsle meets a NaN (R82). -/
def vcompare (op : VOpc) (f : Fmt) (a b : Nat) : Bool × FFlags :=
  if f.cls == .int then
    let x := f.int a
    let y := f.int b
    (match op with
    | .mseq => decide (x = y)
    | .msne => decide (x ≠ y)
    | .mslt => decide (x < y)
    | _ => decide (x ≤ y), 0)
  else
    let x := f.decode a
    let y := f.decode b
    let nan := x == .nan || y == .nan
    match op with
    | .mseq => (x.feq y, 0)
    | .msne => (!x.feq y, 0)
    | .mslt => (x.lt y, if nan then flagNV else 0)
    | _ => (x.lt y || x.feq y, if nan then flagNV else 0)

/-- Element i of a source, read in its own format and converted to another (R88). One of the same format keeps its bits, a
NaN's among them: for slides R74 and R180 leave that open (DESIGN CHOICE, log entry 69). -/
def Hart.source (h : Hart) (c : VCtx) (r : BitVec 5) (gov : Fmt) (i : Nat) : FRes :=
  let f := (c.tag r).format
  let x := h.elem c.lanes r f.width i
  if f = gov then { bits := x } else convert f gov c.round false x

/-- The index that a replicated vs2 is read at (R38). -/
def repIndex (rep : BitVec 3) (i : Nat) : Nat := if rep.getLsbD 2 then i % 2 ^ (rep.toNat % 4) else i

/-- Element i is active (R36). -/
def Hart.active (h : Hart) (o : VOp) (i : Nat) : Bool := o.m == 0 || (h.mask o.m).getLsbD i

/-- An instruction's mask bit i, where the mask is no predicate but a selector (R203). -/
def Hart.selects (h : Hart) (o : VOp) (i : Nat) : Bool := (h.mask o.m).getLsbD i

/-- The flags of part of an instruction, raised in the sticky flags (R84). -/
def Hart.raise (h : Hart) (f : FFlags) : Hart := { h with csr := { h.csr with fflags := h.csr.fflags ||| f } }

/-- Element i of a destination group written, with its flags raised. -/
def Hart.result (h : Hart) (c : VCtx) (r : BitVec 5) (f : Fmt) (i : Nat) (x : FRes) : Hart :=
  (h.setElem c.lanes r f.width i x.bits).raise x.fl

/-- The source element of a slide (R201): none leaves vd[i] alone, and otherwise the element, or a value. -/
def slideSource (op : VOpc) (vl i : Nat) (off : Nat) (x : Nat) : Option (Nat ⊕ Nat) :=
  match op with
  | .slideup => if off ≤ i then some (.inl (i - off)) else none
  | .slidedn => some (if i + off < vl then .inl (i + off) else .inr 0)
  | .slide1up => some (if i = 0 then .inr x else .inl (i - 1))
  | _ => some (if i + 1 = vl then .inr x else .inl (i + 1))

/-- One active element of an element-wise instruction, a slide or vmv.vg. `x` is the g register read at issue. The flags of a
source's conversion are raised for every instruction (R88), also for those whose entries say that they set no flag
(R189, R192, R196); vmerge's are those of the source that it takes (DESIGN CHOICE, log entry 68). -/
def Hart.doElement (h : Hart) (c : VCtx) (o : VOp) (x : Word) (i : Nat) : Hart :=
  let f := o.fmt c
  match o.op with
  | .mseq | .msne | .mslt | .msle =>
    let a := h.source c o.a f i
    let b := h.source c o.b f (repIndex o.rep i)
    let r := vcompare o.op f a.bits b.bits
    let d : BitVec 4 := o.d.setWidth 4
    let bit : BitVec 2048 := BitVec.ofNat 2048 (2 ^ i)
    ({ h with m := fileSet (w := 4) d h.m (if r.1 then h.mask d ||| bit else h.mask d &&& ~~~bit) }).raise (a.fl ||| b.fl ||| r.2)
  | .merge =>
    h.result c o.d f i (if h.selects o i then h.source c o.b f (repIndex o.rep i) else h.source c o.a f i)
  | .cvt =>
    let sf := (c.tag o.a).format
    h.result c o.d f i
      (convert sf f (RM.ofCode (o.b.extractLsb' 0 2)) (o.b.getLsbD 2) (h.elem c.lanes o.a sf.width i))
  | .mvVG => h.result c o.d f i { bits := scalarOperand f x }
  | .slideup | .slidedn | .slide1up | .slide1dn =>
    match slideSource o.op c.vl i x.toNat (scalarOperand f x) with
    | none => h
    | some (.inl j) => h.result c o.d f i (h.source c o.a f j)
    | some (.inr y) => h.result c o.d f i { bits := y }
  | _ =>
    let a := h.source c o.a f i
    let b := if o.op.hasVs2 then h.source c o.b f (repIndex o.rep i) else { bits := 0 }
    let r := velem o.op f c.round a.bits b.bits (h.elem c.lanes o.d f.width i)
    h.result c o.d f i { bits := r.bits, fl := a.fl ||| b.fl ||| r.fl }

/-! ### Scaled conversion (R76, R77, R198) -/

/-- The value of an element of any format. -/
def Fmt.value (f : Fmt) (b : Nat) : Num := if f.cls == .int then intNum (f.int b) else f.decode b

/-- floor(log2 |x|) of a finite value other than zero. -/
def Num.exponent : Num → Option Int
  | .fin _ m e => if m = 0 then none else some (e + (m.log2 : Int))
  | _ => none

/-- A value is no finite number. -/
def Num.special : Num → Bool
  | .fin .. => false
  | _ => true

/-- The scale of a block from its values (R77). -/
def blockScale (l : List Num) : Nat :=
  if l.any (·.special) then 0xFF
  else
    match l.foldl (fun (acc : Option Int) x =>
        match acc, x.exponent with
        | some a, some b => some (max a b)
        | none, b => b
        | a, none => a) none with
    | none => 0x7F
    | some t => (max (-127) (min 127 (t - 8)) + 127).toNat

/-- An element of a block under its scale (R77); the flags are OF and NX, or NX (R198). -/
def quantise (rm : RM) (scale : Nat) (x : Num) : FRes :=
  if scale = 0xFF then { bits := 0x7F }
  else
    match x with
    | .fin n m e =>
      let r := roundFin .e4m3 rm .saturate n m (e - ((scale : Int) - 127)) false
      { r with fl := r.fl &&& 5 }
    | _ => { bits := 0x7F }

/-- The value of a block element (R76). -/
def blockValue (scale b : Nat) : Num :=
  if scale = 0xFF then .nan
  else
    match Fmt.e4m3.decode b with
    | .fin n m e => .fin n m (e + (scale : Int) - 127)
    | x => x

/-- vcvts on the elements lo to hi - 1 (R198). -/
def Hart.scaledConvert (h : Hart) (c : VCtx) (o : VOp) (lo hi : Nat) : Hart :=
  let rm := RM.ofCode (o.b.extractLsb' 0 2)
  let sf := (c.tag o.a).format
  let f := o.fmt c
  if f = .e4m3 then
    let block (j : Nat) : List Num :=
      ((List.range 32).filter fun k => 32 * j + k < c.vl && h.active o (32 * j + k)).map fun k =>
        sf.value (h.elem c.lanes o.a sf.width (32 * j + k))
    let blocks := if lo < hi then (List.range ((hi - 1) / 32 + 1 - lo / 32)).map (lo / 32 + ·) else []
    blocks.foldl (fun t j =>
      let scale := blockScale (block j)
      let u := ((List.range 32).filter fun k => lo ≤ 32 * j + k && 32 * j + k < hi && h.active o (32 * j + k)).foldl
        (fun t k => t.result c o.d f (32 * j + k) (quantise rm scale (sf.value (h.elem c.lanes o.a sf.width (32 * j + k))))) t
      u.setElem c.lanes (o.d + 1) 8 j scale) h
  else
    ((List.range (hi - lo)).map (lo + ·)).foldl (fun t i =>
      if h.active o i then
        t.result c o.d f i (numTo f rm (o.b.getLsbD 2)
          (blockValue (h.elem c.lanes (o.d + 1) 8 (i / 32)) (h.elem c.lanes o.a 8 i)))
      else t) h

/-- The elements lo to hi - 1 of an element-wise instruction or slide (R179). -/
def Hart.doElements (h : Hart) (c : VCtx) (o : VOp) (x : Word) (lo hi : Nat) : Hart :=
  if o.op = .cvts then h.scaledConvert c o lo hi
  else
    ((List.range (hi - lo)).map (lo + ·)).foldl (fun t i =>
      if o.op = .merge || h.active o i then t.doElement c o x i else t) h

/-! ### Reductions and scans (R97, R98, R199, R200) -/

/-- The combining operations. -/
inductive Comb where
  | sum | min | max | or
  deriving DecidableEq, Repr

/-- The operation of a reduction or scan. -/
def VOpc.comb (o : VOpc) : Comb :=
  match o with
  | .redsum | .scansum => .sum
  | .redmin | .scanmin => .min
  | .redmax | .scanmax => .max
  | _ => .or

/-- The identity (R97). `none` is the identity of a floating-point min or max, which e4m3 cannot hold. -/
def Comb.identity (op : Comb) (f : Fmt) : Option Nat :=
  match op with
  | .or => some 0
  | .sum => some (if f.cls == .int then 0 else f.withSign true 0)
  | .min => if f.cls == .int then some (truncInt f.width f.maxInt) else none
  | .max => if f.cls == .int then some (truncInt f.width f.minInt) else none

/-- One combining step, rounded once (R97). The identity `none` gives way to anything but a NaN. -/
def Comb.apply (op : Comb) (f : Fmt) (rm : RM) (a b : Option Nat) : Option Nat × FFlags :=
  match a, b with
  | none, none => (none, 0)
  | none, some y => (if f.decode y = .nan then none else some y, 0)
  | some x, none => (if f.decode x = .nan then none else some x, 0)
  | some x, some y =>
    match op with
    | .or => (some (x ||| y), 0)
    | .sum =>
      let r := velem .add f rm x y 0
      (some r.bits, r.fl)
    | .min => (some (velem .min f rm x y 0).bits, 0)
    | .max => (some (velem .max f rm x y 0).bits, 0)

/-- The bits that stand for a result (R97): the identity is an infinity, or ±448 in e4m3. -/
def Comb.bits (op : Comb) (f : Fmt) (x : Option Nat) : Nat :=
  x.getD (f.withSign (op == .max) (if f == .e4m3 then f.maxFinite else f.infBits))

/-- One level of the tree of R97. -/
def Comb.level (op : Comb) (f : Fmt) (rm : RM) : List (Option Nat × FFlags) → List (Option Nat × FFlags)
  | x :: y :: t =>
    let r := op.apply f rm x.1 y.1
    (r.1, x.2 ||| y.2 ||| r.2) :: Comb.level op f rm t
  | l => l

/-- The tree of R97 over 2^k values. -/
def Comb.tree (op : Comb) (f : Fmt) (rm : RM) (k : Nat) (l : List (Option Nat × FFlags)) : List (Option Nat × FFlags) :=
  match k with
  | 0 => l
  | k + 1 => op.tree f rm k (op.level f rm l)

/-- The exponent of the smallest power of two at or above n. -/
def log2ceil (n : Nat) : Nat := if n ≤ 1 then 0 else (n - 1).log2 + 1

/-- VRED (R199), of the elements from `start` on. -/
def Hart.reduce (h : Hart) (c : VCtx) (o : VOp) (start : Nat) : Hart :=
  let f := o.fmt c
  let op := o.op.comb
  let k := log2ceil c.vl
  let leaf (i : Nat) : Option Nat × FFlags :=
    (if start ≤ i && i < c.vl && h.active o i then some (h.elem c.lanes o.a f.width i) else op.identity f, 0)
  let t := ((op.tree f c.round k ((List.range (2 ^ k)).map leaf)).head?).getD (op.identity f, 0)
  let first := h.source c o.b f 0
  let r := op.apply f c.round t.1 (some first.bits)
  h.result c o.d f 0 { bits := op.bits f r.1, fl := t.2 ||| first.fl ||| r.2 }

/-- VSCAN (R200): an inactive element contributes the identity. Elements from `start` on are written. -/
def Hart.scan (h : Hart) (c : VCtx) (o : VOp) (start : Nat) : Hart :=
  let f := o.fmt c
  let op := o.op.comb
  ((List.range c.vl).foldl (fun (acc : Hart × Option Nat) j =>
    if h.active o j then
      let a := h.source c o.a f j
      let r := op.apply f c.round acc.2 (some a.bits)
      (if start ≤ j then acc.1.result c o.d f j { bits := op.bits f r.1, fl := a.fl ||| r.2 } else acc.1, r.1)
    else
      let r := op.apply f c.round acc.2 (op.identity f)
      (acc.1.raise r.2, r.1)) (h, op.identity f)).1

/-! ### Permutations (R202, R203) -/

/-- vperm (R202), from an element on. -/
def Hart.permute (h : Hart) (c : VCtx) (o : VOp) (start : Nat) : Hart :=
  let f := o.fmt c
  let xf := (c.tag o.b).format
  (List.range c.vl).foldl (fun t i =>
    if start ≤ i && h.active o i then
      let k := h.elem c.lanes o.b xf.width (repIndex o.rep i)
      t.result c o.d f i (if k < c.vl then h.source c o.a f k else { bits := 0 })
    else t) h

/-- vcompress, vexpand and viota (R203) for the elements from `start` on: the count of selected elements goes along from
element 0. -/
def Hart.selectMove (h : Hart) (c : VCtx) (o : VOp) (start : Nat) : Hart :=
  let f := o.fmt c
  ((List.range c.vl).foldl (fun (acc : Hart × Nat) i =>
    let hit := h.selects o i
    let n := if hit then acc.2 + 1 else acc.2
    if i < start then (acc.1, n)
    else
    match o.op with
    | .compress => (if hit then acc.1.result c o.d f acc.2 (h.source c o.a f i) else acc.1, n)
    | .expand => (if hit then acc.1.result c o.d f i (h.source c o.a f acc.2) else acc.1, n)
    | _ => (acc.1.result c o.d f i (convert .n64 f .rne false acc.2), n)) (h, 0)).1

/-! ### Segments (R206 to R208) -/

/-- Element i begins a segment (R206). -/
def Hart.segHead (h : Hart) (o : VOp) (i : Nat) : Bool := i == 0 || (o.m != 0 && h.selects o i)

/-- The order of keys (R206): NaNs are equal and last, -0 stands below +0. -/
def keyBefore (f : Fmt) (a b : Nat) : Bool :=
  if f.cls == .int then decide (f.int a < f.int b)
  else
    match f.decode a, f.decode b with
    | .nan, _ => false
    | _, .nan => true
    | x, y => x.below y

/-- A key with its place put into a sorted list, behind those that are not greater. -/
def insertKey (f : Fmt) (x : Nat × Nat) : List (Nat × Nat) → List (Nat × Nat)
  | [] => [x]
  | y :: t => if keyBefore f x.2 y.2 then x :: y :: t else y :: insertKey f x t

/-- Keys with their places sorted, equal keys in their order. -/
def sortKeys (f : Fmt) (l : List (Nat × Nat)) : List (Nat × Nat) := l.foldl (fun acc x => insertKey f x acc) []

/-- The keys of each segment sorted, one segment after another. -/
def sortSegments (f : Fmt) (head : Nat → Bool) (l : List (Nat × Nat)) : List (Nat × Nat) :=
  let r := l.foldl (fun (acc : List (Nat × Nat) × List (Nat × Nat)) x =>
    if head x.1 then (acc.1 ++ sortKeys f acc.2.reverse, [x]) else (acc.1, x :: acc.2)) ([], [])
  r.1 ++ sortKeys f r.2.reverse

/-- vsegsort and vsegsortkv (R207): the destinations' elements from `start` on are written. -/
def Hart.segSort (h : Hart) (c : VCtx) (o : VOp) (start : Nat) : Hart :=
  let f := o.fmt c
  let src := (List.range c.vl).map fun i => (i, h.source c o.a f i)
  let order := sortSegments f (h.segHead o) (src.map fun e => (e.1, e.2.bits))
  let h1 := h.raise (joinFlags (src.map (·.2)))
  let vb : BitVec 5 := o.d + BitVec.ofNat 5 (c.tag o.d).group
  let vf := (c.tag vb).format
  (((List.range c.vl).zip order).drop start).foldl (fun t e =>
    let u := t.setElem c.lanes o.d f.width e.1 e.2.2
    if o.op = .segsortkv then u.result c vb vf e.1 (h.source c o.b vf (repIndex o.rep e.2.1)) else u) h1

/-- The sum of a run from an element on, in element order (R208). -/
def runSum (f : Fmt) (rm : RM) (val : Nat → Nat) (starts : Nat → Bool) (vl : Nat) : Nat → Nat → FRes → FRes
  | 0, _, acc => acc
  | fuel + 1, j, acc =>
    if vl ≤ j || starts j then acc
    else
      let r := velem .add f rm acc.bits (val j) 0
      runSum f rm val starts vl fuel (j + 1) { bits := r.bits, fl := acc.fl ||| r.fl }

/-- vdupmerge (R208), for the elements of vd and the bits of m0 from `start` on. A run of one element keeps the value's bits, a NaN's among them (DESIGN CHOICE, log entry 69). -/
def Hart.dupMerge (h : Hart) (c : VCtx) (o : VOp) (start : Nat) : Hart :=
  let f := o.fmt c
  let kf := (c.tag o.a).format
  let key (i : Nat) : Nat := h.elem c.lanes o.a kf.width i
  let val (i : Nat) : FRes := h.source c o.b f (repIndex o.rep i)
  let starts (i : Nat) : Bool := h.segHead o i || key i != key (i - 1)
  let h1 := h.raise (joinFlags ((List.range c.vl).map val))
  let t := ((List.range c.vl).drop start).foldl (fun t i =>
    t.result c o.d f i (if starts i then runSum f c.round (fun j => (val j).bits) starts c.vl c.vl (i + 1) { bits := (val i).bits }
      else { bits := 0 })) h1
  let heads := (List.range c.vl).foldl (fun n i => if (if i < start then (h.mask 0).getLsbD i else starts i) then n + 2 ^ i else n) 0
  { t with m := fileSet (w := 4) 0 t.m (BitVec.ofNat 2048 heads) }

/-! ### Outer product (R210) -/

/-- VOPA (R210), from an element on: vs2's elements are read even above vl. -/
def Hart.outer (h : Hart) (c : VCtx) (o : VOp) (start : Nat) : Hart :=
  let f := o.fmt c
  ((o.groups c o.repeats).zip (List.range o.repeats)).foldl (fun t e =>
    let b := h.source c o.b f (repIndex o.rep e.2)
    (List.range c.vl).foldl (fun t i =>
      if start ≤ i && h.active o i then
        let a := h.source c o.a f i
        let d : BitVec 5 := BitVec.ofNat 5 e.1
        let r := velem .macc f c.round a.bits b.bits (t.elem c.lanes d f.width i)
        t.result c d f i { bits := r.bits, fl := a.fl ||| b.fl ||| r.fl }
      else t) t) h

/-! ### Whole instructions -/

/-- Instructions that are not stopped between groups (R174): they act at once. -/
def VOpc.whole (o : VOpc) : Bool :=
  o.major == 0x3B || o.major == 0x3C || o.major == 0x3E || o.major == 0x3F || o.major == 0x40

/-- The effect of such an instruction; none with vl = 0 (R165). Where an ERET restarts it at an element (R177), what the
elements below it would do is left out (DESIGN CHOICE, log entry 76). -/
def Hart.doWhole (h : Hart) (c : VCtx) (o : VOp) (start : Nat := 0) : Hart :=
  if c.vl = 0 then h
  else
    match o.op with
    | .redsum | .redmin | .redmax | .redor => h.reduce c o start
    | .scansum | .scanmin | .scanmax => h.scan c o start
    | .perm => h.permute c o start
    | .compress | .expand | .iota => h.selectMove c o start
    | .segsort | .segsortkv => h.segSort c o start
    | .dupmerge => h.dupMerge c o start
    | _ => h.outer c o start

/-- The element group E (R168): the widest format of the registers named decides. -/
def VOp.groupSize (o : VOp) (c : VCtx) : Nat :=
  let w := ((o.dests c ++ o.srcs).map fun r => (c.tag r).format.width).foldl max 8
  c.lanes * (if w = 64 then 1 else 32 / w)

/-- The instruction is checked by recomputing an element (R184). -/
def VOpc.checked (o : VOpc) : Bool := o.major ≤ 0x3C || o.major == 0x40 || o == .dupmerge

end Sys2Proof.Machine
end

