-- ==== Sys2Proof/Machine/VMem.lean ====
section
/-! DEFINITION. Vector memory by windows (spec/08_vector_memory.md, R221 to R238; spec/12_sync.md, R333, R334;
spec/11_transfer.md, R315 to R317): addresses, translation and faults of a window, and the accesses it issues. -/

namespace Sys2Proof.Machine

/-- What kind of permission an element's access needs (R367). -/
def VOp.kind (o : VOp) : Kind :=
  match o.op with
  | .ld | .lds | .ldx | .ldff | .ldseg => .load
  | .st | .sts | .stx | .stseg => if o.bank.isSome then .both else .store
  | _ => .both

/-- The address of field f of element i (R222), modulo 2^64. -/
def Member.address (m : Member) (h : Hart) (c : VCtx) (i f : Nat) : Word :=
  let w := (m.op.fmt c).bytes
  match m.op.op with
  | .lds | .sts => m.x + BitVec.ofNat 64 i * m.y
  | .ldx | .stx | .amoadd | .amomin | .amomax | .amoswap | .scredAdd | .scredMin | .scredMax | .scredOr =>
    let xf := (c.tag m.op.b).format
    m.x + BitVec.ofInt 64 (xf.int (h.elem c.lanes m.op.b xf.width i))
  | _ => m.x + BitVec.ofNat 64 ((i * m.op.fields + f) * w)

/-- One element's field, translated or with its fault. -/
structure ElemXlate where
  index : Nat
  field : Nat
  va : Word
  key : Nat := 0
  entry : Option TlbEntry := none
  remote : Bool := false
  fault : Option Cause := none
  deriving DecidableEq, Repr

/-- The check and translation of one field (R226 item 1, R333), with the core's caches after it. -/
def State.xlateElem (s : State) (c : VCtx) (m : Member) (i f : Nat) : State × ElemXlate :=
  let va := m.address s.me c i f
  let e : ElemXlate := { index := i, field := f, va }
  if va.toNat % (m.op.fmt c).bytes ≠ 0 then (s, { e with fault := some .misalignedAccess })
  else
    match s.xlate m.op.kind va with
    | .error x => (s.xlateFailed va, { e with fault := some x })
    | .ok (key, x) =>
      let far := m.op.op.major = 0x4B && key < 2 ^ 56
      (s.touch x, { e with key, entry := some x.entry, remote := s.isRemote x.gpa && key < 2 ^ 56,
                           fault := if far then some .accessFault else none })

/-- Every active element of a window translated in ascending order; the first field in fault ends its element. -/
def State.xlateWindow (s : State) (c : VCtx) (m : Member) (els : List Nat) : State × List ElemXlate :=
  els.foldl (fun (acc : State × List ElemXlate) i =>
    let r := (List.range m.op.fields).foldl (fun (a : State × List ElemXlate) f =>
      if a.2.any (·.fault.isSome) then a
      else
        let x := a.1.xlateElem c m i f
        (x.1, a.2 ++ [x.2])) (acc.1, [])
    (r.1, acc.2 ++ r.2)) (s, [])

/-- The lane map of some elements (R227). -/
def laneMap (lanes : Nat) (l : List Nat) : Word := l.foldl (fun m i => m ||| BitVec.ofNat 64 (2 ^ (i % lanes))) 0

/-- The access that one translated field makes, with its data read now. -/
def Member.access (m : Member) (h : Hart) (c : VCtx) (e : ElemXlate) : Access :=
  let f := m.op.fmt c
  let r : BitVec 5 := m.op.d + BitVec.ofNat 5 (e.field * (c.tag m.op.d).group)
  let p := elemPlace c.lanes f.width e.index
  let d := h.elem c.lanes r f.width e.index
  let stream := (m.op.op.major = 0x48 || m.op.op.major = 0x49) && m.op.rep.setWidth 2 = 1#2
  { key := e.key, bytes := f.bytes, elem := e.index, va := e.va,
    kind :=
      match m.op.op with
      | .ld | .lds | .ldx | .ldff | .ldseg =>
        (match m.op.bank with
        | none => .load (r + BitVec.ofNat 5 p.1) p.2
        | some (bop, _) => .bankLoad bop f c.round (scalarOperand f m.z) (r + BitVec.ofNat 5 p.1) p.2)
      | .amoadd | .amomin | .amomax | .amoswap => .amo m.op.op.fn f c.round d (r + BitVec.ofNat 5 p.1) p.2
      | .scredAdd | .scredMin | .scredMax | .scredOr =>
        .scred m.op.op.fn f c.round [h.elem c.lanes m.op.a f.width e.index]
      | _ =>
        (match m.op.bank with
        | none => if stream then .stream d else .store d
        | some (bop, _) => .bankStore bop f c.round d stream) }

/-- The contributions of one window to one address come together (R334). -/
def gather (l : List Access) : List Access :=
  (l.foldl (fun (acc : List Access) a =>
    match a.kind with
    | .scred n f rm x =>
      match acc.find? (·.key = a.key) with
      | some { kind := .scred _ _ _ y, .. } =>
        acc.map fun b => if b.key = a.key then { b with kind := .scred n f rm (y ++ x) } else b
      | _ => acc ++ [a]
    | _ => acc ++ [a]) [])

/-- A window's outcome before anything of it performs. -/
structure Window where
  /-- the last element of the window, plus one -/
  hi : Nat
  /-- the elements that are to perform -/
  go : List ElemXlate := []
  /-- elements in fault: the index, the cause and address, and whether a record is written -/
  marked : List (Nat × Cause × Word) := []
  recorded : List (Nat × Cause × Word) := []
  lanes : Word := 0
  eix : Nat := 0
  /-- vldff fixes the length at this element (R232) -/
  trim : Option Nat := none
  /-- an element that would be accessed in another package on a core without feature bit 13: the window then takes that trap,
  at its first element, ahead of the faults of its elements (R378; DESIGN CHOICE, log entry 63) -/
  noFeature : Bool := false
  /-- elements whose error on a first reading is looked at again (R230) -/
  retry : List ElemXlate := []
  /-- the key and the entry of the progress word -/
  nfyKey : Option Nat := none
  nfyEntry : Option TlbEntry := none
  deriving DecidableEq, Repr

/-- The active elements of a member's next window (R226, R229). -/
def Member.window (m : Member) (h : Hart) (c : VCtx) : List Nat × Nat :=
  let hi := if m.op.op = .ldff then c.vl else min c.vl ((m.next / 128 + 1) * 128)
  (((List.range (hi - m.next)).map (m.next + ·)).filter fun i =>
    h.active m.op i && (m.lanes.toNat % 2 ^ c.lanes = 0 || m.lanes.getLsbD (i % c.lanes)), hi)

/-- The progress word's translation with the first window of a notify store (R234): its key, or the cause. -/
def State.xlateProgress (s : State) (m : Member) : State × Except Cause (Option Nat × Option TlbEntry) :=
  match m.nfy with
  | none => (s, .ok (none, none))
  | some n =>
    match n.key with
    | some k => (s, .ok (some k, n.entry))
    | none =>
      match s.xlate .store n.va with
      | .error c => (s.xlateFailed n.va, .error c)
      | .ok (key, x) => (s.touch x, .ok (some key, some x.entry))

/-- An error in a granule persists at one of these bytes. -/
def State.persists (s : State) (e : ElemXlate) (n : Nat) : Bool := s.poisonedAt e.key n

/-- The first entry of each index. -/
def onePerIndex (l : List (Nat × Cause × Word)) : List (Nat × Cause × Word) :=
  l.foldl (fun acc e => if acc.any (·.1 = e.1) then acc else acc ++ [e]) []

/-- The outcome of a window from its translations (R226, R227, R229, R230, R232, R234). -/
def Member.outcome (m : Member) (c : VCtx) (s : State) (els : List Nat) (hi : Nat) (xs : List ElemXlate)
    (nfy : Except Cause (Option Nat × Option TlbEntry)) : Window :=
  let key := match nfy with | .ok (k, _) => k | .error _ => none
  let faulty : List (Nat × Cause × Word) := match nfy with
    | .ok _ => xs.filterMap fun (e : ElemXlate) => e.fault.map fun x => (e.index, x, e.va)
    | .error x => (if els.isEmpty then [m.next] else els).map fun i => (i, x, m.address s.me c i 0)
  let allLanes : Word := BitVec.ofNat 64 (2 ^ c.lanes - 1)
  let lowest := (els.head?).getD m.next
  let trim := match m.op.op, faulty with
    | .ldff, e :: _ => if lowest < e.1 then some e.1 else none
    | _, _ => none
  let faulty := if trim.isSome then [] else faulty
  let live : List ElemXlate := match trim with
    | some i => xs.filter fun (e : ElemXlate) => decide (e.index < i)
    | none => xs.filter (·.fault.isNone)
  let bad : List (Nat × Cause × Word) := if m.op.returns then
      live.filterMap fun e =>
        if s.persists e (m.op.fmt c).bytes || (!faulty.isEmpty && s.poison.any fun p => p.hits e.key (m.op.fmt c).bytes) then
          some (e.index, Cause.poisonedData, e.va)
        else none
    else []
  let marked := faulty ++ bad
  let lanes := match nfy with
    | .ok _ => laneMap c.lanes (marked.map (·.1))
    | .error _ => allLanes
  let eix := match nfy with
    | .ok _ => marked.foldl (fun n e => min n e.1) hi
    | .error _ => m.next
  let whole := live.filter fun e => !(xs.any fun x => x.index = e.index && x.fault.isSome)
  { hi := match trim with | some i => i | none => hi
    go := match nfy with
      | .ok _ => whole.filter fun e =>
          marked.isEmpty || e.index < eix || !lanes.getLsbD (e.index % c.lanes)
      | .error _ => []
    marked
    recorded := if faulty.isEmpty then onePerIndex bad else faulty
    lanes
    eix
    trim
    noFeature := !s.core.fmask.getLsbD 13 && xs.any fun e => e.remote && (match trim with | some i => decide (e.index < i) | none => true)
    retry := if faulty.isEmpty then live else []
    nfyKey := key
    nfyEntry := match nfy with | .ok (_, x) => x | .error _ => none }

/-- The records of a window's faults, in ascending element index (R227, R443); the second part says whether one was
lost. -/
def State.recordFaults (s : State) (c : VCtx) (pc : Word) (l : List (Nat × Cause × Word)) : State × Bool :=
  l.foldl (fun (acc : State × Bool) e =>
    let r := acc.1.faultRecord (dieOf s.cur)
      { kind := 1, code := e.2.1.code, hart := s.cur, asid := s.me.csr.asid.toNat, eix := e.1, pc, addr := e.2.2,
        lane := e.1 % c.lanes }
    (r.1, acc.2 || !r.2)) (s, false)

/-- The records of stores that leave a granule in error poisoned (R119, R230). -/
def State.recordStores (s : State) (c : VCtx) (m : Member) (l : List ElemXlate) : State :=
  if m.op.returns || m.op.kind = .load then s
  else
    l.foldl (fun t e =>
      let n := (m.op.fmt c).bytes
      if t.poison.any fun p => p.persist && overlap p.span.1 p.span.2 e.key n && !p.covered e.key n then
        (t.faultRecord (dieOf s.cur)
          { kind := 2, code := 0x15, hart := s.cur, asid := s.me.csr.asid.toNat, eix := e.index, pc := m.pc, addr := e.va }).1
      else t) s

/-- The lines that a window accesses are in their L2 afterwards, but for accesses with the hint streaming (R38, R214). -/
def State.allocateWindow (s : State) (c : VCtx) (m : Member) (l : List ElemXlate) : State :=
  if (m.op.op.major = 0x48 || m.op.op.major = 0x49) && m.op.rep.setWidth 2 = 1#2 || m.op.kind = .store then s
  else l.foldl (fun t e => t.allocate e.key (m.op.fmt c).bytes) s

/-- Transient errors that a window's loads meet are gone on its second reading and are counted, also where another element's
error persists (R230). -/
def State.clearTransients (s : State) (c : VCtx) (m : Member) (l : List ElemXlate) : State :=
  if m.op.returns then l.foldl (fun t e => t.clearTransient e.key (m.op.fmt c).bytes) s else s

/-! ### Order between items (R235) -/

/-- The vector registers that an item reads or writes. -/
def VItem.touches (i : VItem) : List Nat :=
  match i.work with
  | .convoy l => l.flatMap fun m => m.op.reads i.ctx ++ m.op.writes i.ctx
  | .clear d n => (List.range n).map (d.toNat + ·)
  | _ => []

/-- The vector registers whose values accesses of an item that have not performed still have to bring. -/
def VItem.brings (i : VItem) : List Nat := i.members.flatMap fun m => if m.op.returns then m.op.writes i.ctx else []

/-- An access of the item changes memory each time that it is made: one of VAMO, VSCRED or a store pair. -/
def VItem.updates (i : VItem) : Bool := i.members.any fun m => m.op.op.isMem && m.op.kind == .both

/-- The items at the head of a queue that have issued all their groups, and the first that has not. -/
def VItem.front (l : List VItem) : List VItem × Option VItem :=
  match l with
  | [] => ([], none)
  | i :: t => if i.issuedAll then let r := VItem.front t; (i :: r.1, r.2) else ([], some i)

/-- An item may go on before the accesses of those in front of it have performed (R235): those took their operands as they
issued, so it waits for the registers that they still bring alone. What may not be made twice waits for accesses that can still
bring an error (R230). -/
def VItem.goesOn (i : VItem) (front : List VItem) : Bool :=
  front.all (fun x => !x.brings.any i.touches.contains) && (!i.updates || front.all fun x => x.brings.isEmpty)

end Sys2Proof.Machine
end

