-- ==== Sys2Proof/Machine/VConfig.lean ====
section
/-! DEFINITION. Vector configuration: lane requests, tags, length grants and nest registers (spec/06_vector_unit.md,
R151 to R167). -/

namespace Sys2Proof.Machine

/-- The word of a VCFG instruction (R53). -/
def vcfgVal (imm : BitVec 12) (fn : BitVec 3) (a d : BitVec 5) : Word := fieldsVal (.i imm fn a d 0x20)

/-- The format and group factor of imm12 (R159, R163). -/
def tagImm (fmt : BitVec 4) (grp : BitVec 2) : BitVec 12 := 0#6 ++ grp ++ fmt

/-! ### Lanes -/

/-- A quad's state. -/
def Csrs.quad (c : Csrs) (q : Nat) : Quad := c.quads.toList.getD q .free

/-- H: quads owned or granted (R153). -/
def Csrs.quadsKept (c : Csrs) : Nat := (c.quads.toList.filter fun x => x = .owned ∨ x = .granted).length

/-- Leaving quads, lowest first, are kept while H is below T (R153). -/
def Csrs.keepLeaving (c : Csrs) (t : Nat) : Csrs :=
  [0, 1, 2, 3].foldl (fun c q => if c.quad q = .leaving ∧ c.quadsKept < t then c.setQuad q .owned else c) c

/-- lpreq (R153): the partition after it. `free` are the core's free quads, ascending. -/
def Csrs.lpreq (c : Csrs) (free : List Nat) (x : Nat) : Csrs :=
  let t := min (x % 8) 4
  let m := min (max (bits x 10 8) 1) t
  let c := c.keepLeaving t
  let h := c.quadsKept
  let need := t - h
  let take := if need = 0 then [] else if need ≤ free.length then free.take need else if m ≤ h + free.length then free else []
  take.foldl (fun c q => c.setQuad q .granted) c

/-- lprel (R154): one quad given up, the highest granted one, or else the highest owned one. -/
def Csrs.giveUp (c : Csrs) : Csrs :=
  match ([3, 2, 1, 0].find? fun q => c.quad q = .granted) with
  | some q => c.setQuad q .free
  | none =>
    match ([3, 2, 1, 0].find? fun q => c.quad q = .owned) with
    | some q => c.setQuad q .leaving
    | none => c

/-- Quads given up until K are kept (R154). -/
def Csrs.lprel (fuel : Nat) (c : Csrs) (k : Nat) : Csrs :=
  match fuel with
  | 0 => c
  | fuel + 1 => if k < c.quadsKept then (c.giveUp).lprel fuel k else c

def execLpreq (d a : BitVec 5) (s : State) : Result :=
  let c := s.me.csr.lpreq (s.freeQuads (coreOf s.cur) none) (s.g a).toNat
  .next ((s.updCsr fun _ => c).write d (BitVec.ofNat 64 c.quadsKept))

def execLprel (a : BitVec 5) (s : State) : Result :=
  .next (s.updCsr fun c => c.lprel 4 (min ((s.g a).toNat % 8) 4)).next

/-! ### Tags -/

/-- Every register of a span tagged (R159). -/
def Hart.tagSpan (h : Hart) (d : BitVec 5) (n : Nat) (t : Tag) : Hart :=
  { h with tag := Vector.ofFn fun i => if d.toNat ≤ i.val ∧ i.val < d.toNat + n then t else h.tag[i] }

/-- Every register of a span zero in the first lanes. -/
def Hart.zeroSpan (h : Hart) (lanes : Nat) (d : BitVec 5) (n : Nat) : Hart :=
  let keep : BitVec 16384 := BitVec.ofNat 16384 (2 ^ 16384 - 2 ^ (256 * lanes))
  { h with v := Vector.ofFn fun i => if d.toNat ≤ i.val ∧ i.val < d.toNat + n then h.v[i] &&& keep else h.v[i] }

/-- The clearing part of a vtag: at once where nothing is queued before it, and otherwise in its turn. -/
def State.clearSpan (s : State) (d : BitVec 5) (n : Nat) : State :=
  if s.me.vectorFree then s.updMe fun h => h.zeroSpan h.lanes d n
  else s.enqueue s.me.pc s.me.vctx (.clear d n) s.me

/-- The checks of vtag and vretag, then the span's new tags (R159). The format that the register had is not checked, nor by vgettag
(DESIGN CHOICE, log entry 89). -/
def State.retag (s : State) (fn : BitVec 3) (d : BitVec 5) (fmt : BitVec 4) (grp : BitVec 2) (zero : Bool) : State :=
  let t : Tag := { fmt, grp }
  let n := max (s.me.tagOf d).group t.group
  if fmt = 15 then s.trap .illegalTag (vcfgVal (tagImm fmt grp) fn 0 d)
  else if d.toNat % n ≠ 0 then s.trap .misalignedGroup (vcfgVal (tagImm fmt grp) fn 0 d)
  else if zero && s.me.vqFull then s.stall .dispatch
  else (((if zero then s.clearSpan d n else s).updMe (·.tagSpan d n t))).next

def execVtag (d : BitVec 5) (fmt : BitVec 4) (grp : BitVec 2) (s : State) : Result := .next (s.retag 1 d fmt grp true)
/-- No bit changes (R160). -/
def execVretag (d : BitVec 5) (fmt : BitVec 4) (grp : BitVec 2) (s : State) : Result := .next (s.retag 2 d fmt grp false)
def execVgettag (d v : BitVec 5) (s : State) : Result :=
  let t := s.me.tagOf v
  .next (s.write d (BitVec.ofNat 64 (t.grp.toNat * 16 + t.fmt.toNat)))

/-! ### Length grants -/

/-- thr(s): the ceiling of the kept pair with the largest n at or below the strip (R162, R409). -/
def Hart.throttle (h : Hart) (strip : Nat) : BitVec 4 :=
  if h.locked then
    ((h.pairs.filter (·.2 ≤ strip)).foldl (fun (best : BitVec 4 × Nat) p => if best.2 ≤ p.2 then p else best) (0xF, 0)).1
  else 0xF

/-- A configuration entry applies: with a partition change every lane of the new partition is zero (R163, R155). -/
def Hart.applyCfg (h : Hart) (lanes : Nat) (zero : Bool) : Hart := if zero then h.zeroSpan lanes 0 32 else h

/-- A scalar store that precedes a place in program order has not performed: a configuration entry waits for it at the head
of the vector queue, but not for engine commands (R235, R349). -/
def Hart.storeBefore (h : Hart) (id : Nat) : Bool := h.sb.any fun e => e.ack.isNone && e.before ≤ id

/-- A mask function, a vtag's clearing or a configuration entry takes effect and leaves the vector queue. The first two may go
before accesses of the items in front of them have performed, which they do not touch (R235); a configuration entry is at the
head, behind the earlier strip's accesses, and stores that are late perform before it. -/
def State.applyHead (s : State) (cfgToo : Bool) : State :=
  let gone (s : State) (i : VItem) (f : Hart → Hart) : State :=
    (((s.updVector i.id f).dropSnaps [i.id]).updMe fun h => { h with vq := h.vq.filter (·.id ≠ i.id) }).commitStores
  match VItem.front s.me.vq with
  | (_, none) => s
  | (front, some i) =>
    match i.work with
    | .convoy _ => s
    | .cfg _ lanes zero =>
      let s := s.inOrder
      if cfgToo && front.isEmpty && !s.me.storeBefore i.id then gone s i (·.applyCfg lanes zero) else s
    | .clear d n => if i.goesOn front then gone s i (·.zeroSpan i.ctx.lanes d n) else s
    | .mask fn d a b => gone s i (·.maskWrite fn i.ctx.vl d a b)

/-- CONFIGURATION_ENTRY (R163): the entry at the head of the vector queue applies; so does a mask function or a vtag's clearing
whose turn it is. -/
def execConfigurationEntry (s : State) : Result := .next (s.applyHead true)

/-- SETVL's grant (R163) under a die's power ceiling and a core's life ceiling: the CSRs after it, and gd. -/
def Hart.grant (h : Hart) (power life : Nat) (fmt : BitVec 4) (grp : BitVec 2) (request : Nat) :
    Hart × Nat × VWork :=
  let strip := h.csr.vstrip.toNat + 1
  let changed := h.changed || h.csr.quads.toList.any fun x => x = .granted ∨ x = .leaving
  let freed := below 4 fun q => h.csr.quad q = .leaving
  let quads : Vector Quad 4 := Vector.ofFn fun i => match h.csr.quads[i] with
    | .granted => .owned
    | .leaving => .free
    | x => x
  let q := (quads.toList.filter (· = .owned)).length
  let width := ((Fmt.ofCode fmt).getD .i8).width
  let thr := h.throttle strip
  let c := min (min power life) thr.toNat
  let cap := min (vlmax (16 * q) width (2 ^ grp.toNat)) 2048 * (c + 1) / 16
  let n := min request cap
  ({ h with
     changed := false
     csr := { h.csr with quads, vl := BitVec.ofNat 12 n, vlFmt := fmt, vlGrp := grp, grantEff := BitVec.ofNat 4 c,
                         grantThr := thr, grantLife := BitVec.ofNat 4 life, vstrip := BitVec.ofNat 32 strip, lchg := h.csr.lchg || changed } }, n, .cfg freed (16 * q) changed)

/-- setvl (R163): an illegal tag, a stall while a throttle pair is being agreed (R408), then the grant. Its configuration
entry follows the vector instructions before it, and applies at once where there are none, unless an event is to apply
it. -/
def execSetvl (d a : BitVec 5) (fmt : BitVec 4) (grp : BitVec 2) (s : State) : Result :=
  if fmt = 15 then .next (s.trap .illegalTag (vcfgVal (tagImm fmt grp) 0 a d))
  else if s.me.proposed then .next (s.stall .lock)
  else if s.me.vqFull then .next (s.stall .dispatch)
  else
    let (h, n, w) := s.me.grant s.pwr s.core.life.ceiling fmt grp (s.g a).toNat
    let t := (s.updMe fun _ => h).enqueue s.me.pc h.vctx w s.me
    let u := if s.me.vectorFree && s.agenda.isEmpty then t.applyHead true else t
    .next (u.write d (BitVec.ofNat 64 n))

/-! ### Nest registers -/

/-- The two halves of a 16-byte scalar access, translated once: 16-byte alignment keeps it in one page (R166). -/
def execNestld (n : BitVec 3) (a : BitVec 5) (s : State) : Result :=
  let va := s.g a
  match s.scalarRead 16 .load va with
  | .error c => .next (s.trap c (c.memVal va (vcfgVal 0 6 a (0#2 ++ n))))
  | .ok (_, x, t) =>
    .next (t.updMe fun h => { h with nest := Vector.ofFn fun i => if i.val = n.toNat then BitVec.ofNat 128 x else h.nest[i] }).next

def execNestst (n : BitVec 3) (a : BitVec 5) (s : State) : Result :=
  let va := s.g a
  if va.toNat % 16 ≠ 0 then .next (s.trap .misalignedAccess va)
  else
    match s.xlate .store va with
    | .error c => .next (s.trap c va)
    | .ok (key, xl) =>
      if s.lacksRemote xl then .next (s.trap .featureAbsent (vcfgVal 0 7 a (0#2 ++ n)))
      else .next ((s.touch xl).physStore key 16 (s.me.nestAt n.toNat).toNat va).next

end Sys2Proof.Machine
end

