-- ==== Sys2Proof/Machine/Vector.lean ====
section
/-! DEFINITION. The vector unit (spec/06_vector_unit.md, R168 to R177; R37, R41, R184, R185, R205): convoys gathered and
checked at issue, element groups and windows in order, traps of the vector unit, and its events. -/

namespace Sys2Proof.Machine

/-! ### Queue entries -/

/-- An item of the vector queue changed. -/
def State.updItem (s : State) (id : Nat) (f : VItem → VItem) : State :=
  s.updMe fun h => { h with vq := h.vq.map fun i => if i.id = id then f i else i }

/-- A list with its element k changed. -/
def changeAt {α : Type} (l : List α) (k : Nat) (f : α → α) : List α :=
  match l, k with
  | [], _ => []
  | x :: t, 0 => f x :: t
  | x :: t, k + 1 => x :: changeAt t k f

/-- Member k of an item changed. -/
def VItem.updMember (i : VItem) (k : Nat) (f : Member → Member) : VItem :=
  match i.work with
  | .convoy l => { i with work := .convoy (changeAt l k f) }
  | _ => i

/-- Member k of the item with an id. -/
def Hart.member (h : Hart) (id k : Nat) : Option (VItem × Member) :=
  match h.vq.find? (·.id = id) with
  | none => none
  | some i => (i.members[k]?).map fun m => (i, m)

/-- Member k of the item with an id changed. -/
def State.updMember (s : State) (id k : Nat) (f : Member → Member) : State := s.updItem id fun x => x.updMember k f

/-! ### Return-free operations (R303, R316, R317, R319, R321, R335) -/

/-- An element of a return-free operation performs at its home, or is dropped and reported, or leaves its output poisoned
for a poisoned input (R303, R317, R321, R335). -/
def State.performElement (s : State) (r : ReturnFree) (a : Access) : State :=
  match s.dropCond a.key with
  | some c => s.reportTransfer s.cur r.pc c (s.keyPackage a.key) (gpaOffset a.key)
  | none =>
    match a.kind with
    | .expr _ _ ins =>
      match ins.find? fun k => s.poison.any fun p => p.persist && p.hits k a.bytes with
      | some k => (s.performAccess r.id { a with kind := .poison }).reportTransfer s.cur r.pc 1 (s.keyPackage k) (gpaOffset k)
      | none => s.performAccess r.id a
    | _ => s.performAccess r.id a

/-- Two elements of one return-free operation whose order is fixed: those of a store pair at one address perform in ascending
index (R316); adds of nma have no fixed order (R335). -/
def Access.ordered (a b : Access) : Bool :=
  match a.kind, b.kind with
  | .bankStore .., .bankStore .. => overlap a.key a.bytes b.key b.bytes
  | _, _ => false

/-- A return-free operation whose last window has performed: its progress word is written, its pins are released, and it is
over unless its instruction is still in the vector queue (R226, R234). -/
def State.endElements (s : State) (r : ReturnFree) : State :=
  let t := match r.word with
    | some (key, x) => s.store key 8 x
    | none => s
  t.updMe fun h =>
    { h with rf := if h.vq.any (·.id = r.id) then h.rf.map fun x => if x.id = r.id then { x with elems := [], pins := [], word := none } else x
                   else h.rf.filter (·.id ≠ r.id) }

/-- Element k of the n-th return-free operation performs at its home, or the one whose turn comes before it. -/
def State.performReturnFree (s : State) (n k : Nat) : State :=
  match s.me.rf[n]? with
  | none => s
  | some r =>
    let k := dueFirst Access.ordered r.elems k k
    match r.elems[k]? with
    | none => if r.elems.isEmpty then s.endElements r else s
    | some a =>
      let rest := r.elems.eraseIdx k
      let t := s.performElement r a
      if rest.isEmpty then t.endElements r
      else t.updMe fun h => { h with rf := h.rf.map fun x => if x.id = r.id then { x with elems := rest } else x }

/-- Every element of a return-free operation performs. -/
def State.finishElements (s : State) (r : ReturnFree) : State := (r.elems.foldl (fun t a => t.performElement r a) s).endElements r

/-- Every return-free operation performs. -/
def State.settleReturnFree (s : State) : State := s.me.rf.foldl (fun t r => t.finishElements r) s

/-! ### Traps of the vector unit -/

/-- `vsidx` of the members behind the one at the resumable position (R176). -/
def laterIndices (l : List Member) : BitVec 35 :=
  BitVec.ofNat 35 (l.length * 2 ^ 33 + (l.map (·.next)).foldr (fun n acc => n % 2048 + 2048 * acc) 0)

/-- Member k of an item takes a precise trap at an element, once what the members and items before it have issued has
performed: it and everything younger are discarded, and later members' progress is recorded (R174, R176, R227). -/
def State.trapMember (s : State) (id k : Nat) (cause : Cause) (val : Word) (lost : Bool) (eix : Nat) (lanes : Word) : State :=
  match s.me.member id k with
  | none => s
  | some (i, m) =>
    let later := i.members.drop (k + 1)
    let t := s.settleWhere (· ≤ id)
    (t.rollbackTo id).post (.trap
      { cause, val, lost,
        pos := { pc := m.pc, eix := BitVec.ofNat 11 eix, lanes,
                 vsidx := if eix = 0 && later.all (·.next = 0) then 0 else laterIndices later } })

/-- An error that persists lies under an access that returns data to the lanes (R230). -/
def State.errorAt (s : State) (a : Access) : Bool := a.kind.returns && s.poison.any fun p => p.persist && p.hits a.key a.bytes

/-- The first member, oldest item first, of those asked for, that has such an access among those it has issued. -/
def State.returnError (s : State) (p : Nat → Bool) : Option (Nat × Nat) :=
  s.me.vq.findSome? fun i =>
    if p i.id then (findIdx (fun m : Member => m.pend.any s.errorAt) i.members).map fun e => (i.id, e.1) else none

/-- The poisoned-data trap of a member whose issued accesses meet an error (R230, R227): those below the lowest element in
error, and those in lanes without one, perform; each element in error is recorded. -/
def State.returnTrap (s : State) (id k : Nat) : State :=
  match s.me.member id k with
  | none => s
  | some (i, m) =>
    let bad := (m.pend.filter s.errorAt).foldl (fun acc a => if acc.any fun b => b.elem = a.elem then acc else acc ++ [a]) ([] : List Access)
    let eix := bad.foldl (fun n a => min n a.elem) 2047
    let lanes := laneMap i.ctx.lanes (bad.map (·.elem))
    let go := m.pend.filter fun a => a.elem < eix || !lanes.getLsbD (a.elem % i.ctx.lanes)
    let r := (s.performList id go).recordFaults i.ctx m.pc (bad.map fun a => (a.elem, Cause.poisonedData, a.va))
    let t := r.1.updMember id k fun y => { y with pend := [], next := eix, done := false }
    t.trapMember id k .poisonedData (((bad.find? (·.elem = eix)).map (·.va)).getD 0) r.2 eix lanes

/-- The trap of a member, unless an older item has met an error: then that one's (R121, R230). -/
def State.vectorTrap (s : State) (id k : Nat) (cause : Cause) (val : Word) (lost : Bool) (eix : Nat) (lanes : Word) : State :=
  match s.returnError (· < id) with
  | some (j, n) => s.returnTrap j n
  | none => s.trapMember id k cause val lost eix lanes

/-- The issued accesses of the items asked for perform, or the oldest error among them is met (R230). -/
def State.settleItems (s : State) (p : Nat → Bool) : State :=
  match s.returnError p with
  | some (j, n) => s.returnTrap j n
  | none => s.settleWhere p

/-- What an item has issued performs, its store pairs' elements included, and its windows are closed. -/
def State.settleItem (s : State) (id : Nat) : State :=
  ((s.me.rf.filter (·.id = id)).foldl (fun t r => t.finishElements r) s).settleItems (· = id)

/-! ### The recompute check (R184, R185) -/

/-- One advance of the LFSR. -/
def lfsrNext (x : BitVec 16) : BitVec 16 := if x.getLsbD 0 then (x >>> 1) ^^^ 0xB400 else x >>> 1

/-- The active elements of an instruction below vl. -/
def Hart.activeList (h : Hart) (c : VCtx) (o : VOp) : List Nat :=
  below c.vl fun i => o.op == .merge || o.op.major == 0x3F || o.op.major == 0x3E || h.active o i

/-- What the checker recomputes of an instruction: an active element by its rank, and for VOPA a step. -/
def Hart.checked (h : Hart) (c : VCtx) (o : VOp) (r : BitVec 16) : Nat × Nat :=
  let act := h.activeList c o
  (act.getD (r.toNat % act.length) 0, if o.op.major = 0x40 then (r.extractLsb' 0 3).toNat % o.repeats else 0)

/-- The check of an instruction that issues its first group: the core's state after it, and what was checked where the
mismatch persists. A transient one is counted and leaves no other trace. -/
def State.recompute (s : State) (c : VCtx) (o : VOp) : State × Option (Nat × Nat) :=
  if !o.op.checked || (s.me.activeList c o).isEmpty then (s, none)
  else
    let r := lfsrNext s.core.lfsr
    let t := s.updCore (coreOf s.cur) fun k => { k with lfsr := r, checkErr := none }
    match s.core.checkErr with
    | none => (t, none)
    | some false => (t.updCore (coreOf s.cur) fun k => { k with transients := k.transients + 1 }, none)
    | some true => (t, some (s.me.checked c o r))

/-- The lane-check trap of a persistent mismatch at an element: its lane is suspect, and a record is written (R185, R363). -/
def State.laneCheck (s : State) (id k : Nat) (i : VItem) (m : Member) (elem : Nat) : State :=
  let lane := elem % i.ctx.lanes
  let quad := i.ctx.quads.getD (lane / 16) 0
  let t := s.updCore (coreOf s.cur) fun x => { x with suspect := x.suspect ++ [16 * quad + lane % 16] }
  let r := t.faultRecord (dieOf s.cur)
    { kind := 3, code := 0x16, hart := s.cur, asid := s.me.csr.asid.toNat, pc := m.pc, lane }
  r.1.vectorTrap id k .laneCheck (BitVec.ofNat 64 lane) (!r.2) 0 0

/-- What is checked when an instruction is stopped before its chosen element has issued: the last active one that did (R184), or
the chosen one where none has (DESIGN CHOICE, log entry 90). -/
def Hart.checkedBy (h : Hart) (i : VItem) (m : Member) (elem : Nat) : Nat :=
  if elem < m.next then elem else (((h.activeList i.ctx m.op).filter (· < m.next)).getLast?).getD elem

/-! ### Groups and windows -/

/-- What an arithmetic group changes in the hart: vector and mask registers and sticky flags. -/
def Hart.takeVector (h n : Hart) : Hart :=
  { h with v := n.v, m := n.m, csr := { h.csr with fflags := h.csr.fflags ||| n.csr.fflags } }

/-- The q register of a queue move. -/
def VOp.moveQueue (o : VOp) : BitVec 3 := if o.op = .mvQV then o.d.setWidth 3 else o.a.setWidth 3

/-- A queue move waits for an entry, or for a place (R106). -/
def Hart.moveWaits (h : Hart) (o : VOp) : Bool :=
  if o.op = .mvQV then 16 ≤ (h.queue o.moveQueue).length else (h.queue o.moveQueue).isEmpty

/-- The elements of an entry of a queue move. -/
def VOp.perEntry (o : VOp) (c : VCtx) : Nat := 64 / (c.tag (if o.op = .mvQV then o.a else o.d)).format.width

/-- What one entry of a vmv.vq or vmv.qv does to a hart (R205), with the entry and the active elements as the move finds
them. -/
def Hart.moveEntry (h : Hart) (c : VCtx) (o : VOp) (e : Nat) : Hart → Hart :=
  let reg := if o.op = .mvQV then o.a else o.d
  let w := (c.tag reg).format.width
  let idx := ((List.range (64 / w)).map fun k => (k, e * (64 / w) + k)).filter fun x => x.2 < c.vl && h.active o x.2
  if o.op = .mvQV then
    (·.appendEntry o.moveQueue (idx.foldl (fun x k => x ||| BitVec.ofNat 64 (h.elem c.lanes reg w k.2 * 2 ^ (k.1 * w))) 0))
  else
    let x := ((h.queue o.moveQueue).headD 0).toNat
    fun t => idx.foldl (fun t k => t.setElem c.lanes reg w k.2 (bits x (k.1 * w + w - 1) (k.1 * w))) (t.dropEntry o.moveQueue)

/-- One entry of a queue move, where it need not wait. -/
def State.queueStep (s : State) (id k : Nat) (i : VItem) (m : Member) : State :=
  if s.me.moveWaits m.op then s
  else
    let per := m.op.perEntry i.ctx
    let e := m.next / per
    let next := min i.ctx.vl ((e + 1) * per)
    (s.updVector id (s.me.moveEntry i.ctx m.op e)).updMember id k fun y =>
      { y with next, begun := true, done := decide (i.ctx.vl ≤ next) }

/-- The next element group of an arithmetic member, or all of a whole one (R168, R174). One whose check mismatches twice
computes for nothing: it traps with its last group. -/
def State.groupStep (s : State) (id k : Nat) (i : VItem) (m : Member) : State :=
  let c := i.ctx
  let r := if m.begun then (s, m.chk) else s.recompute c m.op
  let e := m.op.groupSize c
  let hi := if m.op.op.whole then c.vl else min c.vl ((m.next / e + 1) * e)
  let last := decide (c.vl ≤ hi)
  match r.2 with
  | some x =>
    if last then r.1.laneCheck id k i m x.1
    else r.1.updMember id k fun y => { y with next := hi, begun := true, chk := some x }
  | none =>
    let h := { s.me with csr := { s.me.csr with fflags := 0 } }
    let n := if m.op.op.whole then h.doWhole c m.op m.next else h.doElements c m.op m.x m.next hi
    (r.1.updVector id (·.takeVector n)).updMember id k fun y => { y with next := hi, begun := true, done := last }

/-- The accesses that a window issues, with the pages that it pins and, for a store pair, the word that counts the elements
below `next`. Store pairs go to the hart's return-free operations (R317, R319). -/
def State.issueAccesses (s : State) (id k : Nat) (m : Member) (l : List Access) (pins : List TlbEntry) (next : Nat) : State :=
  if m.op.returnFree then
    let word := m.nfy.bind (·.word next)
    s.updMe fun h =>
      { h with rf := if h.rf.any (·.id = id) then
                       h.rf.map fun r => if r.id = id then { r with elems := r.elems ++ l, pins := r.pins ++ pins, word } else r
                     else h.rf ++ [{ id, pc := m.pc, elems := l, pins, word }] }
  else s.updMember id k fun y => { y with pend := y.pend ++ l, pins }

/-- The entries that the vector memory instructions of a core's harts pin (R226). -/
def State.pinsOfCore (s : State) : Nat := ((List.range 4).map fun j => (s.hart (4 * coreOf s.cur + j)).pinned.length).sum

/-- The 32-byte sectors of a window's loads, once for each (R285). -/
def sectorsOf (l : List Access) : List Nat := (l.filter (·.kind.returns)).map fun a => a.key / 32

/-- The next window of a memory member (R226 to R234). Nothing of a later window of it starts before the last one has
performed, and it waits where the core's pin store of 256 entries has no room for its pages. Where an element lies in another
package on a core without feature bit 13, that trap comes first, with the window's first element (DESIGN CHOICE, log entry 63). -/
def State.windowStep (s : State) (id k : Nat) (i : VItem) (m : Member) : State :=
  let c := i.ctx
  if c.vl ≤ m.next then (s.updMember id k fun y => { y with done := true }).retireVector
  else
    let s := s.settleItem id
    if (s.me.member id k).isNone then s
    else
      let (els, hi) := m.window s.me c
      let (t, nfy) := s.xlateProgress m
      let (t, xs) := match nfy with
        | .ok _ => t.xlateWindow c m els
        | .error _ => (t, [])
      let w := m.outcome c t els hi xs nfy
      let pages := (w.go.filterMap (·.entry)).eraseDups
      let word := if (m.nfy.bind (·.key)).isNone then w.nfyEntry.toList else []
      if 256 < s.pinsOfCore + (pages ++ word).length then s
      else if w.noFeature then t.vectorTrap id k .featureAbsent m.val false m.next m.lanes
      else
        let t := ((t.clearTransients c m w.retry).recordStores c m w.go).allocateWindow c m w.go
        let m := { m with nfy := m.nfy.map fun n => { n with key := w.nfyKey, entry := w.nfyEntry, last := max n.last m.next } }
        let t := t.updMember id k fun y => { y with nfy := m.nfy }
        let pins := pages ++ if m.op.returnFree then w.nfyEntry.toList else []
        let go := gather (w.go.map (m.access t.me c))
        let t := match w.trim with
          | some n => (t.updItem id fun x => { x with ctx := { x.ctx with vl := n } }).updVector id fun h =>
              { h with csr := { h.csr with vl := BitVec.ofNat 12 n } }
          | none => t
        match w.marked with
        | [] =>
          let issued : Issued :=
            { first := m.next, lanes := m.lanes, elems := w.go.map (·.index), sectors := m.issued.sectors ++ sectorsOf go }
          (t.issueAccesses id k m go pins w.hi).updMember id k fun y =>
            { y with next := w.hi, lanes := 0, begun := true, done := decide (c.vl ≤ hi) || w.trim.isSome, issued }
        | first :: _ =>
          let at' := (w.marked.find? fun e => e.1 = w.eix).getD first
          let main := (w.recorded.find? fun e => e.1 = w.eix).getD ((w.recorded.head?).getD first)
          let (u, lost) := t.recordFaults c m.pc w.recorded
          let u := (u.issueAccesses id k m go pins w.eix).updMember id k fun y => { y with next := w.eix }
          u.vectorTrap id k main.2.1 at'.2.2 lost w.eix w.lanes

/-- The next group, window or entry of a member. What the members before it have loaded performs before a group reads it. -/
def State.memberStep (s : State) (id k : Nat) : State :=
  match s.me.member id k with
  | none => s
  | some (i, m) =>
    let s := if (i.members.take k).all (·.pend.isEmpty) then s else s.settleItem id
    if m.done || (s.me.member id k).isNone then s
    else if m.op.op.isMem then s.windowStep id k i m
    else if i.ctx.vl ≤ m.next then s.updMember id k fun y => { y with done := true }
    else
      match m.op.op with
      | .mvVQ | .mvQV => s.queueStep id k i m
      | _ => s.groupStep id k i m

/-- A member to its end, or until it waits or traps. -/
def State.runMember (fuel : Nat) (s : State) (id k : Nat) : State :=
  match fuel with
  | 0 => s
  | fuel + 1 =>
    match s.me.member id k with
    | none => s
    | some (_, m) =>
      if m.done then s
      else
        let t := s.memberStep id k
        match t.me.member id k with
        | none => t
        | some (_, n) => if n.next = m.next && n.done == m.done then t else t.runMember fuel id k

/-- The members of an item before the k-th to their ends. -/
def State.runMembers (s : State) (id n : Nat) : State :=
  (List.range n).foldl (fun t k =>
    match t.me.member id k with
    | none => t
    | some _ => if (List.range k).all fun j => (t.me.member id j).any (·.2.done) then t.runMember 2200 id k else t) s

/-! ### Order between items -/

/-- An item waits for an engine command before it: what it writes to memory could not be taken back if the command, which
has not started, were to trap (R121, R271); and no access of it performs before an earlier acquire (R346). -/
def Hart.itemHeld (h : Hart) (i : VItem) : Bool :=
  ((i.members.any fun m => m.op.op.isMem && !m.op.op.isLoad) && (h.lq ++ h.xq).any fun c => !c.started && c.id < i.id) ||
  ((i.members.any fun m => m.op.op.isMem) && h.acquiring i.id)

/-- The item whose groups issue next: the first that has not issued all of them, where no older engine command holds it and
nothing that it reads or writes is still to come (R121, R169, R185, R235). -/
def Hart.nextItem (h : Hart) : Option VItem :=
  match VItem.front h.vq with
  | (front, some i) => if !h.itemHeld i && i.goesOn front then some i else none
  | _ => none

/-- An engine command before an item could start: where no events drive the engines, it goes first. -/
def Hart.commandFirst (h : Hart) (i : VItem) : Bool :=
  (h.lq ++ h.xq).any fun c => c.id < i.id && !c.started && h.hasTokens c

/-- The queue from its head as far as it goes without an event: items run, and heads that are no convoy apply. -/
def State.vectorRun (fuel : Nat) (s : State) : State :=
  match fuel with
  | 0 => s
  | fuel + 1 =>
    match s.me.vq with
    | [] => s
    | i :: _ =>
      if s.me.commandFirst i || s.me.itemHeld i then s
      else
        match i.work with
        | .convoy l =>
          let t := ((s.commitStores.runMembers i.id l.length).settleItems fun _ => true).settleReturnFree
          if t.me.vq.any (·.id = i.id) || t.me.entered || t.me.due.isSome then t else t.vectorRun fuel
        | _ =>
          let t := s.applyHead true
          if t.me.vq.any (·.id = i.id) then t else t.vectorRun fuel

/-- The vector unit goes on where no events are to drive it; a configuration entry among them waits for its own. -/
def State.vectorGo (s : State) : State := if s.agenda.isEmpty then s.vectorRun 40 else s

/-! ### Issue (R37, R41, R43, R173) -/

/-- A vector instruction as it was read from memory: its word for VAL, its length in words, and the hart at its PC. -/
structure VRead where
  op : VOp
  word : BitVec 32
  words : Nat
  hart : Hart
  deriving DecidableEq, Repr

/-- Why no further member was read. -/
inductive VStop where
  /-- its word has not been delivered yet (R124) -/
  | wait
  /-- its fetch faults -/
  | fetch (c : Cause) (pc : Word)
  /-- its word is no vector instruction of a convoyable major: the word that a trap names -/
  | word (w : BitVec 32)
  /-- it raises a decode trap of its own, once the members before it have retired (R41, R43); the word that stands for it -/
  | own (w : BitVec 32)
  deriving DecidableEq, Repr

/-- The second word of a pair may be joined by the prefix's operation (R41). -/
def pairable (o : VOpc) : Bool :=
  match o with
  | .ld | .lds | .ldx | .st | .sts | .stx | .ldseg | .stseg => true
  | _ => false

/-- The PC is that of the last body word of a live loop. -/
def Hart.lastOfLoop (h : Hart) : Bool := h.loopLive && h.csr.loop.active && h.csr.loop.word.toNat + 1 == h.csr.loop.len.toNat

/-- The trap of a prefix at the PC with the word after it, or the pair's operation (R40, R41): an illegal prefix, a fetch
fault on the second word, or the second word's illegal instruction; none while the second word is not delivered. -/
def State.readPair (s : State) (h : Hart) (prefixWord : BitVec 32) (bop : Nat) (a : BitVec 5) :
    Except (Option (Cause × Word × Bool)) (VOp × BitVec 32 × State) :=
  if h.lastOfLoop then .error (some (.illegalPrefix, wordVal prefixWord, false))
  else
    match s.present (h.advance 1) with
    | .error none => .error none
    | .error (some c) => .error (some (c, h.pc + 4, true))
    | .ok (t, word) =>
      let t := t.keepWord (h.advance 1) word
      let g := Fields.ofWord word
      let store := g.maj = 0x49 || (g.maj = 0x4A && g.vfn = 1)
      let kind := ((g.maj = 0x48 || g.maj = 0x49) && g.vfn ≠ 3) || (g.maj = 0x4A && (g.vfn = 0 || g.vfn = 1))
      if (store && a ≠ 0) || !kind then .error (some (.illegalPrefix, wordVal prefixWord, false))
      else
        match vopOf g with
        | none => .error (some (.illegalInstruction, wordVal word, false))
        | some o => .ok ({ o with bank := some (bop, a) }, word, t)

/-- The vector instruction at a hart's PC as a convoy's next member. -/
def State.readMember (s : State) (h : Hart) : Except VStop (VRead × State) :=
  match s.present h with
  | .error none => .error .wait
  | .error (some c) => .error (.fetch c h.pc)
  | .ok (t, word) =>
    let t := t.keepWord h word
    let g := Fields.ofWord word
    let h := h.behind s t
    if g.maj = 0x5F then
      if g.top = 0 && g.b = 0 && 1 ≤ g.d.toNat && g.d.toNat ≤ 6 then
        match t.readPair h word g.d.toNat g.a with
        | .error none => .error .wait
        | .error (some (_, val, fetch)) => .error (.own (if fetch then word else val.setWidth 32))
        | .ok (o, w, u) =>
          if convoyable o.op.major then .ok ({ op := o, word := w, words := 2, hart := h.behind t u }, u) else .error (.word w)
      else .error (.own word)
    else
      match vopOf g with
      | none => .error (if convoyable g.maj.toNat then .own word else .word word)
      | some o => if convoyable o.op.major then .ok ({ op := o, word, words := 1, hart := h }, t) else .error (.word word)

/-- The members after the first: as many as have their convoy bit's successor (R37). A fifth member's word breaks the
rule as one of another major does, whatever else is wrong with it. -/
def State.readRun (fuel : Nat) (s : State) (last : VRead) (acc : List VRead) : State × List VRead × Option VStop :=
  if !last.op.cv then (s, acc, none)
  else
    match s.readMember (last.hart.advance last.words) with
    | .error (.own w) => (s, acc, some (if fuel = 0 then .word w else .own w))
    | .error e => (s, acc, some e)
    | .ok (r, t) =>
      match fuel with
      | 0 => (t, acc, some (.word r.word))
      | fuel + 1 => t.readRun fuel r (acc ++ [r])

/-- The first member that breaks a rule of R173 with one before it. -/
def firstConflict (c : VCtx) (l : List VRead) : Option VRead :=
  (l.foldl (fun (acc : List VRead × Option VRead) y =>
    (acc.1 ++ [y], match acc.2 with
      | some z => some z
      | none => if acc.1.any fun x => x.op.conflicts c y.op then some y else none)) ([], none)).2

/-- A member's own trap at issue (R43, R165, R182). -/
def State.memberCheck (s : State) (c : VCtx) (r : VRead) : Option Cause :=
  if r.op.lacksFeature s.core.fmask then some .featureAbsent else r.op.check c s.core.fmask s.me.csr.escope

/-- The g register that bears a member's first scalar operand or base. -/
def VOp.scalarReg (o : VOp) : BitVec 5 :=
  if o.op.major = 0x3D then o.b else if o.op.major = 0x4C then o.d else o.a

/-- The g registers that a vector instruction reads at issue. -/
def VOp.scalarRegs (o : VOp) : List (BitVec 5) :=
  (if o.op.isMem || o.op.major = 0x3D || o.op = .mvVG then [o.scalarReg] else []) ++
  (if o.op = .lds || o.op = .sts then [o.b] else []) ++ (match o.bank with | some (_, a) => [a] | none => [])

/-- A member as it enters the queue: its g registers, its start, and a notify store's C0 (R177, R222, R234). `start` and
`lanes` are the restart's, and `cnt` is `vpcnt` at this member. -/
def VRead.toMember (r : VRead) (h : Hart) (start : Nat) (lanes : Word) (clears : Bool) (cnt : Word) : Member :=
  { op := r.op, pc := r.hart.pc, words := r.words, val := wordVal r.word, x := h.g r.op.scalarReg, y := h.g r.op.b,
    z := match r.op.bank with | some (_, a) => h.g a | none => 0
    next := start
    lanes := if r.op.op.isMem then lanes else 0
    clears := clears && r.op.op.isMem
    nfy := if r.op.op.major = 0x49 && r.op.rep.getLsbD 2 then
        some { c0 := cnt, va := h.csr.vprog, scope := h.csr.escope, last := start }
      else none }

/-- The start indices of a run after an ERET or a resumption (R177): each is at most the one before it. -/
def startIndices (p : Option Position) (n : Nat) : List Nat :=
  match p with
  | none => List.replicate n 0
  | some p =>
    let k := (p.vsidx.extractLsb' 33 2).toNat
    ((List.range n).foldl (fun (acc : List Nat) j =>
      let own := if j = 0 then p.eix.toNat
        else if j ≤ k then (p.vsidx.extractLsb' (11 * (j - 1)) 11).toNat else 0
      acc ++ [match acc.getLast? with | some q => min q own | none => own]) [])

/-- The members of a run as they enter the queue, with `vpcnt` counted along. -/
def buildMembers (h : Hart) (vl : Nat) (pos : Option Position) (clears : Bool) (l : List VRead) : List Member × Word :=
  ((l.zip (startIndices pos l.length)).foldl (fun (acc : List Member × Word) e =>
    let first := acc.1.isEmpty
    let m := e.1.toMember h e.2 (if first then (pos.map (·.lanes)).getD 0 else 0) (first && clears) acc.2
    (acc.1 ++ [m], if m.nfy.isSome then acc.2 + BitVec.ofNat 64 vl else acc.2)) ([], h.csr.vpcnt))

/-- A vector instruction at the PC issues, with the members of its convoy (R43, R100, R172). A trap of the first
member's own, or one that its convoy raises, is taken here; a later member's own trap is taken when the hart reaches it,
after the members before it. Where a run breaks both R37 and R173, VAL is the word that breaks R37 (DESIGN CHOICE, log
entry 72). -/
def State.vectorAt (s : State) (o : VOp) (word : BitVec 32) (words : Nat) : State :=
  let c := s.me.vctx
  let head : VRead := { op := o, word, words, hart := s.me }
  if o.lacksFeature s.core.fmask then s.trap .featureAbsent (wordVal word)
  else if o.cv && !convoyable o.op.major then s.trap .illegalConvoy (wordVal word)
  else
    let (t, run, stop) := s.readRun 3 head [head]
    match stop, firstConflict c run with
    | some .wait, _ => t.stall .delivery
    | some (.word w), _ => t.trap .illegalConvoy (wordVal w)
    | _, some y => t.trap .illegalConvoy (wordVal y.word)
    | _, none =>
      match t.memberCheck c head with
      | some x => t.trap x (wordVal word)
      | none =>
        let run := run.takeWhile fun r => (t.memberCheck c r).isNone
        if run.any fun r => r.op.scalarRegs.any t.me.busy then t.stall .register
        else if 32 < (t.me.vq.map (·.places)).sum + run.length then t.stall .dispatch
        else
          let pos := t.me.restart
          let eret := pos.isSome && t.me.viaEret
          let (ms, cnt) := buildMembers t.me c.vl pos eret run
          let h := run.foldl (fun h r => h.advance r.words) t.me
          let extra := run.length - 1
          let h := { h with
            csr := { h.csr with vpcnt := cnt, eix := if eret then 0 else h.csr.eix, vsidx := if eret then 0 else h.csr.vsidx }
            slots := h.slots + extra }
          ((t.updMe fun _ => h).enqueue s.me.pc c (.convoy ms) s.me).vectorGo

/-- A vector instruction at the PC. -/
def State.vector (s : State) (o : VOp) : State := s.vectorAt o o.word 1

/-- A prefix with the word after it (R40, R41, R315). -/
def State.bankPair (s : State) (bop : Nat) (a : BitVec 5) : State :=
  let w : BitVec 32 := (Fields.r 0 0 a (BitVec.ofNat 5 bop) 0x5F).pack
  match s.readPair s.me w bop a with
  | .error none => s.stall .delivery
  | .error (some (c, val, true)) => s.trapFetch c val
  | .error (some (c, val, false)) => s.trap c val
  | .ok (o, second, t) => t.vectorAt o second 2

/-! ### Events -/

/-- A member that reads more than the elements of its own group: all of an instruction that acts at once, and the blocks of a
scaled conversion (R198). -/
def VOpc.wide (o : VOpc) : Bool := o.whole || o == .cvts

/-- Whether member k of an item may issue its next group: each member before it has issued as far, or to its end where
more is read (R172). Nothing issues behind a member whose check mismatches: it would be squashed (R185). -/
def VItem.mayIssue (i : VItem) (k : Nat) : Bool :=
  match i.members[k]? with
  | none => false
  | some m => (i.members.take k).all fun p =>
      p.done || (p.chk.isNone && !m.op.op.wide && m.next + (if m.op.op.isMem then 128 else m.op.groupSize i.ctx) ≤ p.next)

/-- CONVOY_ISSUE (R172): the members of the convoy whose turn it is issue their groups, to the end or until one waits. -/
def execConvoyIssue (s : State) : Result :=
  match s.me.nextItem with
  | some i => .next (s.runMembers i.id i.members.length).closeWindows
  | none => .next s

/-- ELEMENT_GROUP_ISSUE (R168, R172): member k of the convoy whose turn it is issues its next group. -/
def execElementGroupIssue (k : Nat) (s : State) : Result :=
  match s.me.nextItem with
  | some i =>
    if i.mayIssue k && !((i.members[k]?).any fun m => m.op.op.isMem) &&
        (s.core.checkErr != some true || (i.members.take k).all (·.done)) then
      .next (s.memberStep i.id k).closeWindows else .next s
  | none => .next s

/-- VECTOR_WINDOW (R226): member k, a memory access, forms its next window. The members before it first complete. -/
def execVectorWindow (k : Nat) (s : State) : Result :=
  match s.me.nextItem with
  | some i =>
    if (i.members[k]?).any fun m => m.op.op.isMem then
      let t := s.runMembers i.id k
      if (List.range k).all fun j => (t.me.member i.id j).any (·.2.done) then .next (t.memberStep i.id k).closeWindows else .next t
    else .next s
  | none => .next s

/-- The issued accesses of the vector queue, each with its item and member. -/
def Hart.issued (h : Hart) : List (Nat × Nat × Access) :=
  h.vq.flatMap fun i => (List.range i.members.length).flatMap fun j => (((i.members[j]?).map (·.pend)).getD []).map fun a => (i.id, j, a)

/-- Two accesses of one instruction whose order is fixed: those to a common byte perform in ascending element (R225, R316, R333),
and so do a VAMO's in one lane, so that an error leaves none above it in its lane performed (R229, R230, R333; DEDUCED, log
entry 91). -/
def performsFirst (lanes : Nat) (x y : Nat × Nat × Access) : Bool :=
  x.1 == y.1 && x.2.1 == y.2.1 &&
  (overlap x.2.2.key x.2.2.bytes y.2.2.key y.2.2.bytes ||
   match x.2.2.kind, y.2.2.kind with
   | .amo .., .amo .. => x.2.2.elem % lanes == y.2.2.elem % lanes
   | _, _ => false)

/-- Place k among the hart's issued accesses performs, or the access of its instruction whose turn comes before it; or it meets
an error (R230). -/
def State.performPending (s : State) (k : Nat) : State :=
  let all := s.me.issued
  let lanes := ((all[k]?).bind fun x => (s.me.vq.find? (·.id = x.1)).map (·.ctx.lanes)).getD 0
  match all[dueFirst (performsFirst lanes) all k k]? with
  | none => s
  | some (id, j, a) =>
    if s.errorAt a then
      match s.returnError (· < id) with
      | some (i, n) => s.returnTrap i n
      | none => s.returnTrap id j
    else ((s.performAccess id a).updMember id j fun m => { m with pend := m.pend.erase a }).closeWindows

/-- A sector is about to be written as one action (R285): of a vector load that has read a part of it, the rest of its issued
window's accesses to it perform first, so that it returns one sector's bytes from one time. -/
def State.sectorLoads (s : State) (sector : Nat) : State :=
  s.me.issued.foldl (fun t x =>
    let a := x.2.2
    let begun := (s.me.member x.1 x.2.1).any fun e =>
      (e.2.pend.filter fun b => b.kind.returns && b.key / 32 = sector).length < e.2.issued.sectors.count sector
    if a.kind.returns && a.key / 32 = sector && begun && !t.errorAt a then
      (t.performAccess x.1 a).updMember x.1 x.2.1 fun m => { m with pend := m.pend.erase a }
    else t) s

/-- The same for every hart of the package. -/
def State.sectorRead (s : State) (sector : Nat) : State :=
  let waiting := s.others.filter fun e => e.2.vq.any fun i => i.members.any fun m => m.pend.any fun a => a.key / 32 = sector
  waiting.foldl (fun t e => ((t.switchTo e.1).sectorLoads sector).switchTo s.cur) (s.sectorLoads sector)

/-- BANK_OPERATION (R316): an element of the oldest store pair performs at its home. -/
def execBankOperation (s : State) : Result := .next (s.performReturnFree 0 0)

/-- RETURN_FREE_PERFORMED (R319): every write of the oldest return-free operation has performed. -/
def execReturnFreePerformed (s : State) : Result :=
  match s.me.rf with
  | [] => .next s
  | r :: _ => .next (s.finishElements r)

end Sys2Proof.Machine
end

