-- ==== Sys2Proof/Machine/Stop.lean ====
section
/-! DEFINITION. Stopping a hart for an interrupt, a halt or a pre-emption (R174, R205, R270, R299, R359, R374), and the
deadlocks of queue registers and tokens (spec/04_scalar.md, R107; spec/12_sync.md, R339). -/

namespace Sys2Proof.Machine

/-- The queue move at the head of the vector queue goes on to the end of its element group, unless it waits: between two
entries it is stopped only while it waits (R174, R205). -/
def State.finishGroup (fuel : Nat) (s : State) : State :=
  match fuel, s.me.vq with
  | fuel + 1, { id, ctx, work := .convoy [m], .. } :: _ =>
    if (m.op.op = .mvVQ ∨ m.op.op = .mvQV) ∧ m.begun ∧ !m.done ∧ m.next % m.op.groupSize ctx ≠ 0 ∧ !s.me.moveWaits m.op then
      (s.memberStep id 0).closeWindows.finishGroup fuel
    else s
  | _, _ => s

/-- Where the issued window of a memory member can be cut: it ends at a boundary of element groups with nothing behind it performed,
and no later member of its convoy has gone beyond it. `left` are its accesses that have not performed. Contributions that have
been gathered are not cut. -/
def Member.cuts (m : Member) (c : VCtx) (later : List Member) (left : List Access) : List Nat :=
  if !m.op.op.isMem || m.op.op.major == 0x4C then []
  else
    let e := m.op.groupSize c
    let groups := (List.range (m.next / e + 1)).map (· * e)
    groups.filter fun g => decide (m.issued.first < g) && decide (g < m.next) && later.all (·.next ≤ g) &&
      m.issued.elems.all fun i => i < g || (left.filter (·.elem = i)).length == m.issued.elems.count i

/-- A member whose issued window ends at a boundary: what lies behind it has not issued (R174, R231). A notify store writes no
progress for what it has cut (R234). -/
def Member.cutAt (m : Member) (g : Nat) : Member :=
  { m with pend := m.pend.filter (·.elem < g), next := g, lanes := m.issued.lanes, done := false
           nfy := m.nfy.map fun n => { n with last := max n.last g } }

/-- The first member of an item that has not retired, with its place. -/
def VItem.oldestMember (i : VItem) : Option (Nat × Member) := findIdx (fun m : Member => !(m.done && m.pend.isEmpty)) i.members

/-- The same of the oldest item of the hart. -/
def Hart.oldestMember (h : Hart) : Option (VItem × Nat × Member) :=
  h.vq.head?.bind fun i => i.oldestMember.map fun e => (i, e.1, e.2)

/-- The last vector instruction that has begun, by its first member that has not issued or performed whole; what is before it has
issued all its groups. The elements of a store pair wait among the return-free operations. -/
def Hart.lastBegun (h : Hart) : Option (VItem × Nat × Member) :=
  match (h.vq.filter fun i => i.members.any (·.begun)).getLast? with
  | none => none
  | some i =>
    (findIdx (fun m : Member => !m.done || !m.pend.isEmpty || (m.op.returnFree && h.rf.any fun r => r.id = i.id)) i.members).map
      fun e => (i, e.1, e.2)

/-- Of the window of the last vector instruction to begin, the element groups up to a point of free choice have issued when the
hart stops, in a window that has not performed whole (R174, R231). -/
def State.cutWindow (s : State) : State :=
  match s.me.lastBegun with
  | none => s
  | some (i, k, m) =>
    let left := if m.op.returnFree then (s.me.rf.filter (·.id = i.id)).flatMap (·.elems) else m.pend
    match m.cuts i.ctx (i.members.drop (k + 1)) left with
    | [] => s
    | l =>
      match l[s.pick 0x174 (l.length + 1)]? with
      | none => s.bump
      | some g =>
        ((s.updMember i.id k fun m => m.cutAt g).updMe fun h =>
          { h with rf := if m.op.returnFree then
                           h.rf.map fun r => if r.id = i.id then { r with elems := r.elems.filter (·.elem < g), word := none } else r
                         else h.rf }).bump

/-- An instruction whose check mismatches has issued groups: it is checked before it can stop (R184, R185). -/
def State.checkOpen (s : State) : Option State :=
  match s.me.oldestMember with
  | some (i, k, m) => m.chk.map fun x => s.laneCheck i.id k i m (s.me.checkedBy i m x.1)
  | none => none

/-- The hart stops: vector groups that have issued complete, what is queued and younger is discarded, and the thing is
due at the resumable position; unless what completes meets an error, whose trap goes first (R230). A wfe that waits is left
complete, with the event bit clear (R414). -/
def State.stopFor (s : State) (mk : Position → Due) : State :=
  let u := (s.finishGroup 256).cutWindow
  let t := u.settleItems fun _ => true
  if (u.returnError fun _ => true).isSome then t
  else
  match t.me.oldestOpen with
  | some id => (t.rollbackTo id).post (mk (t.me.openPosition id))
  | none => (if t.me.wait = .event then t.updMe fun h => { h with eventBit := false } else t).post (mk t.me.position)

/-- What is due is the trap of the oldest instruction, or a stop already begun: nothing older is open. -/
def Hart.dueFinal (h : Hart) : Bool := h.due.isSome && h.oldestOpen.isNone

/-- A halt asked for, or else an interrupt, is begun where the hart may be stopped. It gives way to a trap of the oldest
instruction, and discards one of a younger instruction (R359, R374). -/
def State.tryStop (s : State) : State :=
  if s.me.task.isNone ∨ s.me.halted ∨ s.me.dueFinal then s
  else if s.me.haltReq ∨ s.me.mustLeave ∨ s.me.takeable.isSome then
    match s.checkOpen with
    | some t => t
    | none =>
      if s.me.haltReq ∨ s.me.mustLeave then s.stopFor .halt
      else
        match s.me.takeable with
        | some code => s.stopFor (.interrupt code)
        | none => s
  else s

/-! ### Deadlocks -/

/-- The vector unit's move at the head of its queue waits for an entry or for room of a q register (R106, R107). -/
def Hart.vectorBlockedOnQueue (h : Hart) : Bool :=
  match h.vq with
  | { work := .convoy [m], ctx, .. } :: _ =>
    decide (m.op.op = .mvVQ ∨ m.op.op = .mvQV) && !m.done && decide (m.next < ctx.vl) && h.moveWaits m.op
  | _ => false

/-- A command that waits at start for a token or a place (R338). -/
def Hart.waitsToken (h : Hart) (c : ECmd) : Bool := !c.started && !h.hasTokens c

/-- The scalar stream is stalled on a queue instruction, or on a drain that waits for an engine queue; a trap that waits for
older work is one (R107). -/
def Hart.stalledOnQueue (h : Hart) : Bool :=
  match h.wait with
  | .queueEmpty q => (h.queue q).isEmpty
  | .queueFull q => 16 ≤ (h.queue q).length
  | .drain => !h.quiet
  | _ => h.due.isSome && !h.quiet

/-- The scalar stream is stalled on a token instruction. -/
def Hart.stalledOnToken (h : Hart) : Bool :=
  match h.wait with
  | .tokenEmpty k => (h.tokens k).count = 0
  | .tokenFull k => 8 ≤ (h.tokens k).count + (h.tokens k).reserved
  | _ => false

/-- The head of the vector queue is held by an engine command that waits for a token: it is stuck with that command (log entry
77). -/
def Hart.vectorHeld (h : Hart) : Bool :=
  match h.vq with
  | i :: _ =>
    (h.itemHeld i || match i.work with | .cfg .. => h.storeBefore i.id | _ => false) &&
    (h.lq ++ h.xq).any fun c => c.id < i.id && h.waitsToken c
  | [] => false

/-- Nothing in the vector unit can still move: its queue is empty, or its head waits for a q register or behind a command that
waits for a token. -/
def Hart.vectorStuck (h : Hart) : Bool := h.vq.isEmpty || h.vectorBlockedOnQueue || h.vectorHeld

/-- Queue deadlock (R107): the scalar stream is stalled, the vector unit cannot move, and no engine command is there
that could end it. -/
def Hart.queueDeadlock (h : Hart) : Bool :=
  h.stalledOnQueue && h.vectorStuck && h.lq.isEmpty && h.xq.isEmpty

/-- An empty queue, or one whose head waits at start for a token or a place. -/
def Hart.headWaits (h : Hart) (l : List ECmd) : Bool :=
  match l with
  | [] => true
  | c :: _ => h.waitsToken c

/-- Token deadlock (R339). -/
def Hart.tokenDeadlock (h : Hart) : Bool :=
  (h.stalledOnQueue || h.stalledOnToken) && h.vectorStuck && h.headWaits h.lq && h.headWaits h.xq &&
  (h.stalledOnToken || (h.lq ++ h.xq).any h.waitsToken) && !((h.lq ++ h.xq).any (·.started))

/-- The trap of a deadlock, at the oldest blocked instruction: a queued one, or the one at the PC (R107, R339). -/
def State.deadlockTrap (s : State) (c : Cause) : State :=
  match s.me.oldestOpen with
  | some id => (s.rollbackTo id).post (.trap { cause := c, val := 0, pos := s.me.openPosition id })
  | none => s.post (.trap { cause := c, val := 0, pos := s.me.position })

/-- QUEUE_DEADLOCK (R107). -/
def execQueueDeadlock (s : State) : Result := .next (if s.me.queueDeadlock then s.deadlockTrap .queueDeadlock else s)

/-- TOKEN_DEADLOCK (R339). -/
def execTokenDeadlock (s : State) : Result := .next (if s.me.tokenDeadlock then s.deadlockTrap .tokenDeadlock else s)

end Sys2Proof.Machine
end

