-- ==== Sys2Proof/Machine/System.lean ====
section
/-! DEFINITION. System calls, breakpoints, the return from an exception, and the events of traps, interrupts, halts and
the error queues (spec/13_system.md, R357 to R365, R374 to R376). -/

namespace Sys2Proof.Machine

/-- syscall retires and then traps: its position is past it (R358, R361). -/
def execSyscall (s : State) : Result :=
  .next (s.post (.trap { cause := .syscall, val := 0, pos := { pc := s.me.pc + 4 } }))

/-- brk traps without executing, or halts the hart at its PC when BRKH is set (R361, R376). -/
def execBrk (s : State) : Result :=
  if s.me.csr.brkh then .next (s.post (.halt s.here)) else .next (s.trap .brk 0)

/-- The position that an ERET returns to (R361, R177). -/
def Csrs.returnPosition (c : Csrs) : Position := { pc := c.tpc, eix := c.eix, vsidx := c.vsidx, lanes := c.vpcm }

/-- The hart after an ERET: at the level of PP, with UIE set on a return to user level (R361). -/
def Hart.ereted (h : Hart) : Hart :=
  Hart.resumeAt { h with level := h.csr.pp, csr := { h.csr with uie := if h.csr.pp = .user then true else h.csr.uie } }
    h.csr.returnPosition true

/-! ### Events -/

/-- TRAP_ENTRY (R358): the trap that is due is entered once older instructions have retired. -/
def execTrapEntry (s : State) : Result := .next s.deliverDue

/-- INTERRUPT_ENTRY (R359): a pending enabled interrupt is taken where the hart can be stopped. -/
def execInterruptEntry (s : State) : Result := .next s.tryStop

/-- DOORBELL (R357): the die management core raises interrupt 2 on a hart. -/
def execDoorbell (hart : Nat) (s : State) : Result := .next (s.raiseInterrupt hart 2)

/-- HALT (R374): a halt request drains the hart and records its halt position. A hart without a task is only held. -/
def execHalt (hart : Nat) (s : State) : Result :=
  if (s.hart hart).task.isNone then .next (s.updHart hart fun h => { h with halted := true })
  else .next ((s.updAsync hart fun h => { h with haltReq := true }).switchTo hart).tryStop

/-- RESUME (R375): a halted hart continues from its halt position, which is then cleared. -/
def execResume (hart : Nat) (s : State) : Result :=
  .next (s.updHart hart fun h =>
    if h.halted then
      let h' := { h with halted := false, haltPos := {}, haltReq := false }
      if h.task.isSome then h'.resumeAt h.haltPos false else h'
    else h)

/-- REPLAY_QUEUE_REISSUE (R365): data at a key returned with an uncorrectable error. A transient error is gone on the
re-issue and is counted by the core; a persistent one stays and raises the poisoned-data trap of the access that meets
it. -/
def execReplayQueueReissue (key : Nat) (s : State) : Result := .next (s.clearTransient key 1)

/-- RECORD_REMOVAL (R441, R362): a management write removes a fault record. -/
def execRecordRemoval (die index : Nat) (s : State) : Result :=
  .next (s.updDie die fun d => { d with frq := d.frq.filter fun e => e.1 ≠ index })

/-- A hart's context image, as ctxsave would write it, with bytes of it replaced, loaded again (R441): no quad changes, nor what
the image's header gives, which cannot be written; and what an image holds in part stays whole where its bytes are not
replaced. -/
def Hart.patchImage (h : Hart) (off : Nat) (l : List Nat) : Hart :=
  let b := imageBytes h h.csr.returnPosition
  let n := h.loadImage (b.take off ++ l ++ b.drop (off + l.length)) h.csr.quads h.csr.sample
  let hit (o k : Nat) : Bool := overlap off l.length o k
  let queues := hit 968 8 || hit 1024 1024
  { n with
    task := h.task
    changed := h.changed
    bounds := if hit 224 8 then n.bounds else h.bounds
    barWait := if hit 304 8 then n.barWait else h.barWait
    tok := if hit 960 8 then n.tok else h.tok
    q := if queues then n.q else h.q
    debt := if queues then n.debt else h.debt }

/-- CONTEXT_IMAGE_WRITE (R441): a management write into a halted hart's context image, from byte 64 on, sets the state
as ctxrest would load it. -/
def execContextImageWrite (hart off : Nat) (l : List Nat) (s : State) : Result :=
  .next (if (s.hart hart).halted ∧ 64 ≤ off ∧ off + l.length ≤ imageBody (s.hart hart).lanes then
    s.updHart hart fun h => h.patchImage off l else s)

end Sys2Proof.Machine
end

