-- ==== Sys2Proof/Machine/Sync.lean ====
section
/-! DEFINITION. Fences, barriers, the iteration ring and progress words (spec/12_sync.md, R336 to R344). -/

namespace Sys2Proof.Machine

/-- The word of a SYNC instruction other than fence: its op above a scope field of 0 (R57). -/
def syncVal (op : BitVec 7) (b a d : BitVec 5) : Word := fieldsVal (.r (op ++ 0#3) b a d 0x72)

/-- fence.scope (R336) waits until every earlier access of the hart has performed, at package and domain scope
return-free operations as well. -/
def execFence (scope : Scope) (s : State) : Result :=
  .next (s.release (max 1 scope.code.toNat) State.next)

/-- A queued vector instruction is a store pair of a bank operation that has not retired. -/
def VItem.bankStore (i : VItem) : Bool :=
  match i.work with
  | .convoy l => l.any fun m => m.op.bank.isSome && m.op.op.isStore
  | _ => false

/-- nmfence (R337) waits for the hart's return-free operations. -/
def execNmfence (s : State) : Result :=
  if (s.me.xq.any fun c => c.op = .nma ∨ c.op = .nmx) || s.me.vq.any VItem.bankStore || !s.me.rf.isEmpty then .next (s.stall .drain)
  else .next s.next

/-! ### Barriers -/

/-- Whether a group holds the task of a linear index (R69). -/
def Group.holds (g : Group) (id index : Nat) : Bool :=
  match g.kind with
  | 0 => true
  | 1 => g.a ≤ index && index ≤ g.b && (index - g.a) % g.c == 0
  | _ => index / g.a == id - g.first

/-- A group of the acting hart's launch to which its task belongs, with the launch's number. -/
def State.myGroup (s : State) (id : Nat) : Option (Nat × Group) :=
  match s.me.task with
  | none => none
  | some t =>
    match mapGet s.launches t.launch with
    | none => none
    | some l =>
      match mapGet l.groups id with
      | none => none
      | some g => if g.holds id t.index then some (t.launch, g) else none

/-- A launch changed. -/
def State.updLaunch (s : State) (n : Nat) (f : Launch → Launch) : State :=
  match mapGet s.launches n with
  | some l => { s with launches := mapSet s.launches n (f l) }
  | none => s

/-- A barrier record changed. -/
def State.updGroup (s : State) (launch id : Nat) (f : Group → Group) : State :=
  s.updLaunch launch fun l =>
    match mapGet l.groups id with
    | some g => { l with groups := mapSet l.groups id (f g) }
    | none => l

/-- A phase completes when every member that has not executed texit has arrived and the counter reads 0 (R340). -/
def Group.settle (g : Group) : Group :=
  if 0 < g.arrived ∧ g.members ≤ g.arrived + g.exited ∧ g.pending = 0 then { g with phase := g.phase + 1, arrived := 0 } else g

/-- An arrival at a barrier. -/
def Group.arrive (g : Group) : Group := Group.settle { g with arrived := g.arrived + 1 }

/-- bar (R341): the operand's check, a release at package scope, the arrival, and the wait at the next instruction until
the phase has completed. -/
def execBar (a : BitVec 5) (s : State) : Result :=
  let id := (s.g a).toNat % 256
  match s.myGroup id with
  | none => .next (s.trap .syncOperand (syncVal 2 0 a 0))
  | some (l, g) =>
    .next (s.release 4 fun t =>
      ((t.updGroup l id Group.arrive).updMe fun h => { h with barWait := some (id, g.phase, h.level) }).next)

/-- Whether the phase that the hart waits for has completed (R341). -/
def State.barReleased (s : State) : Bool :=
  match s.me.barWait, s.me.task with
  | some (id, phase, _), some t =>
    match mapGet s.launches t.launch with
    | some l => (match mapGet l.groups id with
      | some g => g.phase != phase
      | none => false)
    | none => false
  | _, _ => false

/-- The hart is held at its level by a barrier whose phase has not completed. -/
def State.barHolds (s : State) : Bool :=
  match s.me.barWait with
  | some (_, _, lvl) => lvl == s.me.level && !s.barReleased
  | none => false

/-- barexp (R342) waits until every earlier instruction has retired and adds to the pending-byte counter. -/
def execBarexp (a b : BitVec 5) (s : State) : Result :=
  let id := (s.g a).toNat % 256
  match s.myGroup id with
  | none => .next (s.trap .syncOperand (syncVal 3 b a 0))
  | some (l, _) =>
    if !s.me.quiet then .next (s.stall .drain)
    else
      .next (s.updGroup l id fun g => Group.settle { g with pending := g.pending + (s.g b).setWidth 32 }).next

/-- Counted bytes leave a group's pending-byte counter (R304). -/
def State.subtractPending (s : State) (launch id n : Nat) : State :=
  s.updGroup launch id fun g => Group.settle { g with pending := g.pending - BitVec.ofNat 32 n }

/-- BARRIER_PHASE_COMPLETE (R340): a phase whose conditions hold completes; a waiting acting hart whose phase has
completed goes on with an acquire. -/
def execBarrierPhaseComplete (launch id : Nat) (s : State) : Result :=
  let t := s.updGroup launch id Group.settle
  .next (if t.barReleased then t.updMe fun h => { h with barWait := none } else t)

/-! ### The iteration ring -/

/-- The entry of a pair in a die's ring (R343). -/
def Die.ringEntry (d : Die) (launch group : Nat) : Option RingEntry :=
  d.ring.find? fun e => e.launch = launch && e.group = group

/-- The entry of a pair, allocated where the ring has none; no answer where all 64 are in use. -/
def Die.allocate (d : Die) (launch group : Nat) : Option (Die × RingEntry) :=
  match d.ringEntry launch group with
  | some e => some (d, e)
  | none =>
    if 64 ≤ d.ring.length then none
    else some ({ d with ring := d.ring ++ [{ launch, group }] }, { launch, group })

/-- The frontier moves past posted iterations. -/
def RingEntry.slide (fuel : Nat) (e : RingEntry) : RingEntry :=
  match fuel with
  | 0 => e
  | fuel + 1 => if e.map.getLsbD 0 then RingEntry.slide fuel { e with frontier := e.frontier + 1, map := e.map >>> 1 } else e

/-- An iteration posted (R343). -/
def RingEntry.post (e : RingEntry) (n : Nat) : RingEntry :=
  if n < e.frontier then e
  else RingEntry.slide 64 { e with map := e.map ||| BitVec.ofNat 64 (2 ^ (n - e.frontier)) }

/-- An entry of a ring replaced. -/
def Die.setRing (d : Die) (e : RingEntry) : Die :=
  { d with ring := d.ring.map fun x => if x.launch = e.launch ∧ x.group = e.group then e else x }

/-- The checks of itpost and itwait, the feature first (R377, R378), then a continuation with the entry and the iteration. An
entry is allocated once nothing can discard the instruction any more (R121). -/
def State.ringOp (s : State) (fn : BitVec 7) (a : BitVec 5) (k : State → RingEntry → Nat → State) : State :=
  let id := (s.g a).toNat % 256
  if !s.core.fmask.getLsbD 14 then s.trap .featureAbsent (syncVal fn 0 a 0) else
  match s.myGroup id with
  | none => s.trap .syncOperand (syncVal fn 0 a 0)
  | some (l, _) =>
    match (s.dieAt (dieOf s.cur)).allocate l id with
    | none => s.trap .ringFull (BitVec.ofNat 64 id)
    | some (d, e) => k (if s.me.speculative then s else s.updDie (dieOf s.cur) fun _ => d) e ((s.g a).toNat / 256)

/-- itpost (R343): a release at die scope, a wait for room, and the post. -/
def execItpost (a : BitVec 5) (s : State) : Result :=
  .next (s.ringOp 4 a fun t e n =>
    t.release 3 fun u =>
      if n < e.frontier + 64 then (u.updDie (dieOf s.cur) (·.setRing (e.post n))).next else u.stall .ring)

/-- itwait (R343): a wait until the frontier has passed the iteration, then an acquire at die scope. -/
def execItwait (a : BitVec 5) (s : State) : Result :=
  .next (s.ringOp 5 a fun t e n => if n < e.frontier then t.next else t.stall .ring)

/-! ### Progress words -/

/-- pwait (R344): a scalar load of the word, repeated until its distance from gs2 is not negative, then an acquire. -/
def execPwait (a b : BitVec 5) (s : State) : Result :=
  let va := s.g a
  if 6 ≤ s.me.csr.escope.toNat then .next (s.trap .illegalScope (syncVal 6 b a 0))
  else
    match s.scalarRead 8 .load va with
    | .error c => .next (s.trap c (c.memVal va (syncVal 6 b a 0)))
    | .ok (_, x, t) => if (BitVec.ofNat 64 x - s.g b).msb then .next (t.stall .progress) else .next t.next

/-- PROGRESS_WORD_RESEND (R344): the home has sent a watched word again, and the pwait evaluates it anew. -/
def execProgressWordResend (s : State) : Result :=
  .next (if s.me.wait = .progress then s.updMe fun h => { h with wait := .none } else s)

end Sys2Proof.Machine
end

