-- ==== Sys2Proof/Machine/Launch.lean ====
section
/-! DEFINITION. Launches: records, acceptance, prerequisites, the image and its groups, and completion (spec/14_tasks.md,
R382 to R390; spec/02_encoding.md, R68, R69). -/

namespace Sys2Proof.Machine

/-! ### Records (R382) -/

/-- The launch id of a record. -/
def recId (l : List Nat) : Nat := bytesAt l 8 8
/-- The priority. -/
def recPriority (l : List Nat) : Nat := bytesAt l 6 1 % 8
/-- NR: not reissuable. -/
def recNR (l : List Nat) : Bool := bit (bytesAt l 7 1) 0
/-- CDEV: the completion address is a device virtual address. -/
def recCDEV (l : List Nat) : Bool := bit (bytesAt l 7 1) 1
/-- RUNF: start even if a prerequisite failed. -/
def recRUNF (l : List Nat) : Bool := bit (bytesAt l 7 1) 2
/-- The image address. -/
def recImage (l : List Nat) : Nat := bytesAt l 16 8
/-- The extents X, Y and Z. -/
def recExtent (l : List Nat) (k : Nat) : Nat := bytesAt l (24 + 4 * k) 4
/-- The number of tasks. -/
def recTasks (l : List Nat) : Nat := recExtent l 0 * recExtent l 1 * recExtent l 2
/-- The ASID. -/
def recAsid (l : List Nat) : Nat := bytesAt l 36 2 % 512
/-- The throttle-lock group. -/
def recLockGroup (l : List Nat) : Nat := bytesAt l 38 1
/-- TL: throttle lock enabled. -/
def recTL (l : List Nat) : Bool := bit (bytesAt l 39 1) 0
/-- The lock key. -/
def recLockKey (l : List Nat) : Nat := bytesAt l 40 4
/-- The prerequisite ids that are named. -/
def recPrereqs (l : List Nat) : List Nat := ((List.range 4).map fun k => bytesAt l (48 + 8 * k) 8).filter (· ≠ 0)
/-- The completion address. -/
def recCompletion (l : List Nat) : Nat := bytesAt l 80 8
/-- The argument. -/
def recArgument (l : List Nat) : Nat := bytesAt l 88 8
/-- The save area. -/
def recSaveArea (l : List Nat) : Nat := bytesAt l 96 8
/-- The save slots. -/
def recSlots (l : List Nat) : Nat := bytesAt l 104 4
/-- A die stands in the mask. -/
def recDie (l : List Nat) (die : Nat) : Bool := let m := bytesAt l 108 2; m == 0 || bit m die

/-- The number of tasks of a launch. -/
def Launch.tasks (l : Launch) : Nat := recTasks l.record

/-- Every field of a record meets its limits (R382), but for the lock group, which only the image can tell. -/
def State.recordGood (s : State) (l : List Nat) : Bool :=
  l.length == 128 && bytesAt l 0 4 == 0x4F4D4C4E && bytesAt l 4 2 == 1 && bytesAt l 6 1 < 8 && bytesAt l 7 1 < 8 &&
  recId l != 0 && s.launches.all (fun e => recId e.2.record != recId l) && recImage l % 65536 == 0 &&
  (List.range 3).all (fun k => recExtent l k != 0) && recTasks l ≤ 2 ^ 32 && bytesAt l 36 2 < 512 &&
  ((mapGet s.spaces (recAsid l)).any (·.configured)) && bytesAt l 39 1 < 2 && bytesAt l 44 4 == 0 &&
  (recPrereqs l).all (fun x => x != recId l) && recCompletion l % 64 == 0 && recSaveArea l % 65536 == 0 &&
  recSlots l ≤ 65536 && bytesAt l 108 2 < 512 && (l.drop 110).all (· == 0)

/-- The completion record of a launch id (R384). -/
def completionBytes (id status : Nat) (l : Launch) : List Nat :=
  leBytes 8 id ++ leBytes 1 status ++ leBytes 7 0 ++ leBytes 8 l.completed ++ leBytes 8 l.aborted ++ leBytes 8 l.lost ++
    leBytes 8 l.reissued ++ leBytes 8 l.wear ++ leBytes 8 l.energy

/-! ### Acceptance (R383, R387) -/

/-- The lowest number that no live launch holds. -/
def freeNumber (l : AMap Launch) (fuel n : Nat) : Nat :=
  match fuel with
  | 0 => n
  | fuel + 1 => if (mapGet l n).isSome then freeNumber l fuel (n + 1) else n

/-- What becomes of a prerequisite id at acceptance: awaited, or its remembered status, 0 where it is unknown. -/
def State.prereq (s : State) (id : Nat) : Option Nat :=
  if s.launches.any fun e => recId e.2.record == id then none
  else some (((s.recent.find? fun e => e.1 == id).map (·.2)).getD 0)

/-- A record offered to the master: the launch number it is given, or the status with which it is refused. -/
def State.accept (s : State) (l : List Nat) (session : Option Nat) (issuer : Option (Nat × TaskId)) : State × Except Nat Nat :=
  if !s.recordGood l then (s, .error 1)
  else if 4096 ≤ s.launches.length then (s, .error 4)
  else
    let n := freeNumber s.launches 4096 0
    let pre := recPrereqs l
    let launch : Launch :=
      { record := l, order := s.accepted, session, issuer
        waits := pre.filter fun x => (s.prereq x).isNone
        blocked := pre.any fun x => match s.prereq x with | some st => st != 0 | none => false }
    ({ s with launches := mapSet s.launches n launch, accepted := s.accepted + 1 }, .ok n)

/-- LAUNCH_ACCEPT (R383): the master takes up the oldest record that the host has sent. A refused one draws a type-2
message with its status. -/
def execLaunchAccept (s : State) : Result :=
  match s.pkg.inbox with
  | [] => .next s
  | (k, l) :: rest =>
    let t := { s with pkg := { s.pkg with inbox := rest } }
    match t.accept l (some k) none with
    | (u, .ok _) => .next u
    | (u, .error st) => .next (u.sendOn k 2 (completionBytes (recId l) st { record := [], order := 0 }))

/-! ### Memory as the distributors and the host reach it -/

/-- A core number that no core has: walks of the distributors and of the host port use no core's caches. -/
def noCore : Nat := 576

/-- The memory key of an address in an address space, for a distributor or the host: at supervisor level, by a walk of the
tables (R386, R389, R397, R418). None where the access faults, or where it names TCM or scratchpad. -/
def State.spaceKey (s : State) (asid : Nat) (k : Kind) (va : Nat) : Option Nat :=
  match mapGet s.spaces asid with
  | none => none
  | some e =>
    match s.translate noCore [] (BitVec.ofNat 9 asid) e.ptroot .supervisor true k (va % 2 ^ 64) with
    | .ok (key, _) => if key < 2 ^ 56 then some key else none
    | .error _ => none

/-- The keys of a range, part by part; none where some part faults. -/
def State.spaceParts (s : State) (asid : Nat) (k : Kind) (va n : Nat) : Option (List (Nat × Nat)) :=
  (pageParts (n / 65536 + 2) va n).foldl (fun acc p =>
    match acc, s.spaceKey asid k p.1 with
    | some l, some key => some (l ++ [(key, p.2)])
    | _, _ => none) (some [])

/-- Bytes of an address space; none where a part faults or holds an error that persists. -/
def State.spaceRead (s : State) (asid va n : Nat) : Option (List Nat) :=
  match s.spaceParts asid .load va n with
  | none => none
  | some l =>
    if l.any fun p => s.poison.any fun q => q.persist && q.hits p.1 p.2 then none
    else some (l.flatMap fun p => leBytes p.2 (s.read p.1 p.2))

/-- Bytes stored part by part. -/
def State.storeParts (s : State) (l : List (Nat × Nat)) (b : List Nat) : State :=
  (l.foldl (fun (acc : State × List Nat) p =>
    (acc.1.store p.1 p.2 (ofBytes (acc.2.take p.2)), acc.2.drop p.2)) (s, b)).1

/-- Bytes written to an address space; none where a part faults, and nothing is then written. -/
def State.spaceWrite (s : State) (asid va : Nat) (b : List Nat) : Option State :=
  (s.spaceParts asid .store va b.length).map fun l => s.storeParts l b

/-! ### The image (R68) -/

/-- The end of the name: the offset after its NUL, which lies within 64 bytes. -/
def State.nameEnd (s : State) (asid image : Nat) (fuel off : Nat) : Option Nat :=
  match fuel with
  | 0 => none
  | fuel + 1 =>
    match s.spaceRead asid (image + off) 1 with
    | some [0] => some (off + 1)
    | some _ => s.nameEnd asid image fuel (off + 1)
    | none => none

/-- What the master keeps of an image header. -/
structure Header where
  features : Nat
  lanes : Nat
  laneMin : Nat
  groups : Nat
  entry : Nat
  groupOff : Nat
  deriving DecidableEq, Repr

/-- The header of an image, where it passes R68: its fields have the values that the table gives them, and nothing
overlaps. -/
def State.header (s : State) (asid image : Nat) : Option Header :=
  match s.spaceRead asid image 64 with
  | none => none
  | some h =>
    let req := bytesAt h 16 1
    let min := bytesAt h 17 1
    let n := bytesAt h 18 2
    let entry := bytesAt h 20 4
    let size := bytesAt h 28 4
    let dat := bytesAt h 32 4
    let dsize := bytesAt h 36 4
    let grp := bytesAt h 40 4
    let name := bytesAt h 44 4
    if bytesAt h 0 4 ≠ 0x4F4D4739 ∨ bytesAt h 4 2 ≠ 1 ∨ bytesAt h 6 2 ≠ 64 ∨ (h.drop 48).any (· ≠ 0) ∨ req < 1 ∨ 4 < req ∨ min < 1 ∨
        req < min ∨ 256 < n ∨ bytesAt h 24 4 ≠ 64 ∨ entry % 4 ≠ 0 ∨ entry < 64 ∨ 64 + size ≤ entry ∨ name ≠ 64 + size then none
    else
      match s.nameEnd asid image 64 name with
      | none => none
      | some top =>
        let top' := if n = 0 then top else grp + 16 * n
        if (if n = 0 then grp ≠ 0 else grp % 16 ≠ 0 ∨ grp < top) ∨
            (if dsize = 0 then dat ≠ 0 else dat % 65536 ≠ 0 ∨ dat < top') then none
        else some { features := bytesAt h 8 8, lanes := req, laneMin := min, groups := n, entry, groupOff := grp }

/-! ### Groups (R69, R390) -/

/-- The numbers lo, lo + step, … up to hi. -/
structure Progression where
  lo : Nat
  step : Nat
  hi : Nat
  deriving DecidableEq, Repr

/-- The coefficient s with r0 ≡ s·a in the extended Euclidean division of a by r1. -/
def bezout (fuel : Nat) (r0 r1 s0 s1 : Int) : Int :=
  match fuel with
  | 0 => s0
  | fuel + 1 => if r1 = 0 then s0 else bezout fuel r1 (r0 % r1) s1 (s0 - r0 / r1 * s1)

/-- What two progressions have in common. -/
def Progression.meet (p q : Progression) : Option Progression :=
  let g := Nat.gcd p.step q.step
  let d : Int := (q.lo : Int) - p.lo
  if d % g ≠ 0 then none
  else
    let m : Int := q.step / g
    let t := (d / g * bezout 64 (p.step / g) m 1 0) % m
    let step := p.step / g * q.step
    let x := p.lo + p.step * t.toNat
    let low := max p.lo q.lo
    let lo := if low ≤ x then x - (x - low) / step * step else x + (low - x + step - 1) / step * step
    let hi := min p.hi q.hi
    if hi < lo then none else some { lo, step, hi }

/-- Some number lies in `cur` and in k more of the progressions. -/
def overlaps (k : Nat) (cur : Progression) : List Progression → Bool
  | [] => k == 0
  | p :: rest =>
    k == 0 || (match cur.meet p with
      | some c => overlaps (k - 1) c rest
      | none => false) || overlaps k cur rest

/-- A group specification (R69). -/
structure Spec where
  id : Nat
  kind : Nat
  a : Nat
  b : Nat
  c : Nat
  deriving DecidableEq, Repr

/-- The table entries that a specification creates for n tasks; none where R69 or R390 refuses it. -/
def Spec.groups (x : Spec) (n : Nat) : Option (List (Nat × Group)) :=
  match x.kind with
  | 0 => some [(x.id, { kind := 0, a := x.a, b := x.b, c := x.c, first := x.id, members := n })]
  | 1 =>
    if x.c = 0 ∨ x.b < x.a ∨ n ≤ x.b then none
    else some [(x.id, { kind := 1, a := x.a, b := x.b, c := x.c, first := x.id, members := (x.b - x.a) / x.c + 1 })]
  | 2 =>
    if x.a = 0 then none
    else
      let k := (n + x.a - 1) / x.a
      if 255 < x.id + k - 1 then none
      else some ((List.range k).map fun j =>
        (x.id + j, { kind := 2, a := x.a, b := x.b, c := x.c, first := x.id, members := min x.a (n - x.a * j) }))
  | _ => none

/-- The group table of the specifications (R390). -/
def groupTable (specs : List Spec) (n : Nat) : Option (AMap Group) :=
  let wide := (specs.filter fun x => x.kind ≠ 1).length
  let ranges := (specs.filter fun x => x.kind = 1).map fun x => ({ lo := x.a, step := max 1 x.c, hi := x.b } : Progression)
  let table := specs.foldl (fun (acc : Option (AMap Group)) x =>
    match acc, x.groups n with
    | some t, some l => if l.any fun e => (mapGet t e.1).isSome then none else some (l.foldl (fun t e => mapSet t e.1 e.2) t)
    | _, _ => none) (some [])
  match table with
  | none => none
  | some t =>
    if 4 < wide || overlaps (5 - wide) { lo := 0, step := 1, hi := n - 1 } ranges then none else some t

/-- The specifications of an image; none where a reserved field is not zero or a read faults. -/
def State.specs (s : State) (asid image : Nat) (h : Header) : Option (List Spec) :=
  match s.spaceRead asid (image + h.groupOff) (16 * h.groups) with
  | none => none
  | some l =>
    (List.range h.groups).foldl (fun (acc : Option (List Spec)) i =>
      let o := 16 * i
      match acc with
      | none => none
      | some t =>
        if bytesAt l (o + 2) 2 ≠ 0 then none
        else some (t ++ [{ id := bytesAt l o 1, kind := bytesAt l (o + 1) 1, a := bytesAt l (o + 4) 4, b := bytesAt l (o + 8) 4,
                           c := bytesAt l (o + 12) 4 }])) (some [])

/-- The words of a group table entry (R390), lowest bits first. -/
def Group.words (g : Group) : List Nat :=
  [g.a % 2 ^ 32 * 2 ^ 32 + g.b % 2 ^ 24 * 256 + g.kind % 256, g.members, g.arrived, g.pending.toNat * 2 ^ 32 + g.phase.toNat]

/-! ### Ready (R387, R389, R385) -/

/-- The present quads of a core. -/
def Core.quadsPresent (c : Core) : Nat := (below 4 c.present).length

/-- Some core of the die mask has the features and the lanes of a launch (R385, code 5). -/
def State.someCore (s : State) (l : Launch) : Bool :=
  (List.range 576).any fun c =>
    let k := s.coreAt c
    recDie l.record (c / 64) && !(s.dieAt (c / 64)).fenced && k.life != .retired &&
    (l.features &&& (2 ^ 64 - 1 - k.fmask.toNat)) == 0 && l.laneMin ≤ k.quadsPresent

/-- The launch with its image read, or the status that the image gives it. -/
def State.readImage (s : State) (l : Launch) : Except Nat Launch :=
  let asid := recAsid l.record
  let image := recImage l.record
  match s.header asid image with
  | none => .error 2
  | some h =>
    match s.specs asid image h with
    | none => .error 2
    | some specs =>
      match groupTable specs l.tasks with
      | none => .error 2
      | some t =>
        let l := { l with entry := h.entry, lanes := h.lanes, laneMin := h.laneMin, features := h.features, groups := t }
        if recTL l.record && (mapGet t (recLockGroup l.record)).isNone then .error 1
        else if s.someCore l then .ok l
        else .error 5

/-- LAUNCH_READY (R387, R389): the last prerequisite has completed. -/
def execLaunchReady (n : Nat) (s : State) : Result :=
  match mapGet s.launches n with
  | none => .next s
  | some l =>
    if l.stage ≠ .accepted ∨ l.waits ≠ [] ∨ s.pkg.electing then .next s
    else if l.blocked && !recRUNF l.record then .next (s.updLaunch n fun l => { l with stage := .ended 3 })
    else
      match s.readImage l with
      | .ok l' => .next (s.updLaunch n fun _ => { l' with stage := .running })
      | .error st => .next (s.updLaunch n fun l => { l with stage := .ended st })

/-! ### Completion (R384 to R387, R422) -/

/-- Every task of a launch has ended. -/
def Launch.over (l : Launch) : Bool :=
  l.tasks ≤ 8 * l.nextBlock && l.again.isEmpty && l.held.isEmpty && l.running.isEmpty && l.saved.isEmpty

/-- The lowest code that applies (R385). -/
def Launch.final (l : Launch) : Nat :=
  let codes := (if l.status = 0 then [] else [l.status]) ++ (if l.lost = 0 then [] else [7]) ++ (if l.aborted = 0 then [] else [8])
  match codes with
  | [] => 0
  | c :: t => t.foldl min c

/-- The status with which a launch may complete now. -/
def Launch.ready (l : Launch) : Option Nat :=
  match l.stage with
  | .ended st => some st
  | .running => if l.over then some l.final else none
  | _ => none

/-- A launch's tasks are in a lock: the one of its key, or its own where the key is 0 (R407). -/
def Lock.holdsLaunch (k : Lock) (n : Nat) (l : Launch) : Bool :=
  recTL l.record && (if recLockKey l.record = 0 then k.key == 0 && k.launch == n else k.key == recLockKey l.record)

/-- The counts of a launch that has started no task are zero already. A launch leaves the live table, its dependants go on,
and, where its id has been written, its issuer's event bit is set (R387, R411, R413). -/
def State.finish (s : State) (n status : Nat) (told : Bool) : State :=
  match mapGet s.launches n with
  | none => s
  | some l =>
    let id := recId l.record
    let rest := (mapErase s.launches n).map fun e =>
      if e.2.waits.contains id then
        (e.1, { e.2 with waits := e.2.waits.filter (· ≠ id), blocked := e.2.blocked || status != 0 })
      else e
    let t := { s with
      launches := rest
      recent := ((id, status) :: s.recent).take 4096
      dies := s.dies.map fun e => (e.1, { e.2 with ring := e.2.ring.filter fun r => r.launch ≠ n })
      locks := s.locks.filter fun k => rest.any fun e => k.holdsLaunch e.1 e.2 }
    match l.issuer with
    | some (h, task) => if told && (t.hart h).task == some task then t.updAsync h Hart.setEvent else t
    | none => t

/-- The record is dropped: a fault record of kind 6 with COND 3 (R386). -/
def State.dropRecord (s : State) (n status : Nat) (l : Launch) : State :=
  ((s.faultRecord s.pkg.master { kind := 6, code := 3, asid := recAsid l.record, addr := BitVec.ofNat 64 (recCompletion l.record) }).1).finish
    n status false

/-- The queue pair bound to a session that can still carry writes. -/
def State.pairOf (s : State) (session : Option Nat) : Option Nat :=
  ((s.pkg.qps.find? fun e => e.2.session == session && session.isSome && !e.2.error).map (·.1))

/-- The device's RDMA WRITE on a queue pair (R422). -/
def State.rdmaOut (s : State) (qp addr : Nat) (l : List Nat) : State := s.transmit (.write qp addr l)

/-- COMPLETION_RECORD_WRITE (R386, R422): every task has ended. With CDEV = 1 the record is written, its id last; with
CDEV = 0 bytes 8 to 63 go to the host, and the id follows once they are acknowledged. -/
def State.writeCompletion (s : State) (n : Nat) : State :=
  match mapGet s.launches n with
  | none => s
  | some l =>
    match l.ready with
    | none => s
    | some st =>
      let b := completionBytes (recId l.record) st l
      if recCDEV l.record then
        match s.spaceParts (recAsid l.record) .store (recCompletion l.record) 64 with
        | none => s.dropRecord n st l
        | some p =>
          match (s.storeParts (p.map fun e => (e.1 + 8, e.2 - 8)) (b.drop 8)).spaceWrite (recAsid l.record) (recCompletion l.record)
              (b.take 8) with
          | some t => t.finish n st true
          | none => s.dropRecord n st l
      else
        match s.pairOf l.session with
        | none => s.dropRecord n st l
        | some qp =>
          let t := (s.rdmaOut qp (recCompletion l.record + 8) (b.drop 8)).updLaunch n fun l => { l with stage := .bodyWritten st qp }
          match l.session with
          | some k => t.sendOn k 2 b
          | none => t

def execCompletionRecordWrite (n : Nat) (s : State) : Result := .next (s.writeCompletion n)

/-- COMPLETION_ID_WRITE (R422): the first write has been acknowledged, and the launch id follows, once the pair's priority is not
paused. -/
def State.writeId (s : State) (n : Nat) : State :=
  match mapGet s.launches n with
  | none => s
  | some l =>
    match l.stage with
    | .bodyWritten st qp =>
      if !s.pkg.hostUp || s.pkg.outbox.any (·.onPair qp) || s.pkg.paused.getLsbD (Outgoing.write qp 0 []).priority then s
      else (s.rdmaOut qp (recCompletion l.record) (leBytes 8 (recId l.record))).finish n st true
    | _ => s

def execCompletionIdWrite (n : Nat) (s : State) : Result := .next (s.writeId n)

/-- QUEUE_PAIR_ERROR (R422): the queue pair goes to the error state, and completion records that it carries are dropped. -/
def execQueuePairError (qp : Nat) (s : State) : Result :=
  match mapGet s.pkg.qps qp with
  | none => .next s
  | some q =>
    let t := { s with pkg := { s.pkg with
      qps := mapSet s.pkg.qps qp { q with error := true }
      outbox := s.pkg.outbox.filter fun o => !o.onPair qp } }
    .next (t.launches.foldl (fun u e =>
      match e.2.stage with
      | .bodyWritten st k => if k = qp then u.dropRecord e.1 st e.2 else u
      | _ => u) t)

end Sys2Proof.Machine
end

