-- ==== Sys2Proof/Machine/Host.lean ====
section
/-! DEFINITION. The host port: RDMA writes, sessions and their messages, the management space, firmware and attestation
(spec/15_boundary.md, R417 to R422, R428, R429, R439 to R441). -/

namespace Sys2Proof.Machine

/-! ### Places of ports (R416) -/

/-- The Uavor port u of a die, by its number in the package; CD4 has none. -/
def uavorPort (die u : Nat) : Option Nat := if die = 4 ∨ 8 < die then none else some (4 * (if die < 4 then die else die - 1) + u)

/-- The CXL port of a die: port k on CD(2k + 1). -/
def cxlPort (die : Nat) : Option Nat := if die % 2 = 1 ∧ die < 8 then some (die / 2) else none

/-- The code of a link's state (R441). -/
def LinkState.code : LinkState → Nat
  | .down => 0 | .x64 => 1 | .x32 => 2 | .training => 3

/-! ### Reading the management space (R440, R441) -/

/-- The package status word (R440). -/
def State.statusWord (s : State) : Nat :=
  let hot := (List.range 9).foldl (fun m d => max m (s.dieAt d).junction) 0
  let fenced := (List.range 9).foldl (fun n d => n + (if (s.dieAt d).fenced then 2 ^ d else 0)) 0
  hot % 256 * 2 ^ 40 + s.pkg.status % 8 * 2 ^ 32 + s.pkg.boot % 16 * 2 ^ 24 + fenced * 2 ^ 9 + s.pkg.present.toNat

/-- A word of an address-space entry. -/
def SpaceEntry.word (e : SpaceEntry) (k : Nat) : Nat :=
  match k with
  | 0 => e.ptroot.toNat
  | 1 => e.tvec.toNat
  | 2 => e.sscratch.toNat
  | 3 => e.lkwin.toNat
  | 4 => if e.configured then 1 else 0
  | _ => 0

/-- A word of a ripening record. -/
def Core.ripening (c : Core) (k : Nat) : Nat :=
  match k with
  | 0 => c.wu
  | 1 => c.rated
  | 2 => c.mon
  | 3 => c.index
  | 4 => c.life.code
  | _ => 0

/-- A word of a hart's block, at an offset in it (R441): a status where there is none, or the hart is not halted. -/
def State.hartWord (s : State) (hart o : Nat) : Except Nat Nat :=
  let h := s.hart hart
  let whenHalted (x : Nat) : Except Nat Nat := if h.halted then .ok x else .error 5
  if o = 0 then .ok ((if h.task.isNone then 8 else 0) + (if h.halted then 4 else 0))
  else if o = 0x20 then whenHalted h.haltPos.pc.toNat
  else if o = 0x28 then whenHalted h.haltPos.eix.toNat
  else if o = 0x30 then whenHalted h.haltPos.vsidx.toNat
  else if o = 0x38 then whenHalted h.haltPos.lanes.toNat
  else if 0x100 ≤ o ∧ o < 0x200 then
    whenHalted (if o = 0x100 then 0 else (h.sg.toList.getD ((o - 0x100) / 8) 0).toNat)
  else if 0x1000 ≤ o ∧ o < 0x9000 then
    if csrKnown (BitVec.ofNat 12 ((o - 0x1000) / 8)) then whenHalted ((s.switchTo hart).csrRead ((o - 0x1000) / 8)).toNat else .error 1
  else if 0x10000 + 64 ≤ o ∧ o + 8 ≤ 0x10000 + imageBody h.lanes + 64 then
    whenHalted (bytesAt (sealedImage { h with csr := { h.csr with energy := s.energyOf h } } h.csr.returnPosition) (o - 0x10000) 8)
  else .error 1

/-- A word of a die's block. -/
def State.dieWord (s : State) (d o : Nat) : Except Nat Nat :=
  let k := s.dieAt d
  let pkg (x : Nat) : Except Nat Nat := .ok (if d = 0 then x else 0)
  if o = 0 then pkg s.statusWord
  else if o = 0x1000 then .ok k.lost
  else if o = 0x1008 then .ok ((match k.frq with | e :: _ => e.1 | [] => 0) * 65536 + k.frq.length)
  else if o = 0x1010 then .ok 0
  else if 0x1100 ≤ o ∧ o < 0x1300 then .ok (s.coreAt (64 * d + (o - 0x1100) / 8)).transients
  else if 0x1300 ≤ o ∧ o < 0x1310 then .ok (s.stackAt (2 * d + (o - 0x1300) / 8)).corrected
  else if 0x1310 ≤ o ∧ o < 0x1320 then .ok (s.stackAt (2 * d + (o - 0x1310) / 8)).transients
  else if o = 0x1320 then pkg s.pkg.drops
  else if 0x10000 ≤ o ∧ o < 0x18000 then pkg (((mapGet s.spaces ((o - 0x10000) / 64)).getD {}).word (o % 64 / 8))
  else if 0x20000 ≤ o ∧ o < 0x21000 then .ok ((s.coreAt (64 * d + (o - 0x20000) / 64)).ripening (o % 64 / 8))
  else if 0x30000 ≤ o ∧ o < 0x30200 then .ok (s.coreAt (64 * d + (o - 0x30000) / 8)).lmap.toNat
  else if 0x30200 ≤ o ∧ o < 0x30400 then .ok (s.coreAt (64 * d + (o - 0x30200) / 8)).fmask.toNat
  else if 0x40000 ≤ o ∧ o < 0x40020 then
    .ok (match uavorPort d ((o - 0x40000) / 8) with
      | some u => let p := s.pkg.ports.toList.getD u {}; p.cost % 256 * 256 + p.link.code
      | none => 0)
  else if o = 0x40100 then
    .ok (match cxlPort d with
      | some c =>
        let p := s.pkg.cxlPorts.toList.getD c {}
        s.pkg.cxl.toList.getD c 0 / 2 ^ 20 * 65536 + (if p.fenced then 2 else 0) + (if p.up then 1 else 0)
      | none => 0)
  else if o = 0x40200 then pkg (if s.pkg.hostUp then 1 else 0)
  else if 0x100000 ≤ o ∧ o < 0x120000 then
    .ok (match k.frq.find? fun e => e.1 = (o - 0x100000) / 32 with
      | some e => e.2.words.getD (o % 32 / 8) 0
      | none => 0)
  else if 0x100000000 ≤ o ∧ o < 0x104000000 then s.hartWord (256 * d + (o - 0x100000000) / 0x40000) (o % 0x40000)
  else if 0x200000000 ≤ o ∧ o < 0x202000000 then
    pkg (match mapGet s.launches ((o - 0x200000000) / 0x2000) with
      | some l => (match mapGet l.groups (o % 0x2000 / 32) with
        | some g => g.words.getD (o % 32 / 8) 0
        | none => 0)
      | none => 0)
  else if (0x1000000000 ≤ o ∧ o < 0x1001000000) ∨ (0x2000000000 ≤ o ∧ o < 0x2001000000) then
    let x := o % 0x1000000000
    .ok ((s.stackAt (2 * d + o / 0x2000000000)).windowWord (Config.freeNat s.free (o / 8)) (x % 0x100000 / 0x8000) (x / 0x100000) (x % 0x8000 / 8))
  else .error 1

/-- A word of the management space. -/
def State.mgmtWord (s : State) (off : Nat) : Except Nat Nat :=
  if 9 ≤ off / 2 ^ 40 then .error 1 else s.dieWord (off / 2 ^ 40) (off % 2 ^ 40)

/-- A management read of n bytes (R441): a status and the data. -/
def State.mgmtRead (s : State) (off n : Nat) : Nat × List Nat :=
  if off % 8 ≠ 0 ∨ n % 8 ≠ 0 ∨ 8192 < n then (2, [])
  else
    (List.range (n / 8)).foldl (fun (acc : Nat × List Nat) i =>
      if acc.1 ≠ 0 then acc
      else
        match s.mgmtWord (off + 8 * i) with
        | .ok x => (0, acc.2 ++ leBytes 8 x)
        | .error e => (e, [])) (0, [])

/-! ### Writing it -/

/-- A halt request for a hart (R374); a hart without a task is only held. -/
def State.askHalt (s : State) (hart : Nat) : State :=
  if (s.hart hart).task.isNone then s.updHart hart fun h => { h with halted := true }
  else s.updAsync hart fun h => { h with haltReq := true }

/-- A halted hart continues from its halt position (R375). -/
def Hart.resumed (h : Hart) : Hart :=
  if h.halted then
    let h' := { h with halted := false, haltPos := {}, haltReq := false }
    if h.task.isSome then h'.resumeAt h.haltPos false else h'
  else h

/-- A word written in a hart's block. -/
def State.writeHart (s : State) (hart o x : Nat) : Except Nat State :=
  let h := s.hart hart
  let whenHalted (t : State) : Except Nat State := if h.halted then .ok t else .error 5
  let pos (f : Position → Position) : Except Nat State := whenHalted (s.updHart hart fun h => { h with haltPos := f h.haltPos })
  if o = 0 then
    let t := if bit x 0 then s.askHalt hart else s
    .ok (if bit x 1 then t.updHart hart Hart.resumed else t)
  else if o = 0x20 then pos fun p => { p with pc := BitVec.ofNat 64 x &&& ~~~3 }
  else if o = 0x28 then pos fun p => { p with eix := BitVec.ofNat 11 x }
  else if o = 0x30 then pos fun p => { p with vsidx := BitVec.ofNat 35 x }
  else if o = 0x38 then pos fun p => { p with lanes := BitVec.ofNat 64 x }
  else if 0x100 ≤ o ∧ o < 0x200 then
    whenHalted (s.updHart hart fun h => h.setGAt .supervisor (BitVec.ofNat 5 ((o - 0x100) / 8)) (BitVec.ofNat 64 x))
  else if 0x1000 ≤ o ∧ o < 0x9000 then
    let n := (o - 0x1000) / 8
    if !csrKnown (BitVec.ofNat 12 n) then .error 1
    else if !h.halted then .error 5
    else if csrOnWrite n = .trap then .error 6
    else .ok (((s.switchTo hart).csrWrite n (BitVec.ofNat 64 x)).switchTo s.cur)
  else if 0x10000 + 64 ≤ o ∧ o + 8 ≤ 0x10000 + imageBody h.lanes then
    whenHalted (s.updHart hart fun h => h.patchImage (o - 0x10000) (leBytes 8 x))
  else if 0x10000 + imageBody h.lanes ≤ o ∧ o + 8 ≤ 0x10000 + imageBody h.lanes + 64 then whenHalted s
  else .error 1

/-- A word of an address-space entry written. -/
def SpaceEntry.setWord (e : SpaceEntry) (k x : Nat) : SpaceEntry :=
  match k with
  | 0 => { e with ptroot := BitVec.ofNat 64 x &&& 0x00FFFFFFFFFFF000 }
  | 1 => { e with tvec := BitVec.ofNat 64 x &&& ~~~3 }
  | 2 => { e with sscratch := BitVec.ofNat 64 x }
  | 3 => { e with lkwin := BitVec.ofNat 64 x &&& ~~~3 }
  | 4 => { e with configured := bit x 0 }
  | _ => e

/-- A word written in the management space: writes of read-only places are ignored (R8). -/
def State.writeMgmtWord (s : State) (off x : Nat) : Except Nat State :=
  let d := off / 2 ^ 40
  let o := off % 2 ^ 40
  if 9 ≤ d then .error 1
  else if o = 0x1010 then .ok (s.updDie d fun k => { k with frq := k.frq.filter fun e => e.1 ≠ x % 4096 })
  else if 0x10000 ≤ o ∧ o < 0x18000 then
    let a := (o - 0x10000) / 64
    .ok (if d = 0 then { s with spaces := mapSet s.spaces a (((mapGet s.spaces a).getD {}).setWord (o % 64 / 8) x) } else s)
  else if 0x100000000 ≤ o ∧ o < 0x104000000 then s.writeHart (256 * d + (o - 0x100000000) / 0x40000) (o % 0x40000) x
  else if (0x1000000000 ≤ o ∧ o < 0x1001000000) ∨ (0x2000000000 ≤ o ∧ o < 0x2001000000) then
    let y := o % 0x1000000000
    .ok (s.updStack (2 * d + o / 0x2000000000) fun t => t.windowStore (y % 0x100000 / 0x8000) (y / 0x100000) (y % 0x8000) 8 x)
  else
    match s.dieWord d o with
    | .ok _ => .ok s
    | .error e => .error e

/-- A management write (R441): a status; nothing is written where some word is refused. -/
def State.mgmtWrite (s : State) (off n : Nat) (l : List Nat) : Nat × State :=
  if off % 8 ≠ 0 ∨ n % 8 ≠ 0 ∨ l.length ≠ n then (2, s)
  else
    let r := (List.range (n / 8)).foldl (fun (acc : Nat × State) i =>
      if acc.1 ≠ 0 then acc
      else
        match acc.2.writeMgmtWord (off + 8 * i) (bytesAt l (8 * i) 8) with
        | .ok t => (0, t)
        | .error e => (e, s)) (0, s)
    r

/-! ### Messages (R419 to R421) -/

/-- The body of a message. -/
def msgBody (l : List Nat) : List Nat := l.drop 32
/-- Its type and sequence number. -/
def msgType (l : List Nat) : Nat := bytesAt l 1 1
/-- Its sequence number. -/
def msgSeq (l : List Nat) : Nat := bytesAt l 8 8

/-- A message that the device does not drop (R419). -/
def msgGood (l : List Nat) : Bool :=
  let n := bytesAt l 24 4
  32 ≤ l.length && bytesAt l 0 1 == 1 && 1 ≤ msgType l && msgType l ≤ 12 && bytesAt l 2 2 < 2 && bytesAt l 28 4 == 0 &&
  n == l.length - 32 && n ≤ 8960 &&
  (match msgType l with
   | 1 => n == 128
   | 7 => n == 32
   | 9 => n == 0
   | 11 => n == 1988
   | _ => true)

/-- A type-5 response: status, length and data (R441). -/
def State.respond (s : State) (k status : Nat) (l : List Nat) : State := s.sendOn k 5 (leBytes 4 status ++ leBytes 4 l.length ++ l)

/-- The body of a signed message without its signature, where the session has proved a key and the signature verifies. -/
def State.signedBody (s : State) (k : Nat) (l : List Nat) : Option (List Nat) :=
  match s.pkg.sessions[k]? with
  | some x =>
    match x.key with
    | some key =>
      let b := msgBody l
      let n := b.length - 3309
      if 3309 ≤ b.length && Config.verified key (Config.digest (x.devNonce ++ x.hostNonce ++ l.take 32 ++ b.take n)) (b.drop n) then
        some (b.take n)
      else none
    | none => none
  | none => none

/-- A session open (R421): a key whose digest the boot parameter block lists draws a challenge with a fresh nonce. -/
def State.openSession (s : State) (k : Nat) (b : List Nat) : State :=
  match s.pkg.sessions[k]? with
  | none => s
  | some x =>
    let key := b.drop 36
    let good := (s.pkg.keys[bytesAt b 32 4]?).any fun d => d == Config.digest key
    let nonce := leBytes 32 (Config.freeNat s.free 0x421)
    let x' := { x with key := if good then some key else none, hostNonce := b.take 32, devNonce := if good then nonce else [] }
    let t := { s with pkg := { s.pkg with sessions := s.pkg.sessions.set k x' } }
    if good then (t.sendOn k 12 (nonce ++ leBytes 8 Config.serial ++ leBytes 2 s.pkg.number.toNat)).bump
    else t.respond k 3 []

/-- The counts of R31: dies, cores, lanes, banks and links in service. The links counted are the Uavor links that are up,
at whatever width, and the CXL ports that are up and unfenced, without the Ethernet host port: the spec does not say which
links it means (DESIGN CHOICE, log entry 71). -/
def State.counts (s : State) : List Nat :=
  let dies := (List.range 9).filter fun d => !(s.dieAt d).fenced
  let cores := (dies.flatMap fun d => (List.range 64).map fun c => s.coreAt (64 * d + c)).filter fun c => c.life ≠ .retired
  let banks := ((List.range 18).map fun k => (s.stackAt k).banks).sum
  let links := (s.pkg.ports.toList.filter fun p => p.link = .x64 ∨ p.link = .x32).length +
    (s.pkg.cxlPorts.toList.filter fun p => p.up && !p.fenced).length
  [dies.length, cores.length, (cores.map fun c => 16 * (below 4 c.present).length).sum, banks, links]

/-- The attestation report for a nonce (R429), with the digest of each boot stage and the rollback counter of each die. The spec gives no offsets: the parts stand in its order (DESIGN CHOICE, log
entry 54). -/
def State.attest (s : State) (nonce : List Nat) : List Nat :=
  let b := nonce ++ leBytes 8 Config.serial ++ leBytes 2 s.pkg.number.toNat ++
    (Config.bootStages s.pkg.flash.image).flatMap (fun x => leBytes 32 (Config.digest x)) ++
    (List.range 9).flatMap (fun d => leBytes 8 (Config.rollback d)) ++ s.counts.flatMap (leBytes 8)
  b ++ leBytes 3309 (Config.signature b)

/-- A firmware chunk (R428): assembled, and with the last one the image is checked with the parameter block that flash holds
(R427) and becomes active, or the old one stays. -/
def State.firmware (s : State) (k : Nat) (b : List Nat) (last : Bool) : State :=
  let img := s.pkg.flash.assembly ++ b
  let set (f : Flash) : State := { s with pkg := { s.pkg with flash := f } }
  if !last then (set { s.pkg.flash with assembly := img }).respond k 0 []
  else if Config.firmwareGood img s.pkg.flash.params then (set { s.pkg.flash with assembly := [], image := img }).respond k 0 []
  else (set { s.pkg.flash with assembly := [] }).respond k 4 []

/-- A message of a session applied in its turn. -/
def State.applyMessage (s : State) (k : Nat) (last : Bool) (l : List Nat) : State :=
  let b := msgBody l
  let t := match msgType l with
    | 1 => { s with pkg := { s.pkg with inbox := s.pkg.inbox ++ [(k, b)] } }
    | 3 =>
      match s.signedBody k l with
      | none => s.respond k 3 []
      | some b => if b.length ≠ 12 then s.respond k 2 [] else let r := s.mgmtRead (bytesAt b 0 8) (bytesAt b 8 4); s.respond k r.1 r.2
    | 4 =>
      match s.signedBody k l with
      | none => s.respond k 3 []
      | some b =>
        if b.length < 12 then s.respond k 2 []
        else let r := s.mgmtWrite (bytesAt b 0 8) (bytesAt b 8 4) (b.drop 12); r.2.respond k r.1 []
    | 6 =>
      match s.signedBody k l with
      | none => s.respond k 3 []
      | some b => s.firmware k b last
    | 7 => s.sendOn k 8 (s.attest b)
    | 11 => s.openSession k b
    | _ => s
  if bit (bytesAt l 2 2) 0 then t.sendOn k 9 [] else t

/-- The messages of a session that stand next in its order are applied (R420). -/
def State.applyAhead (fuel : Nat) (s : State) (k : Nat) : State :=
  match fuel with
  | 0 => s
  | fuel + 1 =>
    match s.pkg.sessions[k]? with
    | none => s
    | some x =>
      match x.ahead.find? (·.1 = x.expect) with
      | none => s
      | some e =>
        let x' := { x with expect := x.expect + 1, ahead := x.ahead.filter (·.1 ≠ x.expect) }
        ({ s with pkg := { s.pkg with sessions := s.pkg.sessions.set k x' } }.applyMessage k e.2.2 e.2.1).applyAhead fuel k

/-- A message reaches the host port (R419, R420, R430): a bad one is dropped and counted; an acknowledgement in it takes
effect; a duplicate is discarded, one ahead of a gap is stored, and the next in order is applied with those behind it. -/
def State.receive (s : State) (peer : Nat) (l : List Nat) (last : Bool) : State :=
  if !s.pkg.hostUp || !s.pkg.hostOpen then s
  else if !msgGood l then { s with pkg := { s.pkg with drops := (s.pkg.drops + 1) % 2 ^ 64 } }
  else if msgType l = 1 ∧ (s.pkg.status = 0 ∨ s.pkg.status = 6) then s
  else
    let id := bytesAt l 4 4
    let found := findIdx (fun x : Session => x.peer == peer && x.id == id) s.pkg.sessions
    if found.isNone && 64 ≤ s.pkg.sessions.length then s
    else
      let (k, x, list) := match found with
        | some (k, x) => (k, x, s.pkg.sessions)
        | none => (s.pkg.sessions.length, ({ peer, id } : Session), s.pkg.sessions ++ [({ peer, id } : Session)])
      let x := { x with unacked := x.unacked.filter fun m => bytesAt l 16 8 < m.seq }
      let n := msgSeq l
      if n < x.expect then { s with pkg := { s.pkg with sessions := list.set k x } }
      else if x.expect < n then
        let x := if 32 ≤ x.ahead.length ∨ x.ahead.any (·.1 = n) then x else { x with ahead := x.ahead ++ [(n, l, last)] }
        { s with pkg := { s.pkg with sessions := list.set k x } }
      else
        ({ s with pkg := { s.pkg with sessions := list.set k { x with expect := n + 1 } } }.applyMessage k last l).applyAhead 33 k

/-! ### The messages as events: each row stands for a message of its type -/

/-- LAUNCH_MESSAGE (R419, R420): a type-1 message from a peer. Earlier RDMA writes that were acknowledged have performed. -/
def execLaunchMessage (peer : Nat) (l : List Nat) (s : State) : Result := .next (if msgType l = 1 then s.receive peer l false else s)
/-- MANAGEMENT_READ (R441): a type-3 message. -/
def execManagementRead (peer : Nat) (l : List Nat) (s : State) : Result := .next (if msgType l = 3 then s.receive peer l false else s)
/-- MANAGEMENT_WRITE (R441): a type-4 message. -/
def execManagementWrite (peer : Nat) (l : List Nat) (s : State) : Result := .next (if msgType l = 4 then s.receive peer l false else s)
/-- FIRMWARE_IMAGE_CHUNK (R428): a type-6 message; `last` says whether the image is whole with it. -/
def execFirmwareImageChunk (peer : Nat) (l : List Nat) (last : Bool) (s : State) : Result :=
  .next (if msgType l = 6 then s.receive peer l last else s)
/-- ATTESTATION_REQUEST (R429): a type-7 message. -/
def execAttestationRequest (peer : Nat) (l : List Nat) (s : State) : Result :=
  .next (if msgType l = 7 then s.receive peer l false else s)
/-- ACKNOWLEDGEMENT (R419): a type-9 message, or one that the device drops or has no use for. -/
def execAcknowledgement (peer : Nat) (l : List Nat) (s : State) : Result :=
  .next (if [1, 3, 4, 6, 7, 11].contains (msgType l) then s else s.receive peer l false)
/-- SESSION_OPEN (R421): a type-11 message. -/
def execSessionOpen (peer : Nat) (l : List Nat) (s : State) : Result := .next (if msgType l = 11 then s.receive peer l false else s)

/-- MESSAGE_RETRANSMIT (R420): the k-th unacknowledged message of a session is sent again after 100 µs. -/
def execMessageRetransmit (session k : Nat) (s : State) : Result :=
  match (s.pkg.sessions[session]?).bind fun x => x.unacked[k]? with
  | some m => .next (s.transmit (.message m))
  | none => .next s

/-! ### RoCEv2 (R417, R418) -/

/-- The queue pair of a write, bound by management to an ASID and a session: what the write names where it is new. -/
def State.queuePair (s : State) (qp asid session : Nat) : Option QueuePair :=
  match mapGet s.pkg.qps qp with
  | some q => some q
  | none => if 256 ≤ s.pkg.qps.length then none else some { asid, session := if session < 64 then some session else none }

/-- RDMA_WRITE (R418): the write is translated and performs at its home, or draws a remote-access NAK with nothing written. The
answer leaves in its priority. Whether its packets carry a congestion mark, which draws a notification (R417), is a free value. -/
def execRdmaWrite (qp asid session va : Nat) (l : List Nat) (s : State) : Result :=
  if !s.pkg.hostUp || !s.pkg.hostOpen then .next s
  else
    match s.queuePair qp asid session with
    | none => .next s
    | some q =>
      if q.error then .next s
      else
        let (t, ack) := match s.spaceWrite q.asid va l with
          | some t => (t, true)
          | none => (s, false)
        let t := { t with pkg := { t.pkg with qps := mapSet t.pkg.qps qp q } }.transmit (.answer qp ack)
        .next (if Config.freeNat s.free 0x417 % 2 = 1 then t.transmit (.notice qp) else t)

/-- What waits in the outbox and is paused no longer leaves, oldest first. -/
def State.flush (s : State) : State :=
  s.pkg.outbox.foldl State.transmit { s with pkg := { s.pkg with outbox := [] } }

/-- PRIORITY_FLOW_CONTROL_FRAME (R417): priorities of a mask are paused, or sent on again with what waited for them. -/
def execPriorityFlowControlFrame (mask : Nat) (pause : Bool) (s : State) : Result :=
  let m := BitVec.ofNat 8 mask
  .next (State.flush { s with pkg := { s.pkg with paused := if pause then s.pkg.paused ||| m else s.pkg.paused &&& ~~~m } })

/-- CONGESTION_NOTIFICATION (R417): the notification bears on the rate of a queue pair's requester traffic alone. -/
def execCongestionNotification (qp : Nat) (s : State) : Result :=
  .next (if (mapGet s.pkg.qps qp).isSome then { s with pkg := { s.pkg with congested := s.pkg.congested + 1 } } else s)

end Sys2Proof.Machine
end

