-- ==== Sys2Proof/Machine/Lookup.lean ====
section
/-! DEFINITION. What a lookup stack does (spec/09_lookup_machine.md, R246 to R265; spec/03_numbers.md, R89 to R96): building
tables, the lookup step, drains, and the check unit. -/

namespace Sys2Proof.Machine

/-! ### Numbers of cores and stacks (R22, R240) -/

/-- The stack that holds a core's slice. -/
def stackOf (core : Nat) : Nat := core / 32
/-- The slice of a core in its stack. -/
def sliceOf (core : Nat) : Nat := core % 32
/-- The core whose slice a slice of a stack is. -/
def coreOfSlice (stack slice : Nat) : Nat := 32 * stack + slice

/-- The key of byte o of bank σ of a slice line (R240). -/
def State.bankKey (s : State) (stack slice bank row o : Nat) : Nat :=
  s.pkg.number.toNat * 2 ^ 45 + stack * 0x1000000000 + row * 0x100000 + slice * 0x8000 + bank * 0x400 + o

/-- The command's slice or stack is fenced, or a bank of the slice (R294, R439). -/
def Stack.isFenced (t : Stack) (slice : Nat) : Bool :=
  t.fenced || t.fencedSlices.contains slice || t.fencedBanks.any (· / 32 = slice)

/-! ### Shapes (R256) -/

/-- b of a shape. -/
def shapeB (S : Nat) : Nat := [1, 2, 4, 3].getD S 1
/-- g of a shape. -/
def shapeG (S : Nat) : Nat := [8, 4, 2, 2].getD S 8
/-- Patterns that a table of a shape enumerates. -/
def shapeEntries (S : Nat) : Nat := if S = 3 then 64 else 256

/-! ### The table builder (R91, R92, R250, R252) -/

/-- A finite value as an integer times a power of two. -/
def Num.exact : Num → Option (Int × Int)
  | .fin neg m e => some (if neg then -(m : Int) else (m : Int), e)
  | _ => none

/-- An integer times 2^e as an integer, by round to nearest even. -/
def roundExact (n : Int) (e : Int) : Int := (roundInt .rne (decide (n < 0)) n.natAbs e).1

/-- The smallest E, from a candidate up to 127, at which the largest magnitude n·2^e fits 32,767 (R91). -/
def fitExp (n e : Int) (fuel : Nat) (E : Int) : Option Int :=
  match fuel with
  | 0 => none
  | fuel + 1 => if (roundExact n (e - E)).natAbs ≤ 32767 then some E else fitExp n e fuel (E + 1)

/-- A mantissa clamped to ±32,767. -/
def clampM (x : Int) : Int := if x < -32767 then -32767 else if 32767 < x then 32767 else x

/-- The sums s(p) over the patterns of a shape, as integers, with their common exponent (R91, R256). -/
def patternSums (acts vals : List (Int × Int)) (S : Nat) : List Int × Int :=
  let prods := acts.map fun a => vals.map fun v => (a.1 * v.1, a.2 + v.2)
  let e0 := prods.foldl (fun m l => l.foldl (fun m p => min m p.2) m) 0
  let ints := prods.map fun l => l.map fun p => p.1 * 2 ^ (p.2 - e0).toNat
  let b := shapeB S
  ((List.range (shapeEntries S)).map fun p =>
    (ints.foldl (fun (acc : Int × Nat) l => (acc.1 + l.getD (acc.2 % 2 ^ b) 0, acc.2 / 2 ^ b)) (0, p)).1, e0)

/-- A table that is marked invalid (R92). -/
def invalidTable (cb S part : Nat) : Slot :=
  { cb, exp := -128, part, shape := S, inv := true, ready := true, entries := List.replicate 256 0 }

/-- The tables of one build, head first where it is extended: invalid where an activation or a codebook value is no finite
number, or the codebook's b is not that of the shape (R91, R92, R250, R252). -/
def buildTables (acts : List (Option (Int × Int))) (book : Codebook) (cb S : Nat) (ext : Bool) : List Slot :=
  let vals := (List.range (2 ^ shapeB S)).map fun v => (Fmt.f32.decode (book.vals.getD v 0)).exact
  if book.b ≠ shapeB S ∨ acts.any (·.isNone) ∨ vals.any (·.isNone) then
    if ext then [invalidTable cb S 1, { invalidTable cb S 2 with exp := -128 }] else [invalidTable cb S 0]
  else
    let (sums, e0) := patternSums (acts.filterMap id) (vals.filterMap id) S
    let big := sums.foldl (fun m x => max m x.natAbs) 0
    let (E, sat) : Int × Bool := match fitExp big e0 256 (-128) with
      | some E => (E, false)
      | none => (127, true)
    let ms := sums.map fun x => clampM (roundExact x (e0 - E))
    let pad (l : List Int) := (l.map (truncInt 16)) ++ List.replicate (256 - l.length) 0
    let head : Slot := { cb, exp := E, part := if ext then 1 else 0, shape := S, sat, ready := true, entries := pad ms }
    if ext then
      let Er := max (E - 16) (-128)
      let lo := min e0 E
      let res := (sums.zip ms).map fun p =>
        clampM (roundExact (p.1 * 2 ^ (e0 - lo).toNat - p.2 * 2 ^ (E - lo).toNat) (lo - Er))
      [head, { head with exp := Er, part := 2, entries := pad res }]
    else [head]

/-- The press writes tables into consecutive slots of slices, under one count (R243, R244, R253). -/
def Stack.press (t : Stack) (slices : List Nat) (slot : Nat) (tables : List Slot) : Stack :=
  let n := t.count + 1
  slices.foldl (fun t j =>
    ((List.range tables.length).zip tables).foldl (fun t x => t.setSlot j (slot + x.1) { x.2 with seq := n % 65536 }) t)
    { t with count := n }

/-! ### The lookup step (R94, R258, R259, R261) -/

/-- A step's parameters. -/
structure LookupStep where
  y : Nat
  s : Nat
  a : Nat
  tables : Nat
  shape : Nat
  ext : Bool
  deriving DecidableEq, Repr

/-- One contribution to an accumulator (R94): c, or none where the scale is 0xFF. -/
def contribution (m : Nat) (E : Int) (X : Nat) (A : BitVec 9) : Option Int :=
  if X = 0xFF then none else some (roundExact (sint 16 m) (E + X - 127 - A.toInt))

/-- The accumulator after an addition, and whether it left the range (R94). -/
def addK (k : BitVec 48) (c : Int) : BitVec 48 × Bool :=
  let t := k.toInt + c
  (BitVec.ofInt 48 t, decide (t < -(2 ^ 47)) || decide (2 ^ 47 - 1 < t))

/-- A table of a step as a bank reads it: its header and entries; a pair has two. -/
abbrev BankTable := List (Slot × (Nat → Nat))

/-- One column of one accumulator row: its value, and whether it poisons or overflows the row (R92, R94, R261). -/
def columnAdd (tabs : BankTable) (A : BitVec 9) (p X : Nat) (k : BitVec 48) : BitVec 48 × Bool × Bool :=
  tabs.foldl (fun acc tab =>
    match contribution (tab.2 p) tab.1.exp X A with
    | none => (acc.1, true, acc.2.2 || tab.1.sat)
    | some c =>
      let r := addK acc.1 c
      (r.1, acc.2.1 || tab.1.inv, acc.2.2 || r.2 || tab.1.sat)) (k, false, false)

/-- A row that a step adds into, with its patterns and scales; no table where the slot is unfit. -/
def AccRow.lookup (r : AccRow) (tabs : Option BankTable) (S : Nat) (pats scales : List Nat) : AccRow :=
  match tabs with
  | none => { r with poi := true }
  | some tabs =>
    if !r.val then { r with poi := true }
    else
      let cols := (List.range 32).map fun c =>
        let p := pats.getD c 0
        if S = 3 ∧ 64 ≤ p then (r.k.toList.getD c 0, true, false)
        else columnAdd tabs r.exp p (scales.getD c 0) (r.k.toList.getD c 0)
      { r with k := Vector.ofFn fun i => (cols.getD i.val (0, false, false)).1
               poi := r.poi || cols.any (·.2.1)
               ovf := r.ovf || cols.any (·.2.2) }

/-- Table t of a step as bank σ of a slice reads it: fit in state, shape and part, or none (R261). -/
def Stack.stepTable (t : Stack) (slice bank : Nat) (p : LookupStep) (i : Nat) : Option BankTable :=
  let get (n part : Nat) : Option (Slot × (Nat → Nat)) :=
    let x := t.slot slice n
    if x.ready && x.shape = p.shape && x.part = part then some (x, t.entry slice n bank) else none
  if p.ext then
    match get (p.s + 2 * i) 1, get (p.s + 2 * i + 1) 2 with
    | some a, some b => some [a, b]
    | _, _ => none
  else (get (p.s + i) 0).map fun a => [a]

/-- The slots that a step reads. -/
def LookupStep.slots (p : LookupStep) : List Nat := (List.range (if p.ext then 2 * p.tables else p.tables)).map (p.s + ·)

/-- Bytes of a data row as a lookup step reads them: of stack DRAM, and zero in the reserved save area (R220, R241). -/
def State.rowBytes (s : State) (stack slice bank row o n : Nat) : List Nat :=
  if stack % 2 = 0 ∧ 49056 ≤ row ∧ row ≤ 49135 then List.replicate n 0
  else leBytes n (s.dramRead (s.bankKey stack slice bank row o) n)

/-- Bank clocks between refreshes of a bank, by mode (R259). -/
def refreshInterval (mode : BitVec 2) : Nat := if mode = 0 then 4096 else if mode = 1 then 2048 else 1024

/-- The latch that a step uses (R259): the one of its row in the row buffer of its parity (R242), if the row is open there
and a refresh has not been due since; it may have been renewed in between. Otherwise the row is opened. A bank clock is two main clocks (R7). -/
def State.latch (s : State) (stack slice bank row : Nat) : Latch :=
  let t := s.stackAt stack
  let fresh : Latch := { row, dsc := (s.rowBytes stack slice bank row 992 1).getD 0 0,
                         scales := s.rowBytes stack slice bank row 768 224, opened := s.clock.toNat }
  match mapGet t.latches (64 * slice + 2 * bank + row % 2) with
  | some l =>
    if l.row = row ∧ s.clock.toNat < l.opened + 2 * refreshInterval t.mode ∧ l.opened ≤ s.clock.toNat then
      s.pickOf (32 * slice + bank) l (if l.dsc = fresh.dsc ∧ l.scales = fresh.scales then [] else [fresh])
    else fresh
  | none => fresh

/-- What one bank does in a step: its latch, its rows after it, and its conditions (R251, R258, R261, R248). An error in
the column discards the bank's contributions. -/
def State.bankStep (s : State) (stack slice bank : Nat) (p : LookupStep) : Latch × List AccRow × List Nat :=
  let t := s.stackAt stack
  let row := p.y / 1024
  let o := p.y % 1024
  let l := s.latch stack slice bank row
  let rows := (List.range p.tables).map fun i => rowOf (t.line slice (p.a + i)) bank
  if l.dsc < 128 ∨ l.dsc % 4 ≠ p.shape then (l, rows.map fun r => { r with poi := true }, [1])
  else if s.poison.any fun e => e.hits (s.bankKey stack slice bank row o) 32 then
    (l, rows.map fun r => { r with poi := true }, [11])
  else
    let β := (l.dsc / 4 % 32 + shapeG p.shape * (o / 32)) / 32
    let pats := s.rowBytes stack slice bank row o 32
    let scales := (l.scales.drop (32 * β)).take 32
    let tabs := (List.range p.tables).map fun i => t.stepTable slice bank p i
    let conds := (if p.shape = 3 && pats.any (64 ≤ ·) then [2] else []) ++ (if tabs.any (·.isNone) then [3] else []) ++
      (if rows.any (!·.val) then [4] else [])
    (l, (rows.zip tabs).map fun x => x.1.lookup x.2 p.shape pats scales, conds)

/-- Uncorrectable errors met by an accumulator command in slots and rows: a slot is marked invalid, a row poisoned; the
banks concerned (R248). -/
def Stack.meetErrors (t : Stack) (slice : Nat) (slots lines : List Nat) : Stack × List Nat :=
  let bs := t.badSlots.filter fun e => slots.any fun x => 256 * slice + x = e.1
  let br := t.badRows.filter fun e => lines.any fun a => 64 * slice + a = e.1
  let t := bs.foldl (fun t e =>
    { t with slots := mapSet t.slots e.1 { (mapGet t.slots e.1).getD {} with inv := true } }) t
  let t := br.foldl (fun t e =>
    t.setLine (e.1 / 64) (e.1 % 64) (Vector.ofFn fun i =>
      let r := (t.line (e.1 / 64) (e.1 % 64))[i]
      if i.val = e.2 then { r with poi := true } else r)) t
  ({ t with badSlots := t.badSlots.filter fun e => !bs.contains e, badRows := t.badRows.filter fun e => !br.contains e },
   bs.map (·.2) ++ br.map (·.2))

/-- The slots that the check unit reads for table or pair i of a step. -/
def LookupStep.slotsOf (p : LookupStep) (i : Nat) : List Nat := if p.ext then [p.s + 2 * i, p.s + 2 * i + 1] else [p.s + i]

/-- The rows that a walk leaves open behind it are closed: those of its slice that it read, other than the next step's
(R259). -/
def Stack.leaveRow (t : Stack) (slice : Nat) (left : Option Nat) (row : Nat) : Stack :=
  match left with
  | some r => if r = row then t else { t with latches := t.latches.filter fun e => !(e.1 / 64 = slice && e.2.row = r) }
  | none => t

/-- One step in every bank of a slice (R261): the state, and each condition with its bank. On a protective stack the step
poisons its rows and adds nothing (R265). `checked` is the table or pair that the check unit reads. -/
def State.lookupStep (s : State) (stack slice : Nat) (p : LookupStep) (checked : Nat) : State × List (Nat × Nat) :=
  let lines := (List.range p.tables).map (p.a + ·)
  if (s.stackAt stack).mode = 3 then
    (s.updStack stack fun t => lines.foldl (fun t a =>
      t.setLine slice a (Vector.ofFn fun b => { (t.line slice a)[b] with poi := true })) t, [(6, 0)])
  else
    let (t, errs) := (s.stackAt stack).meetErrors slice p.slots lines
    let s := s.updStack stack fun _ => t
    let banks := (List.range 32).map fun b => s.bankStep stack slice b p
    let t := (List.range p.tables).foldl (fun t i =>
      t.setLine slice (p.a + i) (Vector.ofFn fun b => ((banks.getD b.val default').2.1).getD i {})) t
    let t := { t with latches := ((List.range 32).zip banks).foldl (fun m x =>
                          mapSet m (64 * slice + 2 * x.1 + x.2.1.row % 2) x.2.1) t.latches
                      watch := t.watch.map fun w => if w.slice = slice then
                          { w with rows := (p.y / 1024 :: w.rows).eraseDups, slots := (p.slotsOf checked ++ w.slots).eraseDups }
                        else w }
    (s.updStack stack fun _ => t,
     errs.map (fun b => (11, b)) ++ ((List.range 32).zip banks).flatMap fun x => x.2.2.2.map fun c => (c, x.1))
where
  /-- no bank's result -/
  default' : Latch × List AccRow × List Nat := ({ row := 0, dsc := 0, scales := [], opened := 0 }, [], [])

/-! ### Accumulator lines (R246, R281, R284 to R287) -/

/-- lkinit and lkclr on n lines. -/
def Stack.initLines (t : Stack) (slice a n : Nat) (exp : BitVec 9) (val : Bool) : Stack :=
  let t := (List.range n).foldl (fun t i => t.setLine slice (a + i) (Vector.replicate 32 { exp, val })) t
  { t with badRows := t.badRows.filter fun e => !(64 * slice + a ≤ e.1 && e.1 < 64 * slice + a + n) }

/-- An accumulator as an element of f32, or of bf16 (R95). -/
def AccRow.convert (r : AccRow) (bf : Bool) (k : BitVec 48) : Nat :=
  let f : Fmt := if bf then .bf16 else .f32
  if r.poi then f.nanBits
  else if r.ovf then f.withSign k.msb f.maxFinite
  else (roundFin f .rne .arith k.msb k.toInt.natAbs r.exp.toInt false).bits

/-- The 32 bytes sectors of a line's result row, in order (R246). -/
def resultSectors (l : Vector AccRow 32) (bf : Bool) : List Nat :=
  let w := if bf then 2 else 4
  let els := l.toList.flatMap fun r => r.k.toList.map fun k => r.convert bf k
  (List.range (32 * w)).map fun i =>
    ((els.drop (i * (32 / w))).take (32 / w)).foldr (fun x n => x + 2 ^ (8 * w) * n) 0

/-- A line that lkdrainc has read (R284). -/
def clearLine (l : Vector AccRow 32) : Vector AccRow 32 :=
  l.map fun r => { r with k := Vector.replicate 32 0, poi := false, ovf := false }

/-- The 8-byte words of a line image (R286). -/
def lineImage (l : Vector AccRow 32) : List Nat :=
  (l.toList.flatMap fun r => r.k.toList.map fun k => (k.signExtend 64).toNat) ++ l.toList.map (·.header)

/-- lkstat's summary of a line (R287). -/
def lineSummary (l : Vector AccRow 32) : Word :=
  let rows := l.toList
  let valid := rows.filter (·.val)
  let same := (valid.map (·.exp)).eraseDups.length ≤ 1
  BitVec.ofNat 64 ((rows.getD 0 {}).exp.toNat * 2 ^ 32 + (if same then 2 ^ 24 else 0) + valid.length * 2 ^ 16 +
    (rows.filter (·.ovf)).length * 2 ^ 8 + (rows.filter (·.poi)).length)

/-! ### The check unit (R254) -/

/-- One advance of the check unit's LFSR. -/
def checkNext (x : BitVec 32) : BitVec 32 := if x.getLsbD 0 then (x >>> 1) ^^^ 0x80200003 else x >>> 1

/-- The choice after an advance: σ, c and t. -/
def checkChoice (x : BitVec 32) (tables : Nat) : Nat × Nat × Nat :=
  (bits x.toNat 4 0, bits x.toNat 9 5, bits x.toNat 12 10 % tables)

/-- An accumulator of a line. -/
def Stack.acc (t : Stack) (slice a bank col : Nat) : BitVec 48 := (rowOf (t.line slice a) bank).k.toList.getD col 0

/-- A line with one accumulator replaced and the overflow bit of its row down. -/
def Stack.withAcc (t : Stack) (slice a bank col : Nat) (k : BitVec 48) : Stack :=
  t.setLine slice a (Vector.ofFn fun b =>
    let r := (t.line slice a)[b]
    if b.val = bank then { r with k := Vector.ofFn fun i => if i.val = col then k else r.k[i], ovf := false } else r)

/-- The check unit's own addition of a step (R254): the sum in its copy of the accumulator that it follows, and the overflow
bit, with the patterns, scales and entries that the bank uses. -/
def State.checkAdd (s : State) (stack slice : Nat) (p : LookupStep) (bank col i : Nat) (k : BitVec 48) : BitVec 48 × Bool :=
  if (s.stackAt stack).mode = 3 then (k, false)
  else
    let u := s.updStack stack (·.withAcc slice (p.a + i) bank col k)
    match ((u.bankStep stack slice bank p).2.1)[i]? with
    | some r => (r.k.toList.getD col 0, r.ovf)
    | none => (k, false)

end Sys2Proof.Machine
end

