-- ==== Sys2Proof/Machine/Place.lean ====
section
/-! DEFINITION. Placement of tasks, hardware saves and their resumption, pre-emption, and the end of tasks
(spec/14_tasks.md, R391 to R400, R402, R403, R407, R409). -/

namespace Sys2Proof.Machine

/-! ### Throttle locks (R407, R409) -/

/-- The lock of a launch: by its key, or by its number where the key is 0. -/
def State.lockOf (s : State) (n : Nat) (l : Launch) : Option (Nat × Lock) :=
  findIdx (fun k => k.holdsLaunch n l) s.locks

/-- A task of a launch is a member of its lock: it belongs to the lock group. -/
def Launch.lockMember (l : Launch) (index : Nat) : Bool :=
  recTL l.record && (match mapGet l.groups (recLockGroup l.record) with
    | some g => g.holds (recLockGroup l.record) index
    | none => false)

/-- The ceiling at a hart: its die's power ceiling and its core's life ceiling. -/
def State.ceilingAt (s : State) (hart : Nat) : Nat :=
  min (s.dieAt (dieOf hart)).pwr.toNat (s.coreAt (coreOf hart)).life.ceiling

/-- The ceiling of the pair with the largest strip number. -/
def newestCeiling (pairs : List (BitVec 4 × Nat)) : BitVec 4 :=
  (pairs.foldl (fun (best : BitVec 4 × Nat) p => if best.2 ≤ p.2 then p else best) (0xF, 0)).1

/-- The pairs that a keyed lock holds on other packages, where it is held there: the one of its start, and at most 15 agreed
since (R409). -/
def State.farPairs (s : State) : List (BitVec 4 × Nat) :=
  match Config.farPairs s.free with
  | [] => []
  | p :: l => (p.1, 0) :: (l.filter fun q => decide (0 < q.2)).take 15

/-- The lock that a new member joins, made where there is none with the ceiling of its hosts, or as other packages hold it
(R407), and what the member receives: the kept pairs, and an open proposal. -/
def State.joinLock (s : State) (n : Nat) (l : Launch) (hosts : List Nat) : State × List (BitVec 4 × Nat) × Bool :=
  match s.lockOf n l with
  | some (_, k) => (s, k.pairs, k.proposal.isSome && k.agreed.isNone)
  | none =>
    let own := [(BitVec.ofNat 4 (hosts.foldl (fun m h => min m (s.ceilingAt h)) 15), 0)]
    let far := if recLockKey l.record = 0 then [] else s.farPairs
    let pairs := if far.isEmpty then own else far
    ({ s with locks := s.locks ++ [{ key := recLockKey l.record, launch := n, pairs, last := newestCeiling pairs, far := !far.isEmpty }] },
     pairs, false)

/-! ### Eligible cores (R393) -/

/-- Quads of a core that are free or would become free under R155, those of a hart that is to be saved among them. -/
def State.soonFree (s : State) (core : Nat) (but : Option Nat) : Nat :=
  (below 4 fun q => (s.coreAt core).present q && (List.range 4).all fun k =>
    let x := (s.hart (4 * core + k)).csr.quads.toList.getD q .free
    x == .free || x == .leaving || but == some (4 * core + k)).length

/-- A core may run tasks of a launch, counting the quads that a save of one hart would free (R393, R412). -/
def State.eligibleBut (s : State) (but : Option Nat) (l : Launch) (core : Nat) : Bool :=
  let k := s.coreAt core
  let d := s.dieAt (core / 64)
  recDie l.record (core / 64) && !d.fenced && !d.closed && (l.features &&& (2 ^ 64 - 1 - k.fmask.toNat)) == 0 &&
  (k.life == .fresh || k.life == .derated) && l.laneMin ≤ s.soonFree core but

/-- A core may run tasks of a launch. -/
def State.eligible (s : State) (l : Launch) (core : Nat) : Bool := s.eligibleBut none l core

/-- The slot runs no task and is not held. -/
def Hart.idle (h : Hart) : Bool := h.task.isNone && !h.halted

/-- The idle slots of a core. -/
def State.idleSlots (s : State) (core : Nat) : List Nat := (List.range 4).filter fun k => (s.hart (4 * core + k)).idle

/-- The eligible cores of a die for a launch, with an idle hart. -/
def State.openCores (s : State) (l : Launch) (die : Nat) : List Nat :=
  ((List.range 64).map fun c => 64 * die + c).filter fun c => s.eligible l c && !(s.idleSlots c).isEmpty

/-- A launch takes its place among those served before it: higher priority, then earlier acceptance (R388). -/
def serveInsert (e : Nat × Launch) (l : List (Nat × Launch)) : List (Nat × Launch) :=
  match l with
  | [] => [e]
  | x :: t =>
    if recPriority x.2.record < recPriority e.2.record ∨
        (recPriority x.2.record = recPriority e.2.record ∧ e.2.order < x.2.order) then e :: x :: t
    else x :: serveInsert e t

/-- The ready launches in the order in which distributors serve them. -/
def State.service (s : State) : List (Nat × Launch) :=
  (s.launches.filter fun e => e.2.stage = .running).foldr serveInsert []

/-! ### Blocks (R391) -/

/-- The master still has indices of a launch to hand out. -/
def Launch.hasBlock (l : Launch) : Bool := !l.again.isEmpty || 8 * l.nextBlock < l.tasks

/-- The next block: indices handed out again go first, by the block they belong to. -/
def Launch.nextIndices (l : Launch) : List Nat × Launch :=
  match l.again with
  | i :: t =>
    let m := t.foldl min i
    ((i :: t).filter (fun x => x / 8 = m / 8), { l with again := (i :: t).filter fun x => x / 8 ≠ m / 8 })
  | [] =>
    let lo := 8 * l.nextBlock
    ((List.range (min 8 (l.tasks - lo))).map (lo + ·), { l with nextBlock := l.nextBlock + 1 })

/-- The indices of a launch that a die holds. -/
def Launch.heldAt (l : Launch) (die : Nat) : List Nat := (l.held.filter fun e => e.1 = die).flatMap (·.2)

/-- The memory key of a die hart's slot in its die's reserved save area. -/
def State.reservedKey (s : State) (die hart : Nat) : Nat :=
  s.pkg.number.toNat * 2 ^ 45 + 2 * die * 0x1000000000 + 0xBFA000000 + 73728 * hart

/-- The first n bytes of a save slot of a launch, part by part, for an access of a kind; none where it faults. -/
def State.slotParts (s : State) (l : Launch) (k : Kind) (x : SaveSlot) (n : Nat) : Option (List (Nat × Nat)) :=
  match x with
  | .area i => s.spaceParts (recAsid l.record) k (recSaveArea l.record + 73728 * i) n
  | .reserved d h => some [(s.reservedKey d h, n)]

/-- The bytes of a saved image of a launch; none where a read faults or meets an uncorrectable error (R373, R400; DEDUCED, log
entry 65). -/
def State.readSlot (s : State) (l : Launch) (x : SaveSlot) (n : Nat) : Option (List Nat) :=
  match s.slotParts l .load x n with
  | none => none
  | some p => if p.any fun e => s.poison.any (·.hits e.1 e.2) then none else some (p.flatMap fun e => leBytes e.2 (s.read e.1 e.2))

/-- The image of a saved context, with its seal. -/
def State.slotImage (s : State) (l : Launch) (x : SaveSlot) : Option (List Nat) :=
  match s.readSlot l x 8 with
  | none => none
  | some h => s.readSlot l x (imageBody (16 * min 4 (bytesAt h 6 1)) + 64)

/-! ### What a die can do (R388) -/

/-- A saved context may be tried on a core: its quads are free there and its features are the core's, or its image cannot be
read and is to be discarded (R400). -/
def State.imageFits (s : State) (l : Launch) (core : Nat) (x : Saved) : Bool :=
  match s.readSlot l x.slot 24 with
  | none => true
  | some h => bytesAt h 6 1 ≤ (s.freeQuads core none).length && bytesAt h 16 8 &&& (2 ^ 64 - 1 - (s.coreAt core).fmask.toNat) == 0

/-- A die has an idle hart on which a saved context of a launch can be resumed. -/
def State.canResume (s : State) (l : Launch) (die : Nat) : Bool :=
  !s.pkg.electing && !l.saved.isEmpty && (s.openCores l die).any fun c => l.saved.any (s.imageFits l c)

/-- The eligible cores of a die with an idle hart and quads for a task of a launch. -/
def State.placeCores (s : State) (l : Launch) (die : Nat) : List Nat :=
  (s.openCores l die).filter fun c => l.laneMin ≤ (s.freeQuads c none).length

/-- A die may ask for a block of a launch: it has an eligible idle hart, and saved contexts have been resumed (R388, R391). -/
def State.canAsk (s : State) (l : Launch) (die : Nat) : Bool :=
  !s.pkg.electing && l.hasBlock && l.saved.isEmpty && !(s.openCores l die).isEmpty

/-- A die has something to do for a launch. -/
def State.canServe (s : State) (die : Nat) (l : Launch) : Bool :=
  s.canResume l die || (!(l.heldAt die).isEmpty && !(s.placeCores l die).isEmpty) || s.canAsk l die

/-- The launch that a die serves now: the first in the order of service for which it has something to do. -/
def State.servedBy (s : State) (die : Nat) : Option (Nat × Launch) := s.service.find? fun e => s.canServe die e.2

/-- The dies that ask for a block of a launch, from the one after the die served last. -/
def State.asking (s : State) (n : Nat) (l : Launch) : List Nat :=
  ((List.range 9).map fun k => (s.pkg.served + 1 + k) % 9).filter fun d => s.canAsk l d && (s.servedBy d).map (·.1) == some n

/-- BLOCK_REQUEST (R388, R391): the launch served first that has a block, and a die asking for it, hands one out. -/
def execBlockRequest (s : State) : Result :=
  match s.service.find? fun e => !(s.asking e.1 e.2).isEmpty with
  | none => .next s
  | some (n, l) =>
    let d := (s.asking n l).headD 0
    let (x, l') := l.nextIndices
    .next { (s.updLaunch n fun _ => { l' with held := l'.held ++ [(d, x)] }) with pkg := { s.pkg with served := d } }

/-! ### Placement (R394, R395, R442, R444) -/

/-- A hart at the first instruction of a task (R395, R156). -/
def startedHart (e : SpaceEntry) (n : Nat) (l : Launch) (index : Nat) (quads : List Nat) (attached : Bool) (sample : Word) : Hart :=
  let x := recExtent l.record 0
  let y := recExtent l.record 1
  let image := BitVec.ofNat 64 (recImage l.record)
  let h := Hart.reset
  { h with
    pc := image + BitVec.ofNat 64 l.entry
    ug := Vector.ofFn fun i =>
      if i.val = 2 then image else if i.val = 10 then BitVec.ofNat 64 (index % x)
      else if i.val = 11 then BitVec.ofNat 64 (index / x % y) else if i.val = 12 then BitVec.ofNat 64 (index / (x * y))
      else if i.val = 13 then BitVec.ofNat 64 index else if i.val = 14 then BitVec.ofNat 64 (recArgument l.record) else 0
    csr := { h.csr with
      asid := BitVec.ofNat 9 (recAsid l.record), ptroot := e.ptroot, tvec := e.tvec &&& ~~~3, sscratch := e.sscratch
      lkwin := e.lkwin &&& ~~~3, sample
      quads := Vector.ofFn fun i => if quads.contains i.val then .owned else .free }
    task := some { launch := n, index }
    features := BitVec.ofNat 64 l.features
    gang := { state := if attached then .attached else .detached, cause := if attached then 0 else 6 } }

/-- A task starts on a hart with the lowest free quads of its core. The slot's supervisor bank stays as it was (R351). -/
def State.startTask (s : State) (n index hart : Nat) (attached : Bool) (hosts : List Nat) : State :=
  match mapGet s.launches n with
  | none => s
  | some l =>
    let quads := (s.freeQuads (coreOf hart) none).take l.lanes
    let e := (mapGet s.spaces (recAsid l.record)).getD {}
    let h := { startedHart e n l index quads attached s.energyCount with sg := (s.hart hart).sg }
    let (t, h) :=
      if l.lockMember index then
        let (t, pairs, open') := s.joinLock n l hosts
        (t, { h with locked := true, pairs, proposed := open' })
      else (s, h)
    (t.setHart hart h).updLaunch n fun l => { l with running := l.running ++ [index] }

/-- Indices that a die has placed are no longer held by it. -/
def Launch.unhold (l : Launch) (die : Nat) (placed : List Nat) : Launch :=
  { l with held := (l.held.map fun e => if e.1 = die then (e.1, e.2.filter fun i => !placed.contains i) else e).filter fun e => e.2 ≠ [] }

/-- The highest ripening index of a cluster's cores. -/
def State.worst (s : State) (cluster : Nat) : Nat := (List.range 8).foldl (fun m j => max m (s.coreAt (8 * cluster + j)).index) 0

/-- The slot on which a cluster could take a full block as a gang, the lowest of them. -/
def State.gangSlot (s : State) (l : Launch) (cluster : Nat) : Option Nat :=
  if (List.range 8).all fun j => s.eligible l (8 * cluster + j) && l.laneMin ≤ (s.freeQuads (8 * cluster + j) none).length then
    (List.range 4).find? fun k =>
      (List.range 8).all (fun j => (s.hart (32 * cluster + 4 * j + k)).idle) && (s.attachedSet (32 * cluster + k)).isEmpty
  else none

/-- The best of candidates by a measure, the first among equals. -/
def bestBy {α : Type} (f : α → Nat) (l : List α) : Option α :=
  l.foldl (fun best x =>
    match best with
    | none => some x
    | some y => if f x < f y then some x else some y) none

/-- The hart of a gang on which an index of a full block starts: index 8m + j on core j (R444). -/
def gangHart (cluster slot index : Nat) : Nat := 32 * cluster + 4 * (index % 8) + slot

/-- A block of 8 placed as a gang. The hosts of its throttle lock are the harts of members alone (R407). -/
def State.placeGang (s : State) (n die cluster slot : Nat) (l : List Nat) : State :=
  let members := l.filter fun i => (mapGet s.launches n).any fun x => x.lockMember i
  let t := l.foldl (fun t i => t.startTask n i (gangHart cluster slot i) true (members.map (gangHart cluster slot))) s
  t.updLaunch n fun x => x.unhold die l

/-- One task placed alone, on the eligible core with an idle hart, free quads and the lowest ripening index. -/
def State.placeOne (s : State) (n die : Nat) (l : Launch) (index : Nat) : State :=
  match bestBy (fun c => (s.coreAt c).index) (s.placeCores l die) with
  | none => s
  | some c =>
    match s.idleSlots c with
    | [] => s
    | k :: _ => (s.startTask n index (4 * c + k) false [4 * c + k]).updLaunch n fun x => x.unhold die [index]

/-- TASK_PLACEMENT (R388, R394): the die distributor places what it holds of the launch served first: a full block as a
gang where it can, otherwise one task. -/
def execTaskPlacement (die : Nat) (s : State) : Result :=
  match s.servedBy die with
  | none => .next s
  | some (n, l) =>
    let x := l.heldAt die
    if x.isEmpty then .next s
    else
    let full := (l.held.find? fun e => e.1 = die && e.2.length = 8).map (·.2)
    let clusters := ((List.range 8).map fun c => 8 * die + c).filter fun c => (s.gangSlot l c).isSome
    match full, bestBy s.worst clusters with
    | some b, some c => .next (s.placeGang n die c ((s.gangSlot l c).getD 0) b)
    | _, _ => .next (s.placeOne n die l (x.foldl min (x.headD 0)))

/-! ### Leaving a hart -/

/-- A hart that has given up its task: it is idle; queues, tokens, masks and reports are discarded, and what the task held
of the core is free (R415, R397). -/
def Hart.toIdle (h : Hart) : Hart :=
  { h with
    q := Vector.replicate 8 []
    tok := Vector.replicate 8 {}
    m := Vector.replicate 16 0
    csr := { h.csr with lkerr := 0, lkepc := 0, xerr := 0, xepc := 0, loop := {}, quads := Vector.replicate 4 .free, lchg := false }
    win := [], loopBuf := [], bounds := [], loopLive := false, wait := .none, restart := none, viaEret := false
    vq := [], lq := [], xq := [], rf := [], sb := [], due := none, barWait := none
    task := none, halted := false, haltPos := {}, haltReq := false, preempt := none, leave := none
    changed := false, eventBit := false, entered := true, slots := 0, locked := false, proposed := false, pairs := [] }

/-- A core's ripening record is written to flash (R404). -/
def State.replicate (s : State) (core : Nat) : State :=
  let c := s.coreAt core
  { s with pkg := { s.pkg with flash := { s.pkg.flash with
      ripening := mapSet s.pkg.flash.ripening core [c.wu, c.rated, c.mon, c.index, c.life.code] } } }

/-- A core that is drained and has reached the end of its life retires once no task is resident (R405). -/
def State.settleLife (s : State) (core : Nat) : State :=
  let k := s.coreAt core
  if k.life = .drained ∧ 1000 ≤ k.index ∧ (List.range 4).all (fun j => (s.hart (4 * core + j)).task.isNone) then
    (s.updCore core fun k => { k with life := .retired }).replicate core
  else s

/-- Something done as another hart. -/
def State.onHart (s : State) (n : Nat) (f : State → State) : State :=
  if n = s.cur then f s else (f (s.switchTo n)).switchTo s.cur

/-- The task leaves the hart, which is idle; stores of it that nothing can discard have performed, its gang goes on without it,
and no snapshot of it is kept. -/
def State.vacate (s : State) (hart : Nat) : State :=
  let s := s.onHart hart State.inOrder
  (((s.detachHart hart 4).updHart hart Hart.toIdle).dropSnaps (s.hart hart).ids).settleLife (coreOf hart)

/-- A task that has started leaves every group: it counts for no phase any more, not even where it has arrived (R340). -/
def Launch.leaveGroups (l : Launch) (index : Nat) (bar : Option (Nat × BitVec 32 × Level)) : Launch :=
  { l with groups := l.groups.map fun e =>
      if e.2.holds e.1 index then
        let here : Bool := bar.any fun b => b.1 = e.1 && b.2.1 = e.2.phase
        (e.1, Group.settle { e.2 with exited := e.2.exited + 1, arrived := if here then e.2.arrived - 1 else e.2.arrived })
      else e }

/-- The launch is charged with a context's wear and energy. -/
def Launch.charge (l : Launch) (wear energy : Nat) : Launch :=
  { l with wear := (l.wear + wear) % 2 ^ 64, energy := (l.energy + energy) % 2 ^ 64 }

/-- Saved contexts that are given up: the launch is charged with what they were (R384). -/
def Launch.dropSaved (l : Launch) (gone : Saved → Bool) : Launch :=
  { (l.saved.filter gone).foldl (fun l x => l.charge x.wear x.energy) l with saved := l.saved.filter fun x => !gone x }

/-- A saved context lies in the reserved save area of a fenced die: it is lost with the die. -/
def State.lostSlot (s : State) (x : Saved) : Bool :=
  match x.slot with
  | .reserved d _ => (s.dieAt d).fenced
  | .area _ => false

/-- A launch ends early, with a status: nothing more of it is handed out or resumed, and its tasks that survive are to be
ended (R403, R385). `counted` says whether they count as aborted. -/
def State.endLaunch (s : State) (n status : Nat) (counted : Bool) : State :=
  match mapGet s.launches n with
  | none => s
  | some l =>
    let harts := (List.range 2304).filter fun h => !(s.dieAt (dieOf h)).fenced && (s.hart h).task.any fun t => t.launch = n
    let kept := l.dropSaved fun x => !s.lostSlot x
    let t := s.updLaunch n fun _ =>
      { kept with
        status := if l.status = 0 then status else min l.status status
        nextBlock := (l.tasks + 7) / 8, again := [], held := []
        aborted := if counted then l.aborted + (l.saved.length - kept.saved.length) else l.aborted }
    if l.stage = .accepted then t.updLaunch n fun l => { l with stage := .ended status }
    else harts.foldl (fun t h => t.updAsync h fun h => { h with leave := some (.ended counted) }) t

/-- A task of a launch belongs to some group. -/
def Launch.grouped (l : Launch) (index : Nat) : Bool := l.groups.any fun e => e.2.holds e.1 index

/-- A started task is lost: a reissuable one in no group runs again from its first instruction; otherwise it is counted
lost and its launch fails, with the status given for a task in no group and 6 otherwise (R402, R403, R406, R438). -/
def State.loseTask (s : State) (n index status : Nat) : State :=
  match mapGet s.launches n with
  | none => s
  | some l =>
    let l := { l.dropSaved (·.index = index) with running := l.running.filter (· ≠ index) }
    if l.status ≠ 0 then s.updLaunch n fun _ => { l with lost := l.lost + 1 }
    else if !recNR l.record && !l.grouped index then
      s.updLaunch n fun _ => { l with again := l.again ++ [index], reissued := l.reissued + 1 }
    else (s.updLaunch n fun _ => { l with lost := l.lost + 1 }).endLaunch n (if l.grouped index then 6 else status) true

/-- A saved context whose image names another launch or another address space is discarded, and its task is counted lost
(R392). The launch of a lost member of a group fails. -/
def State.discardImage (s : State) (n index : Nat) : State :=
  match mapGet s.launches n with
  | none => s
  | some l =>
    let t := s.updLaunch n fun _ => { l.dropSaved (·.index = index) with lost := l.lost + 1 }
    if l.grouped index then t.endLaunch n 6 true else t

/-- Errors in a save slot that a second read does not meet are gone once it has been read. -/
def State.passSlot (s : State) (l : Launch) (x : SaveSlot) : State :=
  match s.slotParts l .load x (imageBody 64 + 64) with
  | none => s
  | some p => { s with poison := s.poison.filter fun e => e.persist || !p.any fun k => e.hits k.1 k.2 }

/-- A hart's task is lost with what it was charged. -/
def State.loseHart (s : State) (hart status : Nat) : State :=
  match (s.hart hart).task with
  | none => s
  | some t =>
    let h := s.hart hart
    ((s.vacate hart).updLaunch t.launch fun l => l.charge h.csr.wear.toNat (s.energyOf h).toNat).loseTask t.launch t.index status

/-- A task is ended without a save (R403). -/
def State.discardHart (s : State) (hart : Nat) (counted : Bool) : State :=
  match (s.hart hart).task with
  | none => s
  | some t =>
    let h := s.hart hart
    (s.vacate hart).updLaunch t.launch fun l =>
      ((l.leaveGroups t.index h.barWait).charge h.csr.wear.toNat (s.energyOf h).toNat) |> fun l =>
        { l with running := l.running.filter (· ≠ t.index), aborted := if counted then l.aborted + 1 else l.aborted }

/-! ### Hardware saves (R397, R398) -/

/-- A free slot of a launch's save area, the lowest. -/
def Launch.freeSlot (l : Launch) : Option Nat :=
  let rec go (fuel k : Nat) : Option Nat :=
    match fuel with
    | 0 => none
    | fuel + 1 => if l.saved.any (·.slot = .area k) then go fuel (k + 1) else some k
  match go (l.saved.length + 1) 0 with
  | some k => if k < recSlots l.record then some k else none
  | none => none

/-- The image written into a slot, and through to the memory beneath the L2, where a restart finds it (R438); none where it
cannot be written. -/
def State.writeSlot (s : State) (l : Launch) (slot : SaveSlot) (b : List Nat) : Option State :=
  (s.slotParts l .store slot b.length).map fun p => p.foldl (fun t e => t.cleanBytes e.1 e.2) (s.storeParts p b)

/-- The user context of a hart as a save writes it, with its position: the halt position given, or, where the hart was
stopped at supervisor level, the position that an ERET would resume. -/
def State.savedImage (s : State) (h : Hart) (pos : Position) : List Nat :=
  let h' := { h with csr := { h.csr with energy := s.energyOf h } }
  sealedImage h' (if h.level = .user then pos else h.csr.returnPosition)

/-- A hardware save: the context goes into a free slot of the launch's save area, or, where `anySlot`, into the reserved
area, and the hart is idle. None where there is no slot or it cannot be written. -/
def State.saveContext (s : State) (hart : Nat) (pos : Position) (anySlot : Bool) : Option State :=
  let h := s.hart hart
  match h.task with
  | none => none
  | some t =>
    match mapGet s.launches t.launch with
    | none => none
    | some l =>
      let slot := match l.freeSlot with
        | some k => some (SaveSlot.area k)
        | none => if anySlot then some (.reserved (dieOf hart) (hart % 256)) else none
      match slot with
      | none => none
      | some slot =>
        (s.writeSlot l slot (s.savedImage h pos)).map fun u =>
          (u.vacate hart).updLaunch t.launch fun l =>
            { l with running := l.running.filter (· ≠ t.index)
                     saved := l.saved ++ [{ index := t.index, slot, strip := h.csr.vstrip.toNat, wear := h.csr.wear.toNat, energy := (s.energyOf h).toNat }] }

/-- Whether a save may use the reserved area. -/
def Leave.anySlot : Leave → Bool
  | .lasting | .emergency => true
  | _ => false

/-- The order of an emergency save within a cluster: launch priority, highest first, then hart number (R437). -/
def State.emergencyTurn (s : State) (hart : Nat) : Bool :=
  let rank (x : Nat) : Nat :=
    (7 - (match (s.hart x).task with
      | some t => ((mapGet s.launches t.launch).map fun l => recPriority l.record).getD 0
      | none => 0)) * 2304 + x
  (List.range 32).all fun k =>
    let x := 32 * clusterOf hart + k
    (s.hart x).leave != some .emergency || rank hart ≤ rank x

/-- The acting hart, halted to leave, gives up its task: saved, or ended. A save that cannot be made is abandoned, and the
hart goes on; after a lasting fault or in an emergency the task is lost (R397, R406). Nothing is saved after a supply-loss
warning (R434). -/
def State.finishLeave (s : State) : State :=
  match s.me.leave with
  | none => s
  | some k =>
    if !s.me.halted || !s.me.rf.isEmpty then s
    else
      match k with
      | .ended counted => s.discardHart s.cur counted
      | _ =>
        if s.pkg.status = 2 || (k = .emergency && !s.emergencyTurn s.cur) then s
        else
          match s.saveContext s.cur s.me.haltPos k.anySlot with
          | some t => t
          | none =>
            if k.anySlot then s.loseHart s.cur 7
            else s.updMe fun h =>
              Hart.resumeAt { h with halted := false, haltPos := {}, haltReq := false, leave := none, preempt := none } h.haltPos false

/-- A pre-emption that no yield has answered within 16,384 local cycles makes the save due (R399). -/
def State.expirePreempt (s : State) : State :=
  match s.me.preempt with
  | some c =>
    if s.me.leave.isNone && decide (16384 ≤ (s.cycle (coreOf s.cur) - c).toNat) then
      s.updAsync s.cur fun h => { h with leave := some .preempt }
    else s
  | none => s

/-- HARDWARE_SAVE (R397, R399): a hart whose task is to leave is stopped as by a halt, and then saved. -/
def execHardwareSave (hart : Nat) (s : State) : Result :=
  if (s.hart hart).task.isNone then .next s
  else
    let t := (s.switchTo hart).expirePreempt
    let u := if t.me.halted then t else t.tryStop
    .next u.finishLeave

/-- eret (R361) waits until every earlier instruction has retired and returns; where a save is due it makes the save
instead (R399), once return-free operations have performed (R299). The hart resumes detached (R361; an attached one with cause 4, DEDUCED, log entry 58). -/
def execEret (s : State) : Result :=
  if s.me.level = .user then .next (s.trap .privilege (fieldsVal (.i 2 0 0 0 0x73)))
  else if !s.me.quiet then .next (s.stall .drain)
  else if s.expirePreempt.me.leave.isSome then
    if !s.me.rf.isEmpty then .next (s.stall .drain)
    else
    match s.saveContext s.cur {} false with
    | some t => .next t
    | none => .next ((s.detach 4).updMe fun h => Hart.ereted { h with leave := none, preempt := none })
  else .next ((s.detach 4).updMe Hart.ereted)

/-! ### Resumption (R400, R392) -/

/-- The hart resumed at its user context, detached, as an ERET would resume it. -/
def resumedHart (e : SpaceEntry) (img : List Nat) (quads : Vector Quad 4) (sample : Word) : Hart :=
  let h := Hart.reset.loadImage img quads sample
  let h := { h with csr := { h.csr with tvec := e.tvec &&& ~~~3, sscratch := e.sscratch, uie := true }, gang := { cause := 4 } }
  h.resumeAt h.csr.returnPosition true

/-- CONTEXT_RESUME (R388, R392, R400): a saved context of the launch that the die serves resumes on an idle hart of a core that
may run it, the oldest that fits there. An image that fails its seal is discarded and its task lost, one that names another
launch or address space counts as lost. -/
def execContextResume (hart : Nat) (s : State) : Result :=
  let core := coreOf hart
  match s.servedBy (dieOf hart) with
  | none => .next s
  | some (n, l) =>
    if s.pkg.electing || !(s.hart hart).idle || !s.eligible l core then .next s
    else
      match l.saved.find? (s.imageFits l core) with
      | none => .next s
      | some x =>
        match s.slotImage l x.slot with
        | none => .next ((s.passSlot l x.slot).loseTask n x.index 7)
        | some img =>
          let c := imageCheck img (s.coreAt core).fmask
          let free := s.freeQuads core none
          if c = 1 ∨ c = 2 then .next (s.loseTask n x.index 7)
          else if bytesAt img 24 8 ≠ taskWord (some { launch := n, index := x.index }) ∨ bytesAt img 12 2 ≠ recAsid l.record then
            .next (s.discardImage n x.index)
          else
            let e := (mapGet s.spaces (recAsid l.record)).getD {}
            let quads := takeQuads free (bytesAt img 6 1) (bits (bytesAt img 7 1) 3 1)
            let h := { resumedHart e img quads s.energyCount with sg := (s.hart hart).sg }
            let (t, h) :=
              if l.lockMember x.index then
                let (t, pairs, open') := s.joinLock n l [hart]
                (t, { h with locked := true, pairs, proposed := open' })
              else (s, h)
            .next ((t.setHart hart h).updLaunch n fun l =>
              { l with saved := l.saved.filter (·.index ≠ x.index), running := l.running ++ [x.index] })

/-! ### Pre-emption (R399, R341) -/

/-- A group has a member that has not started. -/
def Launch.unstarted (l : Launch) (id : Nat) (g : Group) : Bool :=
  let lo := 8 * l.nextBlock
  (l.again ++ l.held.flatMap (·.2)).any (fun i => g.holds id i) ||
  match g.kind with
  | 0 => decide (lo < l.tasks)
  | 1 => decide (lo ≤ g.a + (g.b - g.a) / g.c * g.c)
  | _ => decide (lo < min (g.a * (id - g.first + 1)) l.tasks)

/-- A hart waits at a barrier whose group has a member that has not started. -/
def State.waitsForStart (s : State) (hart : Nat) : Bool :=
  match (s.hart hart).barWait, (s.hart hart).task with
  | some (id, _, _), some t =>
    match mapGet s.launches t.launch with
    | some l => (match mapGet l.groups id with
      | some g => l.unstarted id g
      | none => false)
    | none => false
  | _, _ => false

/-- The priority of the launch of a hart's task, where the launch has a free slot. -/
def State.preemptible (s : State) (hart : Nat) : Option (Nat × Nat) :=
  match (s.hart hart).task with
  | some t =>
    match mapGet s.launches t.launch with
    | some l => if l.freeSlot.isSome then some (t.launch, recPriority l.record) else none
    | none => none
  | none => none

/-- No die has an idle eligible hart for a launch. -/
def State.noRoom (s : State) (l : Launch) : Bool := (List.range 9).all fun d => (s.openCores l d).isEmpty

/-- A ready launch has a block or a saved context waiting, and no die has an idle hart for it: its priority, the highest. -/
def State.starved (s : State) : Option Nat :=
  (s.service.find? fun e => (e.2.hasBlock || !e.2.saved.isEmpty || !e.2.held.isEmpty) &&
    s.noRoom e.2).map fun e => recPriority e.2.record

/-- PREEMPTION_REQUEST (R399, R341): the hart's task is asked to be saved, where it is one that may be chosen: a waiter at a
barrier whose group has a member that has not started, while its own launch has no idle eligible hart; or a task of the lowest
priority below that of a starved launch, such a waiter ahead of the others of its launch. -/
def execPreemptionRequest (hart : Nat) (s : State) : Result :=
  match s.preemptible hart with
  | none => .next s
  | some (n, q) =>
    let all := (List.range 2304).filterMap fun h => (s.preemptible h).map fun x => (h, x)
    let waiter := s.waitsForStart hart
    let first := all.any fun x => x.2.1 = n && s.waitsForStart x.1
    let lower : Bool := match s.starved with
      | some p => decide (q < p) && all.all (fun x => q ≤ x.2.2) && (waiter || !first)
      | none => false
    if (waiter && (mapGet s.launches n).any s.noRoom) || lower then
      .next ((s.raiseInterrupt hart 0).updAsync hart fun h => { h with preempt := some (s.cycle (coreOf hart)) })
    else .next s

end Sys2Proof.Machine
end

