-- ==== Sys2Proof/Machine/Wear.lean ====
section
/-! DEFINITION. Wear, life states, lasting faults and lane retirement, and power ceilings with their throttle locks
(spec/13_system.md, R381; spec/14_tasks.md, R404 to R409; spec/06_vector_unit.md, R149; spec/15_boundary.md, R433). -/

namespace Sys2Proof.Machine

/-! ### Wear (R381, R404, R405) -/

/-- The life state after an update of INDEX: it only moves forward, and may pass two thresholds at once. -/
def Life.after (l : Life) (index : Nat) : Life :=
  match l with
  | .fresh => if 970 ≤ index then .drained else if 850 ≤ index then .derated else .fresh
  | .derated => if 970 ≤ index then .drained else .derated
  | x => x

/-- A core's ripening record with wear units added and the monitors' index set; INDEX never falls. -/
def Core.age (c : Core) (u mon : Nat) : Core :=
  let wu := (c.wu + u) % 2 ^ 64
  let mon := min mon 1000
  let index := max c.index (min 1000 (max (1000 * wu / c.rated) mon))
  { c with wu, mon, index, life := c.life.after index }

/-- The charge of one slot with its carry: the units, and the fraction left as numerator and denominator. -/
def wearCharge (u n total : Nat) (carry : Nat × Nat) : Nat × (Nat × Nat) :=
  let num := u * n * carry.2 + carry.1 * total
  let den := total * carry.2
  let rest := num % den
  let g := max 1 (Nat.gcd rest den)
  (num / den, (rest / g, den / g))

/-- The charges of an interval to the contexts resident on a core. -/
def State.chargeWear (s : State) (core u : Nat) : State :=
  let resident := (List.range 4).filter fun k => (s.hart (4 * core + k)).task.isSome
  let used (k : Nat) : Nat := (s.hart (4 * core + k)).slots
  let sum := (resident.map used).sum
  let total := if sum = 0 then resident.length else sum
  let t := resident.foldl (fun t k =>
    let (n, c) := wearCharge u (if sum = 0 then 1 else used k) total ((t.coreAt core).carry.toList.getD k (0, 1))
    (t.updCore core fun x => { x with carry := Vector.ofFn fun i => if i.val = k then c else x.carry[i] }).updAsync (4 * core + k)
      fun h => { h with csr := { h.csr with wear := h.csr.wear + BitVec.ofNat 64 n } }) s
  (List.range 4).foldl (fun t k => t.updHart (4 * core + k) fun h => { h with slots := 0 }) t

/-- Each task of a drained core at the end of its life is to be saved where its launch has a free slot (R405). -/
def State.drainCore (s : State) (core : Nat) : State :=
  let k := s.coreAt core
  if k.life = .drained ∧ 1000 ≤ k.index then
    (List.range 4).foldl (fun t j =>
      if (t.preemptible (4 * core + j)).isSome then t.updAsync (4 * core + j) fun h => { h with leave := h.leave <|> some .preempt }
      else t) (s.settleLife core)
  else s

/-- WEAR_INTERVAL (R381): 4,096 local cycles end with a stress code from 1 to 255; `mon` is the monitors' index. -/
def execWearInterval (core stress mon : Nat) (s : State) : Result :=
  let u := 4096 * (max 1 (min stress 255)) / 16
  let before := s.coreAt core
  let t := ((s.updCore core (·.age u mon)).chargeWear core u).drainCore core
  let after := t.coreAt core
  .next (if before.index = after.index ∧ before.life = after.life then t else t.replicate core)

/-- RIPENING_REPLICATION (R404). -/
def execRipeningReplication (core : Nat) (s : State) : Result := .next (s.replicate core)

/-- LASTING_FAULT (R406): the core is fenced and its tasks are to be saved wherever a slot is. -/
def execLastingFault (core : Nat) (s : State) : Result :=
  if (s.coreAt core).life = .retired then .next s
  else
    let t := (s.updCore core fun c => { c with life := .retired }).replicate core
    .next ((List.range 4).foldl (fun t j =>
      if (t.hart (4 * core + j)).task.isSome then t.updAsync (4 * core + j) fun h => { h with leave := some .lasting } else t) t)

/-- LANE_RETIREMENT (R149): an architectural lane of a core is retired once no hart holds its quad; harts that hold it are
to be saved first. -/
def execLaneRetirement (core lane : Nat) (s : State) : Result :=
  let q := lane % 64 / 16
  let holders := (List.range 4).filter fun k => (s.hart (4 * core + k)).holdsQuad q
  if !(s.coreAt core).present q then .next s
  else if !holders.isEmpty then
    .next (holders.foldl (fun t k =>
      if (t.preemptible (4 * core + k)).isSome then t.updAsync (4 * core + k) fun h => { h with leave := h.leave <|> some .preempt }
      else t) s)
  else
    let t := s.updCore core fun c =>
      let spare := c.lmap.getLsbD (8 * q + 6)
      let byte := if spare then setBits (bits c.lmap.toNat (8 * q + 7) (8 * q)) 7 7 0 else 0xC0 + lane % 16
      { c with lmap := BitVec.ofNat 32 (setBits c.lmap.toNat (8 * q + 7) (8 * q) byte), suspect := c.suspect.filter (· ≠ lane % 64) }
    .next (t.faultRecord (core / 64) { kind := 4, code := 0, lane := lane % 64 }).1

/-! ### Power ceilings and throttle locks (R407 to R409, R433) -/

/-- A die's PWR ceiling moved by one step between 0x3 and 0xF. -/
def Die.stepPower (d : Die) (up : Bool) : Die :=
  { d with pwr := if up then (if d.pwr = 0xF then d.pwr else d.pwr + 1) else if d.pwr.toNat ≤ 3 then d.pwr else d.pwr - 1 }

/-- POWER_CEILING_STEP (R433). Members of a throttle lock read 0xF whatever it is (R407). -/
def execPowerCeilingStep (die : Nat) (up : Bool) (s : State) : Result := .next (s.updDie die (·.stepPower up))

/-- The member harts of a lock in this package. -/
def State.members (s : State) (k : Lock) : List Nat :=
  (List.range 2304).filter fun h => (s.hart h).locked && (match (s.hart h).task with
    | some t => (match mapGet s.launches t.launch with
      | some l => k.holdsLaunch t.launch l
      | none => false)
    | none => false)

/-- The saved strips of a lock's members. -/
def State.savedStrips (s : State) (k : Lock) : List Nat :=
  s.launches.flatMap fun e =>
    if k.holdsLaunch e.1 e.2 then
      (e.2.saved.filter fun x => e.2.lockMember x.index).map (·.strip)
    else []

/-- The strips that a lock's members have reached: those here, those saved, and the least known of those elsewhere. -/
def State.lockStrips (s : State) (k : Lock) : List Nat :=
  (s.members k).map (fun h => (s.hart h).csr.vstrip.toNat) ++ s.savedStrips k ++ if k.far then [k.farStrip] else []

/-- The pairs that a lock keeps: that of its start, and those whose strip some member has still to reach (R409). -/
def keptPairs (pairs : List (BitVec 4 × Nat)) (strips : List Nat) : List (BitVec 4 × Nat) :=
  pairs.filter fun p => p.2 = 0 || strips.any (· < p.2)

/-- AGREEMENT (R408): the minimum of a lock has changed, counting the ceiling that members on other packages give, 16 where
there are none; every member receives a proposal. None opens while one is open or 16 pairs are kept (R409). -/
def execAgreement (k outside : Nat) (s : State) : Result :=
  match s.locks[k]? with
  | none => .next s
  | some x =>
    let m := s.members x
    let far := decide (outside < 16)
    let c := BitVec.ofNat 4 (m.foldl (fun n h => min n (s.ceilingAt h)) (min outside 15))
    if x.proposal.isSome ∨ 16 ≤ (keptPairs x.pairs (s.lockStrips x)).length ∨ c = x.last ∨ (m.isEmpty && !far) then .next s
    else
      .next (m.foldl (fun t h => t.updAsync h fun h => { h with proposed := true })
        { s with locks := s.locks.set k { x with proposal := some c, replies := [], gone := 0, agreed := none, far, toSend := [] } })

/-- A lock after what has happened to it: once every member has replied, here and elsewhere, the pair is agreed, with its
strip above every member's; once the pair has reached every member here, the agreement is over (R408). -/
def State.settledLock (s : State) (x : Lock) : Lock :=
  let m := s.members x
  let here (r : Nat × Nat) : Bool := m.contains r.1 || decide (2304 ≤ r.1)
  let x := { x with toSend := x.toSend.filter m.contains, replies := x.replies.filter here
                    gone := ((x.replies.filter fun r => !here r).map Prod.snd).foldl max x.gone }
  let x := match x.proposal, x.agreed with
    | some c, none =>
      if m.all (fun h => x.replies.any (·.1 = h)) && (!x.far || x.replies.any (2304 ≤ ·.1)) then
        let n := 1 + (x.replies.map Prod.snd ++ s.savedStrips x).foldl max x.gone
        { x with agreed := some (c, n), toSend := m, last := c, pairs := x.pairs ++ [(c, n)] }
      else x
    | _, _ => x
  if x.agreed.isSome && x.toSend.isEmpty then { x with proposal := none, agreed := none, replies := [], gone := 0 } else x

/-- A lock settled, and the pairs that every member has passed forgotten by the lock and its members (R409). -/
def State.settleLock (s : State) (k : Nat) : State :=
  match s.locks[k]? with
  | none => s
  | some x =>
    let y := s.settledLock x
    let pairs := keptPairs y.pairs (s.lockStrips y)
    let t := { s with locks := s.locks.set k { y with pairs } }
    if pairs.length = y.pairs.length then t
    else (s.members y).foldl (fun t h => t.updAsync h fun h => { h with pairs := h.pairs.filter pairs.contains }) t

/-- Every lock settled. -/
def State.settleLocks (s : State) : State := (List.range s.locks.length).foldl State.settleLock s

/-- AGREEMENT_REPLY (R408): a member's `vstrip` reaches the coordinator. Number 2,304, the first beyond this package's harts,
stands for the members elsewhere, with the largest strip among them; with a higher number comes the least strip that they have
reached, which R409 compares with the pairs. The coordinator's sums are the same on every package, so the pair is formed here
(DEDUCED, log entry 79). -/
def execAgreementReply (k hart strip : Nat) (s : State) : Result :=
  match s.locks[k]? with
  | none => .next s
  | some x =>
    if 2304 < hart then
      .next (if x.far then { s with locks := s.locks.set k { x with farStrip := strip % 2 ^ 32 } }.settleLock k else s)
    else if x.proposal.isNone ∨ x.agreed.isSome ∨ (if hart < 2304 then !(s.members x).contains hart else !x.far) ∨ x.replies.any (·.1 = hart) then
      .next s
    else
      let v := if hart < 2304 then (s.hart hart).csr.vstrip.toNat else strip % 2 ^ 32
      .next ({ s with locks := s.locks.set k { x with replies := x.replies ++ [(hart, v)] } }.settleLock k)

/-- PAIR_ARRIVAL (R408, R409): the agreed pair reaches a member, and its stall ends; with the last one the agreement is
over. -/
def execPairArrival (k hart : Nat) (s : State) : Result :=
  match s.locks[k]? with
  | none => .next s
  | some x =>
    if x.agreed.isNone ∨ !x.toSend.contains hart then .next s
    else
      .next (({ s with locks := s.locks.set k { x with toSend := x.toSend.filter (· ≠ hart) } }.updAsync hart fun h =>
        { h with proposed := false, pairs := x.pairs }).settleLock k)

end Sys2Proof.Machine
end

