-- ==== Sys2Proof/Machine/Boundary.lean ====
section
/-! DEFINITION. Fences, the election of a master, links and routes, boot and restart, power, supply and heat
(spec/14_tasks.md, R401 to R403; spec/15_boundary.md, R423 to R439). -/

namespace Sys2Proof.Machine

/-! ### Fences and the master (R401 to R403, R439) -/

/-- Bits of `fmask` cleared at a core. -/
def State.clearFeatures (s : State) (core : Nat) (m : BitVec 15) : State := s.updCore core fun c => { c with fmask := c.fmask &&& ~~~m }

/-- The core of a slice of a stack: its slice's bits 3 and 4 go with it (R377). -/
def State.fenceSlice (s : State) (stack slice : Nat) : State :=
  (s.updStack stack fun t => { t with fencedSlices := if t.fencedSlices.contains slice then t.fencedSlices else slice :: t.fencedSlices }).clearFeatures
    (coreOfSlice stack slice) 0x18

/-- A whole stack is fenced. -/
def State.fenceStack (s : State) (stack : Nat) : State :=
  (List.range 32).foldl (fun t j => t.clearFeatures (coreOfSlice stack j) 0x18) (s.updStack stack fun t => { t with fenced := true })

/-- A bank of a stack is fenced, as 32 * slice + bank: its slice's commands report condition 10 (R439, R294). -/
def State.fenceBank (s : State) (stack bank : Nat) : State :=
  (s.updStack stack fun t => { t with fencedBanks := if t.fencedBanks.contains bank then t.fencedBanks else bank :: t.fencedBanks }).clearFeatures
    (coreOfSlice stack (bank / 32)) 0x18

/-- STACK_FENCE (R439, R377): stack n (0), slice of stack n (1), the special-function unit of core n (2), or bank
32 * slice + bank of stack n (3 and up). -/
def execStackFence (unit n slice : Nat) (s : State) : Result :=
  .next (match unit with
    | 0 => s.fenceStack n
    | 1 => s.fenceSlice n (slice % 32)
    | 2 => s.clearFeatures n 1
    | _ => s.fenceBank n (slice % 1024))

/-- A Uavor port fails: no path goes through it (R423, R424). -/
def State.failPort (s : State) (port : Nat) : State :=
  { s with pkg := { s.pkg with ports := Vector.ofFn fun i => if i.val = port then { link := .down, cost := 255 } else s.pkg.ports[i] } }

/-- A CXL port is fenced: accesses through it raise the access fault (R426). -/
def State.fenceCxl (s : State) (port : Nat) : State :=
  { s with pkg := { s.pkg with
      cxlPorts := Vector.ofFn fun i => if i.val = port then { s.pkg.cxlPorts[i] with up := false, fenced := true } else s.pkg.cxlPorts[i]
      cxl := Vector.ofFn fun i => if i.val = port then 0 else s.pkg.cxl[i] } }

/-- The lowest healthy die other than one. -/
def State.lowestDie (s : State) (but : Nat) : Nat :=
  ((List.range 9).find? fun d => !(s.dieAt d).fenced && d != but).getD but

/-- A launch has a task on the die, running there or saved in its reserved area. -/
def State.tasksOn (s : State) (die n : Nat) (l : Launch) : List Nat :=
  (((List.range 256).filterMap fun k =>
    match (s.hart (256 * die + k)).task with
    | some t => if t.launch = n then some t.index else none
    | none => none)) ++
  (l.saved.filter fun x => match x.slot with | .reserved d _ => d == die | _ => false).map (·.index)

/-- DIE_FENCE (R439, R403, R416): the die is fenced with its stacks and ports, and an election begins. A launch with a started task
there fails where it is not reissuable or the task belongs to a group. -/
def execDieFence (die : Nat) (s : State) : Result :=
  if 9 ≤ die ∨ (s.dieAt die).fenced then .next s
  else
    let t := s.updDie die fun d => { d with fenced := true }
    let t := (t.fenceStack (2 * die)).fenceStack (2 * die + 1)
    let t := (List.range 4).foldl (fun t u => match uavorPort die u with | some p => t.failPort p | none => t) t
    let t := match cxlPort die with | some p => t.fenceCxl p | none => t
    let t := { t with pkg := { t.pkg with electing := true, hostUp := t.pkg.hostUp && die != 0 } }
    .next (t.launches.foldl (fun u e =>
      if e.2.stage = .running ∧ (u.tasksOn die e.1 e.2).any fun i => recNR e.2.record || e.2.grouped i then u.endLaunch e.1 6 true else u) t)

/-- A live launch fails because the master and its mirror are lost (R401). A completion record whose body has been written
and whose id has not is written again, with the status that now applies (DEDUCED, log entry 83). -/
def State.failLost (s : State) (n : Nat) (l : Launch) : State :=
  match l.stage with
  | .accepted => s.endLaunch n 6 true
  | .running => s.endLaunch n 6 true
  | .ended st => s.updLaunch n fun l => { l with stage := .ended (min st 6) }
  | .bodyWritten st _ => s.updLaunch n fun l => { l with stage := .ended (if st = 0 then 6 else min st 6) }

/-- MASTER_ELECTION (R401, R402): the lowest healthy die becomes master. Where the master and its mirror are both lost, every
live launch fails; otherwise what the lost dies held is handed out again, and what ran there is lost or reissued. -/
def execMasterElection (s : State) : Result :=
  if !s.pkg.electing then .next s
  else
    let lost := (List.range 9).filter fun d => (s.dieAt d).fenced
    let s' := if lost.contains s.pkg.master && lost.contains s.pkg.mirror then
        s.launches.foldl (fun t e => t.failLost e.1 e.2) s
      else s
    let t := s'.launches.foldl (fun t e => t.updLaunch e.1 fun l =>
      let back := (l.held.filter fun h => lost.contains h.1).flatMap (·.2)
      { l with held := l.held.filter fun h => !lost.contains h.1, again := l.again ++ back }) s'
    let t := (lost.flatMap fun d => (List.range 256).map fun k => 256 * d + k).foldl (fun t h =>
      match (t.hart h).leave with
      | some (.ended counted) => t.discardHart h counted
      | _ => t.loseHart h 6) t
    let t := lost.foldl (fun t d => t.launches.foldl (fun t e => (t.tasksOn d e.1 e.2).foldl (fun t i => t.loseTask e.1 i 6) t) t) t
    let m := t.lowestDie 9
    .next { t with pkg := { t.pkg with electing := false, master := m, mirror := t.lowestDie m } }

/-! ### Links and routes (R423, R424, R426) -/

/-- LINK_DEGRADE (R423): a link goes on at half its width, and its cost is 4. -/
def execLinkDegrade (port : Nat) (s : State) : Result :=
  .next { s with pkg := { s.pkg with ports := Vector.ofFn fun i =>
    if i.val = port ∧ s.pkg.ports[i].link ≠ .down then { link := .x32, cost := 4 } else s.pkg.ports[i] } }

/-- LINK_FAILURE (R423). -/
def execLinkFailure (port : Nat) (s : State) : Result := .next (s.failPort port)

/-- CXL_LINK_DOWN (R426). -/
def execCxlLinkDown (port : Nat) (s : State) : Result := .next (s.fenceCxl port)

/-- ROUTE_UPDATE (R424): the entry for a package takes up to four next-hop ports and the cost of the path; with a port that is
up, the package is reached. -/
def execRouteUpdate (pkg : Nat) (l : List Nat) (cost : Nat) (s : State) : Result :=
  let ports := l.take 4
  let up := ports.any fun p => (s.pkg.ports.toList.getD p {}).link = .x64 ∨ (s.pkg.ports.toList.getD p {}).link = .x32
  .next (if 2048 ≤ pkg then s
    else { s with pkg := { s.pkg with
      routes := mapSet s.pkg.routes pkg { ports, cost }
      unreachable := if up then s.pkg.unreachable.filter (· ≠ pkg) else s.pkg.unreachable } })

/-- PACKET_RETRANSMIT (R424): a packet that a link dropped is sent again, and the destination discards a duplicate: nothing
that a program or the host can read changes. -/
def execPacketRetransmit (_pkg : Nat) (s : State) : Result := .next s

/-- DESTINATION_UNREACHABLE (R424): a package has stayed unreachable for 1 ms. -/
def execDestinationUnreachable (pkg : Nat) (s : State) : Result :=
  .next (if s.pkg.unreachable.contains pkg ∨ pkg = s.pkg.number.toNat then s
    else { s with pkg := { s.pkg with unreachable := pkg :: s.pkg.unreachable } })

/-! ### Checkpoints (R398, R434) -/

/-- A block of bytes with its seal word. -/
def sealed (l : List Nat) : List Nat := l ++ leBytes 8 (sealWord l)

/-- The first 12,280 bytes of a launch's record in the reserved save area (R398). -/
def launchBlock (l : Launch) : List Nat :=
  l.record ++ ((List.range 256).flatMap fun g =>
    (match mapGet l.groups g with
     | some x => x.words
     | none => [0, 0, 0, 0]).flatMap (leBytes 8)) ++ leBytes 3960 0

/-- The launch, group and barrier records, and then the header, written to a die's reserved save area (R398, R437). -/
def State.writeRecords (s : State) (die : Nat) : State :=
  let base := s.reservedKey die 0
  let t := s.launches.foldl (fun t e => t.store (base + 0x1200000 + 12288 * e.1) 12288 (ofBytes (sealed (launchBlock e.2)))) s
  t.store (base + 0x4200000) 64
    (ofBytes (sealed (leBytes 8 s.launches.length ++ leBytes 8 s.pkg.number.toNat ++ leBytes 40 0)))

/-- The lines of stack memory that are dirty in an L2. -/
def State.dirtyLines (s : State) : Nat := (((s.dram.filter fun e => keyInStack e.1).map fun e => e.1 / 64).eraseDups).length

/-- The checkpoint marker (R434). The spec gives no offsets: the fields stand in its order, the byte of VSTBY at 16 and the
live launch count at 24 (DESIGN CHOICE, log entry 54). -/
def State.marker (s : State) (vstby : Bool) : List Nat :=
  sealed (leBytes 8 s.dirtyLines ++ leBytes 8 s.cxlDirty.length ++ leBytes 8 (if vstby then 1 else 0) ++
    leBytes 8 s.launches.length ++ leBytes 24 0)

/-- A marker with more lines counted as flushed. -/
def countFlushed (l : List Nat) (inStacks inCxl : Nat) : List Nat :=
  sealed (leBytes 8 (bytesAt l 0 8 + inStacks) ++ leBytes 8 (bytesAt l 8 8 + inCxl) ++ (l.drop 16).take 40)

/-- After a supply-loss warning, what harts still store until they stand still is flushed as well, and counted in the marker
(R434). -/
def State.flushLate (s : State) : State :=
  if s.pkg.status = 2 && !(s.dram.isEmpty && s.cxlDirty.isEmpty) then
    { s with
      dram := []
      cxlDirty := []
      pkg := { s.pkg with flash := { s.pkg.flash with
        marker := s.pkg.flash.marker.map fun l => countFlushed l s.dirtyLines s.cxlDirty.length } } }
  else s

/-- A hart on which a task runs is asked to halt, and no save of it is begun (R434). -/
def Hart.warned (h : Hart) : Hart :=
  if h.task.isNone then h
  else { h with haltReq := h.haltReq || !h.halted, leave := match h.leave with | some (.ended c) => some (.ended c) | _ => none }

/-- SUPPLY_LOSS_WARNING (R434): every hart is to halt, the host port closes, nothing is placed, dirty lines go to DRAM, the
stacks go to self-refresh where VSTBY holds them, and the marker is written. An emergency save under way is abandoned. -/
def execSupplyLossWarning (vstby : Bool) (s : State) : Result :=
  let t := (List.range 2304).foldl (fun t h => if (t.hart h).task.isSome then t.updAsync h Hart.warned else t) s
  let t := (List.range 9).foldl (fun t d => t.updDie d fun x => { x with closed := true }) t
  .next { t with
    dram := []
    cxlDirty := []
    pkg := { t.pkg with hostOpen := false, status := 2, selfRefresh := vstby, flash := { t.pkg.flash with marker := some (s.marker vstby) } } }

/-! ### Heat and clocks (R432, R436, R437) -/

/-- JUNCTION_THROTTLE (R436): a die's hottest junction. Above 105 °C, and until it falls below 103 °C, PWR goes down a step. -/
def execJunctionThrottle (die temp : Nat) (s : State) : Result :=
  .next (s.updDie die fun d =>
    let on := if 105 < temp then true else if temp < 103 then false else d.throttled
    let d := { d with junction := temp % 256, throttled := on }
    if on then d.stepPower false else d)

/-- EMERGENCY_SAVE (R436, R437): a junction at 115 °C. Placement on the die stops, its tasks are to be saved, and the master and
its mirror write their records. -/
def execEmergencySave (die : Nat) (s : State) : Result :=
  let t := s.updDie die fun d => { d with closed := true, junction := max d.junction 115 }
  let t := (List.range 256).foldl (fun t k =>
    if (t.hart (256 * die + k)).task.isSome then t.updAsync (256 * die + k) fun h => { h with leave := some .emergency } else t) t
  let t := if t.pkg.status = 2 then t else { t with pkg := { t.pkg with status := 3 } }
  .next ((t.writeRecords t.pkg.master).writeRecords t.pkg.mirror)

/-- HARD_TRIP (R436): a junction at 125 °C. Every die's clocks stop, TRIPN goes low, and the stacks fall to self-refresh where
VSTBY holds them. -/
def execHardTrip (vstby : Bool) (s : State) : Result :=
  .next { s with pkg := { s.pkg with stopped := true, tripn := true, selfRefresh := vstby } }

/-- DROOP (R432): the die's main clock stretches, and a hop under way is abandoned and tried again later. No result changes. -/
def execDroop (die : Nat) (s : State) : Result := .next (s.updDie die fun d => { d with stretched := true })

/-- DROOP_RECOVERY (R432). -/
def execDroopRecovery (die : Nat) (s : State) : Result := .next (s.updDie die fun d => { d with stretched := false })

/-- PLL_HOP (R432): the main clock moves to the other PLL; while the droop detector fires the hop is abandoned and tried
again. -/
def execPllHop (die : Nat) (s : State) : Result :=
  .next (s.updDie die fun d => if d.stretched then { d with hopAgain := true } else { d with pll := !d.pll, hopAgain := false })

/-! ### Boot and restart (R427, R428, R430, R438) -/

/-- The boot parameter block meets its limits (R427). -/
def paramsGood (l : List Nat) : Bool :=
  bytesAt l 0 2 < 2048 && bytesAt l 2 1 ≤ 12 && bytesAt l 3 1 == 0 && bytesAt l 4 2 != 0 && bytesAt l 6 2 == 0 && bytesAt l 8 4 != 0 &&
  bytesAt l 12 4 ≤ 16

/-- The package's registers after a boot that reaches the ready state. `cxl` are the capacities that the expanders report, in
bytes, 0 for none. Ports that are fenced stay down, the host port with die 0 (R416, R430, R439). -/
def bootedPackage (p : Package) (flash : Flash) (host : Bool) (cxl : List Nat) : Package :=
  let l := flash.params
  { number := BitVec.ofNat 11 (bytesAt l 0 2)
    scratchSteps := bytesAt l 2 1
    keys := (List.range (bytesAt l 12 4)).map fun i => bytesAt l (16 + 64 * i) 64
    cxlPorts := Vector.ofFn fun i =>
      let f := p.cxlPorts[i].fenced
      { up := !f && cxl.getD i.val 0 != 0, fenced := f, reported := cxl.getD i.val 0 }
    cxl := Vector.ofFn fun i => if p.cxlPorts[i].fenced then 0 else min (cxl.getD i.val 0) (2 ^ 40)
    ports := Vector.ofFn fun i => if p.ports[i].cost = 255 then p.ports[i] else { link := .x64, cost := 2 }
    present := p.present
    flash
    hostUp := host
    status := 1 }

/-- The cores after boot: ripening records read back, the LFSR seeded, and earlier fences applied again (R404, R430). -/
def bootedCore (c : Core) (rec' : Option (List Nat)) (seed : Nat) : Core :=
  let r := rec'.getD [c.wu, c.rated, c.mon, c.index, c.life.code]
  { wu := r.getD 0 0, rated := r.getD 1 1, mon := r.getD 2 0, index := r.getD 3 0
    life := match r.getD 4 0 with | 0 => .fresh | 1 => .derated | 2 => .drained | _ => .retired
    fmask := 0x7FFE ||| (c.fmask &&& 1), lmap := c.lmap, lfsr := BitVec.ofNat 16 seed }

/-- A key of stack memory, or of a reserved save area, which lies in a stack's DRAM (R398). -/
def keyInDram (key : Nat) : Bool :=
  match regionOf (gpaOffset key) with
  | .stack .. => true
  | .saveArea .. => true
  | _ => false

/-- A byte of this package that a restart finds as it lay beneath the L2: of a stack that VSTBY holds (R431), or of CXL memory,
whose expander keeps it (DEDUCED, log entry 55). -/
def State.keeps (s : State) (key : Nat) : Bool :=
  decide (key < 2 ^ 56) && !s.isRemote key && ((s.pkg.selfRefresh && keyInDram key) || (keyCxl key).isSome)

/-- Memory as a restart finds it; that of other packages is as it was. -/
def State.contents (s : State) : List Host.Cell :=
  (s.dram.filter fun e => s.keeps e.1).foldl (fun m e => memSet m e.1 e.2)
    (s.mem.foldl (fun m e =>
      if s.keeps e.1 then memSet m e.1 (s.dramByte e.1)
      else if e.1 < 2 ^ 56 && s.isRemote e.1 then memSet m e.1 e.2 else m) [])

/-- What neither a boot nor a refused boot undoes: the stacks' DRAM where it was held, the counts, the fences of dies and
stacks, and the cores as they are given (R430, R431, R439). -/
def State.rebooted (s : State) (core : Nat → Core) : State :=
  let t : State := { State.reset with
    cur := s.cur
    clock := s.clock
    free := s.free + 1
    seq := s.seq
    agenda := s.agenda
    mem := s.contents
    dies := (List.range 9).foldl (fun m d => if (s.dieAt d).fenced then mapSet m d { fenced := true } else m) []
    cores := (List.range 576).map fun c => (c, { core c with epoch := s.clock, skew := 0 }) }
  (List.range 18).foldl (fun t k =>
    let u := (s.stackAt k).fencedSlices.foldl (fun t j => t.fenceSlice k j) t
    let u := (s.stackAt k).fencedBanks.foldl (fun t b => t.fenceBank k b) u
    if (s.stackAt k).fenced then u.fenceStack k else u) t

/-- What a restart resumes: what this package holds, or what an earlier boot, that was refused, has left. -/
def State.sleeping (s : State) : Asleep :=
  s.pkg.asleep.getD
    { launches := s.launches, accepted := s.accepted, recent := s.recent, spaces := s.spaces, master := s.pkg.master
      mirror := s.pkg.mirror, restart := s.pkg.tripn || s.pkg.flash.marker.isSome || s.pkg.selfRefresh }

/-- Boot stopped with a boot status (R427, R428): fences, ripening records, flash and stacks in self-refresh stay for the next
boot, with what it may resume. -/
def State.bootStopped (s : State) (flash : Flash) (code : Nat) : State :=
  { s.rebooted (fun c => bootedCore (s.coreAt c) none 1) with
    pkg := {
      present := s.pkg.present
      flash
      status := 6
      boot := code
      selfRefresh := s.pkg.selfRefresh
      asleep := some s.sleeping
      cxlPorts := Vector.ofFn fun i => { fenced := s.pkg.cxlPorts[i].fenced }
      ports := Vector.ofFn fun i => if s.pkg.ports[i].cost = 255 then s.pkg.ports[i] else {} } }

/-- A block's seal word covers its first n bytes. -/
def sealHolds (l : List Nat) (n : Nat) : Bool := bytesAt l n 8 == sealWord (l.take n)

/-- The record of live launch n in a die's reserved save area, as DRAM holds it (R398). -/
def State.recordAt (s : State) (die n : Nat) : List Nat :=
  leBytes 12288 (s.dramRead (s.reservedKey die 0 + 0x1200000 + 12288 * n) 12288)

/-- A die's copy of the records carries valid seals: its header, and the record of every live launch (R398, R438). -/
def State.copyGood (s : State) (die : Nat) : Bool :=
  sealHolds (leBytes 64 (s.dramRead (s.reservedKey die 0 + 0x4200000) 64)) 56 &&
  s.sleeping.launches.all fun e => sealHolds (s.recordAt die e.1) 12280

/-- The die whose copy of the records a restart reads: the master's or its mirror's. -/
def State.goodCopy (s : State) : Option Nat := [s.sleeping.master, s.sleeping.mirror].find? s.copyGood

/-- The checkpoint marker in flash carries a valid seal, and VSTBY was present. -/
def State.markerGood (s : State) : Bool :=
  match s.pkg.flash.marker with
  | some l => sealHolds l 56 && bytesAt l 16 1 == 1
  | none => false

/-- A group's barrier record as an entry of a copy holds it (R390). -/
def Group.fromWords (g : Group) (l : List Nat) (o : Nat) : Group :=
  { g with
    members := bytesAt l (o + 8) 8
    arrived := bytesAt l (o + 16) 8
    phase := BitVec.ofNat 32 (bytesAt l (o + 24) 4)
    pending := BitVec.ofNat 32 (bytesAt l (o + 28) 4) }

/-- A launch with its record and its barrier records read from a copy (R398). What a copy does not hold, the progress of the
launch, stands as it was (DESIGN CHOICE, log entry 82). -/
def Launch.fromRecord (l : Launch) (b : List Nat) : Launch :=
  { l with record := b.take 128, groups := l.groups.map fun e => (e.1, e.2.fromWords b (128 + 32 * e.1)) }

/-- The live launches after a restart that resumes them, read from a copy with valid seals where there is one (R398): running
tasks that were not saved, and indices held, are lost or handed out again; saved images stay to be resumed (R438). -/
def State.recover (s : State) (old : State) : State :=
  let a := old.sleeping
  let live := match old.goodCopy with
    | some d => a.launches.map fun e => (e.1, e.2.fromRecord (old.recordAt d e.1))
    | none => a.launches
  let t := { s with launches := live, accepted := a.accepted, recent := a.recent, spaces := a.spaces }
  let t := t.launches.foldl (fun t e => t.updLaunch e.1 fun l =>
    { l with held := [], again := l.again ++ l.held.flatMap (·.2), session := none }) t
  t.launches.foldl (fun t e => e.2.running.foldl (fun t i => t.loseTask e.1 i 7) t) t

/-- POWER_ON_BOOT (R430, R438): power is good. `image` and `params` are what flash holds where they are not empty. The checks
of R428 and R427 stop the boot; otherwise the package becomes ready, and after a trip or a supply loss whose records carry
a seal, with the stacks held by VSTBY, its launches resume. -/
def execPowerOnBoot (image params cxl : List Nat) (s : State) : Result :=
  let flash := { s.pkg.flash with
    image := if image.isEmpty then s.pkg.flash.image else image
    params := if params.isEmpty then s.pkg.flash.params else params }
  if !Config.firmwareGood flash.image flash.params then .next (s.bootStopped flash 1)
  else if !paramsGood flash.params then .next (s.bootStopped flash 2)
  else
    let seed := bytesAt flash.params 4 2
    let check := bytesAt flash.params 8 4
    let restart := s.sleeping.restart
    let resume := s.pkg.selfRefresh && (s.markerGood || s.goodCopy.isSome)
    let t := s.rebooted fun c => bootedCore (s.coreAt c) (mapGet flash.ripening c) seed
    let t := (List.range 18).foldl (fun t k => t.updStack k fun x => { x with check := BitVec.ofNat 32 check }) t
    let t := { t with pkg := bootedPackage s.pkg { flash with marker := none } (!(s.dieAt 0).fenced) cxl }
    let m := t.lowestDie 9
    let t := { t with pkg := { t.pkg with master := m, mirror := t.lowestDie m } }
    .next (if !restart then t
      else if resume then
        let u := t.recover s
        { u with pkg := { u.pkg with status := 4 } }
      else { t with pkg := { t.pkg with status := 5 } })

end Sys2Proof.Machine
end

