-- ==== Sys2Proof/Machine/LookupCmd.lean ====
section
/-! DEFINITION. The lookup commands (spec/10_lookup_instructions.md, R267 to R294): checks at issue, start, work at the stacks
by events, reports and retirement; and supervisor commands (R325). -/

namespace Sys2Proof.Machine

/-! ### Operands (R272 to R288) -/

/-- Bits of a register operand. -/
def fld (w : Word) (hi lo : Nat) : Nat := bits w.toNat hi lo

/-- Commands that tables and codebooks take. -/
def EOpc.isTable : EOpc → Bool
  | .cbload | .cbclr | .tbuild | .tbload | .tbfree => true
  | _ => false

/-- Accumulator commands (R268). -/
def EOpc.isAcc : EOpc → Bool
  | .lkinit | .lkclr | .lkacc | .lkdrain | .lkdrainc | .lkread | .lkstat => true
  | _ => false

/-- The reach field of a table command (R272). -/
def ECmd.reach (c : ECmd) : Nat :=
  match c.op with
  | .cbload => fld c.b 17 16
  | .cbclr => fld c.a 17 16
  | .tbfree => fld c.a 25 24
  | _ => fld c.b 25 24

/-- The X bit. -/
def ECmd.ext (c : ECmd) : Bool := if c.op = .lkacc then fld c.b 22 22 = 1 else fld c.b 20 20 = 1

/-- The shape of tbuild, tbload and lkacc. -/
def ECmd.shape (c : ECmd) : Nat :=
  match c.op with
  | .tbuild => fld c.b 19 18
  | .tbload => fld c.b 17 16
  | _ => fld c.b 21 20

/-- The activation format of tbuild (R277); code 5 is mxfp8, whose elements are e4m3. -/
def ECmd.afmt (c : ECmd) : Fmt := [Fmt.e4m3, .e5m2, .bf16, .f16, .f32, .e4m3, .i8].getD (fld c.b 23 21) .i8

/-- The first slot, codebook or line that a command names. -/
def ECmd.first (c : ECmd) : Nat :=
  match c.op with
  | .cbload => fld c.b 9 0
  | .cbclr => fld c.a 9 0
  | .tbfree => fld c.a 7 0
  | .tbuild | .tbload => fld c.b 7 0
  | .lkacc => fld c.b 13 8
  | .lkdrain | .lkdrainc | .lkread => fld c.b 5 0
  | .lkmeta => fld c.a 7 0
  | _ => fld c.a 5 0

/-- The tables of a step of lkacc. -/
def ECmd.tables (c : ECmd) : Nat := fld c.b 18 16 + 1

/-- A lookup command's parameters at one step: address or lookup address, slot, codebook number and line (R274). -/
structure LkStep where
  y : Int
  s : Int
  cb : Int
  a : Int
  deriving DecidableEq, Repr

/-- The step of given nest sums. -/
def ECmd.lkStep (c : ECmd) (n : Int × Int × Int) : LkStep :=
  { y := c.a.toNat + n.1
    s := (if c.op = .lkacc then fld c.b 7 0 else c.first) + n.2.1
    cb := (if c.op = .tbuild then fld c.b 17 8 else c.first) + n.2.2
    a := c.first + n.2.2 }

/-- The address of a step. -/
def LkStep.va (p : LkStep) : Nat := addr64 p.y

/-- Bytes of an activation group, image, record, result row or line image: what a step reads or writes in memory. -/
def ECmd.unit (c : ECmd) : Nat :=
  match c.op with
  | .cbload => 80
  | .tbuild => shapeG c.shape * c.afmt.bytes
  | .tbload => if c.ext then 1024 else 512
  | .lkdrain | .lkdrainc => if fld c.b 8 8 = 1 then 2048 else 4096
  | .lkread => 8448
  | _ => 0

/-- What the address of a step must be a multiple of (R275 to R286). -/
def ECmd.alignTo (c : ECmd) : Nat :=
  match c.op with
  | .cbload => 16
  | .tbuild | .tbload => c.unit
  | .lkdrain | .lkdrainc => 32
  | .lkread => 64
  | _ => 1

/-- The greatest product of bounds (R274). -/
def EOpc.nestLimit : EOpc → Nat
  | .cbload | .lkdrain | .lkdrainc => 64
  | .lkacc => 65536
  | _ => 256

/-- The number of steps. -/
def ECmd.stepCount (c : ECmd) : Nat := nestProduct c.nest

/-- The steps in nest order. -/
def ECmd.lkSteps (c : ECmd) : List LkStep := (nestSums c.nest).map c.lkStep

/-- The sums of step i of a nest. -/
def nestNth (l : List (BitVec 128)) (i : Nat) : Int × Int × Int :=
  (l.foldl (fun (acc : Nat × Int × Int × Int) r =>
    let n := nestBound r
    let j : Int := (acc.1 % n : Nat)
    (acc.1 / n, acc.2.1 + j * nestA r, acc.2.2.1 + j * nestB r, acc.2.2.2 + j * nestC r)) (i, 0, 0, 0)).2

/-- Slots that a step of lkacc covers. -/
def ECmd.slotSpan (c : ECmd) : Nat := if c.op = .lkacc then (if c.ext then 2 * c.tables else c.tables) else if c.ext then 2 else 1

/-- A step of a walk is well formed (R262). -/
def ECmd.wellFormed (c : ECmd) (p : LkStep) : Bool :=
  decide (0 ≤ p.y) && decide (p.y ≤ 0x2FFBFFF) && p.y % 32 == 0 && decide (p.y % 1024 < 768) &&
  decide (0 ≤ p.s) && decide (p.s + c.slotSpan ≤ 256) && (!c.ext || p.s % 2 == 0) &&
  decide (0 ≤ p.a) && decide (p.a + c.tables ≤ 64)

/-- The lookup-operand trap's conditions (R272, R274 to R282). -/
def ECmd.badOperand (c : ECmd) : Bool :=
  match c.op with
  | .cbload =>
    c.reach == 0 || c.reach == 3 || decide (64 < c.stepCount) || c.lkSteps.any fun p => decide (p.cb < 0) || decide (1023 < p.cb)
  | .cbclr =>
    c.reach == 0 || c.reach == 3 || decide (c.b.toNat < 1) || decide (1024 < c.b.toNat) || decide (1024 < c.first + c.b.toNat)
  | .tbuild | .tbload =>
    c.reach == 3 || (c.op == .tbuild && fld c.b 23 21 == 7) || decide (256 < c.stepCount) ||
    c.lkSteps.any fun p =>
      decide (p.s < 0) || decide (256 < p.s + c.slotSpan) || (c.ext && p.s % 2 != 0) ||
      (c.op == .tbuild && (decide (p.cb < 0) || decide (1023 < p.cb)))
  | .tbfree =>
    c.reach == 3 || decide (c.b.toNat < 1) || decide (256 < c.b.toNat) || decide (256 < c.first + c.b.toNat)
  | .lkinit => decide (64 < c.first + fld c.a 13 8 + 1) || decide (c.b.toInt < -256) || decide (255 < c.b.toInt)
  | .lkclr => decide (64 < c.first + fld c.a 13 8 + 1)
  | .lkacc => (c.ext && decide (4 < c.tables)) || decide (65536 < c.stepCount) || c.lkSteps.any fun p => !c.wellFormed p
  | .lkdrain | .lkdrainc => decide (64 < c.stepCount) || c.lkSteps.any fun p => decide (p.a < 0) || decide (63 < p.a)
  | _ => false

/-- Something lies outside a window of `lkwin` (R273). -/
def outside (lo hi : Nat) (x n : Int) : Bool := decide (x < lo) || decide ((hi : Int) < x + n - 1)

/-- A breach of `lkwin` (R273). -/
def ECmd.breach (c : ECmd) (w : Word) : Bool :=
  let slots (x n : Int) := outside (fld w 23 16) (fld w 31 24) x n
  let lines (x n : Int) := outside (fld w 9 4) (fld w 15 10) x n
  let rows (x : Int) := outside (fld w 47 32) (fld w 63 48) x 1
  let far := c.op.isTable && decide (min 2 (fld w 3 2) < c.reach)
  far ||
  match c.op with
  | .cbload | .cbclr => fld w 3 2 == 0
  | .tbuild | .tbload => c.lkSteps.any fun p => slots p.s c.slotSpan
  | .tbfree => slots c.first c.b.toNat
  | .lkinit | .lkclr => lines c.first (fld c.a 13 8 + 1)
  | .lkacc => c.lkSteps.any fun p => rows (p.y / 1024) || slots p.s c.slotSpan || lines p.a c.tables
  | .lkdrain | .lkdrainc => c.lkSteps.any fun p => lines p.a 1
  | .lkread | .lkstat => lines c.first 1
  | .lkmeta => slots c.first 1
  | _ => false

/-- The first address of a step that breaks the command's alignment (R271 item 4). -/
def ECmd.misaligned (c : ECmd) : Option Nat :=
  if c.alignTo ≤ 1 then none else (c.lkSteps.map (·.va)).find? fun v => v % c.alignTo ≠ 0

/-- Steps 2 to 4 of R271, made at issue. -/
def ECmd.lkCheck (c : ECmd) (lkwin : Word) : Option (Cause × Word) :=
  if c.badOperand then some (.lookupOperand, c.word)
  else if c.breach lkwin then some (.protectionFault, 0)
  else c.misaligned.map fun v => (.misalignedAccess, BitVec.ofNat 64 v)

/-- A lookup instruction at the PC issues (R267, R271, R378). -/
def State.lookup' (s : State) (op : EOpc) (maj : BitVec 7) (d a b : BitVec 5) (nest : BitVec 3) (e : EMod) : State :=
  let i : EIssue := { op, x := false, word := fieldsVal (.e e nest b a d maj), d, a, b, nest, e }
  let c := s.command i
  let late := !((op == .tbuild || op == .tbload || op == .lkacc) && c.ext) || s.core.fmask.getLsbD 4
  s.issueCmd i (s.core.fmask.getLsbD 3) late fun c => c.lkCheck s.me.csr.lkwin

def execCbload (a b : BitVec 5) (nest : BitVec 3) (e : EMod) (s : State) : Result := .next (s.lookup' .cbload 0x50 0 a b nest e)
def execCbclr (a b : BitVec 5) (e : EMod) (s : State) : Result := .next (s.lookup' .cbclr 0x51 0 a b 0 e)
def execTbuild (a b : BitVec 5) (nest : BitVec 3) (e : EMod) (s : State) : Result := .next (s.lookup' .tbuild 0x52 0 a b nest e)
def execTbload (a b : BitVec 5) (nest : BitVec 3) (e : EMod) (s : State) : Result := .next (s.lookup' .tbload 0x53 0 a b nest e)
def execTbfree (a b : BitVec 5) (e : EMod) (s : State) : Result := .next (s.lookup' .tbfree 0x54 0 a b 0 e)
def execLkinit (a b : BitVec 5) (e : EMod) (s : State) : Result := .next (s.lookup' .lkinit 0x55 0 a b 0 e)
def execLkacc (a b : BitVec 5) (nest : BitVec 3) (e : EMod) (s : State) : Result := .next (s.lookup' .lkacc 0x56 0 a b nest e)
def execLkdrain (a b : BitVec 5) (nest : BitVec 3) (e : EMod) (s : State) : Result := .next (s.lookup' .lkdrain 0x57 0 a b nest e)
def execLkdrainc (a b : BitVec 5) (nest : BitVec 3) (e : EMod) (s : State) : Result := .next (s.lookup' .lkdrainc 0x58 0 a b nest e)
def execLkread (a b : BitVec 5) (e : EMod) (s : State) : Result := .next (s.lookup' .lkread 0x59 0 a b 0 e)
def execLkclr (a : BitVec 5) (e : EMod) (s : State) : Result := .next (s.lookup' .lkclr 0x5A 0 a 0 0 e)
def execLkstat (d a : BitVec 5) (e : EMod) (s : State) : Result := .next (s.lookup' .lkstat 0x5B d a 0 0 e)
def execLkmeta (d a : BitVec 5) (e : EMod) (s : State) : Result := .next (s.lookup' .lkmeta 0x5C d a 0 0 e)
def execLkwait (d : BitVec 5) (e : EMod) (s : State) : Result := .next (s.lookup' .lkwait 0x5D d 0 0 0 e)

/-! ### Work at the stacks: each part takes a command and gives the state and the command after it -/

/-- A condition noted for the command's reports. -/
def ECmd.note (c : ECmd) (cond unit bank addr : Nat) : ECmd := { c with reports := c.reports ++ [{ cond, unit, bank, addr }] }

/-- The slices that a table command writes in a stack of its reach. -/
def ECmd.slices (c : ECmd) (core : Nat) : List Nat := if c.reach = 0 then [sliceOf core] else List.range 32

/-- The activations of a group from its bytes (R277, R76). -/
def ECmd.activations (c : ECmd) (l : List Nat) (bad : Bool) : List (Option (Int × Int)) :=
  let n := c.afmt.bytes
  (List.range (shapeG c.shape)).map fun j =>
    let x := bytesAt l (j * n) n
    if bad then none
    else if c.afmt = .i8 then some (sint 8 x, 0)
    else
      let v := (c.afmt.decode x).exact
      if fld c.b 23 21 = 5 then
        (if fld c.b 63 56 = 255 then none else v.map fun p => (p.1, p.2 + fld c.b 63 56 - 127))
      else v

/-- What a command read at a step: it reads it now, unless it has already. A lasting error is condition 9 (R275, R277, R278). -/
def State.payload (s : State) (core : Nat) (c : ECmd) (k : Nat) : (List Nat × Bool) × ECmd :=
  match mapGet c.data k with
  | some p => (p, c)
  | none =>
    let p := c.lkStep (nestNth c.nest k)
    let r := s.readCmd core c p.va c.unit
    let d := (r.1, r.2.isSome)
    let c := { c with data := mapSet c.data k d }
    (d, match r.2 with | some key => c.note 9 (stackOf core) 0 (gpaOffset key) | none => c)

/-- The tables of step k of a tbuild as a stack's builder forms them (R250, R277), and condition 5. -/
def ECmd.built (c : ECmd) (t : Stack) (k : Nat) (d : List Nat × Bool) : List Slot × Bool :=
  let p := c.lkStep (nestNth c.nest k)
  let book := t.book p.cb.toNat
  (buildTables (c.activations d.1 d.2) book p.cb.toNat c.shape c.ext, book.b ≠ shapeB c.shape)

/-- The tables of step k of a tbload (R278). -/
def ECmd.loaded (c : ECmd) (d : List Nat × Bool) : List Slot :=
  let E := sint 8 (fld c.b 15 8)
  let ents (o : Nat) := (List.range 256).map fun i => bytesAt d.1 (o + 2 * i) 2
  let x : Slot := { cb := fld c.b 35 26, exp := E, shape := c.shape, sat := fld c.b 18 18 = 1, inv := fld c.b 19 19 = 1 || d.2,
                    ready := true, entries := ents 0 }
  if c.ext then [{ x with part := 1 }, { x with part := 2, exp := max (E - 16) (-128), entries := ents 512 }] else [x]

/-- A codebook from a record, or an empty one with condition 8 (R66, R275). -/
def bookOf (l : List Nat) : Option Codebook :=
  let b := l.getD 0 0
  if 1 ≤ b ∧ b ≤ 4 ∧ l.getD 1 0 = 2 ^ b then some { b, vals := (List.range 16).map fun i => bytesAt l (16 + 4 * i) 4 } else none

/-- A step of the command has been applied in a stack; with the last one everywhere its effect is complete. -/
def ECmd.applied (c : ECmd) (stack : Nat) : ECmd :=
  let n := if c.op = .cbclr ∨ c.op = .tbfree then 1 else c.stepCount
  let prog := mapSet c.prog stack ((mapGet c.prog stack).getD 0 + 1)
  { c with prog, done := prog.all fun e => n ≤ e.2 }

/-- Step k of cbload, cbclr, tbload or tbfree applied in a stack (R275, R276, R278, R279). -/
def State.applyTable (s : State) (core stack k : Nat) (c : ECmd) : State × ECmd :=
  match c.op with
  | .cbload =>
    let (d, c) := s.payload core c k
    let n := (c.lkStep (nestNth c.nest k)).cb.toNat
    if d.2 then (s.updStack stack fun t => { t with books := mapSet t.books n { t.book n with b := 0 } }, c)
    else
      match bookOf d.1 with
      | some b => (s.updStack stack fun t => { t with books := mapSet t.books n b }, c)
      | none => (s.updStack stack fun t => { t with books := mapSet t.books n { t.book n with b := 0 } }, c.note 8 stack 0 0)
  | .cbclr =>
    (s.updStack stack fun t =>
      (List.range c.b.toNat).foldl (fun t i =>
        { t with books := mapSet t.books (c.first + i) { t.book (c.first + i) with b := 0 } }) t, c)
  | .tbload =>
    let (d, c) := s.payload core c k
    let n := (c.lkStep (nestNth c.nest k)).s.toNat
    (s.updStack stack fun t => t.press (c.slices core) n (c.loaded d), c)
  | .tbfree =>
    (s.updStack stack fun t =>
      (c.slices core).foldl (fun t j =>
        (List.range c.b.toNat).foldl (fun t i =>
          { t.noteSlot j (c.first + i) none with
              slots := mapSet t.slots (256 * j + c.first + i) { entries := (t.slot j (c.first + i)).entries } }) t) t, c)
  | _ => (s, c)

/-- The lines that a command other than lkacc names. -/
def ECmd.lineList (c : ECmd) : List Nat :=
  match c.op with
  | .lkdrain | .lkdrainc => c.lkSteps.map fun p => p.a.toNat
  | .lkread | .lkstat => [c.first]
  | _ => []

/-- The writes of a drain, line by line, with the stack after it (R284). -/
def Stack.drain (t : Stack) (slice : Nat) (c : ECmd) : Stack × List Pending :=
  c.lkSteps.foldl (fun (acc : Stack × List Pending) p =>
    let l := acc.1.line slice p.a.toNat
    let sec := resultSectors l (fld c.b 8 8 = 1)
    (if c.op = .lkdrainc then acc.1.setLine slice p.a.toNat (clearLine l) else acc.1,
     acc.2 ++ ((List.range sec.length).zip sec).map fun x => { va := (p.va + 32 * x.1) % 2 ^ 64, bytes := 32, move := .value x.2 })) (t, [])

/-- The writes of an image of a line (R286). -/
def imageWrites (va : Nat) (l : Vector AccRow 32) : List Pending :=
  ((List.range 1056).zip (lineImage l)).map fun x => { va := (va + 8 * x.1) % 2 ^ 64, bytes := 8, move := .value x.2 }

/-- An accumulator command begins at its slice (R268, R281, R284, R286, R287). -/
def State.beginAcc (s : State) (core : Nat) (c : ECmd) : State × ECmd :=
  let σ := stackOf core
  let j := sliceOf core
  let (t, errs) := (s.stackAt σ).meetErrors j [] c.lineList
  let c := errs.foldl (fun c b => c.note 11 σ b 0) { c with begun := true }
  let s := s.updStack σ fun _ => t
  match c.op with
  | .lkinit | .lkclr =>
    (s.updStack σ fun t =>
      t.initLines j c.first (fld c.a 13 8 + 1) (if c.op = .lkinit then BitVec.ofNat 9 c.b.toNat else 0) (c.op == .lkinit),
     { c with done := true })
  | .lkstat => (s, { c with res := lineSummary (t.line j c.first), done := true })
  | .lkdrain | .lkdrainc =>
    let (t, out) := t.drain j c
    (s.updStack σ fun _ => t, { c with out, done := out.isEmpty })
  | .lkread => (s, { c with out := imageWrites c.a.toNat (t.line j c.first) })
  | .lkacc =>
    let x := checkNext t.check
    let (bank, col, i) := checkChoice x c.tables
    let lines := (c.lkSteps.map fun p => p.a.toNat + i).eraseDups
    let ks := lines.foldl (fun m a => mapSet m a (t.acc j a bank col)) ([] : AMap (BitVec 48))
    (s.updStack σ fun t =>
      { t with check := x
               watch := { slice := j, bank } :: t.watch.filter (·.slice ≠ j)
               latches := if c.order.getLsbD 0 then t.latches.filter fun e => e.1 / 64 ≠ j else t.latches },
     { c with res := x.setWidth 64, sum := { before := ks, sums := ks } })
  | _ => (s, { c with done := true })

/-- The next step of a walk (R261, R262). -/
def State.walkStep (s : State) (core : Nat) (c : ECmd) : State × ECmd :=
  if c.step < c.stepCount then
    let σ := stackOf core
    let j := sliceOf core
    let p := c.lkStep (nestNth c.nest c.step)
    let q : LookupStep := { y := p.y.toNat, s := p.s.toNat, a := p.a.toNat, tables := c.tables, shape := c.shape, ext := c.ext }
    let (bank, col, i) := checkChoice (c.res.setWidth 32) c.tables
    let s := s.updStack σ (·.leaveRow j c.sum.row (q.y / 1024))
    let before := rowOf ((s.stackAt σ).line j (q.a + i)) bank
    let own := s.checkAdd σ j q bank col i ((mapGet c.sum.sums (q.a + i)).getD 0)
    let raised := (s.checkAdd σ j q bank col i (before.k.toList.getD col 0)).2
    let (t, conds) := s.lookupStep σ j q i
    (t, { c with
      step := c.step + 1
      reports := sortReports (c.reports ++ conds.map fun x => { cond := x.1, unit := σ, bank := x.2 })
      sum := { c.sum with sums := mapSet c.sum.sums (q.a + i) own.1, ovf := c.sum.ovf || own.2, bankOvf := c.sum.bankOvf || raised,
                          row := some (q.y / 1024) } })
  else (s, c)

/-- The bank's contribution to the chosen accumulator differs from the check unit's sum (R283): the difference of each
accumulator after and before the walk, modulo 2^48, and the overflow bit. -/
def State.sumDiffers (s : State) (core : Nat) (c : ECmd) : Bool :=
  let t := s.stackAt (stackOf core)
  let (bank, col, _) := checkChoice (c.res.setWidth 32) c.tables
  let total (f : Nat × BitVec 48 → BitVec 48) : BitVec 48 :=
    (c.sum.before.map fun e => f e - e.2).foldl (fun x y : BitVec 48 => x + y) 0
  total (fun e => t.acc (sliceOf core) e.1 bank col) != total (fun e => (mapGet c.sum.sums e.1).getD 0) || c.sum.ovf != c.sum.bankOvf

/-- The verdict of a walk (R283): it is complete, or the replay is to run again. -/
def State.verdict (s : State) (core : Nat) (c : ECmd) : State × ECmd :=
  if c.step = c.stepCount then
    if (s.stackAt (stackOf core)).wrong.any (·.1 = sliceOf core) || s.sumDiffers core c then (s, { c with step := c.step + 1 })
    else (s.updStack (stackOf core) fun t => { t with watch := t.watch.filter (·.slice ≠ sliceOf core) }, { c with done := true })
  else (s, c)

/-- The second replay (R283 items 2 to 4): the first sum was the check unit's own error, or the row a + t of bank σ is poisoned, the bank suspect
and condition 7 reported. `a` is the line that gs2 names (DEDUCED, log entry 21). -/
def State.replay (s : State) (core : Nat) (c : ECmd) : State × ECmd :=
  let σ := stackOf core
  let j := sliceOf core
  if c.step = c.stepCount + 1 then
    let t := s.stackAt σ
    let persist := (t.wrong.any fun e => e.1 = j && e.2) || s.sumDiffers core c
    let dirty := t.watch.any fun w => w.slice = j && w.dirty
    let t' := { t with wrong := t.wrong.filter (·.1 ≠ j), watch := t.watch.filter (·.slice ≠ j) }
    let (bank, _, i) := checkChoice (c.res.setWidth 32) c.tables
    if persist || dirty then
      (s.updStack σ fun _ =>
        { t'.setLine j (c.first + i) (Vector.ofFn fun b =>
            let r := (t'.line j (c.first + i))[b]
            if b.val = bank then { r with poi := true } else r) with suspect := ((32 * j + bank) :: t'.suspect).eraseDups },
       { c.note 7 σ bank 0 with done := true })
    else (s.updStack σ fun _ => { t' with transients := t'.transients + 1 }, { c with done := true })
  else (s, c)

/-- A write of a command performs at its home: a sector of a result row in one action, so that a vector load under way there
reads all of it before (R285). -/
def State.writeSector (s : State) (key n x : Nat) : State := (if n = 32 then s.sectorRead (key / 32) else s).store key n x

/-- Write k of those a command has still to make performs at its home, but a write of an earlier step to the same bytes goes
before it (R11, R284, R285). -/
def State.writeOut (s : State) (core k : Nat) (c : ECmd) : State × ECmd :=
  let k := dueFirst (s.meets core c) c.out k k
  match c.out[k]? with
  | none => (s, c)
  | some p =>
    let s := match s.pinKey core c p.va, p.move with
      | some key, .value x => s.writeSector key p.bytes x
      | _, _ => s
    let out := c.out.eraseIdx k
    (s, { c with out, done := c.done || out.isEmpty })

/-- Every write that a command has still to make. -/
def State.writeAll (s : State) (core : Nat) (c : ECmd) : State × ECmd :=
  (List.range c.out.length).foldl (fun (acc : State × ECmd) _ => acc.1.writeOut core 0 acc.2) (s, c)

/-- An accumulator command from its beginning, or from where it stands, to the end of its effect. -/
def State.runAcc (s : State) (core : Nat) (c : ECmd) : State × ECmd :=
  let r := if c.begun then (s, c) else s.beginAcc core c
  if r.2.op = .lkacc then
    let r := (List.range (r.2.stepCount - r.2.step)).foldl (fun (acc : State × ECmd) _ => acc.1.walkStep core acc.2) r
    let r := r.1.verdict core r.2
    r.1.replay core r.2
  else r.1.writeAll core r.2

/-! ### Start (R267, R269, R271 item 5, R294) -/

/-- The ranges that a lookup command reads and writes, in step order. -/
def ECmd.lkTouches (c : ECmd) : List Touch :=
  match c.op with
  | .cbload | .tbuild | .tbload => c.lkSteps.map fun p => { va := p.va, bytes := c.unit, kind := .load, early := true }
  | .lkdrain | .lkdrainc => c.lkSteps.map fun p => { va := p.va, bytes := c.unit, kind := .store }
  | .lkread => [{ va := c.a.toNat, bytes := c.unit, kind := .store }]
  | _ => []

/-- What a command does whose slice or stack is fenced (R294). -/
def ECmd.fenced (c : ECmd) (stack : Nat) : ECmd :=
  let c := c.note 10 stack 0 0
  let nan : Vector AccRow 32 := Vector.replicate 32 { poi := true }
  match c.op with
  | .lkdrain | .lkdrainc =>
    let out : List Pending := c.lkSteps.flatMap fun p =>
      let sec := resultSectors nan (fld c.b 8 8 = 1)
      ((List.range sec.length).zip sec).map fun x => { va := (p.va + 32 * x.1) % 2 ^ 64, bytes := 32, move := .value x.2 }
    { c with begun := true, out, done := out.isEmpty }
  | .lkread => { c with begun := true, out := imageWrites c.a.toNat nan }
  | .lkstat => { c with begun := true, res := 32, done := true }
  | _ => { c with begun := true, res := 0, done := true }

/-- The command as it stands right after its start: the stacks of a table command's reach, or what a fence makes of it. -/
def State.launchLookup (s : State) (core : Nat) (c : ECmd) : ECmd :=
  let σ := stackOf core
  let t := s.stackAt σ
  if c.op.isTable then
    if c.reach = 0 ∧ t.isFenced (sliceOf core) then c.fenced σ
    else
      let l := (if c.reach = 2 then List.range 18 else [σ]).filter fun n => !(s.stackAt n).fenced
      let prog := l.foldl (fun m n => mapSet m n 0) ([] : AMap Nat)
      { c with prog, done := l.isEmpty || (c.op ≠ .cbclr && c.op ≠ .tbfree && c.stepCount = 0) }
  else if c.op = .lkwait then c
  else if t.isFenced (sliceOf core) then c.fenced σ
  else c

/-- LOOKUP_COMMAND_START (R267): the head of the acting hart's lookup queue starts, where it may; a fault of its pages is a
precise trap at its PC. -/
def State.startLookup (s : State) : State :=
  match s.me.head false with
  | none => s
  | some c =>
    if !s.me.mayStart c then s
    else
      let s := s.beforeStart c
      match s.pin c c.lkTouches with
      | .error (cause, va) => s.trapCmd c cause va
      | .ok (pins, t) => t.startCmd false c pins fun k => s.launchLookup (coreOf s.cur) k

def execLookupCommandStart (s : State) : Result := .next s.startLookup

/-! ### Reports and retirement (R290, R292) -/

/-- A report reaches `lkerr` and `lkepc`, and for conditions 7, 9, 10 and 11 the die's fault record queue (R290, R363). -/
def State.reportLookup (s : State) (hart : Nat) (c : ECmd) (r : Report) : State :=
  let core := coreOf hart
  let t := s.updAsync hart fun h =>
    let e := h.csr.lkerr.toNat
    let count := min 0xFFFF (e / 2 ^ 48 + 1)
    let first := if e % 2 = 1 then e % 2 ^ 48
      else r.unit * 2 ^ 32 + sliceOf core * 2 ^ 24 + r.bank * 2 ^ 16 + r.cond * 2 ^ 8 + 1
    { h with csr := { h.csr with lkerr := BitVec.ofNat 64 (count * 2 ^ 48 + first),
                                 lkepc := if e % 2 = 1 then h.csr.lkepc else c.pc &&& ~~~3 } }
  if r.cond = 7 ∨ 9 ≤ r.cond then
    (t.faultRecord (r.unit / 2)
      { kind := 5, code := r.cond, hart, asid := c.asid.toNat, pc := c.pc, addr := BitVec.ofNat 64 r.addr, stack := r.unit,
        slice := sliceOf core, bank := r.bank }).1
  else t

/-- A lookup command of a hart may retire: its effect is complete; lkmeta reads its header now; lkwait has nothing before
it (R288, R289). -/
def Hart.lkRetirable (h : Hart) (c : ECmd) : Bool :=
  c.started && (c.done || c.op = .lkmeta || (c.op = .lkwait && h.lq.all fun o => c.id ≤ o.id)) && h.mayRelease c

/-- A lookup command retires (R267): its reports, gd, its token. -/
def State.retireLookup (s : State) (hart : Nat) (c : ECmd) : State :=
  let core := coreOf hart
  let σ := stackOf core
  let (s, c) :=
    if c.op = .lkmeta && !c.done then
      let (t, errs) := (s.stackAt σ).meetErrors (sliceOf core) [c.first] []
      (s.updStack σ fun _ => t, { errs.foldl (fun c b => c.note 11 σ b 0) c with res := BitVec.ofNat 64 (t.slot (sliceOf core) c.first).header })
    else (s, c)
  let s := (sortReports c.reports).foldl (fun s r => s.reportLookup hart c r) s
  s.leave hart false (if c.op = .lkwait then { c with res := (s.hart hart).csr.lkerr } else c)

/-- LOOKUP_COMMAND_RETIRE (R267): the k-th of a hart's commands that may retire. -/
def execLookupCommandRetire (hart k : Nat) (s : State) : Result :=
  match ((s.hart hart).lq.filter (s.hart hart).lkRetirable)[k]? with
  | some c => .next (s.retireLookup hart c)
  | none => .next s

/-! ### The order of commands at a slice and at a stack (R268) -/

/-- The started lookup commands of a core, each with its hart, in the order in which they started. -/
def State.coreLookups (s : State) (core : Nat) : List (Nat × ECmd) :=
  let l := (List.range 4).flatMap fun k => ((s.hart (4 * core + k)).lq.filter (·.started)).map fun c => (4 * core + k, c)
  l.foldl (fun acc x => acc.takeWhile (fun y => y.2.stamp < x.2.stamp) ++ x :: acc.dropWhile fun y => y.2.stamp < x.2.stamp) []

/-- The accumulator command whose turn it is at the slice: the first to start of those that have not retired. One that a fence
has ended has nothing left to do there. -/
def State.accHead (s : State) (core : Nat) : Option (Nat × ECmd) :=
  (s.coreLookups core).find? fun x => x.2.op.isAcc && (!x.2.reports.any (·.cond = 10) || !x.2.out.isEmpty)

/-- The accumulator command that has begun at the slice and not retired. -/
def State.accCurrent (s : State) (core : Nat) : Option (Nat × ECmd) := (s.accHead core).filter (·.2.begun)

/-- The accumulator command that begins next, where none has begun. -/
def State.accNext (s : State) (core : Nat) : Option (Nat × ECmd) := (s.accHead core).filter (!·.2.begun)

/-- A command and the state after a part of its work. -/
def State.put (r : State × ECmd) (hart : Nat) : State := r.1.updCmd hart false r.2.id fun _ => r.2

/-- ACCUMULATOR_COMMAND_BEGIN (R268). -/
def execAccumulatorCommandBegin (core : Nat) (s : State) : Result :=
  match s.accNext core with
  | some (h, c) => .next (State.put (s.beginAcc core c) h)
  | none => .next s

/-- LOOKUP_STEP (R261). -/
def execLookupStep (core : Nat) (s : State) : Result :=
  match s.accCurrent core with
  | some (h, c) => if c.op = .lkacc then .next (State.put (s.walkStep core c) h) else .next s
  | none => .next s

/-- CHECK_VERDICT (R283). -/
def execCheckVerdict (core : Nat) (s : State) : Result :=
  match s.accCurrent core with
  | some (h, c) => if c.op = .lkacc then .next (State.put (s.verdict core c) h) else .next s
  | none => .next s

/-- SECOND_REPLAY (R283). -/
def execSecondReplay (core : Nat) (s : State) : Result :=
  match s.accCurrent core with
  | some (h, c) => if c.op = .lkacc then .next (State.put (s.replay core c) h) else .next s
  | none => .next s

/-- The table command of a core that a stack applies next. -/
def State.tableHead (s : State) (core stack : Nat) : Option (Nat × ECmd) :=
  (s.coreLookups core).find? fun x =>
    x.2.op.isTable && !x.2.done &&
    match mapGet x.2.prog stack with
    | some k => k < (if x.2.op = .cbclr ∨ x.2.op = .tbfree then 1 else x.2.stepCount)
    | none => false

/-- TABLE_COMMAND_APPLY (R268): a stack applies the next step of a core's table command other than a tbuild. -/
def State.tableApply (s : State) (stack core : Nat) : State :=
  match s.tableHead core stack with
  | some (h, c) =>
    if c.op = .tbuild then s
    else
      let r := s.applyTable core stack ((mapGet c.prog stack).getD 0) c
      State.put (r.1, r.2.applied stack) h
  | none => s

def execTableCommandApply (stack core : Nat) (s : State) : Result := .next (s.tableApply stack core)

/-- TABLE_BUILD (R250): a stack's builder forms the table of a core's next activation group. -/
def State.tableBuild (s : State) (stack core : Nat) : State :=
  match s.tableHead core stack with
  | some (h, c) =>
    let k := (mapGet c.prog stack).getD 0 + ((s.stackAt stack).built.filter fun b => b.id = c.id).length
    if c.op = .tbuild ∧ k < c.stepCount then
      let (d, c) := s.payload core c k
      let (tabs, bad) := c.built (s.stackAt stack) k d
      let c := if bad then c.note 5 stack 0 0 else c
      let n := (c.lkStep (nestNth c.nest k)).s.toNat
      State.put (s.updStack stack fun t =>
        { t with built := t.built ++ [{ hart := h, id := c.id, slices := c.slices core, slot := n, tables := tabs }] }, c) h
    else s
  | none => s

def execTableBuild (stack core : Nat) (s : State) : Result := .next (s.tableBuild stack core)

/-- TABLE_PRESS (R253): the first table built in a stack arrives in its slots. -/
def State.tablePress (s : State) (stack : Nat) : State :=
  match (s.stackAt stack).built with
  | [] => s
  | b :: rest =>
    (s.updStack stack fun t => { t with built := rest }.press b.slices b.slot b.tables).updCmd b.hart false b.id (·.applied stack)

def execTablePress (stack : Nat) (s : State) : Result := .next (s.tablePress stack)

/-! ### Progress where no events drive the engines -/

/-- The steps of a core's table commands in one stack, to the end. -/
def State.tablesTo (fuel : Nat) (s : State) (core stack : Nat) : State :=
  match fuel with
  | 0 => s
  | fuel + 1 =>
    if !(s.stackAt stack).built.isEmpty then (s.tablePress stack).tablesTo fuel core stack
    else
      match s.tableHead core stack with
      | none => s
      | some (_, c) => (if c.op = .tbuild then s.tableBuild stack core else s.tableApply stack core).tablesTo fuel core stack

/-- The accumulator commands of a core's harts, and the retirement of everything complete. -/
def State.accsTo (fuel : Nat) (s : State) (core : Nat) : State :=
  match fuel with
  | 0 => s
  | fuel + 1 =>
    let next := match s.accCurrent core with
      | some x => if x.2.done then none else some x
      | none => s.accNext core
    match next with
    | some (h, c) => (State.put (s.runAcc core c) h).accsTo fuel core
    | none =>
      match ((List.range 4).flatMap fun k =>
          ((s.hart (4 * core + k)).lq.filter (s.hart (4 * core + k)).lkRetirable).map fun c => (4 * core + k, c)).head? with
      | some (h, c) =>
        (s.retireLookup h c).accsTo fuel core
      | none => s

/-- The acting hart's lookup commands start, and those of its core run to retirement. -/
def State.lookupGo (s : State) : State :=
  let core := coreOf s.cur
  (List.range 17).foldl (fun t _ =>
    if (t.hart s.cur).lq.isEmpty && (t.coreLookups core).isEmpty then t
    else
      let u := t.startLookup
      let u := (List.range 18).foldl (fun u σ => u.tablesTo 2100 core σ) u
      u.accsTo 64 core) s

/-! ### The stack's own events -/

/-- REFRESH (R259, R242): a bank refreshes, closing its rows. -/
def execRefresh (stack slice bank : Nat) (s : State) : Result :=
  .next (s.updStack stack fun t => { t with latches := t.latches.filter fun e => e.1 / 2 ≠ 32 * slice + bank })

/-- The mode after a sample: one step up or down (R264). -/
def nextMode (mode : BitVec 2) (t : Nat) : BitVec 2 :=
  match mode.toNat with
  | 0 => if 85 < t then 1 else 0
  | 1 => if 95 < t then 2 else if t ≤ 83 then 0 else 1
  | 2 => if 105 < t then 3 else if t ≤ 93 then 1 else 2
  | _ => if t ≤ 100 then 2 else 3

/-- TEMPERATURE_SAMPLE (R264, R266): the sixteen dies' temperatures; the hottest decides. -/
def execTemperatureSample (stack : Nat) (temps : List Nat) (s : State) : Result :=
  let l := (temps.take 16).map (· % 256)
  let hot := l.foldl max 0
  .next (s.updStack stack fun t =>
    let m := nextMode t.mode hot
    { t with tmax := BitVec.ofNat 8 hot, tdie := BitVec.ofNat 4 (((findIdx (· = hot) l).map (·.1)).getD 0), mode := m
             prot := if m = 3 ∧ t.mode ≠ 3 then t.prot + 1 else t.prot })

/-- APERTURE_STORE (R326): a store of n bytes into a row of a slice's control window. -/
def execApertureStore (stack slice row off n x : Nat) (s : State) : Result :=
  .next (if row < 16 ∧ off + n ≤ 0x8000 ∧ slice < 32 then s.updStack stack fun t => t.windowStore slice row off n x else s)

/-! ### Supervisor commands (R325) -/

/-- The lookup operation of a major. -/
def lkOfMajor (m : Nat) : Option EOpc :=
  [EOpc.cbload, .cbclr, .tbuild, .tbload, .tbfree, .lkinit, .lkacc, .lkdrain, .lkdrainc, .lkread, .lkclr, .lkstat, .lkmeta,
   .lkwait][m - 0x50]?.filter fun _ => 0x50 ≤ m

/-- The operation walks a nest (R274). -/
def EOpc.walks : EOpc → Bool
  | .cbload | .tbuild | .tbload | .lkacc | .lkdrain | .lkdrainc => true
  | _ => false

/-- Addresses of a supervisor command are local offsets in the package. -/
def State.localPins (s : State) : List TlbEntry :=
  [{ asid := 0, va := 0, size := 45, leaf := BitVec.ofNat 64 (s.pkg.number.toNat * 2 ^ 45 + 0x83) }]

/-- A supervisor command from its record: none where it is not run. -/
def State.supCommand (s : State) (stack slice r : Nat) : Option ECmd :=
  match lkOfMajor (bits r 7 0) with
  | none => none
  | some op =>
    let depth := bits r 15 8
    let c : ECmd :=
      { id := s.seq, pc := 0, op, a := BitVec.ofNat 64 (bits r 127 64), b := BitVec.ofNat 64 (bits r 191 128)
        nest := if depth = 1 then [BitVec.ofNat 128 (bits r 319 192)] else [], level := .supervisor, started := true
        pins := s.localPins }
    let reached := c.lkTouches.all fun t =>
      t.parts.all fun p => (s.pinKey (coreOfSlice stack slice) c p.va).isSome && p.va < 2 ^ 45
    if 1 < depth ∨ (depth = 1 ∧ !op.walks) ∨ c.badOperand ∨ c.misaligned.isSome ∨ !reached then none else some c

/-- Every table built in a stack arrives, in the order in which its builder built them (R253). -/
def State.pressAll (s : State) (stack : Nat) : State :=
  (List.range (s.stackAt stack).built.length).foldl (fun t _ => t.tablePress stack) s

/-- A table command applied at every stack of its reach, at once, behind the tables that stand built there. -/
def State.runTable (s : State) (core : Nat) (c : ECmd) : State × ECmd :=
  c.prog.foldl (fun (acc : State × ECmd) e =>
    let acc := (acc.1.pressAll e.1, acc.2)
    (List.range (if c.op = .cbclr ∨ c.op = .tbfree then 1 else c.stepCount)).foldl (fun (acc : State × ECmd) k =>
      if c.op = .tbuild then
        let (d, c) := acc.1.payload core acc.2 k
        let (tabs, bad) := c.built (acc.1.stackAt e.1) k d
        (acc.1.updStack e.1 fun t => t.press (c.slices core) (c.lkStep (nestNth c.nest k)).s.toNat tabs,
         if bad then c.note 5 e.1 0 0 else c)
      else acc.1.applyTable core e.1 k acc.2) acc) (s, c)

/-- The record with its command's status, and the result of lkstat or lkmeta. -/
def Stack.setStatus (t : Stack) (slice status : Nat) (res : Option Nat) : Stack :=
  let r := setBits ((mapGet t.recs slice).getD 0) 63 32 status
  { t with recs := mapSet t.recs slice (match res with | some x => setBits r 383 320 x | none => r) }

/-- The record after its command: the major byte 0, and no command. -/
def Stack.endRecord (t : Stack) (slice : Nat) : Stack :=
  { t with recs := mapSet t.recs slice (setBits ((mapGet t.recs slice).getD 0) 7 0 0), sup := t.sup.filter (· ≠ slice) }

/-- The fault record of a supervisor command's report: condition 11 is an error in a store that no hart owns (R248, R290, R363;
DEDUCED, log entry 23). -/
def supRecord (slice : Nat) (r : Report) : FaultRecord :=
  { kind := if r.cond = 11 then 7 else 5, code := r.cond, addr := BitVec.ofNat 64 r.addr, stack := r.unit, slice, bank := r.bank }

/-- SUPERVISOR_COMMAND (R325): the oldest supervisor command of a stack runs, as a fifth hart's would (R268): after the
started commands of its core's harts that are of its kind. Its reports go to the status, and to the die's fault records (R290).
It sets the status, and with its next turn writes 0 to the major byte. -/
def State.supervisor (s : State) (stack : Nat) : State :=
  match (s.stackAt stack).sup with
  | [] => s
  | slice :: _ =>
    let core := coreOfSlice stack slice
    let r := (mapGet (s.stackAt stack).recs slice).getD 0
    if bits r 63 32 ≠ 0 then s.updStack stack (·.endRecord slice)
    else
    match s.supCommand stack slice r with
    | none => s.updStack stack fun t => t.setStatus slice 2 none
    | some c =>
      if (s.coreLookups core).any fun x => (x.2.op.isTable && c.op.isTable) || (x.2.op.isAcc && c.op.isAcc) then s
      else
        let c := s.launchLookup core c
        let (s, c) :=
          if c.op = .lkmeta && !c.done then
            let (t, errs) := (s.stackAt stack).meetErrors slice [c.first] []
            (s.updStack stack fun _ => t,
             { errs.foldl (fun c b => c.note 11 stack b 0) c with res := BitVec.ofNat 64 (t.slot slice c.first).header })
          else if c.done || c.op = .lkwait then (s, c)
          else if c.op.isTable then s.runTable core c
          else s.runAcc core c
        let l := sortReports c.reports
        let s := (l.filter fun r => r.cond = 7 || decide (9 ≤ r.cond)).foldl (fun s r =>
          (s.faultRecord (r.unit / 2) (supRecord slice r)).1) s
        let status := match l with | r :: _ => 2 + 256 * r.cond | [] => 1
        s.updStack stack fun t =>
          t.setStatus slice status (if c.op = .lkstat ∨ c.op = .lkmeta then some c.res.toNat else none)

def execSupervisorCommand (stack : Nat) (s : State) : Result := .next (s.supervisor stack)

end Sys2Proof.Machine
end

