-- ==== Sys2Proof/Machine/Tasks.lean ====
section
/-! DEFINITION. The task instructions and the cancelling of a launch (spec/14_tasks.md, R410 to R415, R385). -/

namespace Sys2Proof.Machine

/-- launch (R411): its traps, a release at package scope, the record as one snapshot, and its acceptance. A launch issued by a
task writes a completion record for the host on the session of that task's launch (DESIGN CHOICE, log entry 49). -/
def execLaunch (d a : BitVec 5) (s : State) : Result :=
  let va := s.g a
  match s.scalarRead 128 .load va with
  | .error .poisonedData => .next (s.release 4 fun t => t.trap .poisonedData va)
  | .error c => .next (s.trap c (c.memVal va (fieldsVal (.i 0 2 a d 0x73))))
  | .ok (_, x, t) =>
    .next (t.release 4 fun u =>
      let l := leBytes 128 x
      if u.me.level = .user ∧ bytesAt l 36 2 ≠ u.me.csr.asid.toNat then u.write d (BitVec.ofNat 64 (2 ^ 63 + 1))
      else
        let session := match u.me.task with
          | some k => (mapGet u.launches k.launch).bind (·.session)
          | none => none
        match u.accept l session (u.me.task.map fun k => (u.cur, k)) with
        | (v, .ok n) => v.write d (BitVec.ofNat 64 n)
        | (v, .error st) => v.write d (BitVec.ofNat 64 (2 ^ 63 + st)))

/-- wfe (R414): with the event bit set it clears it and continues; otherwise it waits. -/
def execWfe (s : State) : Result :=
  if s.me.eventBit then .next (s.updMe fun h => { h with eventBit := false }).next else .next (s.stall .event)

/-- A ready launch of at least this priority, for which the core is eligible once the hart has given up its quads, has work
waiting (R412). -/
def State.offered (s : State) (priority : Nat) : Bool :=
  s.service.any fun e =>
    priority ≤ recPriority e.2.record && s.eligibleBut (some s.cur) e.2 (coreOf s.cur) &&
    (!e.2.saved.isEmpty || e.2.hasBlock || !(e.2.heldAt (dieOf s.cur)).isEmpty)

/-- The acting hart's launch. -/
def State.myLaunch (s : State) : Option Launch :=
  match s.me.task with
  | some t => mapGet s.launches t.launch
  | none => none

/-- PEND bit 0, and the request behind it, are cleared. -/
def Hart.clearPreempt (h : Hart) : Hart := { h with csr := { h.csr with pend := h.csr.pend &&& 6 }, preempt := none }

/-- yield (R412): the save that the distributor may make of it, or no effect. A save waits until everything before the
yield has retired. -/
def execYield (s : State) : Result :=
  match s.myLaunch with
  | none => .next s.next
  | some l =>
    let offer := s.offered (recPriority l.record)
    let save (k : State) : State :=
      if !s.me.quiet || !s.me.rf.isEmpty then s.stall .drain
      else
        match s.saveContext s.cur { pc := s.me.pc + 4 } false with
        | some t => t.updMe Hart.clearPreempt
        | none => k
    match s.me.level with
    | .user => if offer && l.freeSlot.isSome then .next (save s.next) else .next s.next
    | .supervisor =>
      if s.me.csr.pend.getLsbD 0 || offer then
        let on := (s.updMe Hart.clearPreempt).next
        if l.freeSlot.isSome then .next (save on) else .next on
      else .next s.next

/-- texit (R415): once everything of the task has retired and performed, the launch is charged, the task is counted, and the
hart is idle. -/
def execTexit (s : State) : Result :=
  if !s.me.quiet || !s.me.rf.isEmpty then .next (s.stall .drain)
  else
    let t := s.inOrder
    match t.me.task with
    | none => .next t.next
    | some k =>
      let h := t.me
      .next ((t.vacate t.cur).updLaunch k.launch fun l =>
        { (l.leaveGroups k.index h.barWait).charge h.csr.wear.toNat (t.energyOf h).toNat with
          running := l.running.filter (· ≠ k.index)
          completed := if h.level = .user then l.completed + 1 else l.completed
          aborted := if h.level = .user then l.aborted else l.aborted + 1 })

/-- LAUNCH_CANCEL (R385): the launch takes status 9; its running tasks are ended, which counts them as nothing. -/
def execLaunchCancel (n : Nat) (s : State) : Result :=
  match mapGet s.launches n with
  | some l => if l.stage = .accepted ∨ l.stage = .running then .next (s.endLaunch n 9 false) else .next s
  | none => .next s

end Sys2Proof.Machine
end

