-- ==== Sys2Proof/Machine/Transfer.lean ====
section
/-! DEFINITION. Transfer commands, trains, windows, near-memory programs and the CXL tier (spec/11_transfer.md, R296 to R327;
spec/12_sync.md, R335). -/

namespace Sys2Proof.Machine

/-! ### Operands at issue (R298 items 2 and 3) -/

/-- Bits of a register operand. -/
def opnd (w : Word) (hi lo : Nat) : Nat := bits w.toNat hi lo

/-- The number of steps of a command's nest. -/
def ECmd.steps (c : ECmd) : Nat := nestProduct c.nest

/-- The element width of a strain in bytes (R309). -/
def ECmd.trainWidth (c : ECmd) : Nat := 2 ^ opnd c.x 17 16

/-- The floating format of a strain. -/
def ECmd.trainFmt (c : ECmd) : Option Fmt :=
  match opnd c.x 23 20 with
  | 10 => some .bf16 | 11 => some .f16 | 12 => some .f32 | 13 => some .f64 | _ => none

/-- A register field or product of bounds outside its limits. -/
def ECmd.badTransfer (c : ECmd) : Bool :=
  match c.op with
  | .xcopy | .xfill => decide (2 ^ 24 < c.b.toNat) || decide (65536 < c.steps) || decide (2 ^ 24 < c.b.toNat * c.steps)
  | .xshape => decide (64 < c.steps)
  | .nma => decide (c.b.toNat < 1) || decide (16384 < c.b.toNat) || decide (4096 < c.steps) || decide (2 ^ 22 < c.b.toNat * c.steps)
  | .strain =>
    opnd c.x 19 18 == 3 || (opnd c.x 19 18 == 2 && (match c.trainFmt with | some f => f.bytes != c.trainWidth | none => true))
  | .wsend => decide (opnd c.x 56 32 < 1) || decide (2 ^ 24 < opnd c.x 56 32)
  | .wsendi => opnd c.x 31 0 % 8 != 0
  | _ => false

/-- The step addresses of gs1. -/
def ECmd.aSteps (c : ECmd) : List Nat := (nestSums c.nest).map fun n => addr64 (c.a.toNat + n.1)

/-- The first address from a register that breaks its alignment. -/
def ECmd.badAlign (c : ECmd) : Option Nat :=
  let chk (l : List (Nat × Nat)) : Option Nat := (l.find? fun x => x.1 % x.2 ≠ 0).map (·.1)
  match c.op with
  | .xshape => chk (c.aSteps.map fun v => (v, 64))
  | .xgather | .wreg => chk [(c.a.toNat, 32)]
  | .strain => chk [(c.a.toNat, c.trainWidth), (c.b.toNat, 8)]
  | .nmx => chk [(c.a.toNat, 64)]
  | .nmxld => chk [(c.a.toNat, 128)]
  | .nma => chk [(c.x.toNat, 4), (c.a.toNat, 4)]
  | _ => none

/-- The check at issue. -/
def ECmd.xferCheck (c : ECmd) : Option (Cause × Word) :=
  if c.badTransfer then some (.transferOperand, c.word)
  else c.badAlign.map fun v => (.misalignedAccess, BitVec.ofNat 64 v)

/-- The feature that an opcode needs by its word alone (R377). -/
def EOpc.feature : EOpc → Option Nat
  | .nmx | .nmxld => some 5
  | .strain => some 6
  | .wsend | .wsendi | .wreg | .wunreg | .wctr => some 7
  | .pgin | .pgout => some 8
  | _ => none

/-- A transfer instruction at the PC issues (R296, R298). -/
def State.transfer (s : State) (op : EOpc) (maj : BitVec 7) (d a b : BitVec 5) (nest : BitVec 3) (e : EMod) : State :=
  let has := match op.feature with
    | some n => s.core.fmask.getLsbD n
    | none => true
  s.issueCmd { op, x := true, word := fieldsVal (.e e nest b a d maj), d, a, b, nest, e } has true ECmd.xferCheck

def execXcopy (d a b : BitVec 5) (nest : BitVec 3) (e : EMod) (s : State) : Result := .next (s.transfer .xcopy 0x60 d a b nest e)
def execXshape (a : BitVec 5) (nest : BitVec 3) (e : EMod) (s : State) : Result := .next (s.transfer .xshape 0x61 0 a 0 nest e)
def execXfill (d a b : BitVec 5) (nest : BitVec 3) (e : EMod) (s : State) : Result := .next (s.transfer .xfill 0x62 d a b nest e)
def execXgather (d a : BitVec 5) (e : EMod) (s : State) : Result := .next (s.transfer .xgather 0x63 d a 0 0 e)
def execWsend (d a b : BitVec 5) (e : EMod) (s : State) : Result := .next (s.transfer .wsend 0x64 d a b 0 e)
def execWsendi (d a b : BitVec 5) (e : EMod) (s : State) : Result := .next (s.transfer .wsendi 0x65 d a b 0 e)
def execWreg (d a : BitVec 5) (e : EMod) (s : State) : Result := .next (s.transfer .wreg 0x66 d a 0 0 e)
def execWunreg (a : BitVec 5) (e : EMod) (s : State) : Result := .next (s.transfer .wunreg 0x67 0 a 0 0 e)
def execWctr (d : BitVec 5) (e : EMod) (s : State) : Result := .next (s.transfer .wctr 0x68 d 0 0 0 e)
def execStrain (d a b : BitVec 5) (e : EMod) (s : State) : Result := .next (s.transfer .strain 0x69 d a b 0 e)
def execNmx (a : BitVec 5) (e : EMod) (s : State) : Result := .next (s.transfer .nmx 0x6A 0 a 0 0 e)
def execNmxld (a b : BitVec 5) (e : EMod) (s : State) : Result := .next (s.transfer .nmxld 0x6B 0 a b 0 e)
def execPgin (a b : BitVec 5) (e : EMod) (s : State) : Result := .next (s.transfer .pgin 0x6C 0 a b 0 e)
def execPgout (a b : BitVec 5) (e : EMod) (s : State) : Result := .next (s.transfer .pgout 0x6D 0 a b 0 e)
def execXwait (d : BitVec 5) (e : EMod) (s : State) : Result := .next (s.transfer .xwait 0x6E d 0 0 0 e)
def execNma (d a b : BitVec 5) (nest : BitVec 3) (e : EMod) (s : State) : Result := .next (s.transfer .nma 0x71 d a b nest e)

/-! ### The writes of copies (R305, R306, R308) -/

/-- A run cut into naturally aligned granules of 8 bytes, and single bytes where a granule does not lie wholly within it
(R302): offset and bytes of each. -/
def granules (fuel va off n : Nat) : List (Nat × Nat) :=
  match fuel with
  | 0 => []
  | fuel + 1 =>
    if n = 0 then []
    else if (va + off) % 8 = 0 ∧ 8 ≤ n then (off, 8) :: granules fuel va (off + 8) (n - 8)
    else (off, 1) :: granules fuel va (off + 1) (n - 1)

/-- The writes of a copied run, the `run`-th of its command. -/
def copyRun (dst src n run : Nat) : List Pending :=
  (granules n (dst % 2 ^ 64) 0 n).map fun g =>
    { va := (dst + g.1) % 2 ^ 64, bytes := g.2, move := .copy ((src + g.1) % 2 ^ 64) (if dst % 8 = src % 8 then none else some run) }

/-- The writes of copied runs, each a destination and a source. -/
def copyRuns (n : Nat) (l : List (Nat × Nat)) : List Pending := l.zipIdx.flatMap fun x => copyRun x.1.1 x.1.2 n x.2

/-- The pattern's bytes at an address (R305). -/
def fillValue (pat : Word) (va n : Nat) : Nat :=
  (List.range n).foldr (fun i x => bits pat.toNat (8 * ((va + i) % 8) + 7) (8 * ((va + i) % 8)) + 256 * x) 0

/-- The writes of a filled run. -/
def fillRun (dst : Nat) (pat : Word) (n : Nat) : List Pending :=
  (granules n (dst % 2 ^ 64) 0 n).map fun g =>
    let va := (dst + g.1) % 2 ^ 64
    { va, bytes := g.2, move := .value (fillValue pat va g.2) }

/-- The fields of a shape record (R306). -/
structure Shape where
  src : Nat
  dst : Nat
  ext : List Nat
  ss : List Int
  ds : List Int
  sf : Nat
  df : Nat
  raw : Nat
  rm : RM
  sat : Bool
  zero : Bool
  deriving DecidableEq, Repr

/-- A shape record from its 64 bytes. -/
def shapeOf (l : List Nat) : Shape :=
  { src := bytesAt l 0 8, dst := bytesAt l 8 8, ext := (List.range 3).map fun i => bytesAt l (16 + 4 * i) 4
    ss := (List.range 3).map fun i => sint 32 (bytesAt l (28 + 4 * i) 4)
    ds := (List.range 3).map fun i => sint 32 (bytesAt l (40 + 4 * i) 4)
    sf := bytesAt l 52 1, df := bytesAt l 53 1, raw := bytesAt l 54 1
    rm := RM.ofCode (BitVec.ofNat 2 (bytesAt l 55 1)), sat := bit (bytesAt l 55 1) 2
    zero := bytesAt l 55 1 < 8 && bytesAt l 56 8 == 0 }

/-- The format of a shape record's format byte. -/
def shapeFmt (x : Nat) : Option Fmt := if x < 15 then Fmt.ofCode (BitVec.ofNat 4 x) else none

/-- The element sizes of source and destination. -/
def Shape.sizes (r : Shape) : Nat × Nat :=
  match shapeFmt r.sf, shapeFmt r.df with
  | some f, some g => (f.bytes, g.bytes)
  | _, _ => (2 ^ r.raw, 2 ^ r.raw)

/-- The elements of a record. -/
def Shape.count (r : Shape) : Nat := r.ext.foldl (· * ·) 1

/-- A field is outside its limits (R306). -/
def Shape.bad (r : Shape) : Bool :=
  let (m, n) := r.sizes
  (shapeFmt r.sf).isNone && r.sf != 0xFF || (shapeFmt r.df).isNone && r.df != 0xFF || (r.sf == 0xFF) != (r.df == 0xFF) ||
  decide (3 < r.raw) || (r.raw != 0 && r.sf != 0xFF) || !r.zero ||
  r.src % m != 0 || r.dst % n != 0 || r.ext.any (fun e => e < 1 || 2 ^ 24 < e) ||
  r.ss.any (fun x => x % m != 0) || r.ds.any (fun x => x % n != 0)

/-- The addresses of a record's elements, i0 innermost: source and destination. -/
def Shape.elems (r : Shape) : List (Nat × Nat) :=
  (List.range (r.ext.getD 2 0)).flatMap fun (i2 : Nat) => (List.range (r.ext.getD 1 0)).flatMap fun (i1 : Nat) =>
    (List.range (r.ext.getD 0 0)).map fun (i0 : Nat) =>
      (addr64 (r.src + i0 * r.ss.getD 0 0 + i1 * r.ss.getD 1 0 + i2 * r.ss.getD 2 0),
       addr64 (r.dst + i0 * r.ds.getD 0 0 + i1 * r.ds.getD 1 0 + i2 * r.ds.getD 2 0))

/-- The writes of a record. -/
def Shape.writes (r : Shape) : List Pending :=
  let (_, n) := r.sizes
  r.elems.map fun e =>
    { va := e.2, bytes := n,
      move := match shapeFmt r.sf, shapeFmt r.df with
        | some f, some g => .convert e.1 f g r.rm r.sat
        | _, _ => .copy e.1 none }

/-! ### Start (R296, R298 items 4 to 6, R301, R307) -/

/-- A trap at start, or the command as it starts. -/
abbrev Started := Except (Cause × Word) (ECmd × List TlbEntry × State)

/-- The pages that a command pins may be at most 256 (R298 item 6). -/
def finishStart (c : ECmd) (pins : List TlbEntry) (s : State) : Started :=
  if 256 < (pins.eraseDups).length then .error (.transferOperand, c.word) else .ok (c, pins.eraseDups, s)

/-- A range read as one snapshot at start, under entries pinned for it: bytes of the hart's own earlier stores are seen, since
the start has waited for them (R307). -/
def State.snapshot (s : State) (c : ECmd) (pins : List TlbEntry) (va n : Nat) : List Nat :=
  (s.readCmd (coreOf s.cur) { c with pins } va n).1

/-- xcopy and xfill (R305). -/
def State.startCopy (s : State) (c : ECmd) : Started :=
  let n := c.b.toNat
  let sums := if n = 0 then [] else nestSums c.nest
  let runs := sums.map fun x => (addr64 (c.a.toNat + x.1), addr64 (c.x.toNat + x.2.1))
  let touches := runs.flatMap fun r =>
    if c.op = .xcopy then oneStep [{ va := r.1, bytes := n, kind := .load }, { va := r.2, bytes := n, kind := .store }]
    else [{ va := r.2, bytes := n, kind := .store }]
  match s.pin c touches with
  | .error e => .error e
  | .ok (pins, t) =>
    let out := if c.op = .xcopy then copyRuns n (runs.map fun r => (r.2, r.1)) else runs.flatMap fun r => fillRun r.2 c.a n
    finishStart { c with out, done := out.isEmpty } pins t

/-- The pages that follow a record are pinned. Where a field of the record is outside its limits, `bad`, the command traps for
that, but for a feature that those pages need (R298 item 4, R378). -/
def State.pinBehind (s : State) (c : ECmd) (bad : Bool) (before : List Touch) (l : List Touch) : Except (Cause × Word) (List TlbEntry × State) :=
  let limit : Except (Cause × Word) (List TlbEntry × State) := .error (.transferOperand, c.word)
  if bad && s.core.fmask.getLsbD 13 then limit
  else
    match s.pin c l before with
    | .error e => if bad && e.1 != .featureAbsent then limit else .error e
    | .ok r => .ok r

/-- xshape (R306). -/
def State.startShape (s : State) (c : ECmd) : Started :=
  let records : List Touch := c.aSteps.map fun v => { va := v, bytes := 64, kind := .load, early := true }
  match s.pin c records with
  | .error e => .error e
  | .ok (p1, t) =>
    let recs := c.aSteps.map fun v => shapeOf (t.snapshot c p1 v 64)
    let bad := recs.any (·.bad) || decide (2 ^ 24 < (recs.map fun r => r.count * r.sizes.2).sum)
    if bad && s.core.fmask.getLsbD 13 then .error (.transferOperand, c.word)
    else
      match t.pinBehind c bad records (recs.flatMap fun r => oneStep (r.elems.flatMap fun e =>
          [{ va := e.1, bytes := r.sizes.1, kind := .load }, { va := e.2, bytes := r.sizes.2, kind := .store }])) with
      | .error e => .error e
      | .ok (p2, u) =>
        let out := recs.flatMap (·.writes)
        if bad then .error (.transferOperand, c.word) else finishStart { c with out, done := out.isEmpty } (p1 ++ p2) u

/-- xgather (R308). -/
def State.startGather (s : State) (c : ECmd) : Started :=
  let record : Touch := { va := c.a.toNat, bytes := 32, kind := .load, early := true }
  match s.pin c [record] with
  | .error e => .error e
  | .ok (p1, t) =>
    let l := t.snapshot c p1 c.a.toNat 32
    let r := bytesAt l 16 4
    let n := bytesAt l 20 4
    let fm := bytesAt l 28 1
    let w := if fm % 2 = 0 then 4 else 8
    let bad := decide (r < 1) || decide (65536 < r) || decide (n < 1) || decide (4096 < n) || decide (2 ^ 24 < r * n) ||
      decide (3 < fm) || bytesAt l 29 3 != 0 || bytesAt l 8 8 % w != 0
    let index : Touch := { va := bytesAt l 8 8, bytes := n * w, kind := .load, early := true }
    match t.pinBehind c bad [record] [index] with
    | .error e => .error e
    | .ok (p2, u) =>
      let ix := u.snapshot c p2 (bytesAt l 8 8) (n * w)
      let rows := (List.range n).map fun (i : Nat) =>
        let x := bytesAt ix (i * w) w
        let x : Int := if fm < 2 then x else sint (8 * w) x
        (addr64 (c.x.toNat + i * sint 32 (bytesAt l 24 4)), addr64 (bytesAt l 0 8 + x * r))
      match u.pinBehind c bad [record, index] (oneStep (rows.flatMap fun x =>
          [{ va := x.2, bytes := r, kind := .load }, { va := x.1, bytes := r, kind := .store }])) with
      | .error e => .error e
      | .ok (p3, v) =>
        if bad then .error (.transferOperand, c.word) else finishStart { c with out := copyRuns r rows } (p1 ++ p2 ++ p3) v

/-- The key of an error in element i of a strain's lists, of its value or else of its address. -/
def State.trainError (s : State) (c : ECmd) (pins : List TlbEntry) (i : Nat) : Option Nat :=
  let d := { c with pins }
  match (s.readCmd (coreOf s.cur) d (c.a.toNat + i * c.trainWidth) c.trainWidth).2 with
  | some k => some k
  | none => (s.readCmd (coreOf s.cur) d (c.b.toNat + 8 * i) 8).2

/-- strain (R309): its elements as writes in ascending order, and the packages they go to. A feature that a destination needs
stands before the destinations' alignment (R378); an element whose entries in the lists are in error becomes poisoned data
(R302). -/
def State.startTrain (s : State) (c : ECmd) : Started :=
  let n := opnd c.x 15 0 + 1
  let w := c.trainWidth
  let lists := oneStep [{ va := c.a.toNat, bytes := n * w, kind := .load, early := true },
    { va := c.b.toNat, bytes := n * 8, kind := .load, early := true }]
  match s.pin c lists with
  | .error e => .error e
  | .ok (p1, t) =>
    let vals := t.snapshot c p1 c.a.toNat (n * w)
    let addrs := t.snapshot c p1 c.b.toNat (n * 8)
    let els := (List.range n).map fun i => (i, bytesAt addrs (8 * i) 8, bytesAt vals (i * w) w)
    let op := opnd c.x 19 18
    let odd := els.any fun e => e.2.1 % w ≠ 0
    match t.pin c (oneStep (els.map fun e => { va := e.2.1, bytes := w, kind := if op = 0 then .store else .both })) lists with
    | .error e => if odd && e.1 != .featureAbsent then .error (.transferOperand, c.word) else .error e
    | .ok (p2, u) =>
      if odd then .error (.transferOperand, c.word)
      else
        let out := els.map fun e =>
          ({ va := e.2.1, bytes := w,
             move := match t.trainError c p1 e.1 with
               | some k => .spoilt k
               | none => .train op (c.trainFmt.getD .f32) e.2.2 } : Pending)
        let pkgs := els.filterMap fun e => (u.pinKey (coreOf s.cur) { c with pins := p2 } e.2.1).map u.keyPackage
        finishStart { c with out, prog := pkgs.foldl (fun m p => mapSet m p 0) [] } (p1 ++ p2) u

/-- wreg (R301, R311): the lowest page that faults, or that carries the tier attribute, stops it. -/
def State.startReg (s : State) (c : ECmd) : Started :=
  let record : Touch := { va := c.a.toNat, bytes := 32, kind := .load, early := true }
  match s.pin c [record] with
  | .error e => .error e
  | .ok (p1, t) =>
    let l := t.snapshot c p1 c.a.toNat 32
    let base := bytesAt l 0 8
    let size := bytesAt l 8 8
    let ctr := bytesAt l 16 8
    let pages := oneStep [{ va := base, bytes := size, kind := .store }, { va := ctr, bytes := 8, kind := .store }]
    if base % 65536 ≠ 0 ∨ size % 65536 ≠ 0 ∨ size < 65536 ∨ 2 ^ 30 < size ∨ ctr % 8 ≠ 0 ∨ bytesAt l 26 6 ≠ 0 then
      match t.pinBehind c true [record] pages with
      | .error e => .error e
      | .ok _ => .error (.transferOperand, c.word)
    else
      let tier := pages.find? fun p =>
        match t.xlateCmd c p with
        | .ok (_, x) => x.entry.leaf.getLsbD 6
        | .error _ => false
      match t.pin c pages [record], tier with
      | .error e, some p =>
        if e.1 = .featureAbsent ∨ e.2.toNat < p.va then .error e else .error (.protectionFault, BitVec.ofNat 64 p.va)
      | .error e, none => .error e
      | .ok _, some p => .error (.protectionFault, BitVec.ofNat 64 p.va)
      | .ok (p2, u), none =>
          let free := (List.range 4096).filter fun i => (mapGet u.windows i).isNone
          match free with
          | [] => finishStart { c with res := BitVec.allOnes 64, done := true } p1 u
          | f :: _ =>
            let id := free.getD (u.pick 311 free.length) f
            let win : OpenWindow :=
              { base, size, counter := ctr, tag := bytesAt l 24 2, asid := c.asid, level := c.level, core := coreOf s.cur, pins := p2 }
            finishStart { c with res := BitVec.ofNat 64 (id * 4096 + u.pkg.number.toNat), done := true } p1
              { u with windows := mapSet u.windows id win }

/-- wunreg (R312): the window opened under the hart's ASID is closed; no send is between its acceptance and its add. -/
def State.startUnreg (s : State) (c : ECmd) : Started :=
  let id := opnd c.a 11 0
  let mine := match mapGet s.windows id with
    | some w => w.asid == c.asid
    | none => false
  .ok ({ c with done := true }, [], if mine then { s with windows := mapErase s.windows id } else s)

/-- wsend and wsendi (R313, R314): the source and the outbound counter are pinned. -/
def State.startSend (s : State) (c : ECmd) : Started :=
  let src : List Touch := if c.op = .wsend then [{ va := c.a.toNat, bytes := opnd c.x 56 32, kind := .load }] else []
  let out : List Touch := if c.wout.toNat / 8 = 0 then [] else [{ va := c.wout.toNat / 8 * 8, bytes := 8, kind := .both }]
  if opnd c.b 10 0 ≠ s.pkg.number.toNat ∧ !s.core.fmask.getLsbD 13 then .error (.featureAbsent, c.word)
  else
    match s.pin c (oneStep (src ++ out)) with
    | .error e => .error e
    | .ok (pins, t) => finishStart c pins t

/-- nmxld (R320): the record is read once and goes to every stack that is not fenced. -/
def State.startLoad (s : State) (c : ECmd) : Started :=
  match s.pin c [{ va := c.a.toNat, bytes := 128, kind := .load, early := true }] with
  | .error e => .error e
  | .ok (pins, t) =>
    let lkStacks := (List.range 18).filter fun σ => !(t.stackAt σ).fenced
    let l := t.snapshot c pins c.a.toNat 128
    finishStart { c with data := [(0, (l, !validProg l))], prog := lkStacks.map fun σ => (σ, 0), done := lkStacks.isEmpty
                         reports := if validProg l then [] else [{ cond := 5, unit := t.pkg.number.toNat }] } pins t

/-- The stack of this package that holds a key. -/
def State.stackOfKey (s : State) (key : Nat) : Option Nat :=
  if 2 ^ 56 ≤ key || gpaPackage key != s.pkg.number.toNat then none
  else
    match regionOf (gpaOffset key) with
    | .stack σ _ | .window σ _ => some σ
    | _ => none

/-- nmx (R321): record, target stack, the program's snapshot, and the used arrays. `res` keeps the target stack and `data`
the snapshot's bytes and the record. -/
def State.startExpr (s : State) (c : ECmd) : Started :=
  let record : Touch := { va := c.a.toNat, bytes := 64, kind := .load, early := true }
  match s.pin c [record] with
  | .error e => .error e
  | .ok (p1, t) =>
    let l := t.snapshot c p1 c.a.toNat 64
    let n := bytesAt l 40 4
    let slot := bytesAt l 44 1
    let bad := decide (n < 1) || decide (2 ^ 20 < n) || decide (63 < slot) || ofBytes (l.drop 45) != 0
    let out := bytesAt l 0 8
    match t.pinBehind c bad [record] [{ va := out, bytes := 1, kind := .store }] with
    | .error e => .error e
    | .ok (p2, u) =>
      if bad then .error (.transferOperand, c.word)
      else
        match (u.pinKey (coreOf s.cur) { c with pins := p2 } out).bind u.stackOfKey with
        | none => .error (.transferOperand, c.word)
        | some σ =>
          match mapGet (u.stackAt σ).progs slot with
          | none => finishStart { c with res := BitVec.ofNat 64 σ, data := [(1, (l, false))] } (p1 ++ p2) u
          | some pr =>
            match parseProg pr with
            | none => finishStart { c with res := BitVec.ofNat 64 σ, data := [(1, (l, false))] } (p1 ++ p2) u
            | some p =>
              let w := p.fmt.bytes
              let ins := p.used.map fun k => bytesAt l (8 + 8 * k) 8
              let kind : Kind := if p.acc then .both else .store
              match u.pin c (oneStep ({ va := out, bytes := n * w, kind } :: ins.map fun v => { va := v, bytes := n * w, kind := .load })) [record] with
              | .error e => .error e
              | .ok (p3, v) =>
                let inTarget := (out :: ins).all fun a =>
                  ({ va := a, bytes := n * w, kind := .load } : Touch).parts.all fun q =>
                    (v.pinKey (coreOf s.cur) { c with pins := p3 } q.va).bind v.stackOfKey == some σ
                if (out :: ins).any (fun a => a % w ≠ 0) ∨ 2 ^ 24 < n * w ∨ !inTarget then .error (.transferOperand, c.word)
                else finishStart { c with res := BitVec.ofNat 64 σ, data := [(0, (pr, true)), (1, (l, false))] } (p1 ++ p2 ++ p3) v

/-- Every part of a range lies in some lookup stack of the domain (R335). -/
def State.inStacks (s : State) (core : Nat) (c : ECmd) (va n : Nat) : Bool :=
  ({ va, bytes := n, kind := .both } : Touch).parts.all fun p =>
    match s.pinKey core c p.va with
    | some key => decide (key < 2 ^ 56) && (match regionOf (gpaOffset key) with | .stack .. | .window .. => true | _ => false)
    | none => false

/-- nma (R335). -/
def State.startNear (s : State) (c : ECmd) : Started :=
  let n := 4 * c.b.toNat
  let runs := (nestSums c.nest).map fun x => (addr64 (c.a.toNat + x.1), addr64 (c.x.toNat + x.2.1))
  match s.pin c (runs.flatMap fun r =>
      oneStep [{ va := r.1, bytes := n, kind := .load }, { va := r.2, bytes := n, kind := .both }]) with
  | .error e => .error e
  | .ok (pins, t) =>
    if runs.all fun r => t.inStacks (coreOf s.cur) { c with pins } r.2 n then finishStart c pins t
    else .error (.transferOperand, c.word)

/-- pgin and pgout (R323): the faults of the two pages, one read and one written, of which the tier operand raises no
tier-miss (R298 item 5, R301); then one is a tier page and one resident and writable, of one size, aligned. `step` counts
the exchange. -/
def State.startPage (s : State) (c : ECmd) : Started :=
  let inward := c.op = .pgin
  let tier := if inward then c.a.toNat else c.b.toNat
  let res := if inward then c.b.toNat else c.a.toNat
  match s.pin c (oneStep [{ va := c.a.toNat, bytes := 1, kind := .load, tier := inward },
      { va := c.b.toNat, bytes := 1, kind := .store, tier := !inward }]) with
  | .error e => .error e
  | .ok (pins, t) =>
    match pins.find? (·.covers c.asid tier), pins.find? (·.covers c.asid res) with
    | some x, some y =>
      if !x.leaf.getLsbD 6 || y.leaf.getLsbD 6 || x.size != y.size || 30 ≤ x.size || denied y.leaf .store c.level ||
          tier % 2 ^ x.size != 0 || res % 2 ^ y.size != 0 then .error (.transferOperand, c.word)
      else
        let n := 2 ^ x.size
        let out := if inward then copyRun res tier n 0 else copyRun tier res n 0
        finishStart { c with out } pins t
    | _, _ => .error (.transferOperand, c.word)

/-- What each command does at its start. -/
def State.beginTransfer (s : State) (c : ECmd) : Started :=
  match c.op with
  | .xcopy | .xfill => s.startCopy c
  | .xshape => s.startShape c
  | .xgather => s.startGather c
  | .strain => s.startTrain c
  | .wreg => s.startReg c
  | .wunreg => s.startUnreg c
  | .wsend | .wsendi => s.startSend c
  | .nmxld => s.startLoad c
  | .nmx => s.startExpr c
  | .nma => s.startNear c
  | .pgin | .pgout => s.startPage c
  | _ => .ok (c, [], s)

/-- The started and unretired transfer commands of a core (R296). -/
def State.coreTransfers (s : State) (core : Nat) : List ECmd :=
  (List.range 4).flatMap fun k => (s.hart (4 * core + k)).xq.filter (·.started)

/-- The command waits for something besides tokens and order: eight started commands of its core, an nmxld before an nmx, a
send's release, or room for its pins (R296, R300, R313, R321). -/
def State.xferWaits (s : State) (c : ECmd) : Bool :=
  8 ≤ (s.coreTransfers (coreOf s.cur)).length ||
  (c.op == .nmx && s.me.xq.any fun o => o.op == .nmxld && o.id < c.id) ||
  ((c.op == .wsend || c.op == .wsendi) && !s.me.mayRelease { c with scope := 0 })

/-- TRANSFER_COMMAND_START (R296): the head of the acting hart's transfer queue starts, where it may. -/
def State.startTransfer (s : State) : State :=
  match s.me.head true with
  | none => s
  | some c =>
    if !s.me.mayStart c || s.xferWaits c then s
    else
      let s := s.beforeStart c
      match s.beginTransfer c with
      | .error (cause, va) => s.trapCmd c cause va
      | .ok (k, pins, t) =>
        if 512 < ((s.coreTransfers (coreOf s.cur)).map fun o => o.pins.length).sum + pins.length then s
        else t.startCmd true c pins fun _ => k

def execTransferCommandStart (s : State) : Result := .next s.startTransfer

/-! ### Work of started commands -/

/-- Bytes that have performed, or were dropped, leave a group's pending bytes, where the command counts them (R304). -/
def State.count (s : State) (c : ECmd) (n : Nat) : State :=
  match c.launch with
  | some l =>
    if c.xbar.getLsbD 8 && (c.op == .xcopy || c.op == .xfill || c.op == .xshape || c.op == .xgather || c.op == .strain) then
      { s with counted := s.counted ++ [(l, c.xbar.toNat % 256, n)] }
    else s
  | none => s

/-- PENDING_BYTES_SUBTRACT (R304): the k-th of the counts not yet subtracted. -/
def execPendingBytesSubtract (k : Nat) (s : State) : Result :=
  match s.counted[k]? with
  | some (l, g, n) => .next ({ s with counted := s.counted.eraseIdx k }.subtractPending l g n)
  | none => .next s

/-- Every count subtracted. -/
def State.settleCounts (s : State) : State :=
  s.counted.foldl (fun t e => t.subtractPending e.1 e.2.1 e.2.2) { s with counted := [] }

/-- An element of a train on the old value at its home (R309). -/
def trainValue (op : Nat) (f : Fmt) (w old x : Nat) : Nat :=
  match op with
  | 0 => x
  | 1 => (old + x) % 2 ^ (8 * w)
  | _ => (addNum f .rne (f.decode old) (f.decode x)).bits

/-- What a write puts at its destination: the value, the bytes of it that become poisoned data, and the key of the error, or
of a source byte that no route reaches. -/
structure Moved where
  value : Nat
  bad : List Nat := []
  key : Option Nat := none
  deriving DecidableEq, Repr

/-- The granules of 8 bytes of a run's source that a write takes bytes of are read and held, unless they have been (R302). -/
def State.hold (s : State) (core : Nat) (c : ECmd) (p : Pending) : ECmd :=
  match p.move with
  | .copy src (some run) =>
    [src / 8 * 8, (src + p.bytes - 1) % 2 ^ 64 / 8 * 8].foldl (fun c va =>
      if c.held.any fun h => h.run = run && h.va = va then c
      else
        let left := (List.range 8).map fun i => let r := s.readCmd core c ((va + i) % 2 ^ 64) 1; (i, r.1.headD 0, r.2)
        { c with held := { run, va, left } :: c.held }) c
  | _ => c

/-- A held byte of a run's source, with the key of an error. -/
def ECmd.heldByte (c : ECmd) (run va : Nat) : Nat × Option Nat :=
  (((c.held.find? fun h => h.run = run && h.va = va / 8 * 8).bind fun h => h.left.find? (·.1 = va % 8)).map (·.2)).getD (0, none)

/-- Held bytes that have been written are needed no more. -/
def ECmd.letGo (c : ECmd) (p : Pending) : ECmd :=
  match p.move with
  | .copy src (some run) =>
    let used := (List.range p.bytes).map fun i => (src + i) % 2 ^ 64
    { c with held := (c.held.map fun h =>
        if h.run = run then { h with left := h.left.filter fun e => !used.contains (h.va + e.1) } else h).filter fun h => !h.left.isEmpty }
  | _ => c

/-- The value that a write puts at its destination. Where an error persists in its source, the destination bytes of the check
granule in error become poisoned data, for a converted element all of its bytes (R302). -/
def State.moveValue (s : State) (core : Nat) (c : ECmd) (p : Pending) (old : Nat) : Moved :=
  match p.move with
  | .value x => { value := x }
  | .copy src (some run) =>
    let l := (List.range p.bytes).map fun i => c.heldByte run ((src + i) % 2 ^ 64)
    { value := ofBytes (l.map (·.1)), key := l.findSome? (·.2), bad := below p.bytes fun i => ((l[i]?).bind (·.2)).isSome }
  | .copy src none =>
    let r := s.readCmd core c src p.bytes
    { value := ofBytes r.1, key := r.2
      bad := if r.2.isNone then [] else below p.bytes fun i => (s.readCmd core c ((src + i) % 2 ^ 64) 1).2.isSome }
  | .convert src f g rm sat =>
    let r := s.readCmd core c src f.bytes
    { value := (Machine.convert f g rm sat (ofBytes r.1)).bits, key := r.2, bad := if r.2.isNone then [] else List.range p.bytes }
  | .train op f x => { value := trainValue op f p.bytes old x }
  | .spoilt k => { value := old, key := some k, bad := List.range p.bytes }

/-- The condition under which a transfer command's write to a key is dropped: besides those of every engine, a package that
stays unreachable, unless the write is a train's, whose acknowledgement decides (R310, R424). -/
def State.xferDrop (s : State) (c : ECmd) (key : Nat) : Option Nat :=
  match s.dropCond key with
  | some x => some x
  | none => if c.op ≠ .strain ∧ key < 2 ^ 56 ∧ s.pkg.unreachable.contains (s.keyPackage key) then some 3 else none

/-- A command has written bytes at a key, those in `bad` as poisoned data: a check granule in error all of whose bytes it has
written so is in error no more but for those (R119, R302). -/
def State.coverPoison (s : State) (c : ECmd) (key n : Nat) (bad : List Nat) : State × ECmd :=
  let spoilt := bad.map (key + ·) ++ c.spoilt
  let cover := if s.poison.any fun p => overlap p.span.1 p.span.2 key n then (List.range n).map (key + ·) ++ c.cover else c.cover
  let whole (p : Poison) : Bool :=
    overlap p.span.1 p.span.2 key n && !(p.bytes = 1 && spoilt.contains p.key) &&
      (List.range p.span.2).all fun i => cover.contains (p.span.1 + i)
  (bad.foldl (fun t i => t.poisonBytes (key + i) 1) { s with poison := s.poison.filter fun p => !whole p }, { c with cover, spoilt })

/-- Bytes of a command's write reach their home; the DRAM beneath takes the engine's aligned sectors of 32 bytes whole, with
the last of the writes to each (R220, R242, R302). -/
def State.storeSector (s : State) (c : ECmd) (p : Pending) (key x : Nat) : State :=
  let t := s.store key p.bytes x
  if c.out.any fun q => q.va / 32 = p.va / 32 then t else t.cleanBytes (key / 32 * 32) (if p.bytes ≤ 32 then 32 else p.bytes)

/-- A condition noted for a transfer command's reports, with the memory concerned. -/
def ECmd.noteAt (c : ECmd) (s : State) (cond key : Nat) : ECmd :=
  { c with reports := c.reports ++ [{ cond, unit := s.keyPackage key, addr := gpaOffset key }] }

/-- One write of a transfer command, which stands no longer among those to come, performs at its home, or its bytes are dropped
(R302, R303). A source in a package that stays unreachable is reported as condition 3, and the write is not made (R424; DESIGN
CHOICE, log entry 75). -/
def State.moveOut (s : State) (core : Nat) (c : ECmd) (p : Pending) : State × ECmd :=
  match s.pinKey core c p.va with
  | none => (s.count c p.bytes, c)
  | some key =>
    match s.xferDrop c key with
    | some cond => (s.count c p.bytes, c.noteAt s cond key)
    | none =>
      let held := s.hold core c p
      let m := s.moveValue core held p (s.read key p.bytes)
      let c := held.letGo p
      if m.key.any s.unreached then (s.count c p.bytes, c.noteAt s 3 (m.key.getD 0))
      else
        let (t, d) := (s.storeSector c p key m.value).coverPoison c key p.bytes (if m.key.isSome then m.bad else [])
        (t.count c p.bytes, match m.key with | some k => d.noteAt s 1 k | none => d)

/-- Write k of a command, or the write whose turn comes before it: of those that reach a common byte of memory the earliest
(R305, R306, R308, R346), and of a train's elements for one package the first (R309). -/
def State.moveAt (s : State) (core k : Nat) (c : ECmd) : State × ECmd :=
  match c.out[k]? with
  | none => (s, c)
  | some p =>
    let pkg (q : Pending) : Option Nat := (s.pinKey core c q.va).map s.keyPackage
    let k := if c.op = .strain then ((findIdx (fun q => pkg q == pkg p) c.out).map (·.1)).getD k
      else dueFirst (s.meets core c) c.out k k
    match c.out[k]? with
    | none => (s, c)
    | some p => s.moveOut core { c with out := c.out.eraseIdx k } p

/-- Every write of a command, in its order. -/
def State.moveAll (s : State) (core : Nat) (c : ECmd) : State × ECmd :=
  c.out.foldl (fun (acc : State × ECmd) p => acc.1.moveOut core { acc.2 with out := acc.2.out.drop 1 } p) (s, c)

/-- The key of the leaf entry of an address. -/
def State.leafKey (s : State) (core va : Nat) : List (Nat × Nat × Nat) → Nat → Option Nat
  | [], _ => none
  | (_, shift, width) :: rest, table =>
    match s.keyOf core .supervisor (table + va / 2 ^ shift % 2 ^ width * 8) with
    | none => none
    | some key =>
      let e := s.read key 8
      if !bit e 0 then none else if bit e 1 then some key else s.leafKey core va rest (entryAddr e)

/-- Translations of an address in an ASID leave every TLB of the package; so does every walk cache (R323, R370). -/
def State.dropTranslations (s : State) (gone : TlbEntry → Bool) : State :=
  { s with cores := s.cores.map fun e =>
             (e.1, { e.2 with tlb := e.2.tlb.filter (!gone ·), itlb := e.2.itlb.filter (!gone ·), walk := [] })
           clusters := s.clusters.map fun e => (e.1, { e.2 with itlb := e.2.itlb.filter (!gone ·) }) }

/-- Entries that map the page of an address in an ASID, and global entries of that page. -/
def TlbEntry.maps (t : TlbEntry) (asid : BitVec 9) (va : Nat) : Bool := t.covers asid va

/-- The exchange of pgin and pgout (R323, R324): the two leaf entries change frame and tier attribute in one action, unless
the tier operand's translation is no longer the one copied from, which is condition 6. -/
def State.exchange (s : State) (hart : Nat) (c : ECmd) : State × ECmd :=
  let core := coreOf hart
  let root := entryAddr (s.hart hart).csr.ptroot.toNat
  let swap : Nat := 0x00FFFFFFFFFFF040
  let tier := if c.op = .pgin then c.a.toNat else c.b.toNat
  let abandoned := (s, { c with step := 1, reports := c.reports ++ [{ cond := 6, unit := s.pkg.number.toNat }] })
  match s.leafKey core c.a.toNat walkLevels root, s.leafKey core c.b.toNat walkLevels root, c.pins.find? (·.covers c.asid tier) with
  | some ka, some kb, some pin =>
    let a := s.read ka 8
    let b := s.read kb 8
    let now := if c.op = .pgin then a else b
    if entryAddr now ≠ entryAddr pin.leaf.toNat ∨ !bit now 6 then abandoned
    else
      let a' := (a &&& (2 ^ 64 - 1 - swap)) ||| (b &&& swap)
      let b' := (b &&& (2 ^ 64 - 1 - swap)) ||| (a &&& swap)
      (((s.storeThrough ka 8 a').storeThrough kb 8 b').dropTranslations fun t =>
        t.maps c.asid c.a.toNat || t.maps c.asid c.b.toNat, { c with step := 1 })
  | _, _, _ => abandoned

/-- Pins that hold translations: of vector windows, of started commands and of open windows (R226, R300, R311), but for
those of one command. -/
def State.allPins (s : State) (but : Nat) : List TlbEntry :=
  let harts := s.me :: s.others.map (·.2)
  (harts.flatMap fun h => h.pinned ++
    ((h.lq ++ h.xq).filter fun c => c.started && c.id ≠ but).flatMap (·.pins)) ++ s.windows.flatMap fun w => w.2.pins

/-- A send handed to the ports: its bytes are read now (R296, R313). One whose package or source no route reaches is abandoned with
condition 3, which is reported before the command retires, and its bytes are counted (R303, R304). -/
def State.handOff (s : State) (hart : Nat) (c : ECmd) : State × ECmd :=
  let core := coreOf hart
  let (l, bad) := if c.op = .wsend then s.readCmd core c c.a.toNat (opnd c.x 56 32) else (leBytes 8 c.a.toNat, none)
  let badAt := if c.op = .wsend then
      (List.range l.length).filter fun i => (s.readCmd core c (c.a.toNat + i) 1).2.isSome
    else []
  let send : Send :=
    { hart, id := c.id, pc := c.pc, asid := c.asid, level := c.level, pkg := opnd c.b 10 0, window := opnd c.b 23 12, tag := opnd c.b 39 24
      off := opnd c.x 31 0, bytes := l, bad := badAt
      out := if c.wout.toNat / 8 = 0 then none else s.pinKey core c (c.wout.toNat / 8 * 8)
      counts := if c.xbar.getLsbD 8 then c.launch.map fun n => (n, c.xbar.toNat % 256) else none }
  let counted := { s with counted := s.counted ++ send.counts.toList.map fun g => (g.1, g.2, l.length) }
  if send.pkg ≠ s.pkg.number.toNat ∧ s.pkg.unreachable.contains send.pkg then
    (counted, { c with done := true, reports := c.reports ++ [{ cond := 3, unit := send.pkg }] })
  else
    match bad with
    | some k =>
      if s.unreached k then (counted, { c.noteAt s 3 k with done := true })
      else ({ s with sends := s.sends ++ [send] }, { c.noteAt s 1 k with done := true })
    | none => ({ s with sends := s.sends ++ [send] }, { c with done := true })

/-- The elements of an nma, read now (R335): a poisoned source element poisons its destination granule, condition 1, and one
that no route reaches adds nothing, condition 3. With a stride that is no multiple of 4 an element may lie in two pages. -/
def State.nearElems (s : State) (core : Nat) (c : ECmd) : List Access × List Report :=
  let runs := (nestSums c.nest).map fun x => (addr64 (c.a.toNat + x.1), addr64 (c.x.toNat + x.2.1))
  let report (cond key : Nat) : Report := { cond, unit := s.keyPackage key, addr := gpaOffset key }
  runs.foldl (fun acc r => (List.range c.b.toNat).foldl (fun (acc : List Access × List Report) j =>
    let src := s.readCmd core c ((r.1 + 4 * j) % 2 ^ 64) 4
    let keys := (List.range 4).filterMap fun i => s.pinKey core c ((r.2 + 4 * j + i) % 2 ^ 64)
    match keys, src.2 with
    | [], _ => acc
    | _ :: _, some k =>
      if s.unreached k then (acc.1, acc.2 ++ [report 3 k])
      else
        let spots := (keys.map fun x => x / granuleOf x * granuleOf x).eraseDups
        (acc.1 ++ spots.map fun x => { key := x, bytes := 4, kind := .poison, elem := j }, acc.2 ++ [report 1 k])
    | key :: _, none =>
      let whole := keys == (List.range 4).map (key + ·)
      (acc.1 ++ [{ key, bytes := 4, kind := if whole then .near (ofBytes src.1) else .nearSplit (ofBytes src.1) keys, elem := j }], acc.2))
    acc) ([], [])

/-- The elements of an accepted nmx (R321): none with condition 4. -/
def State.exprElems (s : State) (core : Nat) (c : ECmd) : List Access × List Report :=
  let l := ((mapGet c.data 1).getD ([], false)).1
  let bad := ([], [({ cond := 4, unit := s.pkg.number.toNat } : Report)])
  match (mapGet c.data 0).bind fun d => parseProg d.1, mapGet (s.stackAt c.res.toNat).progs (bytesAt l 44 1) with
  | some snap, some now =>
    match parseProg now with
    | none => bad
    | some p =>
      if p.fmt ≠ snap.fmt ∨ p.used ≠ snap.used then bad
      else
        let w := p.fmt.bytes
        let key (base i : Nat) : Option Nat := s.pinKey core c ((base + i * w) % 2 ^ 64)
        ((List.range (bytesAt l 40 4)).filterMap fun i =>
          (key (bytesAt l 0 8) i).map fun k =>
            let ins := p.used.map fun u => (key (bytesAt l (8 + 8 * u) 8) i).getD k
            let at' (u : Nat) : Nat := ((p.used.zip ins).find? fun x => x.1 = u).elim (ins.headD k) (·.2)
            { key := k, bytes := w, kind := .expr now i (if ins.isEmpty then [] else (List.range 4).map at') }, [])
  | _, _ => bad

/-- A return-free command is accepted (R319, R321, R335): its elements wait at their homes. What it reports is recorded now,
before its count can leave `nmpend` (R303). -/
def State.acceptFree (s : State) (hart : Nat) (c : ECmd) : State × ECmd :=
  let (els, reps) := if c.op = .nma then s.nearElems (coreOf hart) c else s.exprElems (coreOf hart) c
  let t := (sortReports reps).foldl (fun t r => t.reportTransfer hart c.pc r.cond r.unit r.addr) s
  (if els.isEmpty then t
   else t.updAsync hart fun h => { h with rf := h.rf ++ [{ id := c.id, pc := c.pc, elems := els }] }, { c with done := true })

/-- NMX_ACCEPT (R321): the first started nmx of a hart that has not been accepted. -/
def execNmxAccept (hart : Nat) (s : State) : Result :=
  match (s.hart hart).xq.find? fun c => c.started && c.op == .nmx && !c.done with
  | some c =>
    let r := s.acceptFree hart c
    .next (r.1.updCmd hart true c.id fun _ => r.2)
  | none => .next s

/-- The next act of a started transfer command that is no write: a hand-off, an acceptance, a program load in one more
stack, the exchange of two pages. With no act left, its effect is complete. -/
def State.actTransfer (s : State) (hart : Nat) (c : ECmd) : State × ECmd :=
  if c.done || !c.out.isEmpty then (s, c)
  else
    match c.op with
    | .wsend | .wsendi => s.handOff hart c
    | .nma | .nmx => s.acceptFree hart c
    | .nmxld =>
      match c.prog.find? fun e => e.2 = 0 with
      | none => (s, { c with done := true })
      | some (σ, _) =>
        let d := (mapGet c.data 0).getD ([], true)
        let slot := opnd c.b 5 0
        let prog := mapSet c.prog σ 1
        (s.updStack σ fun t => { t with progs := if d.2 then mapErase t.progs slot else mapSet t.progs slot d.1 },
         { c with prog, done := prog.all fun e => e.2 = 1 })
    | .pgin | .pgout =>
      if c.step = 0 then s.exchange hart c
      else if (s.allPins c.id).any fun t => t.maps c.asid c.a.toNat || t.maps c.asid c.b.toNat then (s, c)
      else (s, { c with done := true })
    | .strain => (s, { c with done := c.prog.all fun e => e.2 = 1 })
    | .xwait | .wctr => (s, c)
    | _ => (s, { c with done := true })

/-- The packages of a strain's elements still to be applied at a package. -/
def State.elementsAt (s : State) (core : Nat) (c : ECmd) (pkg : Nat) : List Pending :=
  c.out.filter fun p => (s.pinKey core c p.va).map s.keyPackage == some pkg

/-- A train reaches its package and is acknowledged: its elements perform in order, but for those at `dropped` among them
(R309, R310). -/
def State.applyTrain (s : State) (hart : Nat) (c : ECmd) (pkg cond : Nat) (dropped : List Nat) : State × ECmd :=
  let core := coreOf hart
  let els := s.elementsAt core c pkg
  let (t, d) := ((List.range els.length).zip els).foldl (fun (acc : State × ECmd) x =>
    if dropped.contains x.1 then (acc.1.count acc.2 x.2.bytes, acc.2) else acc.1.moveOut core acc.2 x.2)
    (s, { c with out := c.out.filter fun p => !els.contains p })
  (t, { d with prog := mapSet c.prog pkg 1
               reports := if cond = 0 then d.reports else d.reports ++ [{ cond, unit := pkg }] })

/-- TRAIN_ARRIVAL (R309, R310): with no elements given, the acting package's own train of a hart's started strain arrives at
it; otherwise a train of another package arrives, with keys and values. -/
def execTrainArrival (hart : Nat) (elems : List (Nat × Nat)) (op w : Nat) (fmt : BitVec 4) (s : State) : Result :=
  match elems with
  | [] =>
    match (s.hart hart).xq.find? fun c => c.started && c.op == .strain && !c.out.isEmpty with
    | some c =>
      let r := s.applyTrain hart c s.pkg.number.toNat 0 []
      .next (r.1.updCmd hart true c.id fun _ => r.2)
    | none => .next s
  | _ =>
    let n := 2 ^ (w % 4)
    .next (elems.foldl (fun t e =>
      if (t.dropCond e.1).isSome ∨ t.keyOf 0 .user e.1 = none ∨ t.keyPackage e.1 ≠ t.pkg.number.toNat ∨ 2 ^ 56 ≤ e.1 then t
      else t.storeThrough e.1 n (trainValue op ((Fmt.ofCode fmt).getD .f32) n (t.read e.1 n) (e.2 % 2 ^ (8 * n)))) s)

/-- TRAIN_ACKNOWLEDGEMENT (R310): the acknowledgement of a train to another package reaches the issuing core, with its
condition, 0 for none, and the elements refused there. -/
def execTrainAcknowledgement (hart pkg cond : Nat) (dropped : List Nat) (s : State) : Result :=
  match (s.hart hart).xq.find? fun c => c.started && c.op == .strain && (mapGet c.prog pkg == some 0) with
  | some c =>
    if pkg = s.pkg.number.toNat then .next s
    else
      let r := s.applyTrain hart c pkg cond dropped
      .next (r.1.updCmd hart true c.id fun _ => r.2)
  | none => .next s

/-! ### Sends (R313) -/

/-- The key of an address in an open window's address space. -/
def State.windowKey (s : State) (w : OpenWindow) (va : Nat) : Option Nat :=
  match w.pins.find? (·.covers w.asid va) with
  | some t => s.keyOf w.core w.level (t.gpa va)
  | none => none

/-- A send lands in a window of this package: none where it is refused, condition 2 (R313). Its bytes perform by granules of 8
bytes (R302), a check granule that they cover whole is in error no more but for those that are poisoned data (R119), and then
comes the inbound counter's add, a release at domain scope. -/
def State.land (s : State) (window tag off : Nat) (l : List Nat) (bad : List Nat) : Option State :=
  match mapGet s.windows window with
  | none => none
  | some w =>
    if w.tag ≠ tag ∨ w.size < off + l.length then none
    else
      let pieces := (granules l.length (w.base + off) 0 l.length).filterMap fun g =>
        (s.windowKey w (w.base + off + g.1)).bind fun key => if (s.dropCond key).isSome then none else some (key, g.1, g.2)
      let t := pieces.foldl (fun t g => t.storeThrough g.1 g.2.2 (ofBytes ((l.drop g.2.1).take g.2.2))) s
      let keys := pieces.flatMap fun g => (List.range g.2.2).map fun i => (g.1 + i, g.2.1 + i)
      let whole (p : Poison) : Bool := (List.range p.span.2).all fun i => keys.any fun k => k.1 = p.span.1 + i
      let u := (keys.filter fun k => bad.contains k.2).foldl (fun t k => t.poisonBytes k.1 1)
        (if t.poison.isEmpty then t else { t with poison := t.poison.filter fun p => !whole p })
      some (match u.windowKey w w.counter with
        | some key => u.storeThrough key 8 ((u.read key 8 + l.length) % 2 ^ 64)
        | none => u)

/-- The bytes of a send that its window's memory refuses, as the reports of its sender (R303). -/
def State.landReports (s : State) (window off : Nat) (l : List Nat) : List Report :=
  match mapGet s.windows window with
  | none => []
  | some w =>
    sortReports ((List.range l.length).filterMap fun i =>
      (s.windowKey w (w.base + off + i)).bind fun key =>
        (s.dropCond key).map fun cond => { cond, unit := s.keyPackage key, addr := gpaOffset key })

/-- SEND_ARRIVAL (R313): for k > 0 the k-th send on its way arrives, if it goes to this package; for k = 0 a send of another
package arrives, with a window, tag, offset and bytes. What the window's memory refuses of a send of this package is
recorded before its counter add (R303). -/
def State.sendArrives (s : State) (k window tag off : Nat) (l : List Nat) : State :=
  if k = 0 then (s.land window tag off l []).getD s
  else
    match s.sends[k - 1]? with
    | none => s
    | some d =>
      if d.pkg ≠ s.pkg.number.toNat ∨ d.landed.isSome then s
      else
        match s.land d.window d.tag d.off d.bytes d.bad with
        | some t =>
          let u := (s.landReports d.window d.off d.bytes).foldl (fun u r => u.reportTransfer d.hart d.pc r.cond r.unit r.addr) t
          { u with sends := u.sends.set (k - 1) { d with landed := some 0 } }
        | none => { s with sends := s.sends.set (k - 1) { d with landed := some 2 } }

def execSendArrival (k window tag off : Nat) (l : List Nat) (s : State) : Result := .next (s.sendArrives k window tag off l)

/-- SEND_ACKNOWLEDGEMENT (R313, R314): the acknowledgement of the k-th send reaches its core, with a condition that counts
for a send to another package. Unless the send was abandoned or its window refused it, the length is added to the outbound
counter: bytes dropped under conditions 7 and 8 are reported and counted (R303). -/
def State.sendAcked (s : State) (k cond : Nat) : State :=
  match s.sends[k]? with
  | none => s
  | some d =>
    match (if d.pkg = s.pkg.number.toNat then d.landed else some cond) with
    | none => s
    | some c =>
      let n := d.bytes.length
      let t := { s with sends := s.sends.eraseIdx k
                        counted := s.counted ++ match d.counts with | some g => [(g.1, g.2, n)] | none => [] }
      let t := if c = 0 then t else t.reportTransfer d.hart d.pc c d.pkg 0
      if c = 0 ∨ c = 7 ∨ c = 8 then
        match d.out with
        | some key => t.storeThrough key 8 ((t.read key 8 + n) % 2 ^ 64)
        | none => t
      else t

def execSendAcknowledgement (k cond : Nat) (s : State) : Result := .next (s.sendAcked k cond)

/-! ### Retirement (R296, R327) -/

/-- The first command of a hart's transfer queue may retire. -/
def Hart.xferReady (h : Hart) : Option ECmd :=
  match h.xq with
  | [] => none
  | c :: _ => if c.started && (c.done || c.op == .xwait || c.op == .wctr) && h.mayRelease c then some c else none

/-- An xwait waits for the acknowledgements of its hart's earlier sends: their conditions stand in `xerr` before it reads it
(R313, R327). -/
def State.awaitsSends (s : State) (hart : Nat) (c : ECmd) : Bool := c.op = .xwait && s.sends.any fun d => d.hart = hart && d.id < c.id

/-- TRANSFER_COMMAND_RETIRE (R296): the commands of one hart retire in the order in which they started. -/
def State.retireTransfer (s : State) (hart : Nat) : State :=
  match (s.hart hart).xferReady.filter fun c => !s.awaitsSends hart c with
  | none => s
  | some c =>
    let s := (sortReports c.reports).foldl (fun s r => s.reportTransfer hart c.pc r.cond r.unit r.addr) s
    let res : Word := match c.op with
      | .xwait => (s.hart hart).csr.xerr
      | .wctr => BitVec.ofNat 64 ((s.sends.filter fun d => d.hart = hart).map fun d => d.bytes.length).sum
      | _ => c.res
    s.leave hart true { c with res }

def execTransferCommandRetire (hart : Nat) (s : State) : Result := .next (s.retireTransfer hart)

/-! ### Progress where no events drive the engines -/

/-- A started command of the acting hart to the end of its effect. Trains to packages that a route reaches are
acknowledged; others are abandoned with condition 3. -/
def State.runTransfer (s : State) (c : ECmd) : State :=
  let hart := s.cur
  let core := coreOf hart
  let r : State × ECmd :=
    if c.op = .strain then
      c.prog.foldl (fun (acc : State × ECmd) e =>
        if e.2 = 1 then acc
        else
          let gone := acc.1.pkg.unreachable.contains e.1
          acc.1.applyTrain hart acc.2 e.1 (if gone then 3 else 0)
            (if gone then List.range (acc.1.elementsAt core acc.2 e.1).length else [])) (s, c)
    else s.moveAll core c
  let r := (List.range 20).foldl (fun (acc : State × ECmd) _ => acc.1.actTransfer hart acc.2) r
  (r.1.updCmd hart true c.id fun _ => r.2).retireTransfer hart

/-- Sends to this package arrive and are acknowledged; so are those to packages that a route reaches. -/
def State.sendsGo (s : State) : State :=
  (List.range s.sends.length).foldl (fun t _ =>
    match t.sends with
    | [] => t
    | d :: _ =>
      if d.pkg = t.pkg.number.toNat then (t.sendArrives 1 0 0 0 []).sendAcked 0 0
      else t.sendAcked 0 (if t.pkg.unreachable.contains d.pkg then 3 else 0)) s

/-- The acting hart's transfer commands start and run to retirement; what they leave behind performs. -/
def State.transferGo (s : State) : State :=
  (List.range 17).foldl (fun t _ =>
    let u := t.startTransfer
    match u.me.xq with
    | [] => if u.sends.isEmpty && u.me.rf.isEmpty && u.counted.isEmpty then u else (u.sendsGo.settleReturnFree).settleCounts
    | c :: _ => if c.started then (((u.runTransfer c).sendsGo).settleReturnFree).settleCounts else u) s

end Sys2Proof.Machine
end

