-- ==== Sys2Proof/Machine/Cycle.lean ====
section
/-! DEFINITION. What a step does around the execution of an instruction: what holds an instruction back (R101, R124, R136,
R341), the engines' own progress, clocks (R379), halts after an instruction (R376), and the other turns of the agenda. -/

namespace Sys2Proof.Machine

/-! ### What holds an instruction back -/

/-- The g registers that an instruction word other than a vector instruction's names, as source or destination (R46 to
R58). A vector instruction's are looked at with its convoy's. -/
def gRegs (f : Fields) : List (BitVec 5) :=
  let m := f.maj.toNat
  if m = 0x01 ∨ m = 0x05 ∨ m = 0x70 then [f.a, f.b, f.d]
  else if m = 0x02 ∨ m = 0x08 ∨ m = 0x09 ∨ m = 0x0A ∨ m = 0x0B ∨ m = 0x11 then [f.a, f.d]
  else if m = 0x03 ∨ m = 0x04 ∨ m = 0x10 then [f.d]
  else if m = 0x06 then (if f.top = 0 then [f.a] else [f.d])
  else if m = 0x0C then [f.a]
  else if m = 0x12 then [f.a, f.b]
  else if m = 0x13 then (if f.funct3 = 1 then [f.a, f.d] else if f.funct3 = 3 then [f.a] else [])
  else if m = 0x18 then (if 13 ≤ f.top.toNat then [f.d] else [])
  else if m = 0x20 then
    (match f.funct3.toNat with
    | 0 | 4 => [f.a, f.d]
    | 3 => [f.d]
    | 5 | 6 | 7 => [f.a]
    | _ => [])
  else if (0x50 ≤ m ∧ m ≤ 0x5D) ∨ (0x60 ≤ m ∧ m ≤ 0x6E) ∨ m = 0x71 then [f.a, f.b, f.d]
  else if m = 0x72 then
    (match f.top.toNat / 8 with
    | 2 | 4 | 5 => [f.a]
    | 3 | 6 => [f.a, f.b]
    | 9 => [f.d]
    | _ => [])
  else if m = 0x73 then (if f.funct3 = 0 then [] else [f.a, f.d])
  else if m = 0x74 then (if f.funct3.toNat < 4 then [f.a, f.d] else [f.d])
  else if m = 0x75 then (match f.top.toNat with | 0 => [f.a, f.b] | 1 | 3 | 4 => [f.a] | _ => [])
  else []

/-- The word is a scalar access to memory: a load or store, with an order or without, an AMO, nestld or nestst, or pwait. -/
def scalarAccess (f : Fields) : Bool :=
  let m := f.maj.toNat
  (0x08 ≤ m && m ≤ 0x0B) || m == 0x70 || (m == 0x20 && 6 ≤ f.funct3.toNat) || (m == 0x72 && f.top.toNat / 8 == 6)

/-- A vldff of the hart has not fixed its length (R232). -/
def Hart.lengthOpen (h : Hart) : Bool := h.vq.any fun i => i.members.any fun m => m.op.op = .ldff && !m.done

/-- The word is a vector memory instruction or a bank operation's prefix. -/
def memoryWord (f : Fields) : Bool := (0x48 ≤ f.maj.toNat && f.maj.toNat ≤ 0x4C) || f.maj == 0x5F

/-- `vpcm` is cleared where an ERET returned to any instruction but a vector memory instruction (R229). -/
def State.dropLanes (s : State) (f : Fields) : State :=
  if s.me.viaEret && s.me.restart.isSome && !memoryWord f then s.updCsr fun c => { c with vpcm := 0 } else s

/-- A word that decodes to no instruction raises its trap with the word as VAL (R42, R357). A feature that a vector word
lacks comes before its convoy bit (R43). -/
def State.badWord (s : State) (w : BitVec 32) : DecodeError → State
  | .illegalInstruction => s.trap .illegalInstruction (wordVal w)
  | .illegalPrefix => s.trap .illegalPrefix (wordVal w)
  | .illegalConvoy _ =>
    match vopOf (Fields.ofWord w) with
    | some o => if o.lacksFeature s.core.fmask then s.trap .featureAbsent (wordVal w) else s.trap .illegalConvoy (wordVal w)
    | none => s.trap .illegalConvoy (wordVal w)

/-! ### After an instruction -/

/-- The instruction has issued: it did not stall, or it is an ICINV, a JOIN or a WFE that now waits, and counts once (R100, R124,
R130, R144, R414). -/
def issuedNow (before after : Hart) : Bool :=
  before.gang.icinv.isNone && before.gang.state != .waiting && before.wait != .event &&
  (after.wait = .none || after.wait = .event || after.gang.icinv.isSome || after.gang.state == .waiting)

/-- The acting hart after its instruction: its issue slots, which a trapping instruction occupies as any other does (R100,
R381), and the halt of STEP (R376). -/
def State.retired (s : State) (before : Hart) : State :=
  let u := if issuedNow before s.me then s.updMe fun h => { h with slots := h.slots + 1 } else s
  if u.me.wait = .none && !u.me.entered && u.me.due.isNone && u.me.csr.step then u.post (.halt u.me.position) else u

/-- The trap of a deadlock of the acting hart (R107, R339). -/
def State.checkDeadlock (s : State) : State :=
  if s.me.queueDeadlock then s.deadlockTrap .queueDeadlock
  else if s.me.tokenDeadlock then s.deadlockTrap .tokenDeadlock
  else s

/-- Clocks pass, at the acting hart's core by its own count (R29), and the next open choices are others. -/
def State.tick (s : State) : State :=
  { (s.updCore (coreOf s.cur) fun c => { c with skew := c.skew + BitVec.ofNat 64 (Config.freeNat s.free 0x40) }) with
    clock := s.clock + BitVec.ofNat 64 (Config.clocks s.free), free := s.free + 1 }

/-- The end of a step: clocks pass, `cyccmp` is compared, a deadlock is met where no turns are left that could end it,
throttle locks follow what their members have done, and after a supply-loss warning what was stored is flushed. -/
def State.endStep (s : State) : State :=
  (if s.agenda.isEmpty && (s.me.wait != .none || s.me.due.isSome) then s.checkDeadlock else s).tick.cycleCompare.settleLocks.flushLate

/-! ### Before an instruction -/

/-- A new step of the acting hart. -/
def State.begin (s : State) : State := (s.updMe fun h => { h with entered := false }).expirePreempt

/-- The acting hart has nothing in its queues. -/
def Hart.still (h : Hart) : Bool := h.quiet && h.rf.isEmpty && h.sb.isEmpty

/-- The engines of the acting hart, in a fixed order: one of those that the spec allows (log entry 5). -/
def State.engines (s : State) : State :=
  if s.me.still && s.sends.isEmpty && s.counted.isEmpty then s
  else
    let s := if s.me.late then s.updMe fun h => { h with late := false } else s
    ((s.vectorRun 40).lookupGo.transferGo).settleReturnFree.commitStores

/-- A waiting join.t's limit and a hold's end, where they have come (R130, R136). -/
def State.limits (s : State) : State :=
  let now := (s.cycle (coreOf s.cur)).toNat
  let late : Bool := match s.me.gang.joinT with
    | some (_, l) => l ≤ now
    | none => false
  if s.me.gang.state = .waiting && late then
    s.updMe Hart.timeOut
  else
    match s.holder s.cur with
    | none => s
    | some h =>
      match (s.hart h).gang.hold with
      | some l =>
        if l ≤ (s.cycle (coreOf h)).toNat then s.updHart h fun x => { x with gang := { x.gang with hold := none } } else s.endHold h
      | none => s

/-- What happens of itself where no turns drive it: the engines of the acting hart, its limits, and its leaving. -/
def State.progress (s : State) : State := s.engines.limits.finishLeave

/-- Why the acting hart issues nothing now: no task, a halt, or a die that is fenced. -/
def State.idle (s : State) : Bool := s.me.task.isNone || s.me.halted || (s.dieAt (dieOf s.cur)).fenced

/-- What is due at the acting hart, and then an interrupt or a halt asked for, is begun. A barrier whose phase has completed
holds no longer. -/
def State.settleDue (s : State) : State :=
  let t := s.deliverDue.tryStop
  match t.me.barWait with
  | some (_, _, lvl) => if lvl = t.me.level ∧ t.barReleased then t.updMe fun h => { h with barWait := none } else t
  | none => t

/-- What keeps the acting hart from its next instruction, and what it then waits for. -/
def State.held (s : State) : Option Wait :=
  if s.me.barWait.isSome && s.barHolds then some .barrier
  else if s.me.lengthOpen then some .drain
  else none

/-! ### Other turns -/

/-- The n-th started command of a queue. -/
def Hart.startedAt (h : Hart) (x : Bool) (n : Nat) : Option ECmd := ((h.cmds x).filter (·.started))[n]?

/-- A turn that is no event of the table and no instruction. -/
def State.turn (s : State) : Turn → State
  | .event _ => s
  | .run => s
  | .act h => if h < 2304 then s.switchTo h else s
  | .perform k => s.performPending k
  | .element n k => s.performReturnFree n k
  | .deliver => if s.idle then s else s.fetchAhead
  | .late b => (s.updMe fun h => { h with late := b }).commitStores
  | .storePerforms k => s.performStore k
  | .poison p => { s with poison := p :: s.poison }
  | .laneError c p => s.updCore c fun k => { k with checkErr := some p }
  | .write h x n k =>
    match (s.hart h).startedAt x n with
    | none => s
    | some c =>
      if !x && (s.accHead (coreOf h)).map (fun e => (e.1, e.2.id)) != some (h, c.id) then s
      else
        let r := if x then s.moveAt (coreOf h) k c else s.writeOut (coreOf h) k c
        r.1.updCmd h x c.id fun _ => r.2
  | .work h n =>
    match (s.hart h).startedAt true n with
    | none => s
    | some c =>
      let r := s.actTransfer h c
      r.1.updCmd h true c.id fun _ => r.2
  | .checkError σ j p => s.updStack σ fun t => { t with wrong := (j, p) :: t.wrong }
  | .slotError σ j n b => s.updStack σ fun t => { t with badSlots := (256 * j + n, b) :: t.badSlots }
  | .rowError σ j a b => s.updStack σ fun t => { t with badRows := (64 * j + a, b) :: t.badRows }
  | .corrected σ => s.updStack σ fun t => { t with corrected := t.corrected + 1 }
  | .outside key n x => s.store key n x
  | .hole lo hi => { s with pkg := { s.pkg with holes := (lo, hi) :: s.pkg.holes } }

/-! ### Where an instruction can be placed -/

/-- The page tables of `place`: one table for each of the levels 5 to 2, in the four pages from 0x1000 on; the last
holds the leaf of the first GiB of the package, with every permission. -/
def placeTables (base : Nat) : List (Nat × Nat) :=
  [(base + 0x1000, base + 0x2000 + 1), (base + 0x2000, base + 0x3000 + 1), (base + 0x3000, base + 0x4000 + 1),
   (base + 0x4000, base + 0x3F)]

/-- Where `place` puts the instruction, as a virtual address. -/
def placePc : Nat := 0x10000

/-- A word placed where the next step of the acting hart fetches: the hart has a task with nothing outstanding, its tables
map the first GiB of the package, and its PC is that of the word. -/
def State.place (s : State) (w : BitVec 32) : State :=
  let base := s.pkg.number.toNat * 2 ^ 45
  let h := s.me
  { s with
    me := { h with
      pc := BitVec.ofNat 64 placePc
      csr := { h.csr with ptroot := BitVec.ofNat 64 (base + 0x1000), loop := {} }
      task := some (h.task.getD { launch := 0, index := 0 })
      gang := {}, win := [], loopBuf := [], loopLive := false, wait := .none, restart := none, vq := [], lq := [], xq := [], rf := [], sb := []
      due := none, barWait := none, halted := false, haltReq := false, preempt := none, leave := none, entered := false }
    cores := []
    clusters := []
    dies := []
    poison := []
    pkg := { s.pkg with stopped := false }
    mem := ((base + placePc, 4, w.toNat) :: (placeTables base).map fun e => (e.1, 8, e.2)).foldl
      (fun m e => memWrite m e.1 e.2.1 e.2.2) s.mem
    agenda := [.run] }

end Sys2Proof.Machine
end

