-- ==== Sys2Proof/Machine/Amo.lean ====
section
/-! DEFINITION. Scalar atomics (spec/12_sync.md, R332). -/

namespace Sys2Proof.Machine

/-- The widths of an AMO (R332). -/
inductive AmoWidth where
  | w32 | w64 | f32
  deriving DecidableEq, Repr

/-- The bytes of a width. -/
def AmoWidth.bytes : AmoWidth → Nat
  | .w64 => 8
  | _ => 4

/-- The code of a width in the word (R56). -/
def AmoWidth.code : AmoWidth → BitVec 2
  | .w32 => 0 | .w64 => 1 | .f32 => 2

/-- gd after an AMO: the old value, sign-extended, plain or boxed (R332). -/
def AmoWidth.extend (w : AmoWidth) (old : Nat) : Word :=
  match w with
  | .w32 => BitVec.ofInt 64 (sint 32 old)
  | .w64 => BitVec.ofNat 64 old
  | .f32 => fbox .f32 old

/-- An AMO (R332): illegal scope, its wait, the exceptions of R118 in their order, then the indivisible update: `f` gives
the new value of memory from the old value, gs2 and gd, or none where nothing is written. It waits while a queued older
command could still discard it (R121), and with a release until earlier accesses have performed. -/
def State.amo (s : State) (fn : BitVec 6) (w : AmoWidth) (d a b : BitVec 5) (order : BitVec 2) (f : Nat → Nat → Nat → Option Nat) :
    State :=
  let va := s.g a
  let n := w.bytes
  let scope := s.me.csr.escope.toNat
  if order ≠ 0 ∧ 6 ≤ scope then s.trap .illegalScope (fieldsVal (.r (fn ++ w.code ++ order) b a d 0x70))
  else if s.me.speculative then s.stall .drain
  else
    let s := s.inOrder
    match s.scalarRead n .both va with
    | .error c => s.trap c (c.memVal va (fieldsVal (.r (fn ++ w.code ++ order) b a d 0x70)))
    | .ok (key, old, t) =>
      t.release (if order.getLsbD 1 then scope else 0) fun u =>
        let u := match f old ((s.g b).toNat % 2 ^ (8 * n)) ((s.g d).toNat % 2 ^ (8 * n)) with
          | some x => u.store key n (x % 2 ^ (8 * n))
          | none => u
        u.write d (w.extend old)

/-- The smaller or larger of two values as signed or unsigned numbers of w bits (R332). -/
def amoMin (w : Nat) (signed larger : Bool) (old x : Nat) : Nat :=
  let lt := if signed then decide (sint w x < sint w old) else decide (x < old)
  let gt := if signed then decide (sint w old < sint w x) else decide (old < x)
  if larger then (if gt then x else old) else (if lt then x else old)

def execAmoaddw (d a b : BitVec 5) (o : BitVec 2) (s : State) : Result :=
  .next (s.amo 0 .w32 d a b o fun old x _ => some (old + x))
def execAmoaddd (d a b : BitVec 5) (o : BitVec 2) (s : State) : Result :=
  .next (s.amo 0 .w64 d a b o fun old x _ => some (old + x))
/-- Rounded to nearest even, NaN canonical, no flag (R332). -/
def execAmofadd (d a b : BitVec 5) (o : BitVec 2) (s : State) : Result :=
  .next (s.amo 0 .f32 d a b o fun old x _ => some (addNum .f32 .rne (Fmt.f32.decode old) (Fmt.f32.decode x)).bits)
def execAmoswapw (d a b : BitVec 5) (o : BitVec 2) (s : State) : Result := .next (s.amo 1 .w32 d a b o fun _ x _ => some x)
def execAmoswapd (d a b : BitVec 5) (o : BitVec 2) (s : State) : Result := .next (s.amo 1 .w64 d a b o fun _ x _ => some x)
def execAmoandw (d a b : BitVec 5) (o : BitVec 2) (s : State) : Result :=
  .next (s.amo 2 .w32 d a b o fun old x _ => some (old &&& x))
def execAmoandd (d a b : BitVec 5) (o : BitVec 2) (s : State) : Result :=
  .next (s.amo 2 .w64 d a b o fun old x _ => some (old &&& x))
def execAmoorw (d a b : BitVec 5) (o : BitVec 2) (s : State) : Result :=
  .next (s.amo 3 .w32 d a b o fun old x _ => some (old ||| x))
def execAmoord (d a b : BitVec 5) (o : BitVec 2) (s : State) : Result :=
  .next (s.amo 3 .w64 d a b o fun old x _ => some (old ||| x))
def execAmoxorw (d a b : BitVec 5) (o : BitVec 2) (s : State) : Result :=
  .next (s.amo 4 .w32 d a b o fun old x _ => some (old ^^^ x))
def execAmoxord (d a b : BitVec 5) (o : BitVec 2) (s : State) : Result :=
  .next (s.amo 4 .w64 d a b o fun old x _ => some (old ^^^ x))
def execAmominw (d a b : BitVec 5) (o : BitVec 2) (s : State) : Result :=
  .next (s.amo 5 .w32 d a b o fun old x _ => some (amoMin 32 true false old x))
def execAmomind (d a b : BitVec 5) (o : BitVec 2) (s : State) : Result :=
  .next (s.amo 5 .w64 d a b o fun old x _ => some (amoMin 64 true false old x))
def execAmomaxw (d a b : BitVec 5) (o : BitVec 2) (s : State) : Result :=
  .next (s.amo 6 .w32 d a b o fun old x _ => some (amoMin 32 true true old x))
def execAmomaxd (d a b : BitVec 5) (o : BitVec 2) (s : State) : Result :=
  .next (s.amo 6 .w64 d a b o fun old x _ => some (amoMin 64 true true old x))
def execAmominnw (d a b : BitVec 5) (o : BitVec 2) (s : State) : Result :=
  .next (s.amo 7 .w32 d a b o fun old x _ => some (amoMin 32 false false old x))
def execAmominnd (d a b : BitVec 5) (o : BitVec 2) (s : State) : Result :=
  .next (s.amo 7 .w64 d a b o fun old x _ => some (amoMin 64 false false old x))
def execAmomaxnw (d a b : BitVec 5) (o : BitVec 2) (s : State) : Result :=
  .next (s.amo 8 .w32 d a b o fun old x _ => some (amoMin 32 false true old x))
def execAmomaxnd (d a b : BitVec 5) (o : BitVec 2) (s : State) : Result :=
  .next (s.amo 8 .w64 d a b o fun old x _ => some (amoMin 64 false true old x))
/-- The new value is written where memory holds gd's value; gd is read before it is written (R332). -/
def execAmocasw (d a b : BitVec 5) (o : BitVec 2) (s : State) : Result :=
  .next (s.amo 9 .w32 d a b o fun old x c => if old = c then some x else none)
def execAmocasd (d a b : BitVec 5) (o : BitVec 2) (s : State) : Result :=
  .next (s.amo 9 .w64 d a b o fun old x c => if old = c then some x else none)

end Sys2Proof.Machine
end

