-- ==== Sys2Proof/Machine/FloatScalar.lean ====
section
/-! DEFINITION. Scalar floating-point instructions (spec/04_scalar.md, R113 to R116). They trap on no operand value;
each writes gd, raises the flags of R84 and moves on. -/

namespace Sys2Proof.Machine

/-- A floating-point result written with its flags. -/
def State.writeF (s : State) (d : BitVec 5) (f : FFmt) (r : FRes) : State := ((s.setG d (fbox f r.bits)).raiseFlags r.fl).next

/-- An integer result written with the flags of a compare or a conversion. -/
def State.writeI (s : State) (d : BitVec 5) (x : Word) (fl : FFlags) : State := ((s.setG d x).raiseFlags fl).next

def execFadd (d a b : BitVec 5) (f : FFmt) (rm : BitVec 2) (s : State) : Result :=
  .next (s.writeF d f (addNum (ffmt f) (RM.ofCode rm) (s.fval f a) (s.fval f b)))
/-- A subtrahend counts with its sign inverted (R114). -/
def execFsub (d a b : BitVec 5) (f : FFmt) (rm : BitVec 2) (s : State) : Result :=
  .next (s.writeF d f (addNum (ffmt f) (RM.ofCode rm) (s.fval f a) (s.fval f b).negate))
def execFmul (d a b : BitVec 5) (f : FFmt) (rm : BitVec 2) (s : State) : Result :=
  .next (s.writeF d f (mulNum (ffmt f) (RM.ofCode rm) (s.fval f a) (s.fval f b)))
def execFdiv (d a b : BitVec 5) (f : FFmt) (rm : BitVec 2) (s : State) : Result :=
  .next (s.writeF d f (divNum (ffmt f) (RM.ofCode rm) (s.fval f a) (s.fval f b)))
def execFsqrt (d a : BitVec 5) (f : FFmt) (rm : BitVec 2) (s : State) : Result :=
  .next (s.writeF d f (sqrtNum (ffmt f) (RM.ofCode rm) (s.fval f a)))
/-- The rm field is ignored (R49). -/
def execFmin (d a b : BitVec 5) (f : FFmt) (_rm : BitVec 2) (s : State) : Result :=
  .next (s.writeF d f { bits := minMaxBits (ffmt f) false (s.fbits f a) (s.fbits f b) })
def execFmax (d a b : BitVec 5) (f : FFmt) (_rm : BitVec 2) (s : State) : Result :=
  .next (s.writeF d f { bits := minMaxBits (ffmt f) true (s.fbits f a) (s.fbits f b) })
/-- gd + gs1 * gs2 with one rounding (R49, R79). -/
def execFmacc (d a b : BitVec 5) (f : FFmt) (rm : BitVec 2) (s : State) : Result :=
  .next (s.writeF d f (fmaNum (ffmt f) (RM.ofCode rm) (s.fval f a) (s.fval f b) (s.fval f d)))
/-- gd - gs1 * gs2 with one rounding (R49, R79). -/
def execFnmacc (d a b : BitVec 5) (f : FFmt) (rm : BitVec 2) (s : State) : Result :=
  .next (s.writeF d f (fmaNum (ffmt f) (RM.ofCode rm) (s.fval f a).negate (s.fval f b) (s.fval f d)))

/-- An operand's bits without the sign bit. -/
def magBits (f : Fmt) (b : Nat) : Nat := b % 2 ^ (f.width - 1)
/-- An operand's sign bit. -/
def signBit (f : Fmt) (b : Nat) : Bool := bit b (f.width - 1)

def execFsgnj (d a b : BitVec 5) (f : FFmt) (_rm : BitVec 2) (s : State) : Result :=
  .next (s.writeF d f { bits := (ffmt f).withSign (signBit (ffmt f) (s.fbits f b)) (magBits (ffmt f) (s.fbits f a)) })
def execFsgnjn (d a b : BitVec 5) (f : FFmt) (_rm : BitVec 2) (s : State) : Result :=
  .next (s.writeF d f { bits := (ffmt f).withSign (!signBit (ffmt f) (s.fbits f b)) (magBits (ffmt f) (s.fbits f a)) })
def execFsgnjx (d a b : BitVec 5) (f : FFmt) (_rm : BitVec 2) (s : State) : Result :=
  .next (s.writeF d f { bits := (ffmt f).withSign (signBit (ffmt f) (s.fbits f a) != signBit (ffmt f) (s.fbits f b))
                                  (magBits (ffmt f) (s.fbits f a)) })

/-- An ordered compare with a NaN operand sets NV (R82). -/
def orderedFlags (x y : Num) : FFlags := if x = .nan ∨ y = .nan then flagNV else 0

def execFeq (d a b : BitVec 5) (f : FFmt) (_rm : BitVec 2) (s : State) : Result :=
  .next (s.writeI d (if (s.fval f a).feq (s.fval f b) then 1 else 0) 0)
def execFlt (d a b : BitVec 5) (f : FFmt) (_rm : BitVec 2) (s : State) : Result :=
  .next (s.writeI d (if (s.fval f a).lt (s.fval f b) then 1 else 0) (orderedFlags (s.fval f a) (s.fval f b)))
def execFle (d a b : BitVec 5) (f : FFmt) (_rm : BitVec 2) (s : State) : Result :=
  .next (s.writeI d (if (s.fval f a).lt (s.fval f b) || (s.fval f a).feq (s.fval f b) then 1 else 0)
    (orderedFlags (s.fval f a) (s.fval f b)))
def execFclass (d a : BitVec 5) (f : FFmt) (_rm : BitVec 2) (s : State) : Result :=
  .next (s.writeI d (BitVec.ofNat 64 (2 ^ fclassBit (ffmt f) (s.fbits f a))) 0)

/-- Conversions to integers clamp, and a clamped result sets NV alone (R86, R116). -/
def execFcvtI64 (d a : BitVec 5) (f : FFmt) (rm : BitVec 2) (s : State) : Result :=
  let r := convert (ffmt f) .i64 (RM.ofCode rm) false (s.fbits f a)
  .next (s.writeI d (BitVec.ofNat 64 r.bits) r.fl)
def execFcvtN64 (d a : BitVec 5) (f : FFmt) (rm : BitVec 2) (s : State) : Result :=
  let r := convert (ffmt f) .n64 (RM.ofCode rm) false (s.fbits f a)
  .next (s.writeI d (BitVec.ofNat 64 r.bits) r.fl)
def execFcvtFmtI64 (d a : BitVec 5) (f : FFmt) (rm : BitVec 2) (s : State) : Result :=
  .next (s.writeF d f (convert .i64 (ffmt f) (RM.ofCode rm) false (s.g a).toNat))
def execFcvtFmtN64 (d a : BitVec 5) (f : FFmt) (rm : BitVec 2) (s : State) : Result :=
  .next (s.writeF d f (convert .n64 (ffmt f) (RM.ofCode rm) false (s.g a).toNat))
/-- The other format to fmt; widening is exact whatever rm is (R49, R114). -/
def execFcvtFmtOther (d a : BitVec 5) (f : FFmt) (rm : BitVec 2) (s : State) : Result :=
  let src : FFmt := match f with | .f32 => .f64 | .f64 => .f32
  .next (s.writeF d f (convert (ffmt src) (ffmt f) (RM.ofCode rm) false (s.fbits src a)))

end Sys2Proof.Machine
end

