-- ==== Sys2Proof/Machine/Scalar.lean ====
section
/-! DEFINITION. Scalar integer and address instructions (spec/04_scalar.md, R109 to R112). None of them traps or sets a
flag. -/

namespace Sys2Proof.Machine

/-- Signed division towards zero, with the boundary cases of R110. -/
def divS (a b : Word) : Word :=
  if b = 0 then BitVec.allOnes 64 else if a = BitVec.intMin 64 ∧ b = BitVec.allOnes 64 then a else a.sdiv b

/-- Signed remainder with the sign of the dividend (R109, R110). -/
def remS (a b : Word) : Word :=
  if b = 0 then a else if a = BitVec.intMin 64 ∧ b = BitVec.allOnes 64 then 0 else a.srem b

/-- Unsigned division (R110). -/
def divU (a b : Word) : Word := if b = 0 then BitVec.allOnes 64 else a / b

/-- Unsigned remainder (R110). -/
def remU (a b : Word) : Word := if b = 0 then a else a % b

/-- Bits [127:64] of a product of two integers (R109). -/
def mulHigh (x y : Int) : Word := BitVec.ofInt 64 ((x * y).fdiv (2 ^ 64))

/-- 1 or 0. -/
def flagWord (b : Bool) : Word := if b then 1 else 0

/-- The number of zero bits above the highest 1 (R109). -/
def countLead (a : Word) : Word := if a = 0 then 64 else BitVec.ofNat 64 (63 - a.toNat.log2)

/-- The low n bytes in reverse order (R109). -/
def revBytes (a n : Nat) : Nat :=
  match n with
  | 0 => 0
  | n + 1 => a % 256 * 256 ^ n + revBytes (a / 256) n

def execAdd (d a b : BitVec 5) (s : State) : Result := .next (s.write d (s.g a + s.g b))
def execSub (d a b : BitVec 5) (s : State) : Result := .next (s.write d (s.g a - s.g b))
def execAnd (d a b : BitVec 5) (s : State) : Result := .next (s.write d (s.g a &&& s.g b))
def execOr (d a b : BitVec 5) (s : State) : Result := .next (s.write d (s.g a ||| s.g b))
def execXor (d a b : BitVec 5) (s : State) : Result := .next (s.write d (s.g a ^^^ s.g b))
def execAndn (d a b : BitVec 5) (s : State) : Result := .next (s.write d (s.g a &&& ~~~(s.g b)))

/-- The shift amount in gs2: bits [5:0] (R109). -/
def State.shamt (s : State) (b : BitVec 5) : Nat := (s.g b).toNat % 64

def execSll (d a b : BitVec 5) (s : State) : Result := .next (s.write d (s.g a <<< s.shamt b))
def execSrl (d a b : BitVec 5) (s : State) : Result := .next (s.write d (s.g a >>> s.shamt b))
def execSra (d a b : BitVec 5) (s : State) : Result := .next (s.write d ((s.g a).sshiftRight (s.shamt b)))
def execSlt (d a b : BitVec 5) (s : State) : Result := .next (s.write d (flagWord ((s.g a).slt (s.g b))))
def execSltn (d a b : BitVec 5) (s : State) : Result := .next (s.write d (flagWord ((s.g a).ult (s.g b))))
def execMin (d a b : BitVec 5) (s : State) : Result := .next (s.write d (if (s.g b).slt (s.g a) then s.g b else s.g a))
def execMax (d a b : BitVec 5) (s : State) : Result := .next (s.write d (if (s.g a).slt (s.g b) then s.g b else s.g a))
def execMinn (d a b : BitVec 5) (s : State) : Result := .next (s.write d (if (s.g b).ult (s.g a) then s.g b else s.g a))
def execMaxn (d a b : BitVec 5) (s : State) : Result := .next (s.write d (if (s.g a).ult (s.g b) then s.g b else s.g a))
def execMul (d a b : BitVec 5) (s : State) : Result := .next (s.write d (s.g a * s.g b))
def execMulh (d a b : BitVec 5) (s : State) : Result := .next (s.write d (mulHigh (s.g a).toInt (s.g b).toInt))
def execMulhn (d a b : BitVec 5) (s : State) : Result := .next (s.write d (mulHigh (s.g a).toNat (s.g b).toNat))
def execMulhsn (d a b : BitVec 5) (s : State) : Result := .next (s.write d (mulHigh (s.g a).toInt (s.g b).toNat))
def execDiv (d a b : BitVec 5) (s : State) : Result := .next (s.write d (divS (s.g a) (s.g b)))
def execDivn (d a b : BitVec 5) (s : State) : Result := .next (s.write d (divU (s.g a) (s.g b)))
def execRem (d a b : BitVec 5) (s : State) : Result := .next (s.write d (remS (s.g a) (s.g b)))
def execRemn (d a b : BitVec 5) (s : State) : Result := .next (s.write d (remU (s.g a) (s.g b)))
def execClz (d a : BitVec 5) (s : State) : Result := .next (s.write d (countLead (s.g a)))
def execCtz (d a : BitVec 5) (s : State) : Result := .next (s.write d (BitVec.ofNat 64 (trailFrom (s.g a).toNat 64 0)))
def execCpop (d a : BitVec 5) (s : State) : Result := .next (s.write d (BitVec.ofNat 64 (popFrom (s.g a).toNat 64)))
def execBswap (d a : BitVec 5) (s : State) : Result := .next (s.write d (BitVec.ofNat 64 (revBytes (s.g a).toNat 8)))

def execAddi (d a : BitVec 5) (i : BitVec 12) (s : State) : Result := .next (s.write d (s.g a + imm12 i))
def execSlti (d a : BitVec 5) (i : BitVec 12) (s : State) : Result := .next (s.write d (flagWord ((s.g a).slt (imm12 i))))
def execSltni (d a : BitVec 5) (i : BitVec 12) (s : State) : Result := .next (s.write d (flagWord ((s.g a).ult (imm12 i))))
def execXori (d a : BitVec 5) (i : BitVec 12) (s : State) : Result := .next (s.write d (s.g a ^^^ imm12 i))
def execOri (d a : BitVec 5) (i : BitVec 12) (s : State) : Result := .next (s.write d (s.g a ||| imm12 i))
def execAndi (d a : BitVec 5) (i : BitVec 12) (s : State) : Result := .next (s.write d (s.g a &&& imm12 i))
def execSlli (d a : BitVec 5) (sh : BitVec 6) (s : State) : Result := .next (s.write d (s.g a <<< sh.toNat))
def execSrli (d a : BitVec 5) (sh : BitVec 6) (s : State) : Result := .next (s.write d (s.g a >>> sh.toNat))
def execSrai (d a : BitVec 5) (sh : BitVec 6) (s : State) : Result := .next (s.write d ((s.g a).sshiftRight sh.toNat))

/-- LUI (R35, R112). -/
def execLui (d : BitVec 5) (i : BitVec 20) (s : State) : Result := .next (s.write d (upper20 i))
/-- AUIPC: the PC is that of the instruction itself (R35, R112). -/
def execAuipc (d : BitVec 5) (i : BitVec 20) (s : State) : Result := .next (s.write d (s.me.pc + upper20 i))

end Sys2Proof.Machine
end

