-- ==== Sys2Proof/Machine/Tlb.lean ====
section
/-! DEFINITION. Removal of translations (spec/13_system.md, R368, R370), and the events of the memory system: evictions
and accesses from other packages (spec/08_vector_memory.md, R214; spec/12_sync.md, R331), and an element of an nma. -/

namespace Sys2Proof.Machine

/-- A TLBINV (R370): the privilege trap, a wait until the hart's earlier accesses have performed at package scope, the
removal of the matching entries everywhere in the package, and a wait until no pin holds one of them. -/
def State.tlbinv (s : State) (val : Word) (gone : TlbEntry → Bool) : State :=
  if s.me.level = .user then s.trap .privilege val
  else
    s.release 4 fun t =>
      let u := t.dropTranslations gone
      if (u.allPins u.seq).any gone then u.stall .drain else u.next

/-- tlbinv.va: every entry that maps the page of gs1 in the ASID of gs2, and global entries of that page. -/
def execTlbinvVa (a b : BitVec 5) (s : State) : Result :=
  let asid := (s.g b).setWidth 9
  let va := (s.g a).toNat
  .next (s.tlbinv (privVal 0 b a) fun t => t.maps asid va)

/-- tlbinv.asid: every entry of the ASID that is not global. -/
def execTlbinvAsid (a : BitVec 5) (s : State) : Result :=
  let asid := (s.g a).setWidth 9
  .next (s.tlbinv (privVal 1 0 a) fun t => t.asid == asid && !t.leaf.getLsbD 7)

/-- tlbinv.all: every entry. -/
def execTlbinvAll (s : State) : Result := .next (s.tlbinv (privVal 2 0 0) fun _ => true)

/-- TLB_ENTRY_DROP (R368): entry k of a core's TLB (0), of its instruction TLB (1) or walk cache (2), or of a cluster's
instruction TLB (3) is dropped, unless a pin holds it. -/
def execTlbEntryDrop (place n k : Nat) (s : State) : Result :=
  let pins := s.allPins s.seq
  let drop (l : List TlbEntry) : List TlbEntry :=
    match l[k]? with
    | some t => if pins.contains t then l else l.eraseIdx k
    | none => l
  .next (match place with
    | 0 => s.updCore n fun c => { c with tlb := drop c.tlb }
    | 1 => s.updCore n fun c => { c with itlb := drop c.itlb }
    | 2 => s.updCore n fun c => { c with walk := c.walk.eraseIdx k }
    | _ => s.updCluster n fun c => { c with itlb := drop c.itlb })

/-- L2_EVICTION (R214): the L2 gives up the line of a key, and what is dirty in it goes to DRAM. Which line goes is open; that
lines with the hint keep are retained in preference to others shows in no value (R38, log entry 74). -/
def execL2Eviction (key : Nat) (s : State) : Result := .next (s.flushLine key)

/-- The new value of an AMO from another package: the functions of R332 in their order at 32 and 64 bits, then amofadd. -/
def remoteAmo (op n old x c : Nat) : Option Nat :=
  let w := 8 * n
  match op with
  | 0 => some (old + x)
  | 1 => some x
  | 2 => some (old &&& x)
  | 3 => some (old ||| x)
  | 4 => some (old ^^^ x)
  | 5 => some (amoMin w true false old x)
  | 6 => some (amoMin w true true old x)
  | 7 => some (amoMin w false false old x)
  | 8 => some (amoMin w false true old x)
  | 9 => if old = c then some x else none
  | _ => some (addNum .f32 .rne (Fmt.f32.decode old) (Fmt.f32.decode x)).bits

/-- REMOTE_ACCESS (R331): a load (op 0), a store (op 1) or an AMO (op 2 and up) of n bytes from another package performs at
its home here. An address that no memory answers for draws an access fault there and changes nothing here (R118); an
error that persists stops an AMO (R119). -/
def execRemoteAccess (op key n x c : Nat) (s : State) : Result :=
  let w := if n ≤ 1 then 1 else if n ≤ 2 then 2 else if n ≤ 4 then 4 else 8
  let v := x % 2 ^ (8 * w)
  if 2 ^ 56 ≤ key ∨ s.isRemote key ∨ s.keyOf 0 .supervisor key ≠ some key ∨ key % w ≠ 0 then .next s
  else
    .next (match op with
      | 0 => s.clearTransient key w
      | 1 => s.store key w v
      | _ =>
        if s.poisonedAt key w then s
        else
          match remoteAmo (op - 2) w (s.read key w) v (c % 2 ^ (8 * w)) with
          | some y => (s.clearTransient key w).store key w (y % 2 ^ (8 * w))
          | none => s.clearTransient key w)

/-- NMA_ELEMENT (R335): the next element of the oldest nma with elements left is added at its home. -/
def execNmaElement (s : State) : Result :=
  match findIdx (fun r => r.elems.any fun a => match a.kind with | .near _ | .nearSplit .. => true | _ => false) s.me.rf with
  | some (n, _) => .next (s.performReturnFree n 0)
  | none => .next s

end Sys2Proof.Machine
end

