-- ==== Sys2Proof/Machine/VectorOps.lean ====
section
/-! DEFINITION. The vector instructions: each hands its word's fields to the vector unit, which holds what the operation
does (spec/07_vector_arith.md, spec/08_vector_memory.md; R315, R333, R334). -/

namespace Sys2Proof.Machine


/-! ### Arithmetic, selection and movement (R186 to R210) -/

def execVadd (d a b : BitVec 5) (rep : BitVec 3) (cv : Bool) (m : BitVec 4) (s : State) : Result :=
  .next (s.vector { op := .add, d, a, b, rep, cv, m })
def execVsub (d a b : BitVec 5) (rep : BitVec 3) (cv : Bool) (m : BitVec 4) (s : State) : Result :=
  .next (s.vector { op := .sub, d, a, b, rep, cv, m })
def execVrsub (d a b : BitVec 5) (rep : BitVec 3) (cv : Bool) (m : BitVec 4) (s : State) : Result :=
  .next (s.vector { op := .rsub, d, a, b, rep, cv, m })
def execVmul (d a b : BitVec 5) (rep : BitVec 3) (cv : Bool) (m : BitVec 4) (s : State) : Result :=
  .next (s.vector { op := .mul, d, a, b, rep, cv, m })
def execVmin (d a b : BitVec 5) (rep : BitVec 3) (cv : Bool) (m : BitVec 4) (s : State) : Result :=
  .next (s.vector { op := .min, d, a, b, rep, cv, m })
def execVmax (d a b : BitVec 5) (rep : BitVec 3) (cv : Bool) (m : BitVec 4) (s : State) : Result :=
  .next (s.vector { op := .max, d, a, b, rep, cv, m })
def execVsadd (d a b : BitVec 5) (rep : BitVec 3) (cv : Bool) (m : BitVec 4) (s : State) : Result :=
  .next (s.vector { op := .sadd, d, a, b, rep, cv, m })
def execVssub (d a b : BitVec 5) (rep : BitVec 3) (cv : Bool) (m : BitVec 4) (s : State) : Result :=
  .next (s.vector { op := .ssub, d, a, b, rep, cv, m })
def execVmacc (d a b : BitVec 5) (rep : BitVec 3) (cv : Bool) (m : BitVec 4) (s : State) : Result :=
  .next (s.vector { op := .macc, d, a, b, rep, cv, m })
def execVnmsac (d a b : BitVec 5) (rep : BitVec 3) (cv : Bool) (m : BitVec 4) (s : State) : Result :=
  .next (s.vector { op := .nmsac, d, a, b, rep, cv, m })
def execVmadd (d a b : BitVec 5) (rep : BitVec 3) (cv : Bool) (m : BitVec 4) (s : State) : Result :=
  .next (s.vector { op := .madd, d, a, b, rep, cv, m })
def execVnmsub (d a b : BitVec 5) (rep : BitVec 3) (cv : Bool) (m : BitVec 4) (s : State) : Result :=
  .next (s.vector { op := .nmsub, d, a, b, rep, cv, m })
def execVand (d a b : BitVec 5) (rep : BitVec 3) (cv : Bool) (m : BitVec 4) (s : State) : Result :=
  .next (s.vector { op := .and, d, a, b, rep, cv, m })
def execVor (d a b : BitVec 5) (rep : BitVec 3) (cv : Bool) (m : BitVec 4) (s : State) : Result :=
  .next (s.vector { op := .or, d, a, b, rep, cv, m })
def execVxor (d a b : BitVec 5) (rep : BitVec 3) (cv : Bool) (m : BitVec 4) (s : State) : Result :=
  .next (s.vector { op := .xor, d, a, b, rep, cv, m })
def execVandn (d a b : BitVec 5) (rep : BitVec 3) (cv : Bool) (m : BitVec 4) (s : State) : Result :=
  .next (s.vector { op := .andn, d, a, b, rep, cv, m })
def execVsll (d a b : BitVec 5) (rep : BitVec 3) (cv : Bool) (m : BitVec 4) (s : State) : Result :=
  .next (s.vector { op := .sll, d, a, b, rep, cv, m })
def execVsrl (d a b : BitVec 5) (rep : BitVec 3) (cv : Bool) (m : BitVec 4) (s : State) : Result :=
  .next (s.vector { op := .srl, d, a, b, rep, cv, m })
def execVsra (d a b : BitVec 5) (rep : BitVec 3) (cv : Bool) (m : BitVec 4) (s : State) : Result :=
  .next (s.vector { op := .sra, d, a, b, rep, cv, m })
def execVrot (d a b : BitVec 5) (rep : BitVec 3) (cv : Bool) (m : BitVec 4) (s : State) : Result :=
  .next (s.vector { op := .rot, d, a, b, rep, cv, m })
def execVmseq (d : BitVec 4) (a b : BitVec 5) (rep : BitVec 3) (cv : Bool) (m : BitVec 4) (s : State) : Result :=
  .next (s.vector { op := .mseq, d := d.setWidth 5, a, b, rep, cv, m })
def execVmsne (d : BitVec 4) (a b : BitVec 5) (rep : BitVec 3) (cv : Bool) (m : BitVec 4) (s : State) : Result :=
  .next (s.vector { op := .msne, d := d.setWidth 5, a, b, rep, cv, m })
def execVmslt (d : BitVec 4) (a b : BitVec 5) (rep : BitVec 3) (cv : Bool) (m : BitVec 4) (s : State) : Result :=
  .next (s.vector { op := .mslt, d := d.setWidth 5, a, b, rep, cv, m })
def execVmsle (d : BitVec 4) (a b : BitVec 5) (rep : BitVec 3) (cv : Bool) (m : BitVec 4) (s : State) : Result :=
  .next (s.vector { op := .msle, d := d.setWidth 5, a, b, rep, cv, m })
def execVmerge (d a b : BitVec 5) (rep : BitVec 3) (cv : Bool) (m : BitVec 4) (s : State) : Result :=
  .next (s.vector { op := .merge, d, a, b, rep, cv, m })
def execVclamp (d a b : BitVec 5) (rep : BitVec 3) (cv : Bool) (m : BitVec 4) (s : State) : Result :=
  .next (s.vector { op := .clamp, d, a, b, rep, cv, m })
def execVmv (d a : BitVec 5) (cv : Bool) (m : BitVec 4) (s : State) : Result :=
  .next (s.vector { op := .mv, d, a, cv, m })
def execVabs (d a : BitVec 5) (cv : Bool) (m : BitVec 4) (s : State) : Result :=
  .next (s.vector { op := .abs, d, a, cv, m })
def execVdiv (d a b : BitVec 5) (rep : BitVec 3) (cv : Bool) (m : BitVec 4) (s : State) : Result :=
  .next (s.vector { op := .div, d, a, b, rep, cv, m })
def execVrem (d a b : BitVec 5) (rep : BitVec 3) (cv : Bool) (m : BitVec 4) (s : State) : Result :=
  .next (s.vector { op := .rem, d, a, b, rep, cv, m })
def execVsqrt (d a : BitVec 5) (cv : Bool) (m : BitVec 4) (s : State) : Result :=
  .next (s.vector { op := .sqrt, d, a, cv, m })
def execVrcp (d a : BitVec 5) (cv : Bool) (m : BitVec 4) (s : State) : Result :=
  .next (s.vector { op := .rcp, d, a, cv, m })
def execVexp2 (d a : BitVec 5) (cv : Bool) (m : BitVec 4) (s : State) : Result :=
  .next (s.vector { op := .exp2, d, a, cv, m })
def execVlog2 (d a : BitVec 5) (cv : Bool) (m : BitVec 4) (s : State) : Result :=
  .next (s.vector { op := .log2, d, a, cv, m })
def execVrsqrt (d a : BitVec 5) (cv : Bool) (m : BitVec 4) (s : State) : Result :=
  .next (s.vector { op := .rsqrt, d, a, cv, m })
def execVtanh (d a : BitVec 5) (cv : Bool) (m : BitVec 4) (s : State) : Result :=
  .next (s.vector { op := .tanh, d, a, cv, m })
def execVsin (d a : BitVec 5) (cv : Bool) (m : BitVec 4) (s : State) : Result :=
  .next (s.vector { op := .sin, d, a, cv, m })
def execVcos (d a : BitVec 5) (cv : Bool) (m : BitVec 4) (s : State) : Result :=
  .next (s.vector { op := .cos, d, a, cv, m })
def execVclass (d a : BitVec 5) (cv : Bool) (m : BitVec 4) (s : State) : Result :=
  .next (s.vector { op := .vclass, d, a, cv, m })
def execVcvt (d a : BitVec 5) (rm : BitVec 2) (cv : Bool) (m : BitVec 4) (s : State) : Result :=
  .next (s.vector { op := .cvt, d, a, b := rm.setWidth 5, cv, m })
def execVcvtsat (d a : BitVec 5) (rm : BitVec 2) (cv : Bool) (m : BitVec 4) (s : State) : Result :=
  .next (s.vector { op := .cvt, d, a, b := 4#5 ||| rm.setWidth 5, cv, m })
def execVcvts (d a : BitVec 5) (rm : BitVec 2) (cv : Bool) (m : BitVec 4) (s : State) : Result :=
  .next (s.vector { op := .cvts, d, a, b := rm.setWidth 5, cv, m })
def execVcvtssat (d a : BitVec 5) (rm : BitVec 2) (cv : Bool) (m : BitVec 4) (s : State) : Result :=
  .next (s.vector { op := .cvts, d, a, b := 4#5 ||| rm.setWidth 5, cv, m })
def execVredsum (d a b : BitVec 5) (rep : BitVec 3) (m : BitVec 4) (s : State) : Result :=
  .next (s.vector { op := .redsum, d, a, b, rep, m })
def execVredmin (d a b : BitVec 5) (rep : BitVec 3) (m : BitVec 4) (s : State) : Result :=
  .next (s.vector { op := .redmin, d, a, b, rep, m })
def execVredmax (d a b : BitVec 5) (rep : BitVec 3) (m : BitVec 4) (s : State) : Result :=
  .next (s.vector { op := .redmax, d, a, b, rep, m })
def execVredor (d a b : BitVec 5) (rep : BitVec 3) (m : BitVec 4) (s : State) : Result :=
  .next (s.vector { op := .redor, d, a, b, rep, m })
def execVscansum (d a : BitVec 5) (m : BitVec 4) (s : State) : Result := .next (s.vector { op := .scansum, d, a, m })
def execVscanmin (d a : BitVec 5) (m : BitVec 4) (s : State) : Result := .next (s.vector { op := .scanmin, d, a, m })
def execVscanmax (d a : BitVec 5) (m : BitVec 4) (s : State) : Result := .next (s.vector { op := .scanmax, d, a, m })
def execVslideup (d a b : BitVec 5) (cv : Bool) (m : BitVec 4) (s : State) : Result :=
  .next (s.vector { op := .slideup, d, a, b, cv, m })
def execVslidedn (d a b : BitVec 5) (cv : Bool) (m : BitVec 4) (s : State) : Result :=
  .next (s.vector { op := .slidedn, d, a, b, cv, m })
def execVslide1up (d a b : BitVec 5) (cv : Bool) (m : BitVec 4) (s : State) : Result :=
  .next (s.vector { op := .slide1up, d, a, b, cv, m })
def execVslide1dn (d a b : BitVec 5) (cv : Bool) (m : BitVec 4) (s : State) : Result :=
  .next (s.vector { op := .slide1dn, d, a, b, cv, m })
def execVperm (d a b : BitVec 5) (rep : BitVec 3) (m : BitVec 4) (s : State) : Result :=
  .next (s.vector { op := .perm, d, a, b, rep, m })
def execVcompress (d a : BitVec 5) (m : BitVec 4) (s : State) : Result :=
  .next (s.vector { op := .compress, d, a, m })
def execVexpand (d a : BitVec 5) (m : BitVec 4) (s : State) : Result := .next (s.vector { op := .expand, d, a, m })
def execViota (d : BitVec 5) (m : BitVec 4) (s : State) : Result := .next (s.vector { op := .iota, d, a := 0, m })
def execVsegsort (d a : BitVec 5) (m : BitVec 4) (s : State) : Result := .next (s.vector { op := .segsort, d, a, m })
def execVsegsortkv (d a b : BitVec 5) (rep : BitVec 3) (m : BitVec 4) (s : State) : Result :=
  .next (s.vector { op := .segsortkv, d, a, b, rep, m })
def execVdupmerge (d a b : BitVec 5) (rep : BitVec 3) (m : BitVec 4) (s : State) : Result :=
  .next (s.vector { op := .dupmerge, d, a, b, rep, m })
def execVopaX1 (d a b : BitVec 5) (rep : BitVec 3) (cv : Bool) (m : BitVec 4) (s : State) : Result :=
  .next (s.vector { op := .opa1, d, a, b, rep, cv, m })
def execVopaX2 (d a b : BitVec 5) (rep : BitVec 3) (cv : Bool) (m : BitVec 4) (s : State) : Result :=
  .next (s.vector { op := .opa2, d, a, b, rep, cv, m })
def execVopaX4 (d a b : BitVec 5) (rep : BitVec 3) (cv : Bool) (m : BitVec 4) (s : State) : Result :=
  .next (s.vector { op := .opa4, d, a, b, rep, cv, m })
def execVopaX8 (d a b : BitVec 5) (rep : BitVec 3) (cv : Bool) (m : BitVec 4) (s : State) : Result :=
  .next (s.vector { op := .opa8, d, a, b, rep, cv, m })

/-! ### Register moves (R204, R205) -/

def execVmvVg (d a : BitVec 5) (m : BitVec 4) (s : State) : Result := .next (s.vector { op := .mvVG, d, a, m })
def execVmvVq (d : BitVec 5) (q : BitVec 3) (m : BitVec 4) (s : State) : Result :=
  .next (s.vector { op := .mvVQ, d, a := q.setWidth 5, m })
def execVmvQv (q : BitVec 3) (a : BitVec 5) (m : BitVec 4) (s : State) : Result :=
  .next (s.vector { op := .mvQV, d := q.setWidth 5, a, m })

/-! ### Memory (R221, R222) -/

def execVld (d a : BitVec 5) (hint : BitVec 2) (cv : Bool) (m : BitVec 4) (s : State) : Result :=
  .next (s.vector { op := .ld, d, a, rep := hint.setWidth 3, cv, m })
def execVlds (d a b : BitVec 5) (hint : BitVec 2) (cv : Bool) (m : BitVec 4) (s : State) : Result :=
  .next (s.vector { op := .lds, d, a, b, rep := hint.setWidth 3, cv, m })
def execVldx (d a b : BitVec 5) (hint : BitVec 2) (cv : Bool) (m : BitVec 4) (s : State) : Result :=
  .next (s.vector { op := .ldx, d, a, b, rep := hint.setWidth 3, cv, m })
def execVldff (d a : BitVec 5) (hint : BitVec 2) (cv : Bool) (m : BitVec 4) (s : State) : Result :=
  .next (s.vector { op := .ldff, d, a, rep := hint.setWidth 3, cv, m })
def execVst (d a : BitVec 5) (nfy : Bool) (hint : BitVec 2) (cv : Bool) (m : BitVec 4) (s : State) : Result :=
  .next (s.vector { op := .st, d, a, rep := BitVec.ofBool nfy ++ hint, cv, m })
def execVsts (d a b : BitVec 5) (nfy : Bool) (hint : BitVec 2) (cv : Bool) (m : BitVec 4) (s : State) : Result :=
  .next (s.vector { op := .sts, d, a, b, rep := BitVec.ofBool nfy ++ hint, cv, m })
def execVstx (d a b : BitVec 5) (nfy : Bool) (hint : BitVec 2) (cv : Bool) (m : BitVec 4) (s : State) : Result :=
  .next (s.vector { op := .stx, d, a, b, rep := BitVec.ofBool nfy ++ hint, cv, m })
def execVldseg (d a : BitVec 5) (nf : BitVec 3) (m : BitVec 4) (s : State) : Result :=
  .next (s.vector { op := .ldseg, d, a, b := nf.setWidth 5, m })
def execVstseg (d a : BitVec 5) (nf : BitVec 3) (m : BitVec 4) (s : State) : Result :=
  .next (s.vector { op := .stseg, d, a, b := nf.setWidth 5, m })

/-! ### Atomics of the near memories (R333) -/

def execVamoadd (d a b : BitVec 5) (m : BitVec 4) (s : State) : Result :=
  .next (s.vector { op := .amoadd, d, a, b, m })
def execVamomin (d a b : BitVec 5) (m : BitVec 4) (s : State) : Result :=
  .next (s.vector { op := .amomin, d, a, b, m })
def execVamomax (d a b : BitVec 5) (m : BitVec 4) (s : State) : Result :=
  .next (s.vector { op := .amomax, d, a, b, m })
def execVamoswap (d a b : BitVec 5) (m : BitVec 4) (s : State) : Result :=
  .next (s.vector { op := .amoswap, d, a, b, m })

/-! ### Scatter-reduce (R334) -/

def execVscredAdd (d a b : BitVec 5) (m : BitVec 4) (s : State) : Result :=
  .next (s.vector { op := .scredAdd, d, a, b, m })
def execVscredMin (d a b : BitVec 5) (m : BitVec 4) (s : State) : Result :=
  .next (s.vector { op := .scredMin, d, a, b, m })
def execVscredMax (d a b : BitVec 5) (m : BitVec 4) (s : State) : Result :=
  .next (s.vector { op := .scredMax, d, a, b, m })
def execVscredOr (d a b : BitVec 5) (m : BitVec 4) (s : State) : Result :=
  .next (s.vector { op := .scredOr, d, a, b, m })

/-! ### Bank operations (R40, R41, R315) -/

def execBankopAdd (a : BitVec 5) (s : State) : Result := .next (s.bankPair 1 a)
def execBankopMin (a : BitVec 5) (s : State) : Result := .next (s.bankPair 2 a)
def execBankopMax (a : BitVec 5) (s : State) : Result := .next (s.bankPair 3 a)
def execBankopAnd (a : BitVec 5) (s : State) : Result := .next (s.bankPair 4 a)
def execBankopOr (a : BitVec 5) (s : State) : Result := .next (s.bankPair 5 a)
def execBankopXor (a : BitVec 5) (s : State) : Result := .next (s.bankPair 6 a)

end Sys2Proof.Machine
end

