-- ==== Sys2Proof/Machine/Dispatch.lean ====
section
/-! DEFINITION. The dispatch: one arm for each constructor of Instr, each a direct call of that instruction's meaning. -/

namespace Sys2Proof.Machine

/-- What executing an instruction, or an event's taking place, does to the machine. -/
def exec (i : Instr) (s : State) : Host.Outcome State Fault Refusal :=
  match i with
  | .add d a b => Sys2Proof.Machine.execAdd d a b s
  | .sub d a b => Sys2Proof.Machine.execSub d a b s
  | .and d a b => Sys2Proof.Machine.execAnd d a b s
  | .or d a b => Sys2Proof.Machine.execOr d a b s
  | .xor d a b => Sys2Proof.Machine.execXor d a b s
  | .andn d a b => Sys2Proof.Machine.execAndn d a b s
  | .sll d a b => Sys2Proof.Machine.execSll d a b s
  | .srl d a b => Sys2Proof.Machine.execSrl d a b s
  | .sra d a b => Sys2Proof.Machine.execSra d a b s
  | .slt d a b => Sys2Proof.Machine.execSlt d a b s
  | .sltn d a b => Sys2Proof.Machine.execSltn d a b s
  | .min d a b => Sys2Proof.Machine.execMin d a b s
  | .max d a b => Sys2Proof.Machine.execMax d a b s
  | .minn d a b => Sys2Proof.Machine.execMinn d a b s
  | .maxn d a b => Sys2Proof.Machine.execMaxn d a b s
  | .mul d a b => Sys2Proof.Machine.execMul d a b s
  | .mulh d a b => Sys2Proof.Machine.execMulh d a b s
  | .mulhn d a b => Sys2Proof.Machine.execMulhn d a b s
  | .mulhsn d a b => Sys2Proof.Machine.execMulhsn d a b s
  | .div d a b => Sys2Proof.Machine.execDiv d a b s
  | .divn d a b => Sys2Proof.Machine.execDivn d a b s
  | .rem d a b => Sys2Proof.Machine.execRem d a b s
  | .remn d a b => Sys2Proof.Machine.execRemn d a b s
  | .clz d a => Sys2Proof.Machine.execClz d a s
  | .ctz d a => Sys2Proof.Machine.execCtz d a s
  | .cpop d a => Sys2Proof.Machine.execCpop d a s
  | .bswap d a => Sys2Proof.Machine.execBswap d a s
  | .addi d a imm => Sys2Proof.Machine.execAddi d a imm s
  | .slti d a imm => Sys2Proof.Machine.execSlti d a imm s
  | .sltni d a imm => Sys2Proof.Machine.execSltni d a imm s
  | .xori d a imm => Sys2Proof.Machine.execXori d a imm s
  | .ori d a imm => Sys2Proof.Machine.execOri d a imm s
  | .andi d a imm => Sys2Proof.Machine.execAndi d a imm s
  | .slli d a sh => Sys2Proof.Machine.execSlli d a sh s
  | .srli d a sh => Sys2Proof.Machine.execSrli d a sh s
  | .srai d a sh => Sys2Proof.Machine.execSrai d a sh s
  | .lui d imm => Sys2Proof.Machine.execLui d imm s
  | .auipc d imm => Sys2Proof.Machine.execAuipc d imm s
  | .fadd d a b fmt rm => Sys2Proof.Machine.execFadd d a b fmt rm s
  | .fsub d a b fmt rm => Sys2Proof.Machine.execFsub d a b fmt rm s
  | .fmul d a b fmt rm => Sys2Proof.Machine.execFmul d a b fmt rm s
  | .fdiv d a b fmt rm => Sys2Proof.Machine.execFdiv d a b fmt rm s
  | .fsqrt d a fmt rm => Sys2Proof.Machine.execFsqrt d a fmt rm s
  | .fmin d a b fmt rm => Sys2Proof.Machine.execFmin d a b fmt rm s
  | .fmax d a b fmt rm => Sys2Proof.Machine.execFmax d a b fmt rm s
  | .fmacc d a b fmt rm => Sys2Proof.Machine.execFmacc d a b fmt rm s
  | .fnmacc d a b fmt rm => Sys2Proof.Machine.execFnmacc d a b fmt rm s
  | .fsgnj d a b fmt rm => Sys2Proof.Machine.execFsgnj d a b fmt rm s
  | .fsgnjn d a b fmt rm => Sys2Proof.Machine.execFsgnjn d a b fmt rm s
  | .fsgnjx d a b fmt rm => Sys2Proof.Machine.execFsgnjx d a b fmt rm s
  | .feq d a b fmt rm => Sys2Proof.Machine.execFeq d a b fmt rm s
  | .flt d a b fmt rm => Sys2Proof.Machine.execFlt d a b fmt rm s
  | .fle d a b fmt rm => Sys2Proof.Machine.execFle d a b fmt rm s
  | .fclass d a fmt rm => Sys2Proof.Machine.execFclass d a fmt rm s
  | .fcvtI64 d a fmt rm => Sys2Proof.Machine.execFcvtI64 d a fmt rm s
  | .fcvtN64 d a fmt rm => Sys2Proof.Machine.execFcvtN64 d a fmt rm s
  | .fcvtFmtI64 d a fmt rm => Sys2Proof.Machine.execFcvtFmtI64 d a fmt rm s
  | .fcvtFmtN64 d a fmt rm => Sys2Proof.Machine.execFcvtFmtN64 d a fmt rm s
  | .fcvtFmtOther d a fmt rm => Sys2Proof.Machine.execFcvtFmtOther d a fmt rm s
  | .qpush q a => Sys2Proof.Machine.execQpush q a s
  | .qpop d q => Sys2Proof.Machine.execQpop d q s
  | .qlen d q => Sys2Proof.Machine.execQlen d q s
  | .lb d a imm => Sys2Proof.Machine.execLb d a imm s
  | .lh d a imm => Sys2Proof.Machine.execLh d a imm s
  | .lw d a imm => Sys2Proof.Machine.execLw d a imm s
  | .ld d a imm => Sys2Proof.Machine.execLd d a imm s
  | .lbn d a imm => Sys2Proof.Machine.execLbn d a imm s
  | .lhn d a imm => Sys2Proof.Machine.execLhn d a imm s
  | .lwn d a imm => Sys2Proof.Machine.execLwn d a imm s
  | .sb d a imm => Sys2Proof.Machine.execSb d a imm s
  | .sh d a imm => Sys2Proof.Machine.execSh d a imm s
  | .sw d a imm => Sys2Proof.Machine.execSw d a imm s
  | .sd d a imm => Sys2Proof.Machine.execSd d a imm s
  | .lbAq d a scope => Sys2Proof.Machine.execLbAq d a scope s
  | .lhAq d a scope => Sys2Proof.Machine.execLhAq d a scope s
  | .lwAq d a scope => Sys2Proof.Machine.execLwAq d a scope s
  | .ldAq d a scope => Sys2Proof.Machine.execLdAq d a scope s
  | .lbnAq d a scope => Sys2Proof.Machine.execLbnAq d a scope s
  | .lhnAq d a scope => Sys2Proof.Machine.execLhnAq d a scope s
  | .lwnAq d a scope => Sys2Proof.Machine.execLwnAq d a scope s
  | .sbRl d a scope => Sys2Proof.Machine.execSbRl d a scope s
  | .shRl d a scope => Sys2Proof.Machine.execShRl d a scope s
  | .swRl d a scope => Sys2Proof.Machine.execSwRl d a scope s
  | .sdRl d a scope => Sys2Proof.Machine.execSdRl d a scope s
  | .pref a imm => Sys2Proof.Machine.execPref a imm s
  | .prefw a imm => Sys2Proof.Machine.execPrefw a imm s
  | .cln a imm => Sys2Proof.Machine.execCln a imm s
  | .cinv a imm => Sys2Proof.Machine.execCinv a imm s
  | .cflush a imm => Sys2Proof.Machine.execCflush a imm s
  | .jal d imm => Sys2Proof.Machine.execJal d imm s
  | .jalr d a imm => Sys2Proof.Machine.execJalr d a imm s
  | .beq a b off => Sys2Proof.Machine.execBeq a b off s
  | .bne a b off => Sys2Proof.Machine.execBne a b off s
  | .blt a b off => Sys2Proof.Machine.execBlt a b off s
  | .bge a b off => Sys2Proof.Machine.execBge a b off s
  | .bltn a b off => Sys2Proof.Machine.execBltn a b off s
  | .bgen a b off => Sys2Proof.Machine.execBgen a b off s
  | .join tag => Sys2Proof.Machine.execJoin tag s
  | .joinT d a tag => Sys2Proof.Machine.execJoinT d a tag s
  | .detach => Sys2Proof.Machine.execDetach s
  | .icinv a imm => Sys2Proof.Machine.execIcinv a imm s
  | .loopn depth len => Sys2Proof.Machine.execLoopn depth len s
  | .mand d a b => Sys2Proof.Machine.execMand d a b s
  | .mor d a b => Sys2Proof.Machine.execMor d a b s
  | .mxor d a b => Sys2Proof.Machine.execMxor d a b s
  | .mandn d a b => Sys2Proof.Machine.execMandn d a b s
  | .morn d a b => Sys2Proof.Machine.execMorn d a b s
  | .mxnor d a b => Sys2Proof.Machine.execMxnor d a b s
  | .mnot d a => Sys2Proof.Machine.execMnot d a s
  | .mmov d a => Sys2Proof.Machine.execMmov d a s
  | .mset d => Sys2Proof.Machine.execMset d s
  | .mclr d => Sys2Proof.Machine.execMclr d s
  | .msbf d a => Sys2Proof.Machine.execMsbf d a s
  | .msif d a => Sys2Proof.Machine.execMsif d a s
  | .msof d a => Sys2Proof.Machine.execMsof d a s
  | .mcnt d a => Sys2Proof.Machine.execMcnt d a s
  | .many d a => Sys2Proof.Machine.execMany d a s
  | .mfirst d a => Sys2Proof.Machine.execMfirst d a s
  | .setvl d a fmt grp => Sys2Proof.Machine.execSetvl d a fmt grp s
  | .vtag d fmt grp => Sys2Proof.Machine.execVtag d fmt grp s
  | .vretag d fmt grp => Sys2Proof.Machine.execVretag d fmt grp s
  | .vgettag d v => Sys2Proof.Machine.execVgettag d v s
  | .lpreq d a => Sys2Proof.Machine.execLpreq d a s
  | .lprel a => Sys2Proof.Machine.execLprel a s
  | .nestld n a => Sys2Proof.Machine.execNestld n a s
  | .nestst n a => Sys2Proof.Machine.execNestst n a s
  | .vadd d a b rep cv m => Sys2Proof.Machine.execVadd d a b rep cv m s
  | .vsub d a b rep cv m => Sys2Proof.Machine.execVsub d a b rep cv m s
  | .vrsub d a b rep cv m => Sys2Proof.Machine.execVrsub d a b rep cv m s
  | .vmul d a b rep cv m => Sys2Proof.Machine.execVmul d a b rep cv m s
  | .vmin d a b rep cv m => Sys2Proof.Machine.execVmin d a b rep cv m s
  | .vmax d a b rep cv m => Sys2Proof.Machine.execVmax d a b rep cv m s
  | .vsadd d a b rep cv m => Sys2Proof.Machine.execVsadd d a b rep cv m s
  | .vssub d a b rep cv m => Sys2Proof.Machine.execVssub d a b rep cv m s
  | .vmacc d a b rep cv m => Sys2Proof.Machine.execVmacc d a b rep cv m s
  | .vnmsac d a b rep cv m => Sys2Proof.Machine.execVnmsac d a b rep cv m s
  | .vmadd d a b rep cv m => Sys2Proof.Machine.execVmadd d a b rep cv m s
  | .vnmsub d a b rep cv m => Sys2Proof.Machine.execVnmsub d a b rep cv m s
  | .vand d a b rep cv m => Sys2Proof.Machine.execVand d a b rep cv m s
  | .vor d a b rep cv m => Sys2Proof.Machine.execVor d a b rep cv m s
  | .vxor d a b rep cv m => Sys2Proof.Machine.execVxor d a b rep cv m s
  | .vandn d a b rep cv m => Sys2Proof.Machine.execVandn d a b rep cv m s
  | .vsll d a b rep cv m => Sys2Proof.Machine.execVsll d a b rep cv m s
  | .vsrl d a b rep cv m => Sys2Proof.Machine.execVsrl d a b rep cv m s
  | .vsra d a b rep cv m => Sys2Proof.Machine.execVsra d a b rep cv m s
  | .vrot d a b rep cv m => Sys2Proof.Machine.execVrot d a b rep cv m s
  | .vmseq d a b rep cv m => Sys2Proof.Machine.execVmseq d a b rep cv m s
  | .vmsne d a b rep cv m => Sys2Proof.Machine.execVmsne d a b rep cv m s
  | .vmslt d a b rep cv m => Sys2Proof.Machine.execVmslt d a b rep cv m s
  | .vmsle d a b rep cv m => Sys2Proof.Machine.execVmsle d a b rep cv m s
  | .vmerge d a b rep cv m => Sys2Proof.Machine.execVmerge d a b rep cv m s
  | .vclamp d a b rep cv m => Sys2Proof.Machine.execVclamp d a b rep cv m s
  | .vmv d a cv m => Sys2Proof.Machine.execVmv d a cv m s
  | .vabs d a cv m => Sys2Proof.Machine.execVabs d a cv m s
  | .vdiv d a b rep cv m => Sys2Proof.Machine.execVdiv d a b rep cv m s
  | .vrem d a b rep cv m => Sys2Proof.Machine.execVrem d a b rep cv m s
  | .vsqrt d a cv m => Sys2Proof.Machine.execVsqrt d a cv m s
  | .vrcp d a cv m => Sys2Proof.Machine.execVrcp d a cv m s
  | .vexp2 d a cv m => Sys2Proof.Machine.execVexp2 d a cv m s
  | .vlog2 d a cv m => Sys2Proof.Machine.execVlog2 d a cv m s
  | .vrsqrt d a cv m => Sys2Proof.Machine.execVrsqrt d a cv m s
  | .vtanh d a cv m => Sys2Proof.Machine.execVtanh d a cv m s
  | .vsin d a cv m => Sys2Proof.Machine.execVsin d a cv m s
  | .vcos d a cv m => Sys2Proof.Machine.execVcos d a cv m s
  | .vclass d a cv m => Sys2Proof.Machine.execVclass d a cv m s
  | .vcvt d a rm cv m => Sys2Proof.Machine.execVcvt d a rm cv m s
  | .vcvtsat d a rm cv m => Sys2Proof.Machine.execVcvtsat d a rm cv m s
  | .vcvts d a rm cv m => Sys2Proof.Machine.execVcvts d a rm cv m s
  | .vcvtssat d a rm cv m => Sys2Proof.Machine.execVcvtssat d a rm cv m s
  | .vredsum d a b rep m => Sys2Proof.Machine.execVredsum d a b rep m s
  | .vredmin d a b rep m => Sys2Proof.Machine.execVredmin d a b rep m s
  | .vredmax d a b rep m => Sys2Proof.Machine.execVredmax d a b rep m s
  | .vredor d a b rep m => Sys2Proof.Machine.execVredor d a b rep m s
  | .vscansum d a m => Sys2Proof.Machine.execVscansum d a m s
  | .vscanmin d a m => Sys2Proof.Machine.execVscanmin d a m s
  | .vscanmax d a m => Sys2Proof.Machine.execVscanmax d a m s
  | .vslideup d a b cv m => Sys2Proof.Machine.execVslideup d a b cv m s
  | .vslidedn d a b cv m => Sys2Proof.Machine.execVslidedn d a b cv m s
  | .vslide1up d a b cv m => Sys2Proof.Machine.execVslide1up d a b cv m s
  | .vslide1dn d a b cv m => Sys2Proof.Machine.execVslide1dn d a b cv m s
  | .vperm d a b rep m => Sys2Proof.Machine.execVperm d a b rep m s
  | .vcompress d a m => Sys2Proof.Machine.execVcompress d a m s
  | .vexpand d a m => Sys2Proof.Machine.execVexpand d a m s
  | .viota d m => Sys2Proof.Machine.execViota d m s
  | .vsegsort d a m => Sys2Proof.Machine.execVsegsort d a m s
  | .vsegsortkv d a b rep m => Sys2Proof.Machine.execVsegsortkv d a b rep m s
  | .vdupmerge d a b rep m => Sys2Proof.Machine.execVdupmerge d a b rep m s
  | .vopaX1 d a b rep cv m => Sys2Proof.Machine.execVopaX1 d a b rep cv m s
  | .vopaX2 d a b rep cv m => Sys2Proof.Machine.execVopaX2 d a b rep cv m s
  | .vopaX4 d a b rep cv m => Sys2Proof.Machine.execVopaX4 d a b rep cv m s
  | .vopaX8 d a b rep cv m => Sys2Proof.Machine.execVopaX8 d a b rep cv m s
  | .vmvVg d a m => Sys2Proof.Machine.execVmvVg d a m s
  | .vmvVq d q m => Sys2Proof.Machine.execVmvVq d q m s
  | .vmvQv q a m => Sys2Proof.Machine.execVmvQv q a m s
  | .vld d a hint cv m => Sys2Proof.Machine.execVld d a hint cv m s
  | .vlds d a b hint cv m => Sys2Proof.Machine.execVlds d a b hint cv m s
  | .vldx d a b hint cv m => Sys2Proof.Machine.execVldx d a b hint cv m s
  | .vldff d a hint cv m => Sys2Proof.Machine.execVldff d a hint cv m s
  | .vst d a nfy hint cv m => Sys2Proof.Machine.execVst d a nfy hint cv m s
  | .vsts d a b nfy hint cv m => Sys2Proof.Machine.execVsts d a b nfy hint cv m s
  | .vstx d a b nfy hint cv m => Sys2Proof.Machine.execVstx d a b nfy hint cv m s
  | .vldseg d a nf m => Sys2Proof.Machine.execVldseg d a nf m s
  | .vstseg d a nf m => Sys2Proof.Machine.execVstseg d a nf m s
  | .vamoadd d a b m => Sys2Proof.Machine.execVamoadd d a b m s
  | .vamomin d a b m => Sys2Proof.Machine.execVamomin d a b m s
  | .vamomax d a b m => Sys2Proof.Machine.execVamomax d a b m s
  | .vamoswap d a b m => Sys2Proof.Machine.execVamoswap d a b m s
  | .vscredAdd d a b m => Sys2Proof.Machine.execVscredAdd d a b m s
  | .vscredMin d a b m => Sys2Proof.Machine.execVscredMin d a b m s
  | .vscredMax d a b m => Sys2Proof.Machine.execVscredMax d a b m s
  | .vscredOr d a b m => Sys2Proof.Machine.execVscredOr d a b m s
  | .bankopAdd a => Sys2Proof.Machine.execBankopAdd a s
  | .bankopMin a => Sys2Proof.Machine.execBankopMin a s
  | .bankopMax a => Sys2Proof.Machine.execBankopMax a s
  | .bankopAnd a => Sys2Proof.Machine.execBankopAnd a s
  | .bankopOr a => Sys2Proof.Machine.execBankopOr a s
  | .bankopXor a => Sys2Proof.Machine.execBankopXor a s
  | .cbload a b nest e => Sys2Proof.Machine.execCbload a b nest e s
  | .cbclr a b e => Sys2Proof.Machine.execCbclr a b e s
  | .tbuild a b nest e => Sys2Proof.Machine.execTbuild a b nest e s
  | .tbload a b nest e => Sys2Proof.Machine.execTbload a b nest e s
  | .tbfree a b e => Sys2Proof.Machine.execTbfree a b e s
  | .lkinit a b e => Sys2Proof.Machine.execLkinit a b e s
  | .lkacc a b nest e => Sys2Proof.Machine.execLkacc a b nest e s
  | .lkdrain a b nest e => Sys2Proof.Machine.execLkdrain a b nest e s
  | .lkdrainc a b nest e => Sys2Proof.Machine.execLkdrainc a b nest e s
  | .lkread a b e => Sys2Proof.Machine.execLkread a b e s
  | .lkclr a e => Sys2Proof.Machine.execLkclr a e s
  | .lkstat d a e => Sys2Proof.Machine.execLkstat d a e s
  | .lkmeta d a e => Sys2Proof.Machine.execLkmeta d a e s
  | .lkwait d e => Sys2Proof.Machine.execLkwait d e s
  | .xcopy d a b nest e => Sys2Proof.Machine.execXcopy d a b nest e s
  | .xshape a nest e => Sys2Proof.Machine.execXshape a nest e s
  | .xfill d a b nest e => Sys2Proof.Machine.execXfill d a b nest e s
  | .xgather d a e => Sys2Proof.Machine.execXgather d a e s
  | .wsend d a b e => Sys2Proof.Machine.execWsend d a b e s
  | .wsendi d a b e => Sys2Proof.Machine.execWsendi d a b e s
  | .wreg d a e => Sys2Proof.Machine.execWreg d a e s
  | .wunreg a e => Sys2Proof.Machine.execWunreg a e s
  | .wctr d e => Sys2Proof.Machine.execWctr d e s
  | .strain d a b e => Sys2Proof.Machine.execStrain d a b e s
  | .nmx a e => Sys2Proof.Machine.execNmx a e s
  | .nmxld a b e => Sys2Proof.Machine.execNmxld a b e s
  | .pgin a b e => Sys2Proof.Machine.execPgin a b e s
  | .pgout a b e => Sys2Proof.Machine.execPgout a b e s
  | .xwait d e => Sys2Proof.Machine.execXwait d e s
  | .amoaddw d a b order => Sys2Proof.Machine.execAmoaddw d a b order s
  | .amoaddd d a b order => Sys2Proof.Machine.execAmoaddd d a b order s
  | .amofadd d a b order => Sys2Proof.Machine.execAmofadd d a b order s
  | .amoswapw d a b order => Sys2Proof.Machine.execAmoswapw d a b order s
  | .amoswapd d a b order => Sys2Proof.Machine.execAmoswapd d a b order s
  | .amoandw d a b order => Sys2Proof.Machine.execAmoandw d a b order s
  | .amoandd d a b order => Sys2Proof.Machine.execAmoandd d a b order s
  | .amoorw d a b order => Sys2Proof.Machine.execAmoorw d a b order s
  | .amoord d a b order => Sys2Proof.Machine.execAmoord d a b order s
  | .amoxorw d a b order => Sys2Proof.Machine.execAmoxorw d a b order s
  | .amoxord d a b order => Sys2Proof.Machine.execAmoxord d a b order s
  | .amominw d a b order => Sys2Proof.Machine.execAmominw d a b order s
  | .amomind d a b order => Sys2Proof.Machine.execAmomind d a b order s
  | .amomaxw d a b order => Sys2Proof.Machine.execAmomaxw d a b order s
  | .amomaxd d a b order => Sys2Proof.Machine.execAmomaxd d a b order s
  | .amominnw d a b order => Sys2Proof.Machine.execAmominnw d a b order s
  | .amominnd d a b order => Sys2Proof.Machine.execAmominnd d a b order s
  | .amomaxnw d a b order => Sys2Proof.Machine.execAmomaxnw d a b order s
  | .amomaxnd d a b order => Sys2Proof.Machine.execAmomaxnd d a b order s
  | .amocasw d a b order => Sys2Proof.Machine.execAmocasw d a b order s
  | .amocasd d a b order => Sys2Proof.Machine.execAmocasd d a b order s
  | .nma d a b nest e => Sys2Proof.Machine.execNma d a b nest e s
  | .fence scope => Sys2Proof.Machine.execFence scope s
  | .nmfence => Sys2Proof.Machine.execNmfence s
  | .bar a => Sys2Proof.Machine.execBar a s
  | .barexp a b => Sys2Proof.Machine.execBarexp a b s
  | .itpost a => Sys2Proof.Machine.execItpost a s
  | .itwait a => Sys2Proof.Machine.execItwait a s
  | .pwait a b => Sys2Proof.Machine.execPwait a b s
  | .tkpush k => Sys2Proof.Machine.execTkpush k s
  | .tkpop k => Sys2Proof.Machine.execTkpop k s
  | .tkcnt d k => Sys2Proof.Machine.execTkcnt d k s
  | .syscall => Sys2Proof.Machine.execSyscall s
  | .brk => Sys2Proof.Machine.execBrk s
  | .eret => Sys2Proof.Machine.execEret s
  | .wfe => Sys2Proof.Machine.execWfe s
  | .yield => Sys2Proof.Machine.execYield s
  | .texit => Sys2Proof.Machine.execTexit s
  | .feat d bit => Sys2Proof.Machine.execFeat d bit s
  | .launch d a => Sys2Proof.Machine.execLaunch d a s
  | .csrrw d csr a => Sys2Proof.Machine.execCsrrw d csr a s
  | .csrrs d csr a => Sys2Proof.Machine.execCsrrs d csr a s
  | .csrrc d csr a => Sys2Proof.Machine.execCsrrc d csr a s
  | .csrrwi d csr u => Sys2Proof.Machine.execCsrrwi d csr u s
  | .csrrsi d csr u => Sys2Proof.Machine.execCsrrsi d csr u s
  | .csrrci d csr u => Sys2Proof.Machine.execCsrrci d csr u s
  | .tlbinvVa a b => Sys2Proof.Machine.execTlbinvVa a b s
  | .tlbinvAsid a => Sys2Proof.Machine.execTlbinvAsid a s
  | .tlbinvAll => Sys2Proof.Machine.execTlbinvAll s
  | .ctxsave a => Sys2Proof.Machine.execCtxsave a s
  | .ctxrest a => Sys2Proof.Machine.execCtxrest a s
  | .joinTTimeout => Sys2Proof.Machine.execJoinTTimeout s
  | .holdEnd => Sys2Proof.Machine.execHoldEnd s
  | .shed => Sys2Proof.Machine.execShed s
  | .icinvPerform => Sys2Proof.Machine.execIcinvPerform s
  | .convoyIssue => Sys2Proof.Machine.execConvoyIssue s
  | .configurationEntry => Sys2Proof.Machine.execConfigurationEntry s
  | .vectorWindow k => Sys2Proof.Machine.execVectorWindow k s
  | .replayQueueReissue key => Sys2Proof.Machine.execReplayQueueReissue key s
  | .queueDeadlock => Sys2Proof.Machine.execQueueDeadlock s
  | .tokenDeadlock => Sys2Proof.Machine.execTokenDeadlock s
  | .trapEntry => Sys2Proof.Machine.execTrapEntry s
  | .interruptEntry => Sys2Proof.Machine.execInterruptEntry s
  | .cycleCompare => Sys2Proof.Machine.execCycleCompare s
  | .doorbell hart => Sys2Proof.Machine.execDoorbell hart s
  | .preemptionRequest hart => Sys2Proof.Machine.execPreemptionRequest hart s
  | .hardwareSave hart => Sys2Proof.Machine.execHardwareSave hart s
  | .lookupCommandStart => Sys2Proof.Machine.execLookupCommandStart s
  | .accumulatorCommandBegin core => Sys2Proof.Machine.execAccumulatorCommandBegin core s
  | .lookupStep core => Sys2Proof.Machine.execLookupStep core s
  | .checkVerdict core => Sys2Proof.Machine.execCheckVerdict core s
  | .secondReplay core => Sys2Proof.Machine.execSecondReplay core s
  | .lookupCommandRetire hart k => Sys2Proof.Machine.execLookupCommandRetire hart k s
  | .tableBuild stack core => Sys2Proof.Machine.execTableBuild stack core s
  | .tablePress stack => Sys2Proof.Machine.execTablePress stack s
  | .refresh stack slice bank => Sys2Proof.Machine.execRefresh stack slice bank s
  | .temperatureSample stack temps => Sys2Proof.Machine.execTemperatureSample stack temps s
  | .supervisorCommand stack => Sys2Proof.Machine.execSupervisorCommand stack s
  | .apertureStore stack slice row off n x => Sys2Proof.Machine.execApertureStore stack slice row off n x s
  | .transferCommandStart => Sys2Proof.Machine.execTransferCommandStart s
  | .transferCommandRetire hart => Sys2Proof.Machine.execTransferCommandRetire hart s
  | .pendingBytesSubtract k => Sys2Proof.Machine.execPendingBytesSubtract k s
  | .trainArrival hart elems op w fmt => Sys2Proof.Machine.execTrainArrival hart elems op w fmt s
  | .trainAcknowledgement hart pkg cond dropped => Sys2Proof.Machine.execTrainAcknowledgement hart pkg cond dropped s
  | .sendArrival k window tag off l => Sys2Proof.Machine.execSendArrival k window tag off l s
  | .sendAcknowledgement k cond => Sys2Proof.Machine.execSendAcknowledgement k cond s
  | .nmxAccept hart => Sys2Proof.Machine.execNmxAccept hart s
  | .bankOperation => Sys2Proof.Machine.execBankOperation s
  | .nmaElement => Sys2Proof.Machine.execNmaElement s
  | .returnFreePerformed => Sys2Proof.Machine.execReturnFreePerformed s
  | .barrierPhaseComplete launch id => Sys2Proof.Machine.execBarrierPhaseComplete launch id s
  | .progressWordResend => Sys2Proof.Machine.execProgressWordResend s
  | .launchMessage peer l => Sys2Proof.Machine.execLaunchMessage peer l s
  | .launchAccept => Sys2Proof.Machine.execLaunchAccept s
  | .launchReady n => Sys2Proof.Machine.execLaunchReady n s
  | .blockRequest => Sys2Proof.Machine.execBlockRequest s
  | .taskPlacement die => Sys2Proof.Machine.execTaskPlacement die s
  | .contextResume hart => Sys2Proof.Machine.execContextResume hart s
  | .completionRecordWrite n => Sys2Proof.Machine.execCompletionRecordWrite n s
  | .completionIdWrite n => Sys2Proof.Machine.execCompletionIdWrite n s
  | .launchCancel n => Sys2Proof.Machine.execLaunchCancel n s
  | .dieFence die => Sys2Proof.Machine.execDieFence die s
  | .masterElection => Sys2Proof.Machine.execMasterElection s
  | .wearInterval core stress mon => Sys2Proof.Machine.execWearInterval core stress mon s
  | .ripeningReplication core => Sys2Proof.Machine.execRipeningReplication core s
  | .lastingFault core => Sys2Proof.Machine.execLastingFault core s
  | .laneRetirement core lane => Sys2Proof.Machine.execLaneRetirement core lane s
  | .powerCeilingStep die up => Sys2Proof.Machine.execPowerCeilingStep die up s
  | .agreement k outside => Sys2Proof.Machine.execAgreement k outside s
  | .agreementReply k hart strip => Sys2Proof.Machine.execAgreementReply k hart strip s
  | .pairArrival k hart => Sys2Proof.Machine.execPairArrival k hart s
  | .rdmaWrite qp asid session va l => Sys2Proof.Machine.execRdmaWrite qp asid session va l s
  | .managementRead peer l => Sys2Proof.Machine.execManagementRead peer l s
  | .managementWrite peer l => Sys2Proof.Machine.execManagementWrite peer l s
  | .firmwareImageChunk peer l last => Sys2Proof.Machine.execFirmwareImageChunk peer l last s
  | .attestationRequest peer l => Sys2Proof.Machine.execAttestationRequest peer l s
  | .acknowledgement peer l => Sys2Proof.Machine.execAcknowledgement peer l s
  | .sessionOpen peer l => Sys2Proof.Machine.execSessionOpen peer l s
  | .messageRetransmit session k => Sys2Proof.Machine.execMessageRetransmit session k s
  | .routeUpdate pkg l cost => Sys2Proof.Machine.execRouteUpdate pkg l cost s
  | .packetRetransmit pkg => Sys2Proof.Machine.execPacketRetransmit pkg s
  | .destinationUnreachable pkg => Sys2Proof.Machine.execDestinationUnreachable pkg s
  | .linkDegrade port => Sys2Proof.Machine.execLinkDegrade port s
  | .linkFailure port => Sys2Proof.Machine.execLinkFailure port s
  | .cxlLinkDown port => Sys2Proof.Machine.execCxlLinkDown port s
  | .halt hart => Sys2Proof.Machine.execHalt hart s
  | .resume hart => Sys2Proof.Machine.execResume hart s
  | .recordRemoval die index => Sys2Proof.Machine.execRecordRemoval die index s
  | .contextImageWrite hart off l => Sys2Proof.Machine.execContextImageWrite hart off l s
  | .frqack index => Sys2Proof.Machine.execFrqack index s
  | .lkerrClear => Sys2Proof.Machine.execLkerrClear s
  | .xerrClear => Sys2Proof.Machine.execXerrClear s
  | .asidWrite asid root => Sys2Proof.Machine.execAsidWrite asid root s
  | .registerWrite csr x => Sys2Proof.Machine.execRegisterWrite csr x s
  | .powerOnBoot image params cxl => Sys2Proof.Machine.execPowerOnBoot image params cxl s
  | .supplyLossWarning vstby => Sys2Proof.Machine.execSupplyLossWarning vstby s
  | .junctionThrottle die temp => Sys2Proof.Machine.execJunctionThrottle die temp s
  | .emergencySave die => Sys2Proof.Machine.execEmergencySave die s
  | .hardTrip vstby => Sys2Proof.Machine.execHardTrip vstby s
  | .droop die => Sys2Proof.Machine.execDroop die s
  | .droopRecovery die => Sys2Proof.Machine.execDroopRecovery die s
  | .pllHop die => Sys2Proof.Machine.execPllHop die s
  | .elementGroupIssue k => Sys2Proof.Machine.execElementGroupIssue k s
  | .tableCommandApply stack core => Sys2Proof.Machine.execTableCommandApply stack core s
  | .remoteAccess op key n x c => Sys2Proof.Machine.execRemoteAccess op key n x c s
  | .l2Eviction key => Sys2Proof.Machine.execL2Eviction key s
  | .tlbEntryDrop place n k => Sys2Proof.Machine.execTlbEntryDrop place n k s
  | .instructionLineEviction cluster line => Sys2Proof.Machine.execInstructionLineEviction cluster line s
  | .stackFence unit n slice => Sys2Proof.Machine.execStackFence unit n slice s
  | .priorityFlowControlFrame mask pause => Sys2Proof.Machine.execPriorityFlowControlFrame mask pause s
  | .congestionNotification qp => Sys2Proof.Machine.execCongestionNotification qp s
  | .queuePairError qp => Sys2Proof.Machine.execQueuePairError qp s

end Sys2Proof.Machine
end

