-- ==== Sys2Proof/Machine/Step.lean ====
section
/-! DEFINITION. One step of the machine, and the placing of an instruction where the next step fetches. -/

namespace Sys2Proof.Machine

/-- The outcome of a meaning with its next state changed. -/
def andThen (f : State → State) : Result → Result
  | .next s => .next (f s)
  | .fault r => .fault r
  | .refused r => .refused r

/-- The instruction of a word at the acting hart's PC: decoded and executed. It waits for a g register that an engine command
has still to write (R101), and a scalar access for an engine command with an acquire (R346). -/
noncomputable def State.issue (s : State) (w : BitVec 32) : Result :=
  let t := s.dropLanes (Fields.ofWord w)
  andThen (·.retired s.me) <|
    match decode w with
    | .error e => .next (t.badWord w e)
    | .ok i =>
      if (gRegs (Fields.ofWord w)).any s.me.busy then .next (t.stall .register)
      else if scalarAccess (Fields.ofWord w) && s.me.acquiring s.seq then .next (t.stall .drain)
      else exec i t

/-- The acting hart's next instruction: from its window or its loop buffer, or fetched now. A hart that waits in a JOIN or at
an ICINV that it has issued fetches nothing (R128, R144), and one whose next instruction is not delivered waits for it (R124).
A fetch that faults issues no instruction. -/
noncomputable def State.instr (s : State) : Result :=
  if s.me.gang.icinv.isSome then .next (s.waitIcinv.retired s.me)
  else if s.me.gang.state = .waiting then .next (s.stall .join)
  else
    match s.present s.me with
    | .error none => .next (s.stall .delivery)
    | .error (some c) => .next (s.trapFetch c s.me.pc)
    | .ok (t, w) => (t.keepWord t.me w).issue w

/-- The acting hart's turn: what is due, then its next instruction unless something holds it. -/
noncomputable def State.work (s : State) : Result :=
  if s.idle then .next s
  else
    let t := s.settleDue
    if t.me.entered || t.me.due.isSome || t.idle then .next t
    else
      match t.held with
      | some w => .next (t.stall w)
      | none => t.instr

/-- A turn of the agenda. -/
noncomputable def State.take (s : State) : Turn → Result
  | .event i => if i.isEvent then exec i s else .next s
  | .run => s.work
  | t => .next (s.turn t)

/-- Every die's clocks stand still: only power-on goes on (R436). -/
def State.stands (s : State) : Bool :=
  s.pkg.stopped &&
  match s.agenda with
  | .event (.powerOnBoot _ _ _) :: _ => false
  | _ => true

/-- One step: the next turn of the agenda, or, where it is empty, the progress of the acting hart and its next
instruction. -/
noncomputable def step (s : State) : Host.Outcome State Fault Refusal :=
  if s.stands then .fault .clocksStopped
  else
    match s.agenda with
    | [] => andThen State.endStep s.begin.progress.work
    | t :: rest => andThen State.endStep (({ s with agenda := rest } : State).begin.take t)

/-- The instruction word stored where the next step fetches. An instruction has one word, so the bits above it are not
used. -/
def State.withFetchWord (s : State) (_nbits w : Nat) : State := s.place (BitVec.ofNat 32 w)

end Sys2Proof.Machine
end

