-- ==== Sys2Proof/Safety.lean ====
section
/-! DEFINITION. What counts as a safe state, and the words in which statements say what an instruction does and what it
leaves as it was. -/

namespace Sys2Proof.Machine

/-- Memory keeps its canonical form. -/
def State.safe (s : State) : Bool := Memory.wf s.mem

/-! ### What stays -/

/-- A byte as the acting hart's own loads read it. -/
def State.seen (s : State) (key : Nat) : Nat := s.readMe key 1

/-- Every byte of memory reads as before. -/
def State.SameBytes (s t : State) : Prop := ∀ key, t.seen key = s.seen key

/-- Nothing but the acting hart differs. -/
def State.OnlyMe (s t : State) : Prop := t = { s with me := t.me }

/-- A hart that has moved past an instruction of one word: its wait and its restart position are gone, the word has left its
window, and outside a live loop its PC is 4 higher and nothing else differs. In a live loop the PC and the loop's own state go
as R137 gives: as `Hart.advance` has them. -/
def Hart.Moved (h h' : Hart) : Prop :=
  h' = { h with pc := h'.pc, wait := .none, restart := none, win := h.issueWords 1, loopLive := h'.loopLive, bounds := h'.bounds,
                csr := { h.csr with loop := h'.csr.loop, lix := h'.csr.lix } } ∧
  (h.loopLive = false → h'.pc = h.pc + 4 ∧ h'.loopLive = false ∧ h'.bounds = h.bounds ∧ h'.csr = h.csr) ∧
  h' = h.advance 1

/-- The acting hart has moved on with a change of its own state, and nothing else differs. -/
def State.MovedWith (s t : State) (f : Hart → Hart) : Prop := s.OnlyMe t ∧ (f s.me).Moved t.me ∧ s.SameBytes t

/-- The g registers of the acting level after a write of x to register d: g0 reads as zero, every other register and the
whole bank of the other level stay. -/
def State.GWritten (s t : State) (d : BitVec 5) (x : Word) : Prop :=
  (∀ r, t.g r = if r = d ∧ r ≠ 0 then x else s.g r) ∧
  (s.me.level = .user → t.me.sg = s.me.sg) ∧ (s.me.level = .supervisor → t.me.ug = s.me.ug)

/-- Register d holds x, the flags fl are raised, the hart has moved on, and nothing else differs: every other register,
flag, CSR, mask, vector register, queue and byte of memory stays. -/
def State.Wrote (s t : State) (d : BitVec 5) (x : Word) (fl : FFlags) : Prop :=
  s.OnlyMe t ∧ s.GWritten t d x ∧
  Hart.Moved { s.me with ug := t.me.ug, sg := t.me.sg, csr := { s.me.csr with fflags := s.me.csr.fflags ||| fl } } t.me ∧
  s.SameBytes t

/-! ### What an instruction gives -/

/-- The instruction completes with x in register d and the flags fl raised, and leaves all else. -/
def Gives (i : Instr) (s : State) (d : BitVec 5) (x : Word) (fl : FFlags) : Prop :=
  ∃ t, exec i s = .next t ∧ s.Wrote t d x fl

/-- The instruction completes with a change of the acting hart, and leaves all else. -/
def Changes (i : Instr) (s : State) (f : Hart → Hart) : Prop := ∃ t, exec i s = .next t ∧ s.MovedWith t f

/-- The hart has nothing outstanding: no vector instruction, no engine command, no return-free operation, no store kept
back. -/
def Hart.Clear (h : Hart) : Prop := h.quiet = true ∧ h.rf = [] ∧ h.sb = []

/-! ### Loops -/

/-- The machine and the acting hart behind k body words of a LOOPN that are there and that a body may hold (R138). -/
def State.bodyAt (s : State) (h : Hart) : Nat → Option (State × Hart)
  | 0 => some (s, h)
  | k + 1 =>
    match s.bodyAt h k with
    | none => none
    | some (t, g) =>
      match t.present g with
      | .error _ => none
      | .ok (u, w) => if illegalBody w then none else some (u, (g.behind t u).advance 1)

/-! ### Scalar accesses -/

/-- An access of n bytes at an address is aligned, translates to a key, and needs no feature that the core lacks (R118). -/
def State.Reaches (s : State) (k : Kind) (va : Word) (n key : Nat) : Prop :=
  va.toNat % n = 0 ∧ ∃ x, s.xlate k va = .ok (key, x) ∧ s.lacksRemote x = false

/-- A read of n bytes meets none of the exceptions of R118 and R119. -/
def State.Readable (s : State) (k : Kind) (va : Word) (n key : Nat) : Prop :=
  s.Reaches k va n key ∧ s.poisonedAt key n = false

/-- None of n bytes from a key lies in a control window of this package: they are plain memory. -/
def State.PlainAt (s : State) (key n : Nat) : Prop := ∀ j, j < n → s.windowAt (key + j) = none

/-- No store of the hart is kept back, unless this one would be as well. -/
def Hart.StoresInOrder (h : Hart) : Prop := h.speculative = true ∨ h.late = true ∨ h.sb = []

/-- Register d holds x and the hart has moved on. Beyond the acting hart only the core's translation caches and counts,
the errors that a read has cleared and what is known of the L2's lines may differ; every byte of memory reads as before. -/
def State.Loaded (s t : State) (d : BitVec 5) (x : Word) : Prop :=
  t = { s with me := t.me, cores := t.cores, poison := t.poison, uncached := t.uncached } ∧ s.GWritten t d x ∧
  Hart.Moved { s.me with ug := t.me.ug, sg := t.me.sg } t.me ∧ s.SameBytes t

/-- The n bytes from a key read as the low n bytes of x, and every other byte of memory as before. -/
def State.BytesStored (s t : State) (key n x : Nat) : Prop :=
  (∀ j, j < n → t.seen (key + j) = x / 256 ^ j % 256) ∧ ∀ k, k < key ∨ key + n ≤ k → t.seen k = s.seen k

/-- Only what the host is told of differs: event messages on its sessions, sent or waiting to be (R419). -/
def State.Told (s t : State) : Prop :=
  t = { s with pkg := { s.pkg with sessions := t.pkg.sessions, outbox := t.pkg.outbox }, sent := t.sent }

/-- What a store may change beside memory: the acting hart's kept-back stores, translation caches, the words that fetch may
still return, a check unit's note, errors, and a fault record with its message. No register, flag, CSR or vector register is among it. -/
def State.StoreFrame (s t : State) : Prop :=
  t = { s with me := t.me, cores := t.cores, oldCode := t.oldCode, dies := t.dies, mem := t.mem, dram := t.dram,
               cxlDirty := t.cxlDirty, uncached := t.uncached, poison := t.poison, lkStacks := t.lkStacks, sent := t.sent,
               pkg := { s.pkg with sessions := t.pkg.sessions, outbox := t.pkg.outbox } }

/-- The low n bytes of x stored at a key, and the hart moved on. -/
def State.Stored (s t : State) (key n x : Nat) : Prop :=
  s.StoreFrame t ∧ Hart.Moved { s.me with sb := t.me.sb } t.me ∧ s.BytesStored t key n x

/-- n bytes as a loaded value: sign-extended or zero-extended. -/
def widen (n : Nat) (signed : Bool) (x : Nat) : Word :=
  BitVec.ofInt 64 (if signed = true ∧ 2 ^ (8 * n - 1) ≤ x then (x : Int) - 2 ^ (8 * n) else x)

/-- What a vector store may change beside the acting hart and memory: what a store and what the issue of a vector instruction
may change, and how many free values have been taken (VSCRED's order, R99). -/
def State.VectorStoreFrame (s t : State) : Prop :=
  t = { s with me := t.me, cores := t.cores, snaps := t.snaps, seq := t.seq, oldCode := t.oldCode, dies := t.dies, mem := t.mem,
               dram := t.dram, cxlDirty := t.cxlDirty, uncached := t.uncached, poison := t.poison, lkStacks := t.lkStacks,
               sent := t.sent, free := t.free, pkg := { s.pkg with sessions := t.pkg.sessions, outbox := t.pkg.outbox } }

/-! ### Masks -/

/-- f is the index of the lowest 1 of a mask below a length, or the length where there is none (R142). -/
def FirstBit (x : BitVec 2048) (vl f : Nat) : Prop :=
  (f < vl ∧ x.getLsbD f = true ∧ ∀ j, j < f → x.getLsbD j = false) ∨ (f = vl ∧ ∀ j, j < vl → x.getLsbD j = false)

/-! ### Vector instructions -/

/-- What the issue of a vector instruction may change beyond the acting hart: the core's check, caches and counts, the
history to which an instruction can be discarded, errors that a read has cleared, and what is known of the L2's lines. -/
def State.IssueFrame (s t : State) : Prop :=
  t = { s with me := t.me, cores := t.cores, snaps := t.snaps, seq := t.seq, poison := t.poison, uncached := t.uncached }

/-- A vector instruction without the convoy bit meets no check of R43 and nothing that it must wait for, no event is to
drive it, and no error of its core's lanes is due. -/
def State.VectorAlone (s : State) (o : VOp) : Prop :=
  o.cv = false ∧ s.memberCheck s.me.vctx { op := o, word := o.word, words := 1, hart := s.me } = none ∧
  s.me.Clear ∧ s.me.restart = none ∧ s.agenda = [] ∧ s.core.checkErr = none ∧
  s.me.vl ≤ 2048 ∧ (s.me.lanes = 0 → s.me.vl = 0)

/-- The hart after the groups of an arithmetic instruction from element `lo` on, one after the other (R168), the flags of each
raised beside those that stand (R84). -/
def Hart.groupsDone (fuel : Nat) (h : Hart) (c : VCtx) (o : VOp) (x : Word) (lo : Nat) : Hart :=
  match fuel with
  | 0 => h
  | fuel + 1 =>
    if c.vl ≤ lo then h
    else if o.op.whole then h.takeVector (({ h with csr := { h.csr with fflags := 0 } } : Hart).doWhole c o lo)
    else
      let e := o.groupSize c
      let hi := min c.vl ((lo / e + 1) * e)
      (h.takeVector (({ h with csr := { h.csr with fflags := 0 } } : Hart).doElements c o x lo hi)).groupsDone fuel c o x hi

/-- The hart after the entries of a queue move from element `lo` on; none where it would wait on its queue (R205). -/
def Hart.entriesDone (fuel : Nat) (h : Hart) (c : VCtx) (o : VOp) (lo : Nat) : Option Hart :=
  match fuel with
  | 0 => some h
  | fuel + 1 =>
    if c.vl ≤ lo then some h
    else
      let e := lo / o.perEntry c
      if h.moveWaits o then none else ((h.moveEntry c o e) h).entriesDone fuel c o ((e + 1) * o.perEntry c)

/-- A vector instruction has completed. Element n of the group at d, tagged `tag`, holds the low bits of `f n`; every register
outside the group stays; the flags fl are raised beside those that stood; and of the acting hart nothing else differs. -/
def State.Filled (s t : State) (d : BitVec 5) (tag : Tag) (fl : FFlags) (f : Nat → Nat) : Prop :=
  s.SameBytes t ∧ s.IssueFrame t ∧
  Hart.Moved { s.me with v := t.me.v, csr := { s.me.csr with fflags := s.me.csr.fflags ||| fl } } t.me ∧
  (∀ n, n < vlmax s.me.lanes tag.format.width tag.group →
    t.me.elem s.me.lanes d tag.format.width n = f n % 2 ^ tag.format.width) ∧
  ∀ r, r < d.toNat ∨ d.toNat + tag.group ≤ r → t.me.vreg r = s.me.vreg r

/-- The flags of some elements together. -/
def flagsOf (l : List Nat) (fl : Nat → FFlags) : FFlags := l.foldl (fun acc n => acc ||| fl n) 0

/-- The fixed pairwise tree of R97 over the 2^k leaves from the i-th on, with the flags of its nodes. -/
def treeOf (op : Nat → Nat → FRes) (leaf : Nat → Nat) : Nat → Nat → FRes
  | 0, i => { bits := leaf i }
  | k + 1, i =>
    let x := treeOf op leaf k i
    let y := treeOf op leaf k (i + 2 ^ k)
    let r := op x.bits y.bits
    { bits := r.bits, fl := x.fl ||| y.fl ||| r.fl }

/-- Values combined in their order, each step rounded once, with the flags of the steps (R98, R208). -/
def runOf (op : Nat → Nat → FRes) (first : Nat) (l : List Nat) : FRes :=
  l.foldl (fun acc x => let r := op acc.bits x; { bits := r.bits, fl := acc.fl ||| r.fl }) { bits := first }

/-- Addition, minimum, maximum and disjunction of elements of a format (R97, R199). In e4m3, which has no infinity, 2^8 stands for
the identity of a minimum or maximum, which gives way to every number and to no NaN. -/
def Comb.step (k : Comb) (f : Fmt) (rm : RM) (p q : Nat) : FRes :=
  let beside (x : Nat) : FRes := { bits := if x ≠ 2 ^ f.width ∧ f.decode x = .nan then 2 ^ f.width else x }
  if p = 2 ^ f.width then beside q else if q = 2 ^ f.width then beside p
  else match k with
  | .sum => if f.cls = .int then { bits := ((f.int p + f.int q) % 2 ^ f.width).toNat } else addNum f rm (f.decode p) (f.decode q)
  | .min => { bits := if f.cls = .int then (if f.int q < f.int p then q else p) else minMaxBits f false p q }
  | .max => { bits := if f.cls = .int then (if f.int p < f.int q then q else p) else minMaxBits f true p q }
  | .or => { bits := p ||| q }

/-- The identity of R97. -/
def Comb.start (k : Comb) (f : Fmt) : Nat :=
  match k with
  | .sum => if f.cls = .int then 0 else f.withSign true 0
  | .min => if f.cls = .int then (f.maxInt % 2 ^ f.width).toNat else if f = .e4m3 then 2 ^ f.width else f.infBits
  | .max => if f.cls = .int then (f.minInt % 2 ^ f.width).toNat else if f = .e4m3 then 2 ^ f.width else f.withSign true f.infBits
  | .or => 0

/-- What is written for a result: the identity of e4m3 as +448 for a minimum and -448 for a maximum (R97). -/
def Comb.written (k : Comb) (f : Fmt) (x : Nat) : Nat := if x ≠ 2 ^ f.width then x else if k = .max then 0xFE else 0x7E

/-- The member that a vector instruction without the convoy bit becomes. -/
def State.memberOf (s : State) (o : VOp) : Member :=
  VRead.toMember { op := o, word := o.word, words := 1, hart := s.me } s.me 0 0 false s.me.csr.vpcnt

/-- A vector memory instruction of one window, without a bank operation or a notify, whose active elements translate to
`xs` without a fault, all to plain memory without an error, and for whose pages the core's pin store has room. -/
def State.Window1 (s : State) (o : VOp) (t : State) (xs : List ElemXlate) : Prop :=
  s.VectorAlone o ∧ o.op.isMem = true ∧ o.bank = none ∧ (o.op.major = 0x49 → o.rep.getLsbD 2 = false) ∧
  (s.me.vl ≤ 128 ∨ o.op = .ldff) ∧
  s.xlateWindow s.me.vctx (s.memberOf o) ((List.range s.me.vl).filter fun i => s.me.active o i) = (t, xs) ∧
  s.pinsOfCore + (xs.filterMap (·.entry)).eraseDups.length ≤ 256 ∧
  ∀ e ∈ xs, e.fault = none ∧ e.remote = false ∧
    (∀ p ∈ s.poison, p.hits e.key (o.fmt s.me.vctx).bytes = false) ∧ s.PlainAt e.key (o.fmt s.me.vctx).bytes

/-- No two of some translated elements share a byte. -/
def Apart (n : Nat) (xs : List ElemXlate) : Prop :=
  xs.Pairwise fun x y => x.key + n ≤ y.key ∨ y.key + n ≤ x.key

/-! ### Engine commands -/

/-- The command that the fields of an engine instruction's word make at issue, with the registers that it reads then. -/
def State.commandOf (s : State) (op : EOpc) (f : Fields) : ECmd :=
  { id := s.seq, pc := s.me.pc, op, word := fieldsVal f, d := f.d, a := s.g f.a, b := s.g f.b, x := s.g f.d
    nest := (List.range f.nest.toNat).map s.me.nestAt
    order := f.emod.order, push := f.emod.push, pop := f.emod.pop, chan := f.emod.chan
    scope := s.me.csr.escope, xbar := s.me.csr.xbar, wout := s.me.csr.wout
    asid := s.me.csr.asid, level := s.me.level, launch := s.me.task.map (·.launch) }

/-- Only the acting hart and what a queued instruction can be discarded to differ. -/
def State.QueueFrame (s t : State) : Prop := t = { s with me := t.me, snaps := t.snaps, seq := t.seq }

/-! ### Groups, the ring and harts -/

/-- The group record of a launch. -/
def State.groupOf (s : State) (launch id : Nat) : Option Group := (mapGet s.launches launch).bind fun l => mapGet l.groups id

/-- An iteration has been posted at a ring entry (R343). -/
def RingEntry.posted (e : RingEntry) (n : Nat) : Prop :=
  n < e.frontier ∨ (e.frontier ≤ n ∧ n < e.frontier + 64 ∧ e.map.getLsbD (n - e.frontier) = true)

/-- The ring entry of a pair on the acting hart's die; an unposted one where the pair has none. -/
def State.ringEntryOf (s : State) (launch id : Nat) : RingEntry :=
  ((s.dieAt (dieOf s.cur)).ringEntry launch id).getD { launch, group := id }

/-- The ring of the acting hart's die has an entry for the pair or room for one. -/
def State.RingRoom (s : State) (launch id : Nat) : Prop :=
  ((s.dieAt (dieOf s.cur)).ringEntry launch id).isSome = true ∨ (s.dieAt (dieOf s.cur)).ring.length < 64

/-! ### Exceptions -/

/-- The hart has left its gang: nothing changes where it was detached, and otherwise the cause is noted (R130). -/
def State.LeftGang (s t : State) (cause : BitVec 4) : Prop :=
  (s.me.gang.state = .detached → t.me.gang = s.me.gang ∧ t.others = s.others) ∧
  (s.me.gang.state ≠ .detached → t.me.gang.state = .detached ∧ t.me.gang.cause = cause)

/-- Exception entry (R358): the position, the cause word and VAL are saved, the level before is in PP, and the hart stands
at supervisor level at `tvec`, out of its gang. Nothing else of the hart or the machine differs. -/
def State.Entered (s t : State) (word val : Word) (pos : Position) (uie : Bool) : Prop :=
  t = { s with me := t.me, others := t.others } ∧ s.LeftGang t 4 ∧ s.SameBytes t ∧
  t.me = { s.me with
    csr := { s.me.csr with tpc := pos.pc &&& ~~~3#64, eix := pos.eix, vsidx := pos.vsidx, vpcm := pos.lanes,
                           tcause := word, tval := val, pp := s.me.level, uie }
    level := .supervisor, pc := s.me.csr.tvec &&& ~~~3#64, gang := t.me.gang, win := [], loopBuf := []
    loopLive := false, wait := .none, restart := none, due := none, entered := true }

/-- The hart is halted with a position and its CSRs as they were, out of its gang (R374). -/
def State.Halted (s t : State) (pos : Position) : Prop :=
  s.LeftGang t 4 ∧
  t.me = { s.me with halted := true, haltPos := pos, haltReq := false, gang := t.me.gang, win := [], loopBuf := [], wait := .none, restart := none, due := none, entered := true }


/-- The vector queue of the acting hart holds one item of one member. It is its turn, nothing of it is pinned or has still
to perform, it is no notify store, and no error of its core's lanes is due. -/
def State.AloneInQueue (s : State) (i : VItem) (m : Member) : Prop :=
  s.me.vq = [i] ∧ i.work = .convoy [m] ∧ s.me.nextItem = some i ∧ m.done = false ∧ m.pend = [] ∧ m.pins = [] ∧ m.nfy = none ∧
  m.clears = false ∧ m.chk = none ∧ (∀ r ∈ s.me.rf, r.id ≠ i.id) ∧ s.me.sb = [] ∧ s.core.checkErr = none ∧ i.ctx.vl ≤ 2048 ∧ (i.ctx.lanes = 0 → i.ctx.vl = 0)

/-- What an element of a bank operation's store pair, or of an nma, leaves in memory in place of an old value. -/
def Access.leaves (a : Access) (old : Nat) : Option Nat :=
  match a.kind with
  | .bankStore bop f rm y _ => some (bankOp bop f rm old y).bits
  | .near y => some (addNum .f32 .rne (Fmt.f32.decode old) (Fmt.f32.decode y)).bits
  | _ => none

/-- An element of a return-free operation finds plain memory that no fence and no hole takes away. -/
def State.Reached (s : State) (a : Access) : Prop := 0 < a.bytes ∧ s.dropCond a.key = none ∧ s.PlainAt a.key a.bytes


/-! ### Engines at work -/

/-- Only harts and lookup stacks differ, and of those only one stack. -/
def State.StackFrame (s t : State) (stack : Nat) : Prop :=
  t = { s with me := t.me, others := t.others, lkStacks := t.lkStacks } ∧ ∀ n, n ≠ stack → t.stackAt n = s.stackAt n

/-- Of the harts only one has changed, and of it only a command of its lookup queue, which is now k. -/
def State.CommandNow (s t : State) (hart : Nat) (c k : ECmd) : Prop :=
  k.id = c.id ∧ (t.hart hart) = { s.hart hart with lq := (s.hart hart).lq.map fun o => if o.id = c.id then k else o } ∧
  ∀ n, n ≠ hart → t.hart n = s.hart n

/-- No uncorrectable error waits in the slots and lines of a stack. -/
def Stack.Sound (t : Stack) : Prop := t.badSlots = [] ∧ t.badRows = []

/-- A walk of a core stands begun at its slice. -/
def State.Walking (s : State) (core hart : Nat) (c : ECmd) : Prop := s.accCurrent core = some (hart, c) ∧ c.op = .lkacc

/-- The tokens of a hart after a command has taken one and reserved a place, as its word says (R338). -/
def Hart.TokensTaken (h h' : Hart) (c : ECmd) : Prop :=
  ∀ k, h'.tokens k = if k = c.chan then
    { h.tokens k with count := (h.tokens k).count - (if c.pop = true then 1 else 0)
                      reserved := (h.tokens k).reserved + (if c.push = true then 1 else 0) }
  else h.tokens k

/-- The tokens of a hart after a command has retired: its reserved place holds a token. -/
def Hart.TokenGiven (h h' : Hart) (c : ECmd) : Prop :=
  ∀ k, h'.tokens k = if k = c.chan ∧ c.push = true then
    { h.tokens k with count := (h.tokens k).count + 1, reserved := (h.tokens k).reserved - 1 } else h.tokens k

/-- What the end of a command's work in the transfer queue leaves of its hart: only that command, now k, differs. -/
def Hart.transferNow (h : Hart) (c k : ECmd) : Hart := { h with xq := h.xq.map fun o => if o.id = c.id then k else o }

/-- The bytes that copying writes move, in their order: each a destination and a source address. -/
def copiesOf (l : List Pending) : List (Nat × Nat) :=
  l.flatMap fun w => match w.move with
    | .copy src _ => (List.range w.bytes).map fun i => ((w.va + i) % 2 ^ 64, (src + i) % 2 ^ 64)
    | _ => []

/-- The bytes that writes of values make, in their order: each an address and its byte. -/
def valuesOf (l : List Pending) : List (Nat × Nat) :=
  l.flatMap fun w => match w.move with
    | .value x => (List.range w.bytes).map fun i => ((w.va + i) % 2 ^ 64, x / 256 ^ i % 256)
    | _ => []

/-- A run's write is a naturally aligned granule of 8 bytes or a single byte (R302). -/
def Pending.ofRun (w : Pending) : Prop := w.bytes = 1 ∨ (w.bytes = 8 ∧ w.va % 8 = 0)

/-- A group record after a change: its phase advances if that was the last condition of its completion (R340). -/
def Group.SettledFrom (y x : Group) : Prop :=
  (0 < x.arrived ∧ x.members ≤ x.arrived + x.exited ∧ x.pending = 0 → y = { x with phase := x.phase + 1, arrived := 0 }) ∧
  (¬ (0 < x.arrived ∧ x.members ≤ x.arrived + x.exited ∧ x.pending = 0) → y = x)

/-- An engine's write at a key finds plain memory that no fence and no hole takes away. -/
def State.Writable (s : State) (key n : Nat) : Prop := s.dropCond key = none ∧ s.PlainAt key n ∧ 0 < n


/-! ### The host port -/

/-- A message that the host port does not drop stands next in the order of session k, asks for no acknowledgement and has
none stored behind it; s' is the state in which the session has counted it and taken the acknowledgement in it (R419, R420). -/
def State.Hears (s s' : State) (peer : Nat) (l : List Nat) (k : Nat) : Prop :=
  s.pkg.hostUp = true ∧ s.pkg.hostOpen = true ∧ msgGood l = true ∧ s.pkg.status ≠ 0 ∧ s.pkg.status ≠ 6 ∧ bytesAt l 2 2 = 0 ∧
  ∃ x, s.pkg.sessions[k]? = some x ∧ x.peer = peer ∧ x.id = bytesAt l 4 4 ∧
    (∀ j y, j < k → s.pkg.sessions[j]? = some y → y.peer ≠ peer ∨ y.id ≠ bytesAt l 4 4) ∧ x.expect = msgSeq l ∧ x.ahead = [] ∧
    let y : Session := { x with expect := x.expect + 1, unacked := x.unacked.filter fun m => decide (bytesAt l 16 8 < m.seq) }
    s' = { s with pkg := { s.pkg with sessions := s.pkg.sessions.set k y } }

/-- A type-5 response of session k with a status and data. -/
def State.answered (s : State) (k status : Nat) (l : List Nat) : State := s.sendOn k 5 (leBytes 4 status ++ leBytes 4 l.length ++ l)

end Sys2Proof.Machine
end

