-- ==== Sys2Proof/Certificates/Slice0/Obligations.lean ====
section
/-! DEFINITION. The statements for the provers, from the numbered rules of spec/. A statement about several groups of
instructions is the conjunction of its parts, each named `Claims.<group>`. -/

section Statements

open Sys2Proof Sys2Proof.Machine

/-! ### Encoding (spec/02_encoding.md, R32 to R58) -/

/-- No bit of an encoding is dropped: the word of every well-formed instruction decodes to that instruction, with every
operand at every value that the encoding admits. -/
def Obligations.DecodeOfEncode : Prop := ∀ i : Instr, i.wf = true → decode (encode i) = .ok i

/-- Every word has at most one spelling: what a word decodes to is a well-formed instruction whose word it is. So no event
has a word, and no two words name one instruction. -/
def Obligations.EncodeOfDecode : Prop := ∀ (w : BitVec 32) (i : Instr), decode w = .ok i → i.wf = true ∧ encode i = w

/-- The words that the spec prints beside instructions decode to those instructions: at least one of each family. -/
def Obligations.SpecWords : Prop :=
  decode 0x405E4182 = .ok (.srai 3 4 5) ∧
  decode 0xFF900282 = .ok (.addi 5 0 0xFF9) ∧
  decode 0x1D58B505 = .ok (.fmacc 10 11 12 .f64 1) ∧
  decode 0x0036628A = .ok (.ldAq 5 6 .die) ∧
  decode 0x0046438B = .ok (.sdRl 7 4 .package) ∧
  decode 0x00100090 = .ok (.jal 1 0x100) ∧
  decode 0x0012A593 = .ok (.joinT 11 10 1) ∧
  decode 0x04068013 = .ok (.icinv 8 64) ∧
  decode 0x00041198 = .ok (.mand 3 1 2) ∧
  decode 0x03404298 = .ok (.mcnt 5 4) ∧
  decode 0x00C062A0 = .ok (.setvl 5 6 12 0) ∧
  decode 0x01B20420 = .ok (.vtag 8 11 1) ∧
  decode 0x000C4020 = .ok (.nestld 0 4) ∧
  decode 0x04CC2230 = .ok (.vadd 4 2 6 0 true 3) ∧
  decode 0x40062840 = .ok (.vopaX2 16 2 3 0 false 0) ∧
  decode 0x000041C9 = .ok (.vst 3 4 false 0 false 0) ∧
  decode 0x000000DF = .ok (.bankopAdd 0) ∧
  decode 0xA6D07056 = .ok (.lkacc 7 8 3 { order := 2, push := true, pop := false, chan := 3 }) ∧
  decode 0x0000B2DB = .ok (.lkstat 5 11 { order := 0, push := false, pop := false, chan := 0 }) ∧
  decode 0x004E62F1 = .ok (.nma 5 6 7 1 { order := 0, push := false, pop := false, chan := 0 }) ∧
  decode 0x000E62E9 = .ok (.strain 5 6 7 { order := 0, push := false, pop := false, chan := 0 }) ∧
  decode 0x04005072 = .ok (.bar 5) ∧
  decode 0x0C0C5072 = .ok (.pwait 5 6) ∧
  decode 0x0E0001F2 = .ok (.tkpush 3) ∧
  decode 0x007202F3 = .ok (.feat 5 7) ∧
  decode 0x04340674 = .ok (.csrrs 12 0x043 0) ∧
  decode 0x10127374 = .ok (.csrrw 6 0x101 7) ∧
  decode 0x000C5075 = .ok (.tlbinvVa 5 6) ∧
  decode 0x00200073 = .ok .eret

/-- Majors and functions that the opcode map gives to no instruction are refused by name (R42, R46): every reserved major; the
functions, selectors and conditions that R47 to R52 and R56 to R58 leave out, the format codes of a floating-point operation among
them; and the vector functions that R54 leaves out. -/
def Claims.ReservedMajors : Prop :=
  (∀ f : Fields, f.maj.toNat = 0 ∨ f.maj.toNat = 7 ∨ (0x0D ≤ f.maj.toNat ∧ f.maj.toNat ≤ 0x0F) ∨
      (0x15 ≤ f.maj.toNat ∧ f.maj.toNat ≤ 0x17) ∨ (0x19 ≤ f.maj.toNat ∧ f.maj.toNat ≤ 0x1F) ∨
      (0x21 ≤ f.maj.toNat ∧ f.maj.toNat ≤ 0x2F) ∨ (0x42 ≤ f.maj.toNat ∧ f.maj.toNat ≤ 0x47) ∨
      (0x4D ≤ f.maj.toNat ∧ f.maj.toNat ≤ 0x4F) ∨ f.maj.toNat = 0x5E ∨ f.maj.toNat = 0x6F ∨ 0x76 ≤ f.maj.toNat →
    decodeFields f = .error .illegalInstruction) ∧
  (∀ f : Fields, (f.maj = 0x01 ∧ 27 ≤ f.top.toNat) ∨ (f.maj = 0x05 ∧ (21 ≤ f.top.toNat / 16 ∨ 2 ≤ f.top.toNat / 4 % 4)) ∨
      (f.maj = 0x06 ∧ 3 ≤ f.top.toNat) ∨ (f.maj = 0x18 ∧ 16 ≤ f.top.toNat) ∨ (f.maj = 0x75 ∧ 5 ≤ f.top.toNat) ∨
      (f.maj = 0x12 ∧ 6 ≤ f.cond.toNat) ∨ (f.maj = 0x72 ∧ 10 ≤ f.top.toNat / 8) ∨
      (f.maj = 0x70 ∧ (10 ≤ f.top.toNat / 16 ∨ f.top.toNat / 4 % 4 = 3 ∨ (f.top.toNat / 4 % 4 = 2 ∧ f.top.toNat / 16 ≠ 0))) →
    decodeFields f = .error .illegalInstruction) ∧
  (∀ f : Fields, (f.maj ∈ ([0x08, 0x0A] : List (BitVec 7)) ∧ f.funct3 = 7) ∨
      (f.maj ∈ ([0x09, 0x0B, 0x13] : List (BitVec 7)) ∧ 4 ≤ f.funct3.toNat) ∨ (f.maj = 0x0C ∧ 5 ≤ f.funct3.toNat) ∨
      (f.maj = 0x11 ∧ f.funct3 ≠ 0) ∨ (f.maj = 0x14 ∧ legalLoop f.funct3 (f.imm12.extractLsb' 0 5) = false) ∨
      (f.maj = 0x73 ∧ (3 ≤ f.funct3.toNat ∨ (f.funct3 = 0 ∧ 6 ≤ f.imm12.toNat))) ∨
      (f.maj = 0x74 ∧ (f.funct3 = 0 ∨ f.funct3 = 4 ∨ csrKnown f.imm12 = false)) →
    decodeFields f = .error .illegalInstruction) ∧
  (∀ f : Fields, (f.maj ∈ ([0x39, 0x3C, 0x3F, 0x41, 0x49] : List (BitVec 7)) ∧ f.vfn = 3) ∨
      (f.maj ∈ ([0x3A, 0x4A] : List (BitVec 7)) ∧ 2 ≤ f.vfn.toNat) →
    decodeFields f = .error .illegalInstruction)

/-- Register fields that an instruction does not use, the high bits of a field that names a q, k, mask or nest register, and
immediate bits that an entry marks zero are refused when they are not zero (R34, R42), major by major; so are a segment count
or a VCVT selector that R54 does not give. -/
def Claims.ReservedFields : Prop :=
  (∀ f : Fields, f.b ≠ 0 → (f.maj = 0x01 ∧ 23 ≤ f.top.toNat) ∨ (f.maj = 0x05 ∧ (f.top.toNat / 16 = 4 ∨ 15 ≤ f.top.toNat / 16)) ∨
      f.maj ∈ ([0x06, 0x5A, 0x5B, 0x5C, 0x5D, 0x61, 0x63, 0x66, 0x67, 0x68, 0x6A, 0x6E] : List (BitVec 7)) ∨
      (f.maj = 0x18 ∧ 6 ≤ f.top.toNat) ∨ (f.maj = 0x75 ∧ 1 ≤ f.top.toNat) ∨
      (f.maj = 0x72 ∧ f.top.toNat / 8 ≠ 3 ∧ f.top.toNat / 8 ≠ 6) ∨
      (f.maj ∈ ([0x36, 0x37] : List (BitVec 7)) ∧ 2 ≤ f.vfn.toNat) ∨ f.maj ∈ ([0x38, 0x39, 0x3C, 0x41] : List (BitVec 7)) ∨
      (f.maj = 0x3E ∧ f.vfn ≠ 0) ∨ (f.maj = 0x3F ∧ f.vfn = 0) ∨ (f.maj = 0x48 ∧ (f.vfn = 0 ∨ f.vfn = 3)) ∨
      (f.maj = 0x49 ∧ f.vfn = 0) → decodeFields f = .error .illegalInstruction) ∧
  (∀ f : Fields, f.a ≠ 0 → (f.maj = 0x13 ∧ (f.funct3 = 0 ∨ f.funct3 = 2)) ∨ f.maj = 0x14 ∨
      (f.maj = 0x18 ∧ (f.top = 8 ∨ f.top = 9)) ∨ (f.maj = 0x20 ∧ (f.funct3 = 1 ∨ f.funct3 = 2)) ∨ (f.maj = 0x3E ∧ f.vfn = 3) ∨
      f.maj ∈ ([0x5D, 0x68, 0x6E] : List (BitVec 7)) ∨ (f.maj = 0x73 ∧ f.funct3 ≠ 2) ∨ (f.maj = 0x75 ∧ f.top = 2) ∨
      (f.maj = 0x72 ∧ (f.top.toNat / 8 ≤ 1 ∨ f.top.toNat / 8 = 7 ∨ f.top.toNat / 8 = 8)) →
    decodeFields f = .error .illegalInstruction) ∧
  (∀ f : Fields, f.d ≠ 0 → f.maj = 0x0C ∨ (f.maj = 0x13 ∧ f.funct3 ≠ 1) ∨ f.maj = 0x14 ∨ (f.maj = 0x20 ∧ f.funct3 = 5) ∨
      (0x50 ≤ f.maj.toNat ∧ f.maj.toNat ≤ 0x5A) ∨ f.maj ∈ ([0x61, 0x67, 0x6A, 0x6B, 0x6C, 0x6D, 0x75] : List (BitVec 7)) ∨
      (f.maj = 0x72 ∧ f.top.toNat / 8 ≤ 6) ∨ (f.maj = 0x73 ∧ f.funct3 = 0) → decodeFields f = .error .illegalInstruction) ∧
  (∀ f : Fields, (8 ≤ f.d.toNat ∧ ((f.maj = 0x06 ∧ f.top = 0) ∨ (f.maj = 0x41 ∧ f.vfn = 2) ∨
        (f.maj = 0x72 ∧ (f.top.toNat / 8 = 7 ∨ f.top.toNat / 8 = 8)))) ∨
      (8 ≤ f.a.toNat ∧ ((f.maj = 0x06 ∧ f.top ≠ 0) ∨ (f.maj = 0x41 ∧ f.vfn = 1) ∨ (f.maj = 0x72 ∧ f.top.toNat / 8 = 9))) ∨
      (6 ≤ f.d.toNat ∧ f.maj = 0x20 ∧ 6 ≤ f.funct3.toNat) ∨
      (16 ≤ f.d.toNat ∧ ((f.maj = 0x18 ∧ f.top.toNat ≤ 12) ∨ f.maj = 0x35)) ∨ (16 ≤ f.a.toNat ∧ f.maj = 0x18) ∨
      (16 ≤ f.b.toNat ∧ f.maj = 0x18) → decodeFields f = .error .illegalInstruction) ∧
  (∀ f : Fields, (f.maj = 0x02 ∧ 64 ≤ f.imm12.toNat ∧ (f.funct3 = 6 ∨ (f.funct3 = 7 ∧ f.imm12.toNat / 64 ≠ 16))) ∨
      (f.maj ∈ ([0x0A, 0x0B] : List (BitVec 7)) ∧ 8 ≤ f.imm12.toNat) ∨ (f.maj = 0x13 ∧ f.funct3 = 2 ∧ f.imm12 ≠ 0) ∨
      (f.maj = 0x14 ∧ 32 ≤ f.imm12.toNat) ∨ (f.maj = 0x20 ∧ (64 ≤ f.imm12.toNat ∨ (3 ≤ f.funct3.toNat ∧ f.imm12 ≠ 0))) ∨
      (f.maj = 0x73 ∧ ((f.funct3 = 1 ∧ 64 ≤ f.imm12.toNat) ∨ (f.funct3 = 2 ∧ f.imm12 ≠ 0))) ∨
      (f.maj = 0x72 ∧ f.top.toNat / 8 ≠ 0 ∧ f.top.toNat % 8 ≠ 0) ∨ (f.maj = 0x4A ∧ (f.b = 0 ∨ 8 ≤ f.b.toNat)) ∨
      (f.maj = 0x3A ∧ (8 ≤ f.b.toNat ∨ (f.vfn = 1 ∧ f.d = 31))) → decodeFields f = .error .illegalInstruction)

/-- Modifiers that are refused (R36 to R42): scope codes 6 and 7; nest 7 on every command that uses a nest, and a nest that is
not 0 on every other; a replicate size without its enable, and an enable where vs2 is no vector source; the notify bit of a
load; mask 0 where a mask is required; a near-memory prefix with a reserved operation or with bits of [31:17]; and the convoy
bit on a major that is not convoyable, as the illegal-convoy trap of the instruction that the word would be without it. -/
def Claims.ReservedModifiers : Prop :=
  (∀ f : Fields, (f.maj ∈ ([0x0A, 0x0B] : List (BitVec 7)) ∧ 6 ≤ f.imm12.toNat % 8) ∨ (f.maj = 0x72 ∧ (f.top = 6 ∨ f.top = 7)) →
    decodeFields f = .error .illegalInstruction) ∧
  (∀ f : Fields, f.nest = 7 → f.maj ∈ ([0x50, 0x52, 0x53, 0x56, 0x57, 0x58, 0x60, 0x61, 0x62, 0x71] : List (BitVec 7)) →
    decodeFields f = .error .illegalInstruction) ∧
  (∀ f : Fields, f.nest ≠ 0 → f.maj ∈ ([0x51, 0x54, 0x55, 0x59, 0x5A, 0x5B, 0x5C, 0x5D, 0x63, 0x64, 0x65, 0x66, 0x67, 0x68, 0x69,
      0x6A, 0x6B, 0x6C, 0x6D, 0x6E] : List (BitVec 7)) → decodeFields f = .error .illegalInstruction) ∧
  (∀ f : Fields, f.rep.getLsbD 2 = false → f.rep ≠ 0 → 0x30 ≤ f.maj.toNat → f.maj.toNat ≤ 0x41 →
    decodeFields f = .error .illegalInstruction) ∧
  (∀ f : Fields, f.rep.getLsbD 2 = true → (f.maj ∈ ([0x36, 0x37] : List (BitVec 7)) ∧ 2 ≤ f.vfn.toNat) ∨
      f.maj ∈ ([0x38, 0x39, 0x3A, 0x3C, 0x3D, 0x41, 0x48, 0x4A, 0x4B, 0x4C] : List (BitVec 7)) ∨ (f.maj = 0x3E ∧ f.vfn ≠ 0) ∨
      (f.maj = 0x3F ∧ f.vfn = 0) → decodeFields f = .error .illegalInstruction) ∧
  (∀ f : Fields, f.mask = 0 → (f.maj = 0x36 ∧ f.vfn = 0) ∨ (f.maj = 0x3E ∧ f.vfn ≠ 0) →
    decodeFields f = .error .illegalInstruction) ∧
  (∀ f : Fields, f.maj = 0x5F → f.top ≠ 0 ∨ f.b ≠ 0 ∨ f.d = 0 ∨ 7 ≤ f.d.toNat → decodeFields f = .error .illegalPrefix) ∧
  (∀ (f : Fields) (i : Instr), f.maj ∈ ([0x3B, 0x3C, 0x3E, 0x3F, 0x41, 0x4A, 0x4B, 0x4C] : List (BitVec 7)) →
    (f.cv = true → decodeFields f ≠ .ok i) ∧
    (decodeFields f = .ok i → decodeFields { f with top := f.top ||| 16 } = .error (.illegalConvoy i)))

/-- `Claims.ReservedMajors`, `Claims.ReservedFields`, `Claims.ReservedModifiers` together. -/
def Obligations.ReservedWords : Prop :=
  Claims.ReservedMajors ∧ Claims.ReservedFields ∧ Claims.ReservedModifiers

/-! ### The step -/

/-- A step at a hart that nothing holds issues the word that its loop buffer or its window holds for its PC, or that is
fetched now (R128, R137). If the word decodes to an instruction, the step is that of `exec` on it, between what the step adds:
before it the word's place in a loop buffer that is being filled, and `vpcm` dropped as R229 gives; after it the counts of an
issued instruction and the end of the step (clocks, the compare of `cyccmp`, throttle locks). A word that decodes to nothing
raises its trap (R42), and a fetch that faults raises its fault (R357). A word that the gang's front end has not delivered is
waited for (R124).

The model's own choices here, with their log entries: that a step is one turn of an agenda and an event is a turn like an
instruction (log entry 5, DESIGN CHOICE); that a register which an engine command has still to write holds the hart (log entry
35, DEDUCED from R101); that an engine command with an acquire that has still to start holds a scalar access (log entry 92,
DEDUCED from R349); and that after HARD_TRIP, where R436 stops every clock, a step other than power-on answers the fault
`clocksStopped` (log entry 62, DESIGN CHOICE). -/
def Obligations.StepRunsDecoded : Prop :=
  (∀ (s p t : State), s.stands = false →
    (s.agenda = [] ∧ p = s.begin.progress ∨ ∃ rest, s.agenda = .run :: rest ∧ p = ({ s with agenda := rest } : State).begin) →
    p.idle = false → t = p.settleDue → t.me.entered = false → t.me.due = none → t.idle = false → t.held = none →
    t.me.gang.icinv = none → t.me.gang.state ≠ .waiting →
    (∀ u w, t.present t.me = .ok (u, w) →
      let k := u.keepWord u.me w
      let v := k.dropLanes (Fields.ofWord w)
      (∀ i, decode w = .ok i →
        ((gRegs (Fields.ofWord w)).any k.me.busy = false →
          (scalarAccess (Fields.ofWord w) = true → k.me.acquiring k.seq = false) →
          step s = andThen State.endStep (andThen (·.retired k.me) (exec i v))) ∧
        ((gRegs (Fields.ofWord w)).any k.me.busy = true → step s = .next ((v.stall .register).retired k.me).endStep) ∧
        ((gRegs (Fields.ofWord w)).any k.me.busy = false → scalarAccess (Fields.ofWord w) = true →
          k.me.acquiring k.seq = true → step s = .next ((v.stall .drain).retired k.me).endStep)) ∧
      (∀ e, decode w = .error e → step s = .next ((v.badWord w e).retired k.me).endStep)) ∧
    (∀ c, t.present t.me = .error (some c) → step s = .next (t.trapFetch c t.me.pc).endStep) ∧
    (t.present t.me = .error none → step s = .next (t.stall .delivery).endStep)) ∧
  (∀ (t : State),
    (∀ w, t.me.bufWord = some w → t.present t.me = .ok (t, w)) ∧
    (∀ w, t.me.bufWord = none → t.me.winWord = some w → t.present t.me = .ok (t, w)) ∧
    (t.me.bufWord = none → t.me.winWord = none → t.me.gang.state = .detached →
      (∀ f, t.fetch t.me.pc = .ok f → ∃ u, t.present t.me = .ok (u, f.word) ∧ u.me.win.map (·.word) = [f.word] ∧
        u = { t with me := { t.me with win := u.me.win }, cores := u.cores, poison := u.poison }) ∧
      ∀ c, t.fetch t.me.pc = .error c → t.present t.me = .error (some c))) ∧
  (∀ (s : State) (i : Instr) (rest : List Turn), s.stands = false → s.agenda = .event i :: rest → i.isEvent = true →
    step s = andThen State.endStep (exec i ({ s with agenda := rest } : State).begin)) ∧
  (∀ (s : State), s.pkg.stopped = true → (∀ a b c rest, s.agenda ≠ .event (.powerOnBoot a b c) :: rest) →
    step s = .fault .clocksStopped)

/-- What reset leaves where the spec gives a value: every hart has its supervisor bank at zero (R351), no loop, no queue
entry and no token, and its CSRs read as their tables give; no table, row or codebook is held by a lookup stack, whose
accumulators are clear (R246); every core's carries are 0 (R381). Where the spec gives no value the model chooses one (log entry
2, DESIGN CHOICE): of what is stated here that is q0 to q7 and the token channels, which R104 and R338 give empty only at a
task's first instruction, and a stack's check-unit LFSR (1) and temperature state (0) in `stackAt n`; the user bank, the PC and
the vector and mask registers are not stated. What memory reads as is the model's choice too (log entry 1): of memory only its
canonical form is stated. -/
def Obligations.ResetState : Prop :=
  (∀ n, (State.reset.hart n).sg = Vector.replicate 32 0 ∧ (State.reset.hart n).csr.loop = {} ∧
    (State.reset.hart n).csr.lix = Vector.replicate 6 0 ∧ (State.reset.hart n).Clear ∧
    (State.reset.hart n).q = Vector.replicate 8 [] ∧
    (∀ k, (State.reset.hart n).tokens k = {})) ∧
  State.reset.csrRead 0x001 = 0 ∧ State.reset.csrRead 0x002 = 0 ∧ State.reset.csrRead 0x003 = 4 ∧
  State.reset.csrRead 0x010 = 0 ∧ State.reset.csrRead 0x011 = 0xFFFF ∧ State.reset.csrRead 0x014 = 0 ∧
  State.reset.csrRead 0x015 = 0 ∧ State.reset.csrRead 0x016 = 0 ∧ State.reset.csrRead 0x017 = 0 ∧
  State.reset.csrRead 0x018 = 0 ∧ State.reset.csrRead 0x021 = 0 ∧ State.reset.csrRead 0x022 = 0 ∧
  State.reset.csrRead 0x031 = 0 ∧ State.reset.csrRead 0x033 = 0 ∧ State.reset.csrRead 0x043 = 0 ∧
  State.reset.csrRead 0x100 = 2 ∧ State.reset.csrRead 0x101 = 0 ∧ State.reset.csrRead 0x102 = 0 ∧
  State.reset.csrRead 0x103 = 0 ∧ State.reset.csrRead 0x104 = 0 ∧ State.reset.csrRead 0x105 = 0 ∧
  State.reset.csrRead 0x106 = 7 ∧ State.reset.csrRead 0x10A = 0xFFFFFFFFFFFFFFFF ∧
  (∀ n, State.reset.stackAt n = {}) ∧ (∀ c, (State.reset.coreAt c).carry = Vector.replicate 4 (0, 1)) ∧
  State.reset.safe = true

/-- Every step keeps memory in its canonical form: the keys of the listed bytes rise and none is listed with the value that
an unlisted byte reads as, so that equal memories are equal data. -/
def Obligations.MemoryFormKept : Prop := ∀ s t : State, s.safe = true → step s = .next t → t.safe = true

/-! ### Scalar integer instructions (spec/04_scalar.md, R109 to R112) -/

/-- R109: each OP instruction completes on every state and every operand, writes gd as the table gives it, with a and b read
as signed and an and bn as unsigned numbers, and leaves all else. -/
def Claims.IntegerRegisterResults : Prop :=
  ∀ (s : State) (d a b : BitVec 5),
    let x := s.g a
    let y := s.g b
    Gives (.add d a b) s d (BitVec.ofInt 64 (x.toInt + y.toInt)) 0 ∧
    Gives (.sub d a b) s d (BitVec.ofInt 64 (x.toInt - y.toInt)) 0 ∧
    Gives (.and d a b) s d (x &&& y) 0 ∧
    Gives (.or d a b) s d (x ||| y) 0 ∧
    Gives (.xor d a b) s d (x ^^^ y) 0 ∧
    Gives (.andn d a b) s d (x &&& ~~~y) 0 ∧
    Gives (.sll d a b) s d (BitVec.ofNat 64 (x.toNat * 2 ^ (y.toNat % 64))) 0 ∧
    Gives (.srl d a b) s d (BitVec.ofNat 64 (x.toNat / 2 ^ (y.toNat % 64))) 0 ∧
    Gives (.sra d a b) s d (BitVec.ofInt 64 (x.toInt / 2 ^ (y.toNat % 64))) 0 ∧
    Gives (.slt d a b) s d (if x.toInt < y.toInt then 1 else 0) 0 ∧
    Gives (.sltn d a b) s d (if x.toNat < y.toNat then 1 else 0) 0 ∧
    Gives (.min d a b) s d (BitVec.ofInt 64 (min x.toInt y.toInt)) 0 ∧
    Gives (.max d a b) s d (BitVec.ofInt 64 (max x.toInt y.toInt)) 0 ∧
    Gives (.minn d a b) s d (BitVec.ofNat 64 (min x.toNat y.toNat)) 0 ∧
    Gives (.maxn d a b) s d (BitVec.ofNat 64 (max x.toNat y.toNat)) 0 ∧
    Gives (.mul d a b) s d (BitVec.ofInt 64 (x.toInt * y.toInt)) 0 ∧
    Gives (.mulh d a b) s d (BitVec.ofInt 64 (x.toInt * y.toInt / 2 ^ 64)) 0 ∧
    Gives (.mulhn d a b) s d (BitVec.ofNat 64 (x.toNat * y.toNat / 2 ^ 64)) 0 ∧
    Gives (.mulhsn d a b) s d (BitVec.ofInt 64 (x.toInt * (y.toNat : Int) / 2 ^ 64)) 0

/-- R109, the unary OP instructions: counts of bits, the number of zeros above the highest or below the lowest 1, and the
bytes in reverse order. -/
def Claims.BitCountResults : Prop :=
  ∀ (s : State) (d a : BitVec 5),
    let x := s.g a
    (x = 0 → Gives (.clz d a) s d 64 0 ∧ Gives (.ctz d a) s d 64 0) ∧
    (∀ n, n < 64 → x.getLsbD n = true → (∀ m, n < m → x.getLsbD m = false) →
      Gives (.clz d a) s d (BitVec.ofNat 64 (63 - n)) 0) ∧
    (∀ n, n < 64 → x.getLsbD n = true → (∀ m, m < n → x.getLsbD m = false) →
      Gives (.ctz d a) s d (BitVec.ofNat 64 n) 0) ∧
    Gives (.cpop d a) s d (BitVec.ofNat 64 ((List.range 64).filter fun n => x.getLsbD n).length) 0 ∧
    ∃ y : Word, Gives (.bswap d a) s d y 0 ∧
      ∀ i, i < 8 → y.extractLsb' (8 * i) 8 = x.extractLsb' (8 * (7 - i)) 8

/-- R111, R112, R35: the immediate forms, LUI and AUIPC complete on every state and operand, write gd and leave all else. -/
def Claims.IntegerImmediateResults : Prop :=
  ∀ (s : State) (d a : BitVec 5) (i : BitVec 12) (sh : BitVec 6) (u : BitVec 20),
    let x := s.g a
    Gives (.addi d a i) s d (BitVec.ofInt 64 (x.toInt + i.toInt)) 0 ∧
    Gives (.slti d a i) s d (if x.toInt < i.toInt then 1 else 0) 0 ∧
    Gives (.sltni d a i) s d (if x.toNat < (BitVec.ofInt 64 i.toInt).toNat then 1 else 0) 0 ∧
    Gives (.xori d a i) s d (x ^^^ BitVec.ofInt 64 i.toInt) 0 ∧
    Gives (.ori d a i) s d (x ||| BitVec.ofInt 64 i.toInt) 0 ∧
    Gives (.andi d a i) s d (x &&& BitVec.ofInt 64 i.toInt) 0 ∧
    Gives (.slli d a sh) s d (BitVec.ofNat 64 (x.toNat * 2 ^ sh.toNat)) 0 ∧
    Gives (.srli d a sh) s d (BitVec.ofNat 64 (x.toNat / 2 ^ sh.toNat)) 0 ∧
    Gives (.srai d a sh) s d (BitVec.ofInt 64 (x.toInt / 2 ^ sh.toNat)) 0 ∧
    Gives (.lui d u) s d (BitVec.ofInt 64 (u.toInt * 4096)) 0 ∧
    Gives (.auipc d u) s d (BitVec.ofInt 64 (s.me.pc.toInt + u.toInt * 4096)) 0

/-- `Claims.IntegerRegisterResults`, `Claims.BitCountResults`, `Claims.IntegerImmediateResults` together. -/
def Obligations.IntegerResults : Prop :=
  Claims.IntegerRegisterResults ∧ Claims.BitCountResults ∧ Claims.IntegerImmediateResults

/-- R110: the quotients and remainders, truncated towards zero with the sign of the dividend, and the boundary cases. No OP
instruction traps on any operand or sets a flag, and a nonzero gs2 field in a unary function is no instruction. -/
def Obligations.DivisionBoundaryCases : Prop :=
  (∀ (s : State) (d a b : BitVec 5),
    let x := s.g a
    let y := s.g b
    Gives (.div d a b) s d (if y = 0 then BitVec.allOnes 64 else BitVec.ofInt 64 (x.toInt.tdiv y.toInt)) 0 ∧
    Gives (.divn d a b) s d (if y = 0 then BitVec.allOnes 64 else BitVec.ofNat 64 (x.toNat / y.toNat)) 0 ∧
    Gives (.rem d a b) s d (if y = 0 then x else BitVec.ofInt 64 (x.toInt.tmod y.toInt)) 0 ∧
    Gives (.remn d a b) s d (if y = 0 then x else BitVec.ofNat 64 (x.toNat % y.toNat)) 0 ∧
    (x = BitVec.intMin 64 → y = BitVec.allOnes 64 →
      Gives (.div d a b) s d (BitVec.intMin 64) 0 ∧ Gives (.rem d a b) s d 0 0) ∧
    ∀ i ∈ [Instr.add d a b, .sub d a b, .and d a b, .or d a b, .xor d a b, .andn d a b, .sll d a b, .srl d a b, .sra d a b,
           .slt d a b, .sltn d a b, .min d a b, .max d a b, .minn d a b, .maxn d a b, .mul d a b, .mulh d a b, .mulhn d a b,
           .mulhsn d a b, .div d a b, .divn d a b, .rem d a b, .remn d a b, .clz d a, .ctz d a, .cpop d a, .bswap d a],
      ∃ z, Gives i s d z 0) ∧
  ∀ (d a b : BitVec 5) (fn : BitVec 10), 23 ≤ fn.toNat → fn.toNat ≤ 26 → b ≠ 0 →
    decode (Fields.r fn b a d 0x01).pack = .error .illegalInstruction

/-- R34: g0 reads as zero and a write to g0 is discarded, while the instruction does everything else. -/
def Obligations.RegisterZeroHardwired : Prop :=
  ∀ (s : State) (x : Word), s.g 0 = 0 ∧ s.setG 0 x = s ∧ s.write 0 x = s.next ∧
    ∀ (r : BitVec 5), r ≠ 0 → (s.setG r x).g r = x

/-! ### Scalar floating point (R49, R82, R84, R103, R113 to R116) -/

/-- R114, R116: each FP instruction completes on every operand value, writes its rounded result, ORs its flags into `fflags`
and leaves all else. The results are those of the exact operations with one rounding that the model defines for R79 to
R86; an f32 result stands boxed in gd. -/
def Claims.FloatOperationResults : Prop :=
  ∀ (s : State) (d a b : BitVec 5) (f : FFmt) (rm : BitVec 2),
    let x := s.fval f a
    let y := s.fval f b
    let z := s.fval f d
    let p := s.fbits f a
    let q := s.fbits f b
    let m := RM.ofCode rm
    let top := (ffmt f).width - 1
    let num (i : Instr) (r : FRes) : Prop := Gives i s d (fbox f r.bits) r.fl
    let sign (i : Instr) (n : Bool) : Prop := Gives i s d (fbox f (p % 2 ^ top + if n then 2 ^ top else 0)) 0
    num (.fadd d a b f rm) (addNum (ffmt f) m x y) ∧
    num (.fsub d a b f rm) (addNum (ffmt f) m x y.negate) ∧
    num (.fmul d a b f rm) (mulNum (ffmt f) m x y) ∧
    num (.fdiv d a b f rm) (divNum (ffmt f) m x y) ∧
    num (.fsqrt d a f rm) (sqrtNum (ffmt f) m x) ∧
    num (.fmin d a b f rm) { bits := minMaxBits (ffmt f) false p q } ∧
    num (.fmax d a b f rm) { bits := minMaxBits (ffmt f) true p q } ∧
    num (.fmacc d a b f rm) (fmaNum (ffmt f) m x y z) ∧
    num (.fnmacc d a b f rm) (fmaNum (ffmt f) m x.negate y z) ∧
    sign (.fsgnj d a b f rm) (bit q top) ∧
    sign (.fsgnjn d a b f rm) (!bit q top) ∧
    sign (.fsgnjx d a b f rm) (bit p top != bit q top) ∧
    Gives (.feq d a b f rm) s d (if x.feq y then 1 else 0) 0 ∧
    Gives (.flt d a b f rm) s d (if x.lt y then 1 else 0) (if x = .nan ∨ y = .nan then flagNV else 0) ∧
    Gives (.fle d a b f rm) s d (if x.lt y ∨ x.feq y then 1 else 0) (if x = .nan ∨ y = .nan then flagNV else 0) ∧
    Gives (.fclass d a f rm) s d (BitVec.ofNat 64 (2 ^ fclassBit (ffmt f) p)) 0 ∧
    (let r := convert (ffmt f) .i64 m false p; Gives (.fcvtI64 d a f rm) s d (BitVec.ofNat 64 r.bits) r.fl) ∧
    (let r := convert (ffmt f) .n64 m false p; Gives (.fcvtN64 d a f rm) s d (BitVec.ofNat 64 r.bits) r.fl) ∧
    num (.fcvtFmtI64 d a f rm) (convert .i64 (ffmt f) m false (s.g a).toNat) ∧
    num (.fcvtFmtN64 d a f rm) (convert .n64 (ffmt f) m false (s.g a).toNat) ∧
    (let src : FFmt := match f with
       | .f32 => .f64
       | .f64 => .f32
     num (.fcvtFmtOther d a f rm) (convert (ffmt src) (ffmt f) m false (s.fbits src a)))

/-- R103, R49: an f32 operand is the low half of its register, whatever stands above it, and an f32 result has ones above
it. -/
def Claims.SinglePrecisionBoxing : Prop :=
  (∀ (s t : State) (a b : BitVec 5), (s.g a).extractLsb' 0 32 = (t.g b).extractLsb' 0 32 → s.fval .f32 a = t.fval .f32 b) ∧
  ∀ r, (fbox .f32 r).extractLsb' 32 32 = BitVec.allOnes 32 ∧ (fbox .f32 r).extractLsb' 0 32 = BitVec.ofNat 32 r

/-- `Claims.FloatOperationResults`, `Claims.SinglePrecisionBoxing` together. -/
def Obligations.FloatResults : Prop :=
  Claims.FloatOperationResults ∧ Claims.SinglePrecisionBoxing

/-- R82 in the scalar instructions: the invalid operations give the canonical NaN and set NV, a finite nonzero value divided
by zero gives a signed infinity and sets DZ, and a NaN operand gives NaN without a flag. -/
def Obligations.InvalidFloatOperations : Prop :=
  ∀ (s : State) (d a b : BitVec 5) (f : FFmt) (rm : BitVec 2),
    let x := s.fval f a
    let y := s.fval f b
    let nan := fbox f (ffmt f).nanBits
    (∀ n, x = .inf n → y = .inf (!n) → Gives (.fadd d a b f rm) s d nan flagNV) ∧
    (∀ n, x = .inf n → y = .inf n → Gives (.fsub d a b f rm) s d nan flagNV) ∧
    (∀ n k e, x = .fin n 0 e → y = .inf k → Gives (.fmul d a b f rm) s d nan flagNV) ∧
    (∀ n k e, x = .inf n → y = .fin k 0 e → Gives (.fmul d a b f rm) s d nan flagNV) ∧
    (∀ n k e i, x = .fin n 0 e → y = .fin k 0 i → Gives (.fdiv d a b f rm) s d nan flagNV) ∧
    (∀ n k, x = .inf n → y = .inf k → Gives (.fdiv d a b f rm) s d nan flagNV) ∧
    (∀ v e, x = .fin true v e → 0 < v → Gives (.fsqrt d a f rm) s d nan flagNV) ∧
    (x = .inf true → Gives (.fsqrt d a f rm) s d nan flagNV) ∧
    (∀ n v e k i, x = .fin n v e → 0 < v → y = .fin k 0 i →
      Gives (.fdiv d a b f rm) s d (fbox f ((ffmt f).withSign (n != k) (ffmt f).infBits)) flagDZ) ∧
    (x = .nan ∨ y = .nan →
      Gives (.fadd d a b f rm) s d nan 0 ∧ Gives (.fsub d a b f rm) s d nan 0 ∧
      Gives (.fmul d a b f rm) s d nan 0 ∧ Gives (.fdiv d a b f rm) s d nan 0) ∧
    (x = .nan → Gives (.fsqrt d a f rm) s d nan 0)

/-! ### Queue registers and tokens (R104 to R108, R338) -/

/-- R108: qpush appends to a queue that holds fewer than 16 entries, qpop takes the oldest entry of one that holds any, and
qlen counts; the other queues and all else stay. A blocked instruction waits at its PC with nothing changed. R106 does not
say what becomes of a qpush that is discarded after an older vector move took its entry and then runs again: by the model's
choice (log entry 3, DESIGN CHOICE) it makes up for that entry, at its own level, and adds none. -/
def Claims.QueueResults : Prop :=
  ∀ (s : State) (q : BitVec 3) (r : BitVec 5),
    let l := s.me.queue q
    let o := fileGet (w := 3) q s.me.debt
    let n := o.at s.me.level
    (l.length < 16 → n = 0 → Changes (.qpush q r) s fun h => h.setQueue q (l ++ [s.g r])) ∧
    (l.length < 16 → 0 < n → Changes (.qpush q r) s fun h => { h with debt := fileSet (w := 3) q h.debt (o.set s.me.level (n - 1)) }) ∧
    (16 ≤ l.length → exec (.qpush q r) s = .next (s.stall (.queueFull q))) ∧
    (∀ x rest, l = x :: rest →
      ∃ t, exec (.qpop r q) s = .next t ∧ (s.updMe fun h => h.setQueue q rest).Wrote t r x 0) ∧
    (l = [] → exec (.qpop r q) s = .next (s.stall (.queueEmpty q))) ∧
    Gives (.qlen r q) s r (BitVec.ofNat 64 l.length) 0 ∧
    ∀ (x : List Word), (s.me.setQueue q x).queue q = x ∧ ∀ p, p ≠ q → (s.me.setQueue q x).queue p = s.me.queue p

/-- R338: tkpush adds a token while the count and the reserved places make fewer than 8, tkpop takes one while there is any,
and tkcnt reads the count; otherwise the instruction waits with nothing changed. A tkpush that was discarded after an older
command popped its token, and runs again, makes up for that token (the model's choice, log entry 3, DESIGN CHOICE). -/
def Claims.TokenResults : Prop :=
  ∀ (s : State) (k : BitVec 3) (d : BitVec 5),
    let t := s.me.tokens k
    let n := t.owed.at s.me.level
    (t.count + t.reserved < 8 → n = 0 → Changes (.tkpush k) s fun h => h.setTokens k { t with count := t.count + 1 }) ∧
    (t.count + t.reserved < 8 → 0 < n →
      Changes (.tkpush k) s fun h => h.setTokens k { t with owed := t.owed.set s.me.level (n - 1) }) ∧
    (8 ≤ t.count + t.reserved → exec (.tkpush k) s = .next (s.stall (.tokenFull k))) ∧
    (0 < t.count → Changes (.tkpop k) s fun h => h.setTokens k { t with count := t.count - 1 }) ∧
    (t.count = 0 → exec (.tkpop k) s = .next (s.stall (.tokenEmpty k))) ∧
    Gives (.tkcnt d k) s d (BitVec.ofNat 64 t.count) 0 ∧
    ∀ (x : Tokens), (s.me.setTokens k x).tokens k = x ∧ ∀ p, p ≠ k → (s.me.setTokens k x).tokens p = s.me.tokens p

/-- `Claims.QueueResults`, `Claims.TokenResults` together. -/
def Obligations.QueueAndTokenResults : Prop :=
  Claims.QueueResults ∧ Claims.TokenResults

/-! ### Scalar memory instructions (R117 to R120, R214, R219, R220, R332) -/

/-- R117, R219: each load and load-acquire that meets no exception reads its bytes as the hart sees them, lowest address
least significant, extends them as its mnemonic says, writes gd, and leaves every byte of memory. -/
def Obligations.LoadResults : Prop :=
  ∀ (s : State) (d a : BitVec 5) (i : BitVec 12) (scope : Scope),
    (∀ e ∈ [(Instr.lb d a i, 1, true), (.lh d a i, 2, true), (.lw d a i, 4, true), (.ld d a i, 8, false),
            (.lbn d a i, 1, false), (.lhn d a i, 2, false), (.lwn d a i, 4, false)],
      ∀ key, s.Readable .load (s.g a + i.signExtend 64) e.2.1 key →
        ∃ t, exec e.1 s = .next t ∧ s.Loaded t d (widen e.2.1 e.2.2 (s.readMe key e.2.1))) ∧
    ∀ e ∈ [(Instr.lbAq d a scope, 1, true), (.lhAq d a scope, 2, true), (.lwAq d a scope, 4, true),
           (.ldAq d a scope, 8, false), (.lbnAq d a scope, 1, false), (.lhnAq d a scope, 2, false), (.lwnAq d a scope, 4, false)],
      ∀ key, s.Readable .load (s.g a) e.2.1 key →
        ∃ t, exec e.1 s = .next t ∧ s.Loaded t d (widen e.2.1 e.2.2 (s.readMe key e.2.1))

/-- R117, R219: each store and store-release that meets no exception stores the low bytes of its gd field's register at its
address, and every other byte of memory reads as before. A store-release does so once the hart's earlier accesses have
performed. -/
def Obligations.StoreResults : Prop :=
  ∀ (s : State) (d a : BitVec 5) (i : BitVec 12) (scope : Scope),
    Memory.wf s.mem = true → s.me.StoresInOrder →
    (∀ e ∈ [(Instr.sb d a i, 1), (.sh d a i, 2), (.sw d a i, 4), (.sd d a i, 8)],
      ∀ key, s.Reaches .store (s.g a + i.signExtend 64) e.2 key → s.PlainAt key e.2 →
        ∃ t, exec e.1 s = .next t ∧ s.Stored t key e.2 (s.g d).toNat) ∧
    ∀ e ∈ [(Instr.sbRl d a scope, 1), (.shRl d a scope, 2), (.swRl d a scope, 4), (.sdRl d a scope, 8)],
      ∀ key, s.drained scope.code.toNat = some s → s.Reaches .store (s.g a) e.2 key → s.PlainAt key e.2 →
        ∃ t, exec e.1 s = .next t ∧ s.Stored t key e.2 (s.g d).toNat

/-- R118, R119: the exceptions of every instruction with a scalar access, in their order: loads, stores, load-acquires,
store-releases, atomics, pwait and launch. A misaligned address comes first; then the translation's page fault, protection
fault, tier-miss or access fault; then, where the access reads, data with an error that stays. Each is a precise trap at the
instruction with the address as VAL. A store-release has waited for the hart's earlier accesses, an atomic until nothing older
can discard it, and launch for them before it takes poisoned data as its record's (R411). -/
def Claims.AccessTrapOrder : Prop :=
  ∀ (s : State) (d a b : BitVec 5) (i : BitVec 12) (scope : Scope) (o : BitVec 2),
    let va := s.g a + i.signExtend 64
    let reads : List (Instr × Nat × Word) :=
      [(.lb d a i, 1, va), (.lh d a i, 2, va), (.lw d a i, 4, va), (.ld d a i, 8, va), (.lbn d a i, 1, va), (.lhn d a i, 2, va),
       (.lwn d a i, 4, va), (.lbAq d a scope, 1, s.g a), (.lhAq d a scope, 2, s.g a), (.lwAq d a scope, 4, s.g a),
       (.ldAq d a scope, 8, s.g a), (.lbnAq d a scope, 1, s.g a), (.lhnAq d a scope, 2, s.g a), (.lwnAq d a scope, 4, s.g a)]
    let waits : List (Instr × Nat × Word) := [(.pwait a b, 8, s.g a), (.launch d a, 128, s.g a)]
    let stores : List (Instr × Nat × Word) :=
      [(.sb d a i, 1, va), (.sh d a i, 2, va), (.sw d a i, 4, va), (.sd d a i, 8, va)]
    let releases : List (Instr × Nat × Word) :=
      [(.sbRl d a scope, 1, s.g a), (.shRl d a scope, 2, s.g a), (.swRl d a scope, 4, s.g a), (.sdRl d a scope, 8, s.g a)]
    let amo4 : List Instr :=
      [.amoaddw d a b o, .amofadd d a b o, .amoswapw d a b o, .amoandw d a b o, .amoorw d a b o, .amoxorw d a b o, .amominw d a b o,
       .amomaxw d a b o, .amominnw d a b o, .amomaxnw d a b o, .amocasw d a b o]
    let amo8 : List Instr :=
      [.amoaddd d a b o, .amoswapd d a b o, .amoandd d a b o, .amoord d a b o, .amoxord d a b o, .amomind d a b o, .amomaxd d a b o,
       .amominnd d a b o, .amomaxnd d a b o, .amocasd d a b o]
    let amos : List (Instr × Nat × Word) := amo4.map (fun x => (x, 4, s.g a)) ++ amo8.map fun x => (x, 8, s.g a)
    let free := s.me.speculative = false ∧ s.me.sb = [] ∧ (o ≠ 0 → s.me.csr.escope.toNat < 6)
    -- the first three exceptions of an access of a kind, as the trap of instruction i
    let faults (k : Kind) (e : Instr × Nat × Word) : Prop :=
      (e.2.2.toNat % e.2.1 ≠ 0 → exec e.1 s = .next (s.trap .misalignedAccess e.2.2)) ∧
      (e.2.2.toNat % e.2.1 = 0 → ∀ c, c ≠ .featureAbsent → (e.1 = .launch d a → c ≠ .poisonedData) →
        s.xlate k e.2.2 = .error c → exec e.1 s = .next (s.trap c e.2.2))
    -- an error that stays in what is read
    let poisoned (k : Kind) (e : Instr × Nat × Word) : Prop :=
      ∀ key, s.Reaches k e.2.2 e.2.1 key → s.poisonedAt key e.2.1 = true → exec e.1 s = .next (s.trap .poisonedData e.2.2)
    (∀ e ∈ reads, faults .load e ∧ poisoned .load e) ∧
    (s.me.csr.escope.toNat < 6 → ∀ e ∈ waits, faults .load e) ∧
    (s.me.csr.escope.toNat < 6 → poisoned .load (.pwait a b, 8, s.g a)) ∧
    (s.drained 4 = some s → poisoned .load (.launch d a, 128, s.g a)) ∧
    (∀ e ∈ stores, faults .store e) ∧
    (s.drained scope.code.toNat = some s → ∀ e ∈ releases, faults .store e) ∧
    (free → ∀ e ∈ amos, faults .both e ∧ poisoned .both e)

/-- R118, R119, R213, R255, R367, R424: what makes a translation fail, and which data an access finds poisoned. A walk's fault is
the access's; a leaf without the permission is a protection fault, and a user-level access to a leaf without U is one as well.
Where the leaf permits the access, a leaf with its tier bit is a tier-miss at user level in CXL memory, and an access fault at any
level outside it; an address that no row of R213 assigns, a lookup stack's control window at user level, and, for a read, a
package that stays unreachable are access faults. Data are poisoned where an error that stays lies in a granule the access
touches, unless a store of the hart's own that is kept back covers that granule. -/
def Claims.TranslationFaults : Prop :=
  (∀ (s : State) (k : Kind) (va : Word),
    let found := s.lookup (coreOf s.cur) s.core.tlb s.me.csr.asid s.me.csr.ptroot va.toNat
    (∀ c, found = .error c → s.xlate k va = .error c) ∧
    ∀ x, found = .ok x →
      let leaf := x.entry.leaf
      let o := gpaOffset x.gpa
      let inCxl := 0x40000000000 ≤ o ∧ o < 0x80000000000
      let inWindow := o < 0x12000000000 ∧ 0xBFF000000 ≤ o % 0x1000000000 ∧ o % 0x1000000000 < 0xC00000000
      let permitted := (k = .load → leaf.getLsbD 2 = true) ∧ (k = .store → leaf.getLsbD 3 = true) ∧
        (k = .both → leaf.getLsbD 2 = true ∧ leaf.getLsbD 3 = true) ∧ (s.me.level = .user → leaf.getLsbD 5 = true)
      (((k = .load ∧ leaf.getLsbD 2 = false) ∨ (k = .store ∧ leaf.getLsbD 3 = false) ∨
        (k = .both ∧ (leaf.getLsbD 2 = false ∨ leaf.getLsbD 3 = false)) ∨
        (k ≠ .probe ∧ s.me.level = .user ∧ leaf.getLsbD 5 = false)) → s.xlate k va = .error .protectionFault) ∧
      (k = .load ∨ k = .store ∨ k = .both → permitted →
        (leaf.getLsbD 6 = true → inCxl → s.me.level = .user → s.xlate k va = .error .tierMiss) ∧
        (leaf.getLsbD 6 = true → ¬ inCxl → s.xlate k va = .error .accessFault) ∧
        (leaf.getLsbD 6 = false → (0x80000000000 ≤ o ∨ (0x12000000000 ≤ o ∧ o < 0x14000000000) ∨ (s.me.level = .user ∧ inWindow)) →
          s.xlate k va = .error .accessFault) ∧
        (leaf.getLsbD 6 = false → k ≠ .store → gpaPackage x.gpa < 2048 → gpaPackage x.gpa ≠ s.pkg.number.toNat →
          s.pkg.unreachable.contains (gpaPackage x.gpa) = true → s.xlate k va = .error .accessFault))) ∧
  ∀ (s : State) (key n : Nat), s.poisonedAt key n = true ↔
    ∃ p ∈ s.poison, p.persist = true ∧ p.hits key n = true ∧ ∀ e ∈ s.me.sb, p.covered e.key e.bytes = false

/-- `Claims.AccessTrapOrder`, `Claims.TranslationFaults` together. -/
def Obligations.ScalarAccessTraps : Prop :=
  Claims.AccessTrapOrder ∧ Claims.TranslationFaults

/-- R220: pref and prefw change no value and raise no fault; cln and cflush change no byte and leave the line in DRAM as it is
at its home; cinv, which is supervisor-only, gives the line back what DRAM holds: the last three where no older instruction
could still discard them and no store is kept back. -/
def Claims.CacheInstructionResults : Prop :=
  ∀ (s : State) (a : BitVec 5) (i : BitVec 12),
    let va := s.g a + i.signExtend 64
    (∀ e ∈ [Instr.pref a i, .prefw a i],
      ∃ t, exec e s = .next t ∧ t = { s with me := t.me, cores := t.cores, poison := t.poison, uncached := t.uncached } ∧
        s.me.Moved t.me ∧ s.SameBytes t) ∧
    (∀ e ∈ [Instr.cln a i, .cflush a i], ∀ key x, s.me.speculative = false → s.me.sb = [] → s.xlate .load va = .ok (key, x) →
      ∃ t, exec e s = .next t ∧ s.me.Moved t.me ∧ s.SameBytes t ∧
        t = { s with me := t.me, cores := t.cores, poison := t.poison, dram := t.dram, cxlDirty := t.cxlDirty, uncached := t.uncached } ∧
        ∀ k, lineOf key ≤ k → k < lineOf key + 64 → t.dramByte k = memGet t.mem k) ∧
    (∀ key x, s.me.level = .supervisor → s.me.speculative = false → s.me.sb = [] → s.xlate .both va = .ok (key, x) →
      Memory.wf s.mem = true →
      ∃ t, exec (.cinv a i) s = .next t ∧ s.me.Moved t.me ∧
        t = { s with me := t.me, cores := t.cores, poison := t.poison, dram := t.dram, cxlDirty := t.cxlDirty,
                     uncached := t.uncached, mem := t.mem } ∧
        (∀ k, lineOf key ≤ k → k < lineOf key + 64 → memGet t.mem k = s.dramByte k) ∧
        ∀ k, k < lineOf key ∨ lineOf key + 64 ≤ k → memGet t.mem k = memGet s.mem k)

/-! ### Control flow (R127, R133, R135 to R140, R144) -/

/-- R144, R145: icinv of a detached hart with nothing vector outstanding and no store kept back moves on with an empty window,
and no word of the line of its address that was overwritten before is fetched in the cluster from then on; other lines and
clusters stay as they were. An address with no translation is a page fault before any effect. -/
def Claims.CodeLineInvalidation : Prop :=
  ∀ (s : State) (a : BitVec 5) (i : BitVec 12), s.me.gang.icinv = none →
    let va := s.g a + i.signExtend 64
    let found := s.lookup (coreOf s.cur) s.core.tlb s.me.csr.asid s.me.csr.ptroot va.toNat
    (∀ c, found = .error c → exec (.icinv a i) s = .next (s.trap c va)) ∧
    (∀ x, found = .ok x → s.me.gang.state = .detached → s.me.vq = [] → s.me.sb = [] →
      let line := (s.keyOf (coreOf s.cur) .supervisor x.gpa).getD x.gpa / 64
      ∃ t, exec (.icinv a i) s = .next t ∧ Hart.Moved { s.me with win := [] } t.me ∧ s.SameBytes t ∧
        t = { s with me := t.me, cores := t.cores, poison := t.poison, clusters := t.clusters } ∧
        (∀ key, key / 64 = line → t.staleWords (clusterOf s.cur) key = []) ∧
        ∀ c key, c ≠ clusterOf s.cur ∨ key / 64 ≠ line → t.staleWords c key = s.staleWords c key)

/-! ### Events of synchronization and memory (R214, R331, R340, R344) -/

/-- R340, R341, R344, R214, R331, R332: a phase whose conditions hold completes and lets a hart that waits for it go on; a resent progress
word wakes its pwait; an eviction leaves DRAM as the line is at its home and changes no byte; an access of another package
reads, writes or combines at its home, and one that no memory answers, or is misaligned, changes nothing. -/
def Claims.MemoryEvents : Prop :=
  ∀ (s : State),
    (∀ l g x, s.groupOf l g = some x → s.me.barWait = none →
      ∃ t y, exec (.barrierPhaseComplete l g) s = .next t ∧ t = { s with launches := t.launches } ∧ t.groupOf l g = some y ∧
        y.SettledFrom x ∧ ∀ i j, (i ≠ l ∨ j ≠ g) → t.groupOf i j = s.groupOf i j) ∧
    (∀ l g x k lvl index, s.groupOf l g = some x → s.me.task = some { launch := l, index } → s.me.barWait = some (g, k, lvl) →
      ∃ t y, exec (.barrierPhaseComplete l g) s = .next t ∧ t.groupOf l g = some y ∧ y.SettledFrom x ∧
        t.me = { s.me with barWait := if y.phase = k then s.me.barWait else none }) ∧
    exec .progressWordResend s = .next (if s.me.wait = .progress then { s with me := { s.me with wait := .none } } else s) ∧
    (∀ key, ∃ t, exec (.l2Eviction key) s = .next t ∧ t = { s with dram := t.dram, cxlDirty := t.cxlDirty, uncached := t.uncached } ∧ s.SameBytes t ∧
      t.dirtyLine (lineOf key) = false ∧ (∀ l ∈ t.cxlDirty, l ∈ s.cxlDirty ∧ l ≠ lineOf key) ∧
      (∀ k, lineOf key ≤ k → k < lineOf key + 64 → t.dramByte k = memGet s.mem k) ∧
      ∀ k, k < lineOf key ∨ lineOf key + 64 ≤ k → t.dramByte k = s.dramByte k) ∧
    ∀ op key n x c, n ∈ [1, 2, 4, 8] → Memory.wf s.mem = true → s.me.sb = [] →
      let here := key < 2 ^ 56 ∧ s.isRemote key = false ∧ s.keyOf 0 .supervisor key = some key ∧ key % n = 0
      let y := x % 2 ^ (8 * n)
      let old := s.read key n
      let stored (v : Nat) : Prop := ∃ t, exec (.remoteAccess op key n x c) s = .next t ∧ s.StoreFrame t ∧ t.me = s.me ∧ s.BytesStored t key n v
      (¬ here → exec (.remoteAccess op key n x c) s = .next s) ∧
      (here → s.PlainAt key n →
        (op = 0 → ∃ t, exec (.remoteAccess op key n x c) s = .next t ∧ t = { s with cores := t.cores, poison := t.poison } ∧ s.SameBytes t) ∧
        (op = 1 → stored y) ∧
        (s.poisonedAt key n = true → 2 ≤ op → exec (.remoteAccess op key n x c) s = .next s) ∧
        (s.poisonedAt key n = false →
          (op = 2 → stored (old + y)) ∧ (op = 3 → stored y) ∧ (op = 4 → stored (old &&& y)) ∧ (op = 5 → stored (old ||| y)) ∧
          (op = 6 → stored (old ^^^ y)) ∧
          (op = 7 → stored (if (BitVec.ofNat (8 * n) y).toInt < (BitVec.ofNat (8 * n) old).toInt then y else old)) ∧
          (op = 8 → stored (if (BitVec.ofNat (8 * n) old).toInt < (BitVec.ofNat (8 * n) y).toInt then y else old)) ∧
          (op = 9 → stored (min old y)) ∧ (op = 10 → stored (max old y)) ∧
          (op = 11 → old = c % 2 ^ (8 * n) → stored y) ∧
          (op = 12 → n = 4 → stored (addNum .f32 .rne (Fmt.f32.decode old) (Fmt.f32.decode y)).bits)))

/-- `Claims.CacheInstructionResults`, `Claims.CodeLineInvalidation`, `Claims.MemoryEvents` together. -/
def Obligations.CacheAndCodeResults : Prop :=
  Claims.CacheInstructionResults ∧ Claims.CodeLineInvalidation ∧ Claims.MemoryEvents

/-! ### Scalar memory instructions (R117 to R120, R214, R219, R220, R332) -/

/-- R332: each scalar atomic that meets no exception reads the old value, stores the new one at the same place, writes the old
one to gd, sign-extended for 32 bits, boxed for f32, and leaves every other byte and register. The new value is the
old one combined with gs2; amocas stores gs2 where memory holds gd's value and otherwise leaves memory. -/
def Obligations.AtomicResults : Prop :=
  ∀ (s : State) (d a b : BitVec 5) (o : BitVec 2) (key : Nat),
    Memory.wf s.mem = true → s.me.sb = [] → s.me.speculative = false → (o ≠ 0 → s.me.csr.escope.toNat < 6) →
    (o.getLsbD 1 = true → s.drained s.me.csr.escope.toNat = some s) →
    let x4 := (s.g b).toNat % 2 ^ 32
    let x8 := (s.g b).toNat
    let m4 := s.readMe key 4
    let m8 := s.readMe key 8
    let int4 (x : Nat) : Int := (BitVec.ofNat 32 x).toInt
    let int8 (x : Nat) : Int := (BitVec.ofNat 64 x).toInt
    let done (i : Instr) (n : Nat) (old : Word) (new : Option Nat) : Prop :=
      ∃ t, exec i s = .next t ∧ s.StoreFrame t ∧ s.GWritten t d old ∧
        Hart.Moved { s.me with ug := t.me.ug, sg := t.me.sg } t.me ∧
        match new with
        | some y => s.BytesStored t key n y
        | none => s.SameBytes t
    (s.Readable .both (s.g a) 4 key → s.PlainAt key 4 →
      let old := BitVec.ofInt 64 (int4 m4)
      done (.amoaddw d a b o) 4 old (some (m4 + x4)) ∧ done (.amoswapw d a b o) 4 old (some x4) ∧
      done (.amoandw d a b o) 4 old (some (m4 &&& x4)) ∧ done (.amoorw d a b o) 4 old (some (m4 ||| x4)) ∧
      done (.amoxorw d a b o) 4 old (some (m4 ^^^ x4)) ∧
      done (.amominw d a b o) 4 old (some (if int4 x4 < int4 m4 then x4 else m4)) ∧
      done (.amomaxw d a b o) 4 old (some (if int4 m4 < int4 x4 then x4 else m4)) ∧
      done (.amominnw d a b o) 4 old (some (min m4 x4)) ∧ done (.amomaxnw d a b o) 4 old (some (max m4 x4)) ∧
      done (.amocasw d a b o) 4 old (if m4 = (s.g d).toNat % 2 ^ 32 then some x4 else none) ∧
      done (.amofadd d a b o) 4 (fbox .f32 m4) (some (addNum .f32 .rne (Fmt.f32.decode m4) (Fmt.f32.decode x4)).bits)) ∧
    (s.Readable .both (s.g a) 8 key → s.PlainAt key 8 →
      let old := BitVec.ofNat 64 m8
      done (.amoaddd d a b o) 8 old (some (m8 + x8)) ∧ done (.amoswapd d a b o) 8 old (some x8) ∧
      done (.amoandd d a b o) 8 old (some (m8 &&& x8)) ∧ done (.amoord d a b o) 8 old (some (m8 ||| x8)) ∧
      done (.amoxord d a b o) 8 old (some (m8 ^^^ x8)) ∧
      done (.amomind d a b o) 8 old (some (if int8 x8 < int8 m8 then x8 else m8)) ∧
      done (.amomaxd d a b o) 8 old (some (if int8 m8 < int8 x8 then x8 else m8)) ∧
      done (.amominnd d a b o) 8 old (some (min m8 x8)) ∧ done (.amomaxnd d a b o) 8 old (some (max m8 x8)) ∧
      done (.amocasd d a b o) 8 old (if m8 = (s.g d).toNat then some x8 else none))

/-! ### Control flow (R127, R133, R135 to R140, R144) -/

/-- R133: a jump or branch of a hart that is not attached completes on every operand: the PC goes to the target, a jump writes
the return address, gs1 is read first, what its window holds of another path is discarded, and nothing else differs, no flag
and no byte of memory. -/
def Obligations.JumpAndBranchResults : Prop :=
  ∀ (s : State) (d a b : BitVec 5) (i : BitVec 12) (u : BitVec 20), s.me.gang.state ≠ .attached →
    let pc := s.me.pc
    let goes (i : Instr) (target : Word) : Prop :=
      exec i s = .next { s with me := { s.me with pc := target, wait := .none, restart := none, win := s.me.winAfter target } }
    let jumps (i : Instr) (target : Word) : Prop :=
      ∃ t, exec i s = .next t ∧ s.OnlyMe t ∧ s.GWritten t d (pc + 4) ∧ s.SameBytes t ∧
        t.me = { s.me with ug := t.me.ug, sg := t.me.sg, pc := target, wait := .none, restart := none, win := s.me.winAfter target }
    let taken (c : Bool) : Word := if c then BitVec.ofInt 64 (pc.toInt + i.toInt * 4) else pc + 4
    let x := s.g a
    let y := s.g b
    jumps (.jal d u) (BitVec.ofInt 64 (pc.toInt + u.toInt * 4)) ∧
    jumps (.jalr d a i) (BitVec.ofInt 64 (x.toInt + i.toInt) &&& ~~~3#64) ∧
    goes (.beq a b i) (taken (x = y)) ∧ goes (.bne a b i) (taken (x ≠ y)) ∧
    goes (.blt a b i) (taken (x.toInt < y.toInt)) ∧ goes (.bge a b i) (taken (y.toInt ≤ x.toInt)) ∧
    goes (.bltn a b i) (taken (x.toNat < y.toNat)) ∧ goes (.bgen a b i) (taken (y.toNat ≤ x.toNat))

/-- R127, R133: an attached hart's jumps and branches complete on every operand, with the same targets and return address.
The head stays attached. Where its successor is not the path's, the path of every member behind it goes on at its successor, and
a member that has issued the instruction before it leaves the attached set. Any other member leaves it where its own successor
is not the path's, with cause 1, or 2 at a jalr, and stays attached where it is; it waits at a jalr whose successor the head has
still to give. That a branch whose two successors coincide detaches nobody, and that
a new head resolves anew what the old head had resolved, is log entry 87 (DESIGN CHOICE). -/
def Claims.GangBranchDirection : Prop :=
  ∀ (s : State) (d a b : BitVec 5) (i : BitVec 12) (u : BitVec 20) (head : Nat),
    s.me.gang.state = .attached → s.gangHead s.cur = some head →
    let pc := s.me.pc
    let x := s.g a
    let y := s.g b
    let taken (c : Bool) : Word := if c then BitVec.ofInt 64 (pc.toInt + i.toInt * 4) else pc + 4
    let goes (i : Instr) (target : Word) (after : State → Prop) : Prop :=
      ∃ t, exec i s = .next t ∧ t = { s with me := t.me, others := t.others } ∧ s.SameBytes t ∧ after t ∧
        t.me = { s.me with pc := target, wait := .none, restart := none, win := s.me.winAfter target, gang := t.me.gang }
    let jumps (i : Instr) (target : Word) (after : State → Prop) : Prop :=
      ∃ t, exec i s = .next t ∧ t = { s with me := t.me, others := t.others } ∧ s.SameBytes t ∧ after t ∧
        s.GWritten t d (pc + 4) ∧
        t.me = { s.me with ug := t.me.ug, sg := t.me.sg, pc := target, wait := .none, restart := none,
                           win := s.me.winAfter target, gang := t.me.gang }
    let each (after : BitVec 4 → Word → State → Prop) : Prop :=
      let g (i : Instr) (target : Word) : Prop := goes i target (after 1 target)
      let jl := BitVec.ofInt 64 (pc.toInt + u.toInt * 4)
      let jr := BitVec.ofInt 64 (x.toInt + i.toInt) &&& ~~~3#64
      g (.beq a b i) (taken (x = y)) ∧ g (.bne a b i) (taken (x ≠ y)) ∧
      g (.blt a b i) (taken (x.toInt < y.toInt)) ∧ g (.bge a b i) (taken (y.toInt ≤ x.toInt)) ∧
      g (.bltn a b i) (taken (x.toNat < y.toNat)) ∧ g (.bgen a b i) (taken (y.toNat ≤ x.toNat)) ∧
      jumps (.jal d u) jl (after 1 jl) ∧ jumps (.jalr d a i) jr (after 2 jr)
    let rest := (s.me.issueWords 1).length
    let leads (cause : BitVec 4) (target : Word) (t : State) : Prop :=
      t.me.gang = s.me.gang ∧
      ∀ n, n ≠ s.cur →
        let h := s.hart n
        if n ∈ s.attachedSet s.cur ∧ s.me.direction ≠ some target then
          if rest < h.win.length then t.hart n = { h with win := redirect h.win rest target }
          else (t.hart n).gang.state = .detached ∧ (t.hart n).gang.cause = cause ∧ (t.hart n).pc = h.pc
        else t.hart n = h
    let follows (dir : Word) (cause : BitVec 4) (target : Word) (t : State) : Prop :=
      t.others = s.others ∧ (target = dir → t.me.gang = s.me.gang) ∧
      (target ≠ dir → t.me.gang.state = .detached ∧ t.me.gang.cause = cause)
    (head = s.cur → each leads) ∧
    (head ≠ s.cur → ∀ dir, s.me.direction = some dir → each (follows dir)) ∧
    (head ≠ s.cur → s.me.direction = none → exec (.jalr d a i) s = .next (s.stall .delivery))

/-- R135, R136, R130, R131: detach removes an attached hart with cause 3 and does nothing to a detached one. An attached head's JOIN
attaches every hart that waits at the same ASID, tag and PC, and its join.t writes 1 and starts the hold where a hart of the gang is
detached and not waiting; an attached member's JOIN only moves on, and its join.t writes 1. A JOIN by a detached hart whose gang has
no attached member makes it the head; one at which the gang is held attaches; so does one that goes before the harts of higher cores
which made the attached set in this clock. Any other waits at it with an empty window, but that a join.t whose limit is 0 goes on
with 0 and cause 7 (log entry 73, DESIGN CHOICE, for the cause); a waiting JOIN waits on. -/
def Claims.GangInstructionResults : Prop :=
  ∀ (s : State) (d a : BitVec 5) (tag : BitVec 12),
    let empty (h : Hart) : Hart := { h with win := [] }
    let limit := (s.cycle (coreOf s.cur)).toNat + (s.g a).toNat
    let here (h : Hart) : Prop := h.csr.asid = s.me.csr.asid ∧ h.gang.joinTag = tag ∧ h.pc = s.me.pc
    -- what an attached head's JOIN does to the other harts
    let reached (t : State) : Prop :=
      t = { s with me := t.me, others := t.others } ∧ s.SameBytes t ∧
      (∀ x ∈ s.waitingSet s.cur, here (s.hart x) →
        (t.hart x).gang.state = .attached ∧ (t.hart x).pc = s.me.pc + 4 ∧ (t.hart x).win = [] ∧
        ∀ e y, (s.hart x).gang.joinT = some (e, y) → e ≠ 0 → (t.hart x).g e = 1) ∧
      ∀ x, x ≠ s.cur → ¬ (x ∈ s.waitingSet s.cur ∧ here (s.hart x)) → t.hart x = s.hart x
    let stray := ∃ x ∈ gangHarts s.cur, x ≠ s.cur ∧ (s.hart x).task ≠ none ∧ (s.hart x).gang.state = .detached
    (s.me.gang.state = .detached → Changes .detach s id) ∧
    (s.me.gang.state = .attached →
      ∃ t, exec .detach s = .next t ∧ t.me.gang.state = .detached ∧ t.me.gang.cause = 3 ∧
        (s.me.loopLive = false → t.me.pc = s.me.pc + 4) ∧ ∀ r, t.g r = s.g r) ∧
    (s.me.gang.state = .attached → s.gangHead s.cur = some s.cur →
      (∃ t, exec (.join tag) s = .next t ∧ reached t ∧ s.me.Moved t.me) ∧
      ∃ t, exec (.joinT d a tag) s = .next t ∧ reached t ∧ s.GWritten t d 1 ∧
        Hart.Moved { s.me with ug := t.me.ug, sg := t.me.sg, gang := t.me.gang } t.me ∧ t.me.gang.state = .attached ∧
        (stray → t.me.gang.hold = some limit ∧ t.me.gang.holdPc = s.me.pc ∧ t.me.gang.joinTag = tag) ∧
        (¬ stray → t.me.gang = s.me.gang)) ∧
    (s.me.gang.state = .attached → s.gangHead s.cur ≠ some s.cur →
      Changes (.join tag) s id ∧ Gives (.joinT d a tag) s d 1 0) ∧
    (s.me.gang.state = .detached → s.attachedSet s.cur = [] →
      let head (g : Gang) (x : Option (BitVec 5 × Word × Nat)) : Gang :=
        { g with state := .attached, joinTag := tag, holdPc := s.me.pc, formed := some (s.clock, x) }
      Changes (.join tag) s (fun h => { empty h with gang := head h.gang none }) ∧
      ∃ t, exec (.joinT d a tag) s = .next t ∧ s.OnlyMe t ∧ s.GWritten t d 1 ∧ s.SameBytes t ∧
        Hart.Moved { empty s.me with ug := t.me.ug, sg := t.me.sg, gang := head s.me.gang (some (d, s.g d, limit)) } t.me) ∧
    (s.me.gang.state = .detached → s.attachedSet s.cur ≠ [] → s.heldHere tag = true ∨ s.goesBefore = true →
      (∃ t, exec (.join tag) s = .next t ∧ t.me.gang.state = .attached ∧ t.me.win = [] ∧ ∀ r, t.g r = s.g r) ∧
      ∃ t, exec (.joinT d a tag) s = .next t ∧ t.me.gang.state = .attached ∧ t.me.win = [] ∧ s.GWritten t d 1) ∧
    (s.me.gang.state = .detached → s.attachedSet s.cur ≠ [] → s.heldHere tag = false → s.goesBefore = false →
      let waiting (t : State) (timed : Option (BitVec 5 × Nat)) : Prop :=
        s.OnlyMe t ∧
        t.me = { empty s.me with
          wait := .join, gang := { s.me.gang with state := .waiting, joinTag := tag, joinSince := s.clock, joinT := timed } }
      (∃ t, exec (.join tag) s = .next t ∧ waiting t none) ∧
      ((s.g a).toNat ≠ 0 → ∃ t, exec (.joinT d a tag) s = .next t ∧ waiting t (some (d, limit))) ∧
      ((s.g a).toNat = 0 → ∃ t, exec (.joinT d a tag) s = .next t ∧ s.OnlyMe t ∧ s.GWritten t d 0 ∧ s.SameBytes t ∧
        Hart.Moved { s.me with ug := t.me.ug, sg := t.me.sg, gang := { s.me.gang with cause := 7 } } t.me)) ∧
    (s.me.gang.state = .waiting → exec (.join tag) s = .next (s.stall .join) ∧ exec (.joinT d a tag) s = .next (s.stall .join))

/-! ### Events of the cluster front end (R126, R130, R136, R144, R145) -/

/-- R130, R136, R126, R144, R145: the events of a gang, each where its condition holds. A waiting join.t past its limit detaches
with cause 7, writes 0 and, with STEP, has a halt to take (R376); the head's hold ends at its limit; the members whose full windows stop delivery are shed together, with
cause 5, and no other; an icinv that every member has issued performs for them all: no word of their lines overwritten before is
fetched in the cluster from then on. A line that leaves a cluster's caches of itself changes nothing that a fetch may return. -/
def Claims.GangEvents : Prop :=
  ∀ (s : State),
    let now := (s.cycle (coreOf s.cur)).toNat
    let members := s.attachedSet s.cur
    (∀ d limit, s.me.gang.state = .waiting → s.me.gang.joinT = some (d, limit) →
      (now < limit → exec .joinTTimeout s = .next s) ∧
      (limit ≤ now → ∃ t, exec .joinTTimeout s = .next t ∧ s.OnlyMe t ∧ s.GWritten t d 0 ∧ s.SameBytes t ∧
        Hart.Moved { s.me with ug := t.me.ug, sg := t.me.sg, haltReq := s.me.haltReq || s.me.csr.step,
                               gang := { s.me.gang with state := .detached, cause := 7, joinT := none } } t.me)) ∧
    (∀ limit, s.me.gang.hold = some limit → limit ≤ now →
      exec .holdEnd s = .next { s with me := { s.me with gang := { s.me.gang with hold := none } } }) ∧
    (∃ t, exec .shed s = .next t ∧ t = { s with me := t.me, others := t.others } ∧ s.SameBytes t ∧
      (∀ x ∈ members, (s.hart x).room = false → (t.hart x) = { s.hart x with gang := (t.hart x).gang } ∧
        (t.hart x).gang.state = .detached ∧ (t.hart x).gang.cause = 5) ∧
      ((∃ x ∈ members, (s.hart x).room = true) → ∀ x, (x ∈ members → (s.hart x).room = true) → t.hart x = s.hart x) ∧
      ((∀ x ∈ members, (s.hart x).room = true) → t = s)) ∧
    (s.me.gang.state = .attached → (∀ x ∈ members, (s.hart x).gang.icinv ≠ none) →
      ∃ t, exec .icinvPerform s = .next t ∧ t = { s with me := t.me, others := t.others, clusters := t.clusters } ∧ s.SameBytes t ∧
        (∀ x ∈ members, Hart.Moved
          { s.hart x with gang := { (s.hart x).gang with icinv := none }, win := [], haltReq := (t.hart x).haltReq } (t.hart x)) ∧
        (∀ x, x ∉ members → t.hart x = s.hart x) ∧
        ∀ x ∈ members, ∀ line, (s.hart x).gang.icinv = some line → ∀ key, key / 64 = line →
          t.staleWords (clusterOf s.cur) key = []) ∧
    ∀ c line, exec (.instructionLineEviction c line) s = .next s

/-- `Claims.GangBranchDirection`, `Claims.GangInstructionResults`, `Claims.GangEvents` together. -/
def Obligations.GangResults : Prop :=
  Claims.GangBranchDirection ∧ Claims.GangInstructionResults ∧ Claims.GangEvents

/-! ### Control flow (R127, R133, R135 to R140, R144) -/

/-- R137, R138, R167: where every body word is there and legal, LOOPN passes over its body if some bound is 0, and otherwise
begins at the first body word with the loop active and its indices 0, with the words and the bounds that it goes on with to its
end. The loop's CSRs aside no register changes. -/
def Claims.LoopBegins : Prop :=
  ∀ (s t : State) (words : List (BitVec 32)) (depth : BitVec 3) (len : BitVec 5),
    let first := Hart.advance { s.me with loopLive := false } 1
    s.checkBody first len.toNat = .ok (t, words) →
    let win := (first.behind s t).win
    let bounds := (List.range depth.toNat).map fun n => nestBound (s.me.nestAt n)
    t = { s with me := { s.me with win := t.me.win }, others := t.others, cores := t.cores, clusters := t.clusters, poison := t.poison } ∧
    words.length = len.toNat ∧ (∀ w ∈ words, illegalBody w = false) ∧
    (0 ∈ bounds →
      exec (.loopn depth len) s = .next { t with
        me := { s.me with pc := s.me.pc + 4 + BitVec.ofNat 64 (4 * len.toNat), wait := .none, restart := none,
                          win := win.drop len.toNat } }) ∧
    (0 ∉ bounds →
      ∃ u, exec (.loopn depth len) s = .next u ∧ u = { t with me := u.me } ∧
        u.me = { s.me with
          pc := s.me.pc + 4, wait := .none, restart := none, win, loopLive := true, bounds
          loopBuf := (List.range len.toNat).zip words
          csr := { s.me.csr with loop := { active := true, depth, len, word := 0 }, lbase := s.me.pc + 4, lix := u.me.csr.lix } } ∧
        ∀ n, n < 6 → u.me.csr.lix.toList.getD n 0 = if n < depth.toNat then 0 else s.me.csr.lix.toList.getD n 0)

/-- R137: moving on in a live loop, as every instruction of one word that completes does (`Hart.Moved`). Inside the body the next word follows; after the last word the innermost index that has not
reached its bound advances, those below it return to 0 and the body begins again; when all have, the loop ends behind the
body. -/
def Claims.LoopAdvances : Prop :=
  ∀ (h : Hart), h.loopLive = true → h.csr.loop.active = true →
    let l := h.csr.loop
    let ix (g : Hart) (n : Nat) : Nat := (g.csr.lix.toList.getD n 0).toNat
    let bound (n : Nat) : Nat := h.bound n
    l.depth.toNat ≤ 6 →
    (l.word.toNat + 1 < l.len.toNat →
      (h.advance 1).pc = h.pc + 4 ∧ (h.advance 1).csr.loop = { l with word := l.word + 1 } ∧
      (h.advance 1).csr.lix = h.csr.lix) ∧
    (l.len.toNat ≤ l.word.toNat + 1 →
      (∀ n, n < l.depth.toNat → ix h n + 1 ≠ bound n → (∀ m, m < n → ix h m + 1 = bound m) →
        (h.advance 1).pc = h.csr.lbase ∧ (h.advance 1).csr.loop = { l with word := 0 } ∧
        ∀ m, m < 6 → ix (h.advance 1) m =
          if m < n then 0 else if m = n then (ix h n + 1) % 2 ^ 32 else ix h m) ∧
      ((∀ n, n < l.depth.toNat → ix h n + 1 = bound n) →
        (h.advance 1).pc = h.csr.lbase + BitVec.ofNat 64 (4 * l.len.toNat) ∧ (h.advance 1).csr.loop.active = false ∧
        (h.advance 1).loopLive = false ∧
        ∀ m, m < 6 → ix (h.advance 1) m = if m < l.depth.toNat then 0 else ix h m))

/-- R138: the body words are looked at in rising address, and the first problem decides, at whichever word it stands. A control
transfer, SYS or PRIV word or a nestld gives the illegal-loop-body trap at the LOOPN, and a word that cannot be fetched its fetch
fault (whose cause is never illegal-loop-body) at its own PC. A body word that the gang's front end has not delivered is waited
for. -/
def Claims.LoopBodyTraps : Prop :=
  ∀ (s t : State) (depth : BitVec 3) (len : BitVec 5) (k : Nat) (h : Hart), k < len.toNat →
    s.bodyAt (Hart.advance { s.me with loopLive := false } 1) k = some (t, h) →
    h.pc = s.me.pc + 4 + BitVec.ofNat 64 (4 * k) ∧
    (∀ u w, t.present h = .ok (u, w) → illegalBody w = true →
      exec (.loopn depth len) s = .next (s.trap .illegalLoopBody (fieldsVal (fieldsOf (.loopn depth len))))) ∧
    (∀ c, c ≠ .illegalLoopBody → t.present h = .error (some c) → exec (.loopn depth len) s = .next (s.trapFetch c h.pc)) ∧
    (t.present h = .error none → exec (.loopn depth len) s = .next (s.stall .delivery))

/-- `Claims.LoopBegins`, `Claims.LoopAdvances`, `Claims.LoopBodyTraps` together. -/
def Obligations.LoopResults : Prop :=
  Claims.LoopBegins ∧ Claims.LoopAdvances ∧ Claims.LoopBodyTraps

/-! ### Mask functions and vector configuration (R141 to R143, R152 to R166) -/

/-- R142: where no older instruction is queued, each mask function completes on every operand, writes its value to md and
leaves all else; behind older vector instructions it enters their queue with its registers, and nothing else differs. -/
def Obligations.MaskFunctionResults : Prop :=
  ∀ (s : State) (d a b : BitVec 4),
    let x := s.me.mask a
    let y := s.me.mask b
    let puts (i : Instr) (v : BitVec 2048) : Prop := Changes i s fun h => { h with m := fileSet (w := 4) d h.m v }
    let queues (i : Instr) (w : VWork) : Prop :=
      ∃ t, exec i s = .next t ∧ s.QueueFrame t ∧ s.SameBytes t ∧
        Hart.Moved { s.me with vq := s.me.vq ++ [{ id := s.seq, pc := s.me.pc, ctx := s.me.vctx, work := w }] } t.me
    (s.me.vectorFree = true →
      puts (.mand d a b) (x &&& y) ∧ puts (.mor d a b) (x ||| y) ∧ puts (.mxor d a b) (x ^^^ y) ∧
      puts (.mandn d a b) (x &&& ~~~y) ∧ puts (.morn d a b) (x ||| ~~~y) ∧ puts (.mxnor d a b) (~~~(x ^^^ y)) ∧
      puts (.mnot d a) (~~~x) ∧ puts (.mmov d a) x ∧ puts (.mset d) (BitVec.allOnes 2048) ∧ puts (.mclr d) 0 ∧
      ∀ f, FirstBit x s.me.vl f →
        (∀ v : BitVec 2048, (∀ i, i < 2048 → v.getLsbD i = decide (i < f)) → puts (.msbf d a) v) ∧
        (∀ v : BitVec 2048, (∀ i, i < 2048 → v.getLsbD i = decide (i ≤ f ∧ i < s.me.vl)) → puts (.msif d a) v) ∧
        (∀ v : BitVec 2048, (∀ i, i < 2048 → v.getLsbD i = decide (i = f ∧ f < s.me.vl)) → puts (.msof d a) v)) ∧
    (s.me.vectorFree = false → s.me.vqFull = false →
      ∀ e ∈ [(Instr.mand d a b, 0, b), (.mor d a b, 1, b), (.mxor d a b, 2, b), (.mandn d a b, 3, b), (.morn d a b, 4, b),
             (.mxnor d a b, 5, b), (.mnot d a, 6, 0), (.mmov d a, 7, 0), (.msbf d a, 10, 0), (.msif d a, 11, 0), (.msof d a, 12, 0)],
        queues e.1 (.mask e.2.1 d a e.2.2)) ∧
    (s.me.vectorFree = false → s.me.vqFull = false →
      queues (.mset d) (.mask 8 d 0 0) ∧ queues (.mclr d) (.mask 9 d 0 0))

/-- R143: mcnt, many and mfirst wait for the hart's vector instructions, and then write the count, the presence and the
index of the 1 bits below vl to gd, and leave all else. -/
def Obligations.MaskReads : Prop :=
  ∀ (s : State) (d : BitVec 5) (a : BitVec 4),
    let x := s.me.mask a
    (s.me.vq = [] →
      Gives (.mcnt d a) s d (BitVec.ofNat 64 ((List.range s.me.vl).filter fun i => x.getLsbD i).length) 0 ∧
      ∀ f, FirstBit x s.me.vl f →
        Gives (.many d a) s d (if f < s.me.vl then 1 else 0) 0 ∧
        Gives (.mfirst d a) s d (if f < s.me.vl then BitVec.ofNat 64 f else BitVec.allOnes 64) 0) ∧
    (s.me.vq ≠ [] → ∀ i ∈ [Instr.mcnt d a, .many d a, .mfirst d a], exec i s = .next (s.stall .drain)) ∧
    decode 0x03404298 = .ok (.mcnt 5 4)

/-- R153, R154: the partition after lpreq and lprel, quad by quad. lpreq keeps leaving quads, lowest first, and then takes
free quads, lowest first: as many as it needs, or all of them if that reaches the minimum; gd receives the count. lprel
frees granted quads, highest first, and then turns owned quads to leaving, highest first. -/
def Claims.LaneRequestResults : Prop :=
  ∀ (s : State) (d a : BitVec 5),
    let x := (s.g a).toNat
    let free := s.freeQuads (coreOf s.cur) none
    let q := s.me.csr.quad
    let count (p : Nat → Bool) : Nat := ((List.range 4).filter p).length
    let kept := count fun n => q n = .owned ∨ q n = .granted
    (let target := min (x % 8) 4
     let least := min (max (x / 256 % 8) 1) target
     let stays (n : Nat) : Bool := q n = .leaving ∧ kept + count (fun m => m < n ∧ q m = .leaving) < target
     let h := kept + count stays
     let taken := if target - h ≤ free.length then target - h else if least ≤ h + free.length then free.length else 0
     ∃ t, exec (.lpreq d a) s = .next t ∧ s.OnlyMe t ∧ s.GWritten t d (BitVec.ofNat 64 (h + taken)) ∧ s.SameBytes t ∧
       Hart.Moved { s.me with ug := t.me.ug, sg := t.me.sg, csr := { s.me.csr with quads := t.me.csr.quads } } t.me ∧
       ∀ n, n < 4 → t.me.csr.quad n =
         if stays n = true then .owned else if n ∈ free.take taken then .granted else q n) ∧
    (let give := kept - min (x % 8) 4
     let granted := count fun n => q n = .granted
     ∃ t, exec (.lprel a) s = .next t ∧ s.OnlyMe t ∧ s.SameBytes t ∧
       Hart.Moved { s.me with csr := { s.me.csr with quads := t.me.csr.quads } } t.me ∧
       ∀ n, n < 4 → t.me.csr.quad n =
         if q n = .granted ∧ count (fun m => n < m ∧ q m = .granted) < give then .free
         else if q n = .owned ∧ granted + count (fun m => n < m ∧ q m = .owned) < give then .leaving
         else q n) ∧
    decode 0x000893A0 = .ok (.lpreq 7 9) ∧ decode 0x000A9020 = .ok (.lprel 9)

/-- R166: nestld loads the sixteen bytes at gs1 into a nest register and nestst stores them, each where its access meets no
exception, and a misaligned address traps. -/
def Claims.NestRegisterResults : Prop :=
  ∀ (s : State) (n : BitVec 3) (a : BitVec 5) (key : Nat),
    (s.Readable .load (s.g a) 16 key →
      ∃ t, exec (.nestld n a) s = .next t ∧ t = { s with me := t.me, cores := t.cores, poison := t.poison, uncached := t.uncached } ∧
        Hart.Moved { s.me with nest := t.me.nest } t.me ∧ s.SameBytes t ∧
        ∀ k, k < 6 → t.me.nestAt k = if k = n.toNat then BitVec.ofNat 128 (s.readMe key 16) else s.me.nestAt k) ∧
    (Memory.wf s.mem = true → s.me.StoresInOrder → s.Reaches .store (s.g a) 16 key → s.PlainAt key 16 →
      ∃ t, exec (.nestst n a) s = .next t ∧ s.Stored t key 16 (s.me.nestAt n.toNat).toNat) ∧
    ((s.g a).toNat % 16 ≠ 0 → exec (.nestld n a) s = .next (s.trap .misalignedAccess (s.g a)) ∧
      exec (.nestst n a) s = .next (s.trap .misalignedAccess (s.g a)))

/-- `Claims.LaneRequestResults`, `Claims.NestRegisterResults` together. -/
def Obligations.LaneAndNestResults : Prop :=
  Claims.LaneRequestResults ∧ Claims.NestRegisterResults

/-- R159, R158: vtag tags every register of its span and clears it in the hart's lanes; vretag tags it and changes no bit;
vgettag reads a tag. Format 15 and a register that the larger group does not divide trap. That a register whose present tag is format
15 is read and retagged without a trap is the model's choice (log entry 89, DESIGN CHOICE). -/
def Obligations.TagResults : Prop :=
  ∀ (s : State) (d v : BitVec 5) (fmt : BitVec 4) (grp : BitVec 2),
    let n := max (s.me.tagOf d).group (2 ^ grp.toNat)
    let inside (r : BitVec 5) : Prop := d.toNat ≤ r.toNat ∧ r.toNat < d.toNat + n
    let tagged (t : State) : Prop := s.OnlyMe t ∧ s.SameBytes t ∧
      ∀ r, (inside r → t.me.tagOf r = { fmt, grp }) ∧ (¬ inside r → t.me.tagOf r = s.me.tagOf r)
    let tv := exec (.vtag d fmt grp) s
    let tr := exec (.vretag d fmt grp) s
    (fmt ≠ 15 → d.toNat % n = 0 →
      (∃ t, tr = .next t ∧ tagged t ∧ Hart.Moved { s.me with tag := t.me.tag } t.me) ∧
      (s.me.vqFull = false → s.me.vectorFree = true →
        ∃ t, tv = .next t ∧ tagged t ∧ Hart.Moved { s.me with tag := t.me.tag, v := t.me.v } t.me ∧
          ∀ r k, k < 16384 → (fileGet (w := 5) r t.me.v).getLsbD k =
            if d.toNat ≤ r.toNat ∧ r.toNat < d.toNat + n ∧ k < 256 * s.me.lanes then false
            else (fileGet (w := 5) r s.me.v).getLsbD k)) ∧
    (fmt = 15 → tv = .next (s.trap .illegalTag (fieldsVal (fieldsOf (.vtag d fmt grp)))) ∧
                tr = .next (s.trap .illegalTag (fieldsVal (fieldsOf (.vretag d fmt grp))))) ∧
    (fmt ≠ 15 → d.toNat % n ≠ 0 → tv = .next (s.trap .misalignedGroup (fieldsVal (fieldsOf (.vtag d fmt grp)))) ∧
                tr = .next (s.trap .misalignedGroup (fieldsVal (fieldsOf (.vretag d fmt grp))))) ∧
    Gives (.vgettag d v) s d (BitVec.ofNat 64 ((s.me.tagOf v).grp.toNat * 16 + (s.me.tagOf v).fmt.toNat)) 0

/-- R163, R162: what setvl grants: granted quads become owned and leaving ones free, and gd and vl receive the smallest of the
request and the length that the quads, the format and the ceiling allow. Where nothing older is queued and the
partition changed, the registers are zero in the new lanes. -/
def Obligations.LengthGrant : Prop :=
  ∀ (s : State) (d a : BitVec 5) (fmt : BitVec 4) (f : Fmt) (grp : BitVec 2),
    Fmt.ofCode fmt = some f → s.me.proposed = false → s.me.vqFull = false →
    let strip := s.me.csr.vstrip.toNat + 1
    let changed := s.me.changed || (List.range 4).any fun n => s.me.csr.quad n = .granted ∨ s.me.csr.quad n = .leaving
    let lanes := 16 * ((List.range 4).filter fun n => s.me.csr.quad n = .owned ∨ s.me.csr.quad n = .granted).length
    let c := min (min s.pwr s.core.life.ceiling) (s.me.throttle strip).toNat
    let n := min (s.g a).toNat (min (lanes * 256 / f.width * 2 ^ grp.toNat) 2048 * (c + 1) / 16)
    ∃ t, exec (.setvl d a fmt grp) s = .next t ∧ s.GWritten t d (BitVec.ofNat 64 n) ∧
      (s.me.sb = [] → s.SameBytes t ∧ t = { s with me := t.me, snaps := t.snaps, seq := t.seq }) ∧
      Hart.Moved { s.me with
        ug := t.me.ug, sg := t.me.sg, vq := t.me.vq, v := t.me.v, sb := t.me.sb, changed := false
        csr := { s.me.csr with quads := t.me.csr.quads, vl := BitVec.ofNat 12 n, vlFmt := fmt, vlGrp := grp, grantEff := BitVec.ofNat 4 c,
                               grantThr := s.me.throttle strip, grantLife := BitVec.ofNat 4 s.core.life.ceiling,
                               vstrip := BitVec.ofNat 32 strip, lchg := s.me.csr.lchg || changed } } t.me ∧
      (∀ n, n < 4 → t.me.csr.quad n = match s.me.csr.quad n with
        | .granted => .owned
        | .leaving => .free
        | x => x) ∧
      (s.me.vectorFree = true → s.me.sb = [] → s.agenda = [] → ∀ r k, k < 16384 → (fileGet (w := 5) r t.me.v).getLsbD k =
        if changed = true ∧ k < 256 * lanes then false else (fileGet (w := 5) r s.me.v).getLsbD k)

/-! ### Vector instructions (R43, R100, R168, R179 to R210, R221 to R235, R315, R333, R334) -/

/-- R100, R43: issue of every V-form instruction, those of majors 0x30 to 0x41 and 0x48 to 0x4C. Where no check traps, no
register is outstanding and the dispatch queue has a place, it enters the queue with its length, tags and scalar
operands, and the scalar stream moves on; with a full queue it waits; a failed check is a precise trap with the word. -/
def Claims.VectorIssue : Prop :=
  ∀ (s : State) (i : Instr) (o : VOp), i.wf = true → vopOf (fieldsOf i) = some o → o.cv = false →
    let check := s.memberCheck s.me.vctx { op := o, word := o.word, words := 1, hart := s.me }
    let places := (s.me.vq.map (·.places)).sum
    (∀ c, check = some c → exec i s = .next (s.trap c (fieldsVal (fieldsOf i)))) ∧
    (check = none → (∀ r ∈ o.scalarRegs, s.me.busy r = false) →
      (32 ≤ places → exec i s = .next (s.stall .dispatch)) ∧
      (places < 32 → s.me.restart = none → s.agenda ≠ [] →
        ∃ t m, exec i s = .next t ∧ s.IssueFrame t ∧ s.SameBytes t ∧
          m.op = o ∧ m.pc = s.me.pc ∧ m.next = 0 ∧ m.pend = [] ∧ m.x = s.g o.scalarReg ∧ m.y = s.g o.b ∧
          Hart.Moved { s.me with
            vq := s.me.vq ++ [{ id := s.seq, pc := s.me.pc, ctx := s.me.vctx, work := .convoy [m] }]
            csr := { s.me.csr with vpcnt := t.me.csr.vpcnt } } t.me ∧
          t.me.csr.vpcnt = if o.op.major = 0x49 ∧ o.rep.getLsbD 2 = true
            then s.me.csr.vpcnt + BitVec.ofNat 64 s.me.vl else s.me.csr.vpcnt))

/-- R37, R43, R173: a vector instruction with the convoy bit issues with the members after it as one entry of the queue, up to the
first member that meets a check of its own, or a fetch fault or decode trap of its own, behind which the scalar stream goes on: that
those before it run as a shorter convoy is log entry 13 (DEDUCED). Where a run breaks R37 and R173, VAL is the word that breaks
R37, by log entry 72 (DESIGN CHOICE). A convoy bit on a major that is not convoyable, a word after it that is no such instruction, and a member that conflicts with one
before it are the illegal-convoy trap at the convoy's first instruction; a check that the first member fails is its own trap. A
member that has not been delivered, a register that is outstanding and a queue without room are waited for. -/
def Claims.ConvoyIssue : Prop :=
  (∀ (s : State) (w : BitVec 32) (i : Instr) (o : VOp), decode w = .error (.illegalConvoy i) → vopOf (Fields.ofWord w) = some o →
    s.badWord w (.illegalConvoy i) = s.trap (if o.lacksFeature s.core.fmask then .featureAbsent else .illegalConvoy) (wordVal w)) ∧
  ∀ (s : State) (i : Instr) (o : VOp), i.wf = true → vopOf (fieldsOf i) = some o → o.cv = true →
    o.lacksFeature s.core.fmask = false →
    let c := s.me.vctx
    let head : VRead := { op := o, word := o.word, words := 1, hart := s.me }
    ∀ t run stop, s.readRun 3 head [head] = (t, run, stop) →
      (stop = some .wait → exec i s = .next (t.stall .delivery)) ∧
      (∀ w, stop = some (.word w) → exec i s = .next (t.trap .illegalConvoy (wordVal w))) ∧
      (stop ≠ some .wait → (∀ w, stop ≠ some (.word w)) →
        (∀ r, firstConflict c run = some r → exec i s = .next (t.trap .illegalConvoy (wordVal r.word))) ∧
        (∀ x, firstConflict c run = none → t.memberCheck c head = some x → exec i s = .next (t.trap x (wordVal o.word))) ∧
        (firstConflict c run = none → t.memberCheck c head = none →
          let goes := run.takeWhile fun r => (t.memberCheck c r).isNone
          let free : Prop := ∀ r ∈ goes, ∀ g ∈ r.op.scalarRegs, t.me.busy g = false
          let places := (t.me.vq.map (·.places)).sum + goes.length
          (¬ free → exec i s = .next (t.stall .register)) ∧
          (free → 32 < places → exec i s = .next (t.stall .dispatch)) ∧
          (free → places ≤ 32 → t.agenda ≠ [] → t.me.restart = none →
            ∃ u ms, exec i s = .next u ∧ ms.map (·.op) = goes.map (·.op) ∧ ms.map (·.pc) = goes.map (·.hart.pc) ∧
              u.me.vq = t.me.vq ++ [{ id := t.seq, pc := s.me.pc, ctx := c, work := .convoy ms }] ∧
              u.me.pc = (goes.foldl (fun h r => h.advance r.words) t.me).pc)))

/-- R40, R41, R315: a bank operation's prefix with a vector memory instruction after it issues as one instruction of two words; a
word after it that takes no prefix, a store behind a prefix that names a register, and a prefix as the last word of a loop's body
are the illegal-prefix trap; a second word that cannot be fetched gives its fetch fault, and one that has not been delivered is
waited for. -/
def Claims.BankPairIssue : Prop :=
  ∀ (s : State) (a : BitVec 5),
    ∀ e ∈ [(Instr.bankopAdd a, 1), (.bankopMin a, 2), (.bankopMax a, 3), (.bankopAnd a, 4), (.bankopOr a, 5), (.bankopXor a, 6)],
      (s.me.lastOfLoop = true → exec e.1 s = .next (s.trap .illegalPrefix (fieldsVal (fieldsOf e.1)))) ∧
      (s.me.lastOfLoop = false →
        (∀ c, s.present (s.me.advance 1) = .error (some c) → exec e.1 s = .next (s.trapFetch c (s.me.pc + 4))) ∧
        (s.present (s.me.advance 1) = .error none → exec e.1 s = .next (s.stall .delivery)) ∧
        ∀ t w, s.present (s.me.advance 1) = .ok (t, w) →
          let g := Fields.ofWord w
          let isStore := g.maj = 0x49 ∨ (g.maj = 0x4A ∧ g.vfn = 1)
          let takes := ((g.maj = 0x48 ∨ g.maj = 0x49) ∧ g.vfn ≠ 3) ∨ (g.maj = 0x4A ∧ (g.vfn = 0 ∨ g.vfn = 1))
          (¬ takes ∨ (isStore ∧ a ≠ 0) → exec e.1 s = .next (s.trap .illegalPrefix (fieldsVal (fieldsOf e.1)))) ∧
          (takes → (isStore → a = 0) → vopOf g = none → exec e.1 s = .next (s.trap .illegalInstruction (wordVal w))) ∧
          (takes → (isStore → a = 0) → ∀ o, vopOf g = some o → o.cv = false →
            let p : VOp := { o with bank := some (e.2, a) }
            t.memberCheck t.me.vctx { op := p, word := w, words := 2, hart := t.me } = none →
            (∀ r ∈ p.scalarRegs, t.me.busy r = false) → (t.me.vq.map (·.places)).sum < 32 → t.me.restart = none → t.agenda ≠ [] →
            ∃ u m, exec e.1 s = .next u ∧ m.op = p ∧ m.x = s.g p.scalarReg ∧ m.z = s.g a ∧
              u.me.vq = s.me.vq ++ [{ id := s.seq, pc := s.me.pc, ctx := s.me.vctx, work := .convoy [m] }] ∧
              u.me.pc = (s.me.advance 2).pc ∧ ∀ r, u.g r = s.g r))

/-- `Claims.VectorIssue`, `Claims.ConvoyIssue`, `Claims.BankPairIssue` together. -/
def Obligations.VectorIssueResults : Prop :=
  Claims.VectorIssue ∧ Claims.ConvoyIssue ∧ Claims.BankPairIssue

/-- R168, R174: every arithmetic, selection, movement, reduction and permutation instruction that stands alone completes: the
vector registers, the masks and the sticky flags are those that its groups leave, and nothing else differs. A queue move
completes where its queue does not make it wait. -/
def Claims.VectorArithmeticResults : Prop :=
  ∀ (s : State) (i : Instr) (o : VOp), i.wf = true → vopOf (fieldsOf i) = some o → s.VectorAlone o →
    o.op.isMem = false →
    let c := s.me.vctx
    let done (h : Hart) : Prop := ∃ t, exec i s = .next t ∧ s.IssueFrame t ∧ s.SameBytes t ∧
      Hart.Moved { s.me with v := h.v, m := h.m, q := h.q, debt := h.debt, csr := { s.me.csr with fflags := h.csr.fflags } } t.me
    (o.op ≠ .mvVQ → o.op ≠ .mvQV → done (s.me.groupsDone 2049 c o (s.g o.scalarReg) 0)) ∧
    (o.op = .mvVQ ∨ o.op = .mvQV → ∀ h, s.me.entriesDone 2049 c o 0 = some h → done h)

/-- R186 to R190, R192, R193, R36, R38: the results of the integer vector instructions whose registers have one integer format and
factor: additions, minima, fused forms, logic, shifts, divisions, vclamp, vmv and vabs. Each active element below vl receives the
function of its operands, reduced to the format; the other elements, registers and flags stay. -/
def Claims.IntegerVectorResults : Prop :=
  ∀ (s : State) (d a b : BitVec 5) (rep : BitVec 3) (m : BitVec 4) (f : Fmt) (tag : Tag),
    f.cls = .int → Fmt.ofCode tag.fmt = some f → legalRep rep = true →
    s.me.tagOf d = tag → s.me.tagOf a = tag → s.me.tagOf b = tag →
    let w := f.width
    let wrap (x : Int) : Nat := (x % 2 ^ w).toNat
    let clamp (x : Int) : Int := max f.minInt (min f.maxInt x)
    let bits (x : Int) : Int := wrap x
    let signed (x : Int) : Int := if bits x < 2 ^ (w - 1) then bits x else bits x - 2 ^ w
    let amount (y : Int) : Nat := wrap y % w
    let op (o : VOpc) : VOp := { op := o, d, a, b, rep, m }
    ∀ e ∈ ([(.vadd d a b rep false m, op .add, fun x y _ => wrap (x + y)), (.vsub d a b rep false m, op .sub, fun x y _ => wrap (x - y)),
            (.vrsub d a b rep false m, op .rsub, fun x y _ => wrap (y - x)), (.vmul d a b rep false m, op .mul, fun x y _ => wrap (x * y)),
            (.vmin d a b rep false m, op .min, fun x y _ => wrap (min x y)), (.vmax d a b rep false m, op .max, fun x y _ => wrap (max x y)),
            (.vsadd d a b rep false m, op .sadd, fun x y _ => wrap (clamp (x + y))),
            (.vssub d a b rep false m, op .ssub, fun x y _ => wrap (clamp (x - y))),
            (.vmacc d a b rep false m, op .macc, fun x y z => wrap (z + x * y)),
            (.vnmsac d a b rep false m, op .nmsac, fun x y z => wrap (z - x * y)),
            (.vmadd d a b rep false m, op .madd, fun x y z => wrap (z * x + y)),
            (.vnmsub d a b rep false m, op .nmsub, fun x y z => wrap (y - z * x)),
            (.vand d a b rep false m, op .and, fun x y _ => wrap x &&& wrap y),
            (.vor d a b rep false m, op .or, fun x y _ => wrap x ||| wrap y),
            (.vxor d a b rep false m, op .xor, fun x y _ => wrap x ^^^ wrap y),
            (.vandn d a b rep false m, op .andn, fun x y _ => wrap x &&& (2 ^ w - 1 - wrap y)),
            (.vsll d a b rep false m, op .sll, fun x y _ => wrap (x * 2 ^ amount y)),
            (.vsrl d a b rep false m, op .srl, fun x y _ => wrap x / 2 ^ amount y),
            (.vsra d a b rep false m, op .sra, fun x y _ => wrap (signed x / 2 ^ amount y)),
            (.vrot d a b rep false m, op .rot, fun x y _ => wrap x * 2 ^ amount y % 2 ^ w + wrap x / 2 ^ (w - amount y)),
            (.vdiv d a b rep false m, op .div, fun x y _ => if y = 0 then 2 ^ w - 1 else wrap (x.tdiv y)),
            (.vrem d a b rep false m, op .rem, fun x y _ => if y = 0 then wrap x else wrap (x.tmod y)),
            (.vclamp d a b rep false m, op .clamp, fun x y z => wrap (min (max x y) z)),
            (.vmv d a false m, { op := .mv, d, a, m }, fun x _ _ => wrap x), (.vabs d a false m, { op := .abs, d, a, m }, fun x _ _ => wrap (max x (-x)))] :
           List (Instr × VOp × (Int → Int → Int → Nat))),
      s.VectorAlone e.2.1 →
      let value (r : BitVec 5) (n : Nat) : Nat := s.me.elem s.me.lanes r w n
      ∃ t, exec e.1 s = .next t ∧ s.Filled t d tag 0 fun n =>
        if n < s.me.vl ∧ (m = 0 ∨ (s.me.mask m).getLsbD n = true)
        then e.2.2 (f.int (value a n)) (f.int (value b (repIndex e.2.1.rep n))) (f.int (value d n)) else value d n

/-- R186 to R189, R192 to R196, R36, R38: the same for the floating-point formats. Each active element below vl receives the
exact function of its operands rounded once by `vrm`, as the model's arithmetic of R72 to R84 has it, or the special function of its
operand, and the flags of all are raised together. -/
def Claims.FloatVectorResults : Prop :=
  ∀ (s : State) (d a b : BitVec 5) (rep : BitVec 3) (m : BitVec 4) (f : Fmt) (tag : Tag),
    f.cls = .float → Fmt.ofCode tag.fmt = some f → legalRep rep = true →
    s.me.tagOf d = tag → s.me.tagOf a = tag → s.me.tagOf b = tag →
    let rm := RM.ofCode s.me.csr.vrm
    let v := f.decode
    let op (o : VOpc) : VOp := { op := o, d, a, b, rep, m }
    let one (o : VOpc) : VOp := { op := o, d, a, m }
    ∀ e ∈ ([(.vadd d a b rep false m, op .add, fun p q _ => addNum f rm (v p) (v q)),
            (.vsub d a b rep false m, op .sub, fun p q _ => addNum f rm (v p) (v q).negate),
            (.vrsub d a b rep false m, op .rsub, fun p q _ => addNum f rm (v q) (v p).negate),
            (.vmul d a b rep false m, op .mul, fun p q _ => mulNum f rm (v p) (v q)),
            (.vmin d a b rep false m, op .min, fun p q _ => { bits := minMaxBits f false p q }),
            (.vmax d a b rep false m, op .max, fun p q _ => { bits := minMaxBits f true p q }),
            (.vmacc d a b rep false m, op .macc, fun p q z => fmaNum f rm (v p) (v q) (v z)),
            (.vnmsac d a b rep false m, op .nmsac, fun p q z => fmaNum f rm (v p).negate (v q) (v z)),
            (.vmadd d a b rep false m, op .madd, fun p q z => fmaNum f rm (v z) (v p) (v q)),
            (.vnmsub d a b rep false m, op .nmsub, fun p q z => fmaNum f rm (v z).negate (v p) (v q)),
            (.vand d a b rep false m, op .and, fun p q _ => { bits := p &&& q }),
            (.vor d a b rep false m, op .or, fun p q _ => { bits := p ||| q }),
            (.vxor d a b rep false m, op .xor, fun p q _ => { bits := p ^^^ q }),
            (.vandn d a b rep false m, op .andn, fun p q _ => { bits := p &&& (2 ^ f.width - 1 - q) }),
            (.vclamp d a b rep false m, op .clamp, fun p q z => { bits := minMaxBits f false (minMaxBits f true p q) z }),
            (.vdiv d a b rep false m, op .div, fun p q _ => divNum f rm (v p) (v q)),
            (.vmv d a false m, one .mv, fun p _ _ => { bits := p }),
            (.vabs d a false m, one .abs, fun p _ _ => { bits := if v p = .nan then f.nanBits else p % 2 ^ (f.width - 1) }),
            (.vsqrt d a false m, one .sqrt, fun p _ _ => sqrtNum f rm (v p)),
            (.vrcp d a false m, one .rcp, fun p _ _ => divNum f rm (.fin false 1 0) (v p)),
            (.vexp2 d a false m, one .exp2, fun p _ _ => sfu .exp2 f rm p), (.vlog2 d a false m, one .log2, fun p _ _ => sfu .log2 f rm p),
            (.vrsqrt d a false m, one .rsqrt, fun p _ _ => sfu .rsqrt f rm p), (.vtanh d a false m, one .tanh, fun p _ _ => sfu .tanh f rm p),
            (.vsin d a false m, one .sin, fun p _ _ => sfu .sin f rm p), (.vcos d a false m, one .cos, fun p _ _ => sfu .cos f rm p),
            (.vclass d a false m, one .vclass, fun p _ _ => { bits := fclassBit f p })] :
           List (Instr × VOp × (Nat → Nat → Nat → FRes))),
      s.VectorAlone e.2.1 →
      let value (r : BitVec 5) (n : Nat) : Nat := s.me.elem s.me.lanes r f.width n
      let res (n : Nat) : FRes := e.2.2 (value a n) (value b (repIndex e.2.1.rep n)) (value d n)
      let on (n : Nat) : Bool := decide (n < s.me.vl) && (m == 0 || (s.me.mask m).getLsbD n)
      ∃ t, exec e.1 s = .next t ∧
        s.Filled t d tag (flagsOf ((List.range s.me.vl).filter on) fun n => (res n).fl) fun n =>
          if on n = true then (res n).bits else value d n

/-- R191, R82: a compare writes the bits of its mask at the active elements below vl, and vmslt and vmsle raise NV where they meet a
NaN; the mask's other bits, the other masks and the vector registers stay. -/
def Claims.VectorCompareResults : Prop :=
  ∀ (s : State) (d : BitVec 4) (a b : BitVec 5) (rep : BitVec 3) (m : BitVec 4) (f : Fmt) (tag : Tag),
    f.cls ≠ .scale → Fmt.ofCode tag.fmt = some f → legalRep rep = true → s.me.tagOf a = tag → s.me.tagOf b = tag →
    let int := f.cls = .int
    let nan (p q : Nat) : Prop := ¬ int ∧ (f.decode p = .nan ∨ f.decode q = .nan)
    let same (p q : Nat) : Prop := if int then f.int p = f.int q else (f.decode p).feq (f.decode q) = true
    let less (p q : Nat) : Prop := if int then f.int p < f.int q else (f.decode p).lt (f.decode q) = true
    ∀ e ∈ ([(.vmseq d a b rep false m, .mseq, fun p q => same p q, false), (.vmsne d a b rep false m, .msne, fun p q => ¬ same p q, false),
            (.vmslt d a b rep false m, .mslt, fun p q => less p q, true),
            (.vmsle d a b rep false m, .msle, fun p q => less p q ∨ same p q, true)] : List (Instr × VOpc × (Nat → Nat → Prop) × Bool)),
      s.VectorAlone { op := e.2.1, d := d.setWidth 5, a, b, rep, m } →
      let x (n : Nat) : Nat := s.me.elem s.me.lanes a f.width n
      let y (n : Nat) : Nat := s.me.elem s.me.lanes b f.width (repIndex rep n)
      let on (n : Nat) : Prop := n < s.me.vl ∧ (m = 0 ∨ (s.me.mask m).getLsbD n = true)
      let invalid := e.2.2.2 = true ∧ ∃ n, on n ∧ nan (x n) (y n)
      ∃ t fl, exec e.1 s = .next t ∧ s.SameBytes t ∧ s.IssueFrame t ∧
        Hart.Moved { s.me with m := t.me.m, csr := { s.me.csr with fflags := s.me.csr.fflags ||| fl } } t.me ∧
        (invalid → fl = flagNV) ∧ (¬ invalid → fl = 0) ∧
        (∀ n, n < 2048 → on n → ((t.me.mask d).getLsbD n = true ↔ e.2.2.1 (x n) (y n))) ∧
        ∀ r n, n < 2048 → r ≠ d ∨ ¬ on n → (t.me.mask r).getLsbD n = (s.me.mask r).getLsbD n

/-- `Claims.VectorArithmeticResults`, `Claims.IntegerVectorResults`, `Claims.FloatVectorResults`, `Claims.VectorCompareResults` together. -/
def Obligations.VectorResults : Prop :=
  Claims.VectorArithmeticResults ∧ Claims.IntegerVectorResults ∧ Claims.FloatVectorResults ∧ Claims.VectorCompareResults

/-- R157: what an element of a register group reads after a write of one. It reads the low bits written, and every other element of
the group, and every register outside it, stays. -/
def Obligations.ElementPlacement : Prop :=
  ∀ (h : Hart) (lanes : Nat) (r : BitVec 5) (w g i j x : Nat), lanes ∈ [16, 32, 48, 64] → w ∈ [8, 16, 32, 64] →
    r.toNat + g ≤ 32 → i < vlmax lanes w g → j < vlmax lanes w g →
    (h.setElem lanes r w i x).elem lanes r w j = (if j = i then x % 2 ^ w else h.elem lanes r w j) ∧
    ∀ k, k < r.toNat ∨ r.toNat + g ≤ k → (h.setElem lanes r w i x).vreg k = h.vreg k

/-- R221, R222, R226: each vector load of one window that meets no fault completes: element i of field f receives the bytes at its
address; inactive elements, other registers, flags and memory stay. -/
def Obligations.VectorLoadResults : Prop :=
  ∀ (s t : State) (i : Instr) (o : VOp) (xs : List ElemXlate), i.wf = true → vopOf (fieldsOf i) = some o → s.Window1 o t xs →
    o.op ∈ [VOpc.ld, .lds, .ldx, .ldff, .ldseg] →
    let c := s.me.vctx
    let w := (o.fmt c).width
    let g := (c.tag o.d).group
    ∃ u, exec i s = .next u ∧ s.IssueFrame u ∧ s.SameBytes u ∧ Hart.Moved { s.me with v := u.me.v } u.me ∧
      (∀ e ∈ xs, u.me.elem c.lanes (o.d + BitVec.ofNat 5 (e.field * g)) w e.index = s.read e.key (w / 8)) ∧
      (∀ n f, f < o.fields → n < vlmax c.lanes w g → (s.me.vl ≤ n ∨ s.me.active o n = false) →
        u.me.elem c.lanes (o.d + BitVec.ofNat 5 (f * g)) w n = s.me.elem c.lanes (o.d + BitVec.ofNat 5 (f * g)) w n) ∧
      ∀ r, r < o.d.toNat ∨ o.d.toNat + o.fields * g ≤ r → u.me.vreg r = s.me.vreg r

/-- R221, R222, R333, R334: each vector store, vector atomic and scatter-reduce of one window that meets no fault completes: each
active element's bytes hold its value, or the old value combined with it, and every other byte reads as before. A vector
atomic writes the old value to its element and raises the flags of its operations; its inactive elements, its elements from vl on and
every other register stay, and the others change no register and no flag. Nothing else differs but what a store brings with it. -/
def Obligations.VectorStoreResults : Prop :=
  ∀ (s t : State) (i : Instr) (o : VOp) (xs : List ElemXlate), i.wf = true → vopOf (fieldsOf i) = some o → s.Window1 o t xs →
    o.op ∉ [VOpc.ld, .lds, .ldx, .ldff, .ldseg] → Memory.wf s.mem = true →
    let c := s.me.vctx
    let f := o.fmt c
    Apart f.bytes xs →
    let isAmo := o.op.major = 0x4B
    let isScred := o.op.major = 0x4C
    let data (e : ElemXlate) : Nat := if isScred then s.me.elem c.lanes o.a f.width e.index
      else s.me.elem c.lanes (o.d + BitVec.ofNat 5 (e.field * (c.tag o.d).group)) f.width e.index
    let old (e : ElemXlate) : Nat := s.read e.key f.bytes
    let res (e : ElemXlate) : FRes :=
      if o.op ∈ [VOpc.amoadd, .scredAdd] then bankOp 1 f c.round (old e) (data e)
      else if o.op ∈ [VOpc.amomin, .scredMin] then bankOp 2 f c.round (old e) (data e)
      else if o.op ∈ [VOpc.amomax, .scredMax] then bankOp 3 f c.round (old e) (data e)
      else { bits := if o.op = .scredOr then old e ||| data e else data e }
    ∃ u, exec i s = .next u ∧ s.VectorStoreFrame u ∧
      (∀ e ∈ xs, ∀ j, j < f.bytes → u.seen (e.key + j) = (res e).bits / 256 ^ j % 256) ∧
      (∀ k, (∀ e ∈ xs, k < e.key ∨ e.key + f.bytes ≤ k) → u.seen k = s.seen k) ∧
      Hart.Moved { s.me with v := u.me.v, csr := { s.me.csr with fflags := u.me.csr.fflags } } u.me ∧
      (¬ isAmo → u.me.v = s.me.v ∧ u.me.csr.fflags = s.me.csr.fflags) ∧
      (isAmo →
        u.me.csr.fflags = xs.foldl (fun fl e => fl ||| (res e).fl) s.me.csr.fflags ∧
        (∀ e ∈ xs, u.me.elem c.lanes o.d f.width e.index = old e) ∧
        (∀ n, n < vlmax c.lanes f.width (c.tag o.d).group → (s.me.vl ≤ n ∨ s.me.active o n = false) →
          u.me.elem c.lanes o.d f.width n = s.me.elem c.lanes o.d f.width n) ∧
        ∀ r, r < o.d.toNat ∨ o.d.toNat + (c.tag o.d).group ≤ r → u.me.vreg r = s.me.vreg r)

/-! ### Events of the vector unit (R168, R172, R226, R163, R316, R319, R335, R365) -/

/-- R168, R172, R226, R163: the vector unit's steps where one member stands in the queue. An element group writes its elements and moves
the member on, or retires it with the last group; a convoy's issue runs it to its end; a window translates, pins and issues
the accesses of its elements and performs none; a configuration entry zeroes the lanes of a changed partition. -/
def Claims.VectorEvents : Prop :=
  (∀ (s : State) (i : VItem) (m : Member), s.AloneInQueue i m → m.next < i.ctx.vl →
    let c := i.ctx
    let frame (t : State) : Prop := t = { s with me := t.me, cores := t.cores, snaps := t.snaps } ∧ s.SameBytes t
    (m.op.op.isMem = false → m.op.op ≠ .mvVQ → m.op.op ≠ .mvQV →
      (let hi := if m.op.op.whole then c.vl else min c.vl ((m.next / m.op.groupSize c + 1) * m.op.groupSize c)
       let z : Hart := { s.me with csr := { s.me.csr with fflags := 0 } }
       let h := if m.op.op.whole then z.doWhole c m.op m.next else z.doElements c m.op m.x m.next hi
       ∃ t, exec (.elementGroupIssue 0) s = .next t ∧ frame t ∧
         t.me = { s.me with
           v := h.v, m := h.m, csr := { s.me.csr with fflags := s.me.csr.fflags ||| h.csr.fflags }
           vq := if c.vl ≤ hi then [] else [{ i with work := .convoy [{ m with next := hi, begun := true }] }] }) ∧
      (let h := s.me.groupsDone 2049 c m.op m.x m.next
       ∃ t, exec .convoyIssue s = .next t ∧ frame t ∧
         t.me = { s.me with v := h.v, m := h.m, csr := { s.me.csr with fflags := h.csr.fflags }, vq := [] })) ∧
    (m.op.op.isMem = true → m.op.bank = none → m.op.op.major ≠ 0x4C →
      (∀ j, j < 4 → (s.hart (4 * coreOf s.cur + j)).pinned = []) →
      let w := m.window s.me c
      ∀ t xs, s.xlateWindow c m w.1 = (t, xs) → xs ≠ [] →
        (xs.filterMap (·.entry)).eraseDups.length ≤ 256 →
        (∀ e ∈ xs, e.fault = none ∧ e.remote = false ∧ ∀ p ∈ s.poison, p.hits e.key (m.op.fmt c).bytes = false ∧
          overlap p.span.1 p.span.2 e.key (m.op.fmt c).bytes = false) →
        ∃ u n, exec (.vectorWindow 0) s = .next u ∧ u = { s with me := u.me, cores := u.cores, poison := u.poison, uncached := u.uncached } ∧ s.SameBytes u ∧
          u.me = { s.me with vq := [{ i with work := .convoy [n] }] } ∧ n.op = m.op ∧ n.next = w.2 ∧ n.done = decide (c.vl ≤ w.2) ∧
          n.pend.map (fun a => (a.key, a.bytes)) = xs.map fun e => (e.key, (m.op.fmt c).bytes))) ∧
  ∀ (s : State) (i : VItem) (rest : List VItem) (freed : List Nat) (lanes : Nat) (zero : Bool),
    s.me.vq = i :: rest → i.work = .cfg freed lanes zero →
    ((∃ e ∈ s.me.sb, e.ack = none ∧ e.before ≤ i.id) → (∀ e ∈ s.me.sb, s.me.ready e = false) → exec .configurationEntry s = .next s) ∧
    (s.me.sb = [] → (∀ x ∈ rest, x.id ≠ i.id) →
      ∃ t, exec .configurationEntry s = .next t ∧ t = { s with me := t.me, snaps := t.snaps } ∧
        t.me = { s.me with vq := rest, v := t.me.v } ∧
        ∀ r k, k < 16384 → (fileGet (w := 5) r t.me.v).getLsbD k =
          if zero = true ∧ k < 256 * lanes then false else (fileGet (w := 5) r s.me.v).getLsbD k)

/-- R315, R316, R319, R335, R365: each return-free element that no fence takes away combines with memory at its home and leaves every other
byte; the operation is over with its last element, unless its instruction goes on, and its progress word is then written; all of
its writes can perform at once. A re-issue clears and counts the transient errors of its granule and leaves persistent ones. -/
def Claims.ReturnFreeEvents : Prop :=
  ∀ (s : State),
    let past (r : ReturnFree) (rest : List ReturnFree) : List ReturnFree :=
      if ∀ x ∈ s.me.vq, x.id ≠ r.id then rest else { r with elems := [], pins := [], word := none } :: rest
    (∀ r rest a more new, s.me.rf = r :: rest → r.elems = a :: more → (∀ x ∈ rest, x.id ≠ r.id) → s.me.sb = [] →
      Memory.wf s.mem = true → s.Reached a → a.leaves (s.read a.key a.bytes) = some new → (more = [] → r.word = none) →
      let one (i : Instr) : Prop := ∃ t, exec i s = .next t ∧ s.StoreFrame t ∧ s.BytesStored t a.key a.bytes new ∧
        t.me = { s.me with rf := if more = [] then past r rest else { r with elems := more } :: rest }
      one .bankOperation ∧ ((∃ y, a.kind = .near y) → one .nmaElement)) ∧
    (∀ r rest key x, s.me.rf = r :: rest → r.elems = [] → r.word = some (key, x) → (∀ x ∈ rest, x.id ≠ r.id) → s.me.sb = [] →
      Memory.wf s.mem = true → s.PlainAt key 8 →
      ∃ t, exec .bankOperation s = .next t ∧ s.StoreFrame t ∧ s.BytesStored t key 8 x ∧ t.me = { s.me with rf := past r rest }) ∧
    (∀ r rest, s.me.rf = r :: rest → (∀ x ∈ rest, x.id ≠ r.id) → s.me.sb = [] → Memory.wf s.mem = true → r.word = none →
      (∀ a ∈ r.elems, s.Reached a ∧ a.leaves 0 ≠ none) →
      r.elems.Pairwise (fun a b => a.key + a.bytes ≤ b.key ∨ b.key + b.bytes ≤ a.key) →
      ∃ t, exec .returnFreePerformed s = .next t ∧ s.StoreFrame t ∧ t.me = { s.me with rf := past r rest } ∧
        (∀ a ∈ r.elems, ∀ new, a.leaves (s.read a.key a.bytes) = some new →
          ∀ j, j < a.bytes → t.seen (a.key + j) = new / 256 ^ j % 256) ∧
        ∀ k, (∀ a ∈ r.elems, k < a.key ∨ a.key + a.bytes ≤ k) → t.seen k = s.seen k) ∧
    ∀ key, ∃ t, exec (.replayQueueReissue key) s = .next t ∧ t = { s with cores := t.cores, poison := t.poison } ∧ s.SameBytes t ∧
      t.poison = s.poison.filter (fun p => p.persist || !p.hits key 1) ∧
      t.core.transients = s.core.transients + (s.poison.filter fun p => !p.persist && p.hits key 1).length ∧
      ∀ n, n ≠ coreOf s.cur → t.coreAt n = s.coreAt n

/-- `Claims.VectorEvents`, `Claims.ReturnFreeEvents` together. -/
def Obligations.VectorEventResults : Prop :=
  Claims.VectorEvents ∧ Claims.ReturnFreeEvents

/-! ### Engine commands at issue (R267, R271, R296, R298) -/

/-- R267, R271: issue of the fourteen lookup instructions. A queue of sixteen commands that have not started stops it, before every
check by log entry 19 (DEDUCED); then come the missing feature, the illegal scope
and the checks of its operands as precise traps; otherwise the command enters the lookup queue with the values of its
registers, the nest registers that it walks and `escope`, and the scalar stream moves on. -/
def Claims.LookupIssue : Prop :=
  ∀ (s : State) (d a b : BitVec 5) (n : BitVec 3) (m : EMod),
    ∀ e ∈ [(Instr.cbload a b n m, EOpc.cbload), (.cbclr a b m, .cbclr), (.tbuild a b n m, .tbuild), (.tbload a b n m, .tbload),
           (.tbfree a b m, .tbfree), (.lkinit a b m, .lkinit), (.lkacc a b n m, .lkacc), (.lkdrain a b n m, .lkdrain),
           (.lkdrainc a b n m, .lkdrainc), (.lkread a b m, .lkread), (.lkclr a m, .lkclr), (.lkstat d a m, .lkstat),
           (.lkmeta d a m, .lkmeta), (.lkwait d m, .lkwait)],
      let f := fieldsOf e.1
      let c := s.commandOf e.2 f
      let features := s.core.fmask.getLsbD 3 = true ∧
        ((e.2 = .tbuild ∨ e.2 = .tbload ∨ e.2 = .lkacc) → c.ext = true → s.core.fmask.getLsbD 4 = true)
      let scope := m.order = 0 ∨ s.me.csr.escope.toNat < 6
      let queued := (s.me.lq.filter fun c => !c.started).length
      (16 ≤ queued → exec e.1 s = .next (s.stall .dispatch)) ∧
      (queued < 16 →
        (¬ features → exec e.1 s = .next (s.trap .featureAbsent (fieldsVal f))) ∧
        (features → ¬ scope → exec e.1 s = .next (s.trap .illegalScope (fieldsVal f))) ∧
        (features → scope → ∀ x v, c.lkCheck s.me.csr.lkwin = some (x, v) → exec e.1 s = .next (s.trap x v)) ∧
        (features → scope → c.lkCheck s.me.csr.lkwin = none →
          ∃ t, exec e.1 s = .next t ∧ s.QueueFrame t ∧ s.SameBytes t ∧ Hart.Moved { s.me with lq := s.me.lq ++ [c] } t.me))

/-- R296, R298: the same for the fifteen transfer instructions and nma, whose commands enter the transfer queue with `xbar` and
`wout` as well; a full queue stops them before every check too (log entry 19, DEDUCED). -/
def Claims.TransferIssue : Prop :=
  ∀ (s : State) (d a b : BitVec 5) (n : BitVec 3) (m : EMod),
    ∀ e ∈ [(Instr.xcopy d a b n m, EOpc.xcopy, none), (.xshape a n m, .xshape, none), (.xfill d a b n m, .xfill, none),
           (.xgather d a m, .xgather, none), (.wsend d a b m, .wsend, some 7), (.wsendi d a b m, .wsendi, some 7),
           (.wreg d a m, .wreg, some 7), (.wunreg a m, .wunreg, some 7), (.wctr d m, .wctr, some 7), (.strain d a b m, .strain, some 6),
           (.nmx a m, .nmx, some 5), (.nmxld a b m, .nmxld, some 5), (.pgin a b m, .pgin, some 8), (.pgout a b m, .pgout, some 8),
           (.xwait d m, .xwait, none), (.nma d a b n m, .nma, none)],
      let f := fieldsOf e.1
      let c := s.commandOf e.2.1 f
      let feature := ∀ k, e.2.2 = some k → s.core.fmask.getLsbD k = true
      let scope := m.order = 0 ∨ s.me.csr.escope.toNat < 6
      let queued := (s.me.xq.filter fun c => !c.started).length
      (16 ≤ queued → exec e.1 s = .next (s.stall .dispatch)) ∧
      (queued < 16 →
        (¬ feature → exec e.1 s = .next (s.trap .featureAbsent (fieldsVal f))) ∧
        (feature → ¬ scope → exec e.1 s = .next (s.trap .illegalScope (fieldsVal f))) ∧
        (feature → scope → ∀ x v, c.xferCheck = some (x, v) → exec e.1 s = .next (s.trap x v)) ∧
        (feature → scope → c.xferCheck = none →
          ∃ t, exec e.1 s = .next t ∧ s.QueueFrame t ∧ s.SameBytes t ∧ Hart.Moved { s.me with xq := s.me.xq ++ [c] } t.me))

/-- `Claims.LookupIssue`, `Claims.TransferIssue` together. -/
def Obligations.EngineIssue : Prop :=
  Claims.LookupIssue ∧ Claims.TransferIssue

/-! ### Events of the lookup engine (R267, R268, R261, R281 to R292, R94) -/

/-- R267, R281, R284, R286, R287: the oldest lookup command that may start and whose pages translate starts with them pinned; a page that
faults is its trap; a command that may not start waits. The accumulator command next in the slice's order begins: lkinit and
lkclr write their lines, lkstat sums up its line, lkread and lkdrain form their writes, lkdrainc clears the lines it has
read, and a walk advances the check unit's register. That a slice with one fenced bank reports condition 10 as a fenced slice does
is log entry 20 (DEDUCED). -/
def Claims.LookupCommandStartAndBegin : Prop :=
  (∀ (s : State) (c : ECmd), s.me.head false = some c →
    let σ := stackOf (coreOf s.cur)
    (s.me.mayStart c = false → exec .lookupCommandStart s = .next s) ∧
    (s.me.mayStart c = true → s.me.sb = [] →
      (∀ x va, s.pin c c.lkTouches = .error (x, va) → exec .lookupCommandStart s = .next (s.trapCmd c x va)) ∧
      ∀ pins u, s.pin c c.lkTouches = .ok (pins, u) →
        ∃ (t : State) (k : ECmd → ECmd), exec .lookupCommandStart s = .next t ∧
          t = { s with me := t.me, cores := u.cores, poison := u.poison, snaps := t.snaps, seq := s.seq + 1 } ∧ s.SameBytes t ∧
          t.me = { s.me with tok := t.me.tok, lq := s.me.lq.map fun o => if o.id = c.id then k o else o } ∧ s.me.TokensTaken t.me c ∧
          (k c).started = true ∧ (k c).stamp = s.seq ∧ (k c).pins = pins ∧
          (c.op.isTable = false → c.op ≠ .lkwait → (s.stackAt σ).isFenced (sliceOf (coreOf s.cur)) = false →
            k c = { c with started := true, stamp := s.seq, pins }) ∧
          (c.op.isAcc = true → (s.stackAt σ).isFenced (sliceOf (coreOf s.cur)) = true →
            (k c).reports = c.reports ++ [{ cond := 10, unit := σ }]))) ∧
  ∀ (s : State) (core hart : Nat) (c : ECmd), s.accNext core = some (hart, c) → (s.stackAt (stackOf core)).Sound →
    let σ := stackOf core
    let j := sliceOf core
    let line (t : State) (i a : Nat) := (t.stackAt σ).line i a
    let n := bits c.a.toNat 13 8 + 1
    let sectors (p : LkStep) : List Pending :=
      let l := resultSectors (line s j p.a.toNat) (bits c.b.toNat 8 8 = 1)
      ((List.range l.length).zip l).map fun x => { va := (p.va + 32 * x.1) % 2 ^ 64, bytes := 32, move := .value x.2 }
    ∃ t k, exec (.accumulatorCommandBegin core) s = .next t ∧ s.StackFrame t σ ∧ s.CommandNow t hart c k ∧ k.begun = true ∧
      (c.op = .lkinit ∨ c.op = .lkclr → c.first + n ≤ 64 → k.done = true ∧ ∀ i a, a < 64 → line t i a =
        if i = j ∧ c.first ≤ a ∧ a < c.first + n
        then Vector.replicate 32 (if c.op = .lkinit then { exp := BitVec.ofNat 9 c.b.toNat, val := true } else {}) else line s i a) ∧
      (c.op = .lkstat → k.done = true ∧ k.res = lineSummary (line s j c.first)) ∧
      (c.op = .lkread → k.out = imageWrites c.a.toNat (line s j c.first)) ∧
      (c.op = .lkdrain → k.out = c.lkSteps.flatMap sectors) ∧
      (c.op = .lkdrainc → (c.lkSteps.map fun p => p.a.toNat).Nodup → (∀ p ∈ c.lkSteps, p.a.toNat < 64) →
        k.out = c.lkSteps.flatMap sectors ∧ ∀ i a, a < 64 → line t i a =
          if i = j ∧ (∃ p ∈ c.lkSteps, p.a.toNat = a) then clearLine (line s i a) else line s i a) ∧
      (c.op = .lkstat ∨ c.op = .lkread ∨ c.op = .lkdrain → ∀ i a, line t i a = line s i a) ∧
      (c.op = .lkacc → (t.stackAt σ).check = checkNext (s.stackAt σ).check ∧ k.res = (checkNext (s.stackAt σ).check).setWidth 64)

/-- R283, R254, R267, R290, R292: the check's verdict ends a walk whose sums agree, the check unit's and the bank's; otherwise the second replay ends it, with a count of a transient
error, or with the row poisoned, the bank suspect and condition 7; the row is one of the line that the command's gs2 names (log entry
21, DEDUCED). A retiring command writes gd where it has one, pushes its
token, reports to `lkerr` and leaves its queue. -/
def Claims.LookupVerdictAndRetire : Prop :=
  (∀ (s : State) (core hart : Nat) (c : ECmd), s.Walking core hart c →
    let σ := stackOf core
    let j := sliceOf core
    let T := s.stackAt σ
    (c.step = c.stepCount →
      ((∀ e ∈ T.wrong, e.1 ≠ j) → s.sumDiffers core c = false → ∃ t k, exec (.checkVerdict core) s = .next t ∧ s.StackFrame t σ ∧ s.CommandNow t hart c k ∧
        k = { c with done := true } ∧ ∀ i a, (t.stackAt σ).line i a = T.line i a) ∧
      ((∃ e ∈ T.wrong, e.1 = j) ∨ s.sumDiffers core c = true → ∃ t k, exec (.checkVerdict core) s = .next t ∧ s.CommandNow t hart c k ∧ t.lkStacks = s.lkStacks ∧
        k = { c with step := c.step + 1 })) ∧
    (c.step = c.stepCount + 1 →
      let lasting := (∃ e ∈ T.wrong, e.1 = j ∧ e.2 = true) ∨ s.sumDiffers core c = true ∨ ∃ w ∈ T.watch, w.slice = j ∧ w.dirty = true
      let x := checkChoice (c.res.setWidth 32) c.tables
      ∃ t k, exec (.secondReplay core) s = .next t ∧ s.StackFrame t σ ∧ s.CommandNow t hart c k ∧ k.done = true ∧
        (¬ lasting → k.reports = c.reports ∧ (t.stackAt σ).transients = T.transients + 1 ∧ ∀ i a, (t.stackAt σ).line i a = T.line i a) ∧
        (lasting → k.reports = c.reports ++ [{ cond := 7, unit := σ, bank := x.1 }] ∧ 32 * j + x.1 ∈ (t.stackAt σ).suspect ∧
          rowOf ((t.stackAt σ).line j (c.first + x.2.2)) x.1 = { rowOf (T.line j (c.first + x.2.2)) x.1 with poi := true }))) ∧
  ∀ (s : State) (hart n : Nat) (c : ECmd), ((s.hart hart).lq.filter (s.hart hart).lkRetirable)[n]? = some c → c.op ≠ .lkmeta ∨ c.done = true →
    let h := s.hart hart
    let written (h' : Hart) (x : Word) : Prop := ∀ r, Hart.g { h' with level := c.level } r =
      if c.op.writesG = true ∧ r = c.d ∧ r ≠ 0 then x else Hart.g { h with level := c.level } r
    let gone (t : State) (h' : Hart) : Prop :=
      h' = { h with ug := h'.ug, sg := h'.sg, tok := h'.tok, csr := { h.csr with lkerr := h'.csr.lkerr, lkepc := h'.csr.lkepc }
                    lq := h.lq.filter fun o => decide (o.id ≠ c.id) } ∧
      h.TokenGiven h' c ∧ ∀ k, k ≠ hart → t.hart k = s.hart k
    (c.reports = [] → ∃ t, exec (.lookupCommandRetire hart n) s = .next t ∧
      t = { s with me := t.me, others := t.others, snaps := t.snaps } ∧ gone t (t.hart hart) ∧
      written (t.hart hart) (if c.op = .lkwait then h.csr.lkerr else c.res) ∧
      (t.hart hart).csr.lkerr = h.csr.lkerr ∧ (t.hart hart).csr.lkepc = h.csr.lkepc) ∧
    (∀ r, c.reports = [r] → r.cond < 7 ∨ r.cond = 8 → c.op ≠ .lkwait → h.csr.lkerr.getLsbD 0 = false → h.csr.lkerr.toNat < 2 ^ 48 →
      ∃ t, exec (.lookupCommandRetire hart n) s = .next t ∧
        t = { s with me := t.me, others := t.others, snaps := t.snaps } ∧ gone t (t.hart hart) ∧ written (t.hart hart) c.res ∧
        (t.hart hart).csr.lkerr = BitVec.ofNat 64 (2 ^ 48 + r.unit * 2 ^ 32 + sliceOf (coreOf hart) * 2 ^ 24 + r.bank * 2 ^ 16 + r.cond * 2 ^ 8 + 1) ∧
        (t.hart hart).csr.lkepc = c.pc &&& ~~~3#64)

/-- `Claims.LookupCommandStartAndBegin`, `Claims.LookupVerdictAndRetire` together. -/
def Obligations.LookupCommandEvents : Prop :=
  Claims.LookupCommandStartAndBegin ∧ Claims.LookupVerdictAndRetire

/-- R261, R258, R94, R265: a step of a walk with one table. In each bank whose descriptor, slot and row fit and whose data carries no error,
every column whose scale is not 255 adds the rounded contribution of its entry, modulo 2^48, by the data row as it stands open
(the rows that the walk leaves are closed first); row exponents, the other lines
and the other stacks stay. A protective stack poisons the line and adds nothing. -/
def Obligations.LookupStepResults : Prop :=
  ∀ (s : State) (core hart : Nat) (c : ECmd), s.Walking core hart c → c.step < c.stepCount → c.tables = 1 → c.ext = false →
    (s.stackAt (stackOf core)).Sound →
    let σ := stackOf core
    let j := sliceOf core
    let p := c.lkStep (nestNth c.nest c.step)
    let y := p.y.toNat
    let a := p.a.toNat
    let table := (s.stackAt σ).slot j p.s.toNat
    let u := s.updStack σ fun t => t.leaveRow j c.sum.row (y / 1024)
    a < 64 →
    ∃ t k, exec (.lookupStep core) s = .next t ∧ s.StackFrame t σ ∧ s.CommandNow t hart c k ∧ k.step = c.step + 1 ∧
      (∀ i b, b < 64 → (i ≠ j ∨ b ≠ a) → (t.stackAt σ).line i b = (s.stackAt σ).line i b) ∧
      ∀ bank, bank < 32 →
        let r := rowOf ((s.stackAt σ).line j a) bank
        let r' := rowOf ((t.stackAt σ).line j a) bank
        let l := u.latch σ j bank (y / 1024)
        let pats := s.rowBytes σ j bank (y / 1024) (y % 1024) 32
        let scales := (l.scales.drop (32 * ((l.dsc / 4 % 32 + shapeG c.shape * (y % 1024 / 32)) / 32))).take 32
        ((s.stackAt σ).mode = 3 → r' = { r with poi := true }) ∧
        ((s.stackAt σ).mode ≠ 3 → 128 ≤ l.dsc → l.dsc % 4 = c.shape →
          (∀ e ∈ s.poison, e.hits (s.bankKey σ j bank (y / 1024) (y % 1024)) 32 = false) →
          table.ready = true → table.shape = c.shape → table.part = 0 → r.val = true →
          r'.exp = r.exp ∧ r'.val = true ∧
          ∀ col, col < 32 → (c.shape = 3 → pats.getD col 0 < 64) → ∀ x, x = scales.getD col 0 → x ≠ 255 →
            let m := sint 16 ((s.stackAt σ).entry j p.s.toNat bank (pats.getD col 0))
            r'.k.toList.getD col 0 = BitVec.ofInt 48 ((r.k.toList.getD col 0).toInt + roundExact m (table.exp + x - 127 - r.exp.toInt)))

/-- R275, R276, R278, R279, R250, R253, R244: the table commands' steps at a stack. cbclr empties codebooks and tbfree frees slots; cbload
loads a codebook from its record, or leaves it empty with condition 8; tbload puts its tables into the slots that it names;
a build's tables form in the builder, and the press puts them into the slots; the table count rises by one with each. That a cleared
codebook keeps its sixteen values is log entry 24 (DEDUCED). -/
def Claims.LookupTableEvents : Prop :=
  (∀ (s : State) (σ core hart : Nat) (c : ECmd), s.tableHead core σ = some (hart, c) →
    let T := s.stackAt σ
    let n := (mapGet c.prog σ).getD 0
    let p := c.lkStep (nestNth c.nest n)
    let more (t : State) (k : ECmd) : Prop := s.StackFrame t σ ∧ s.CommandNow t hart c k
    let applies (q : State → ECmd → Prop) : Prop := ∃ t k, exec (.tableCommandApply σ core) s = .next t ∧ more t k ∧ mapGet k.prog σ = some (n + 1) ∧ q t k
    (c.op = .cbclr → applies fun t _ => ∀ b, (t.stackAt σ).book b =
      if c.first ≤ b ∧ b < c.first + c.b.toNat then { T.book b with b := 0 } else T.book b) ∧
    (c.op = .tbfree → c.first + c.b.toNat ≤ 256 → applies fun t _ => ∀ j x, x < 256 → (t.stackAt σ).slot j x =
      if j ∈ c.slices core ∧ c.first ≤ x ∧ x < c.first + c.b.toNat then { entries := (T.slot j x).entries } else T.slot j x) ∧
    (∀ d, mapGet c.data n = some (d, false) →
      (c.op = .cbload → applies fun t k =>
        (∀ x, bookOf d = some x → (t.stackAt σ).book p.cb.toNat = x ∧ k.reports = c.reports) ∧
        (bookOf d = none → ((t.stackAt σ).book p.cb.toNat).b = 0 ∧ k.reports = c.reports ++ [{ cond := 8, unit := σ }]) ∧
        ∀ b, b ≠ p.cb.toNat → (t.stackAt σ).book b = T.book b) ∧
      (c.op = .tbload → p.s.toNat + (c.loaded (d, false)).length ≤ 256 → applies fun t _ =>
        (t.stackAt σ).count = T.count + 1 ∧
        ∀ j x, x < 256 → (∀ i y, j ∈ c.slices core → (c.loaded (d, false))[i]? = some y → x = p.s.toNat + i →
            (t.stackAt σ).slot j x = { y with seq := (T.count + 1) % 65536 }) ∧
          ((j ∉ c.slices core ∨ x < p.s.toNat ∨ p.s.toNat + (c.loaded (d, false)).length ≤ x) → (t.stackAt σ).slot j x = T.slot j x)) ∧
      (c.op = .tbuild → T.built = [] → (T.book p.cb.toNat).b = shapeB c.shape →
        ∃ t k, exec (.tableBuild σ core) s = .next t ∧ more t k ∧ k = c ∧
          t.stackAt σ = { T with built := [{ hart, id := c.id, slices := c.slices core, slot := p.s.toNat
                                             tables := buildTables (c.activations d false) (T.book p.cb.toNat) p.cb.toNat c.shape c.ext }] }))) ∧
  ∀ (s : State) (σ : Nat) (b : Built) (rest : List Built), (s.stackAt σ).built = b :: rest → b.slot + b.tables.length ≤ 256 →
    ∃ t, exec (.tablePress σ) s = .next t ∧ s.StackFrame t σ ∧ (t.stackAt σ).built = rest ∧ (t.stackAt σ).count = (s.stackAt σ).count + 1 ∧
      (∀ j x, x < 256 → (∀ i y, j ∈ b.slices → b.tables[i]? = some y → x = b.slot + i →
          (t.stackAt σ).slot j x = { y with seq := ((s.stackAt σ).count + 1) % 65536 }) ∧
        ((j ∉ b.slices ∨ x < b.slot ∨ b.slot + b.tables.length ≤ x) → (t.stackAt σ).slot j x = (s.stackAt σ).slot j x)) ∧
      ∀ n, n ≠ b.hart → t.hart n = s.hart n

/-- R284 to R286: a write that lkdrain, lkdrainc or lkread has formed reaches memory by a turn of its command at the slice, each 32-byte
sector and each 8-byte word whole, at the key that the command's pages give its address: the bytes there are the write's,
every other byte stays, and the command has one write less to make, and is done with the last. A write waits for an earlier one of its
command to a common byte. Of a vector load of any hart that has read a part of the sector, the rest of what it has issued there
performs before (R285), which the premise on issued accesses leaves out here. -/
def Claims.LookupWrites : Prop :=
  ∀ (s : State) (hart n k : Nat) (rest : List Turn), s.stands = false → Memory.wf s.mem = true → s.agenda = .write hart false n k :: rest →
    let p := ({ s with agenda := rest } : State).begin
    let core := coreOf hart
    ∀ (c : ECmd) (w : Pending) (key x : Nat), (p.hart hart).startedAt false n = some c →
      (p.accHead core).map (fun e => (e.1, e.2.id)) = some (hart, c.id) →
      c.out[k]? = some w → w.move = .value x → (∀ j y, j < k → c.out[j]? = some y → p.meets core c y w = false) →
      p.pinKey core c w.va = some key → p.PlainAt key w.bytes → p.me.sb = [] →
      (∀ h, ∀ a ∈ (p.hart h).issued, a.2.2.key / 32 ≠ key / 32) →
      ∃ t, step s = .next t.endStep ∧ p.BytesStored t key w.bytes x ∧
        p.CommandNow t hart c { c with out := c.out.eraseIdx k, done := c.done || (c.out.eraseIdx k).isEmpty }

/-- R259, R264, R266, R325, R326: the stack's own events. A refresh closes the rows of its bank; a temperature sample sets the hottest die
and moves the mode one step; a store into the aperture selects a bank or writes an accumulator column, and reaches no read-only
row; a supervisor command that is not legal is not run and has status 2, and lkinit and lkclr initialise their lines and have
status 1. A turn sets the status, and the next one writes 0 to the major byte: that the two are turns of their own, and that such a
command runs behind the started commands of its core that are of its kind, is log entry 23 (DEDUCED). -/
def Claims.StackEvents : Prop :=
  ∀ (s : State) (σ : Nat),
    let T := s.stackAt σ
    let only (i : Instr) (q : Stack → Prop) : Prop := ∃ t, exec i s = .next t ∧ t = { s with lkStacks := t.lkStacks } ∧
      (∀ n, n ≠ σ → t.stackAt n = s.stackAt n) ∧ q (t.stackAt σ)
    (∀ j b, only (.refresh σ j b) fun t => t = { T with latches := T.latches.filter fun e => decide (e.1 / 2 ≠ 32 * j + b) }) ∧
    (∀ temps hot k, temps.length = 16 → (∀ x ∈ temps, x ≤ hot ∧ x < 256) → temps[k]? = some hot → (∀ i, i < k → temps[i]? ≠ some hot) →
      only (.temperatureSample σ temps) fun t =>
        t = { T with tmax := BitVec.ofNat 8 hot, tdie := BitVec.ofNat 4 k, mode := t.mode, prot := t.prot } ∧
        t.mode = (if T.mode = 0 then (if 85 < hot then 1 else 0) else if T.mode = 1 then (if 95 < hot then 2 else if hot ≤ 83 then 0 else 1)
                  else if T.mode = 2 then (if 105 < hot then 3 else if hot ≤ 93 then 1 else 2) else if hot ≤ 100 then 2 else 3) ∧
        t.prot = if t.mode = 3 ∧ T.mode ≠ 3 then T.prot + 1 else T.prot) ∧
    (∀ j x, j < 32 →
      only (.apertureStore σ j 3 0 8 x) (fun t => t = { T with sel := mapSet T.sel j (x % 32) }) ∧
      (∀ i, i < 2048 → only (.apertureStore σ j 8 (8 * i) 8 x) fun t => ∀ l a bank col, a < 64 → bank < 32 → col < 32 →
        (rowOf (t.line l a) bank).k.toList.getD col 0 =
          if l = j ∧ a = i / 32 ∧ bank = (mapGet T.sel j).getD 0 ∧ col = i % 32 then BitVec.ofNat 48 x
          else (rowOf (T.line l a) bank).k.toList.getD col 0) ∧
      ∀ off n, off + n ≤ 0x8000 → only (.apertureStore σ j 1 off n x) (fun t => t = T) ∧ only (.apertureStore σ j 2 off n x) fun t => t = T) ∧
    ∀ j rest, T.sup = j :: rest →
      let r := (mapGet T.recs j).getD 0
      let now (t : State) : Nat := (mapGet (t.stackAt σ).recs j).getD 0
      let status (t : State) (x : Nat) : Prop := bits (now t) 63 32 = x ∧ bits (now t) 31 0 = bits r 31 0 ∧ (t.stackAt σ).sup = T.sup
      (bits r 63 32 ≠ 0 → only (.supervisorCommand σ) fun t => t = { T with recs := t.recs, sup := T.sup.filter fun x => decide (x ≠ j) } ∧
        (∀ x, x ≠ j → mapGet t.recs x = mapGet T.recs x) ∧ bits ((mapGet t.recs j).getD 0) 7 0 = 0 ∧
        ∀ k, 8 ≤ k → ((mapGet t.recs j).getD 0).testBit k = r.testBit k) ∧
      (bits r 63 32 = 0 → s.supCommand σ j r = none → ∃ t, exec (.supervisorCommand σ) s = .next t ∧ t = { s with lkStacks := t.lkStacks } ∧
        status t 2 ∧ (∀ n, n ≠ σ → t.stackAt n = s.stackAt n) ∧ ∀ i a, (t.stackAt σ).line i a = T.line i a) ∧
      ∀ c, bits r 63 32 = 0 → s.supCommand σ j r = some c → c.op = .lkinit ∨ c.op = .lkclr → T.isFenced (sliceOf (coreOfSlice σ j)) = false → T.Sound → j < 32 →
        (∀ x ∈ s.coreLookups (coreOfSlice σ j), x.2.op.isAcc = false) →
        let n := bits c.a.toNat 13 8 + 1
        ∃ t, exec (.supervisorCommand σ) s = .next t ∧ t = { s with lkStacks := t.lkStacks } ∧ status t 1 ∧
          ∀ i a, a < 64 → (t.stackAt σ).line i a = if i = j ∧ c.first ≤ a ∧ a < c.first + n
            then Vector.replicate 32 (if c.op = .lkinit then { exp := BitVec.ofNat 9 c.b.toNat, val := true } else {}) else T.line i a

/-- `Claims.LookupTableEvents`, `Claims.LookupWrites`, `Claims.StackEvents` together. -/
def Obligations.LookupTableAndStackEvents : Prop :=
  Claims.LookupTableEvents ∧ Claims.LookupWrites ∧ Claims.StackEvents

/-! ### Events of the transfer engine (R296, R303, R304, R309, R310, R313, R314, R321) -/

/-- R296, R298, R303, R304: the oldest transfer command that may start and whose checks and pages are good starts with them pinned, and one
that fails them traps; the oldest started command whose effect is complete retires: gd where it has one, its token, its report
to `xerr`; an xwait waits for the acknowledgements of its hart's earlier sends. Bytes counted off leave their group's pending bytes, which may complete its phase. -/
def Claims.TransferCommandStartAndRetire : Prop :=
  (∀ (s : State) (c : ECmd), s.me.head true = some c →
    (s.me.mayStart c = false ∨ s.xferWaits c = true → exec .transferCommandStart s = .next s) ∧
    (s.me.mayStart c = true → s.xferWaits c = false → s.me.sb = [] →
      (∀ x va, s.beginTransfer c = .error (x, va) → exec .transferCommandStart s = .next (s.trapCmd c x va)) ∧
      ∀ k pins u, s.beginTransfer c = .ok (k, pins, u) →
        ((s.coreTransfers (coreOf s.cur)).map fun o => o.pins.length).sum + pins.length ≤ 512 →
        ∃ t, exec .transferCommandStart s = .next t ∧ s.SameBytes t ∧
          t = { s with me := t.me, cores := u.cores, windows := u.windows, poison := u.poison, snaps := t.snaps, seq := s.seq + 1 } ∧
          s.me.TokensTaken t.me c ∧
          t.me = { s.me with tok := t.me.tok, xq := s.me.xq.map fun o => if o.id = c.id then { k with started := true, stamp := s.seq, pins } else o })) ∧
  (∀ (s : State) (hart : Nat) (c : ECmd) (rest : List ECmd), (s.hart hart).xq = c :: rest → (∀ o ∈ rest, o.id ≠ c.id) → c.started = true →
    c.done = true ∨ c.op = .xwait ∨ c.op = .wctr → (s.hart hart).mayRelease c = true →
    (s.awaitsSends hart c = true → exec (.transferCommandRetire hart) s = .next s) ∧
    (s.awaitsSends hart c = false →
    let h := s.hart hart
    let res (x : Word) : Word := if c.op = .xwait then x
      else if c.op = .wctr then BitVec.ofNat 64 ((s.sends.filter fun d => d.hart = hart).map fun d => d.bytes.length).sum else c.res
    let retired (xerr xepc : Word) : Prop := ∃ t, exec (.transferCommandRetire hart) s = .next t ∧
      t = { s with me := t.me, others := t.others, snaps := t.snaps } ∧ (∀ k, k ≠ hart → t.hart k = s.hart k) ∧
      t.hart hart = { h with ug := (t.hart hart).ug, sg := (t.hart hart).sg, tok := (t.hart hart).tok, xq := rest
                             csr := { h.csr with xerr, xepc } } ∧
      h.TokenGiven (t.hart hart) c ∧
      ∀ r, Hart.g { t.hart hart with level := c.level } r =
        if c.op.writesG = true ∧ r = c.d ∧ r ≠ 0 then res xerr else Hart.g { h with level := c.level } r
    (c.reports = [] → retired h.csr.xerr h.csr.xepc) ∧
    (∀ r, c.reports = [r] → r.cond ∈ [2, 4, 5, 6, 8] → h.csr.xerr.getLsbD 0 = false → h.csr.xerr.toNat < 2 ^ 48 →
      retired (BitVec.ofNat 64 (2 ^ 48 + r.unit % 2048 * 2 ^ 32 + r.cond * 2 ^ 8 + 1)) (c.pc &&& ~~~3#64)))) ∧
  ∀ (s : State) (k l g n : Nat) (x : Group), s.counted[k]? = some (l, g, n) → s.groupOf l g = some x →
    ∃ t y, exec (.pendingBytesSubtract k) s = .next t ∧ t = { s with counted := s.counted.eraseIdx k, launches := t.launches } ∧
      t.groupOf l g = some y ∧ y.SettledFrom { x with pending := x.pending - BitVec.ofNat 32 n } ∧
      ∀ i j, (i ≠ l ∨ j ≠ g) → t.groupOf i j = s.groupOf i j

/-- R305, R306, R308, R323: the writes that a starting copy forms. Byte by byte and in their order they are those of xcopy's and xfill's
steps in nest order, of xgather's rows in ascending row, of a page in ascending address, and of xshape's records' elements, i0
innermost; runs are moved by aligned granules of 8 bytes and single bytes (R302). The records and the index list are what the
start has read. -/
def Claims.TransferWritesFormed : Prop :=
  (∀ (s u : State) (c k : ECmd) (pins : List TlbEntry), s.beginTransfer c = .ok (k, pins, u) →
    let steps := nestSums c.nest
    let run := List.range c.b.toNat
    (c.op = .xcopy → (∀ w ∈ k.out, (∃ src r, w.move = .copy src r) ∧ w.ofRun) ∧
      copiesOf k.out = steps.flatMap fun x => run.map fun (b : Nat) =>
        (addr64 (c.x.toNat + x.2.1 + b), addr64 (c.a.toNat + x.1 + b))) ∧
    (c.op = .xfill → (∀ w ∈ k.out, (∃ x, w.move = .value x) ∧ w.ofRun) ∧
      valuesOf k.out = steps.flatMap fun x => run.map fun (b : Nat) =>
        let a := addr64 (c.x.toNat + x.2.1 + b)
        (a, bits c.a.toNat (8 * (a % 8) + 7) (8 * (a % 8)))) ∧
    (c.op = .pgin ∨ c.op = .pgout → ∃ p ∈ pins, p.covers c.asid c.a.toNat = true ∧ (∀ w ∈ k.out, (∃ src r, w.move = .copy src r) ∧ w.ofRun) ∧
      copiesOf k.out = (List.range (2 ^ p.size)).map fun b => (c.b.toNat + b, c.a.toNat + b)) ∧
    (c.op = .xgather → ∀ p1 p2 t v, s.pin c [{ va := c.a.toNat, bytes := 32, kind := .load, early := true }] = .ok (p1, t) →
      let l := t.snapshot c p1 c.a.toNat 32
      let size := bytesAt l 16 4
      let n := bytesAt l 20 4
      let code := bytesAt l 28 1
      let w := if code % 2 = 0 then 4 else 8
      t.pin c [{ va := bytesAt l 8 8, bytes := n * w, kind := .load, early := true }]
        [{ va := c.a.toNat, bytes := 32, kind := .load, early := true }] = .ok (p2, v) →
      let list := v.snapshot c p2 (bytesAt l 8 8) (n * w)
      copiesOf k.out = (List.range n).flatMap fun (i : Nat) => (List.range size).map fun (b : Nat) =>
        let x : Int := if code < 2 then (bytesAt list (i * w) w : Nat) else sint (8 * w) (bytesAt list (i * w) w)
        (addr64 (c.x.toNat + i * sint 32 (bytesAt l 24 4) + b), addr64 ((bytesAt l 0 8 : Nat) + x * size + b))) ∧
    (c.op = .xshape → ∀ p1 t, s.pin c (c.aSteps.map fun v => { va := v, bytes := 64, kind := .load, early := true }) = .ok (p1, t) →
      k.out = (c.aSteps.map fun v => shapeOf (t.snapshot c p1 v 64)).flatMap (·.writes))) ∧
  ∀ (l : List Nat) (i0 i1 i2 : Nat),
    let r := shapeOf l
    let e (k : Nat) : Nat := bytesAt l (16 + 4 * k) 4
    let at' (base o : Nat) : Nat :=
      addr64 (base + i0 * sint 32 (bytesAt l o 4) + i1 * sint 32 (bytesAt l (o + 4) 4) + i2 * sint 32 (bytesAt l (o + 8) 4))
    i0 < e 0 → i1 < e 1 → i2 < e 2 →
    ∃ w, r.writes[(i2 * e 1 + i1) * e 0 + i0]? = some w ∧ w.va = at' (bytesAt l 8 8) 40 ∧
      (bytesAt l 52 1 = 0xFF → w.bytes = 2 ^ bytesAt l 54 1 ∧ w.move = .copy (at' (bytesAt l 0 8) 28) none) ∧
      ∀ f g, bytesAt l 52 1 < 15 → bytesAt l 53 1 < 15 → Fmt.ofCode (BitVec.ofNat 4 (bytesAt l 52 1)) = some f →
        Fmt.ofCode (BitVec.ofNat 4 (bytesAt l 53 1)) = some g →
        w.bytes = g.bytes ∧
        w.move = .convert (at' (bytesAt l 0 8) 28) f g (RM.ofCode (BitVec.ofNat 2 (bytesAt l 55 1))) (bit (bytesAt l 55 1) 2)

/-- R302, R305, R306, R308, R323: a turn of a started copy makes one of its writes at the key that its pages give. The bytes there become the
value, or what the source holds now, converted where the write converts, and every other byte stays; they are counted off where
the command's `xbar` names a group (R304). Once a page move has written its page, one turn exchanges frame and tier attribute of
the two leaf entries and takes both addresses from every translation cache; where the tier page is no longer the one copied it has
condition 6. Errors in the source and refused destinations are not stated here. -/
def Claims.TransferWrites : Prop :=
  ∀ (s : State) (hart n j : Nat) (rest : List Turn), s.stands = false → Memory.wf s.mem = true →
    let p := ({ s with agenda := rest } : State).begin
    let core := coreOf hart
    p.me.sb = [] → p.poison = [] →
    ∀ c : ECmd, (p.hart hart).startedAt true n = some c →
    let now (t : State) (k : ECmd) : Prop := t.hart hart = (p.hart hart).transferNow c k ∧ ∀ m, m ≠ hart → t.hart m = p.hart m
    (s.agenda = .write hart true n j :: rest → c.op ∈ [EOpc.xcopy, .xfill, .xshape, .xgather, .pgin, .pgout] →
      ∀ (w : Pending) (key : Nat), c.out[j]? = some w → (∀ i y, i < j → c.out[i]? = some y → p.meets core c y w = false) →
        p.pinKey core c w.va = some key → p.Writable key w.bytes → p.xferDrop c key = none →
        let count : List (Nat × Nat × Nat) := match c.launch with
          | some l => if c.xbar.getLsbD 8 = true ∧ c.op ≠ .pgin ∧ c.op ≠ .pgout then [(l, c.xbar.toNat % 256, w.bytes)] else []
          | none => []
        let stored (x : Nat) : Prop := ∃ t k, step s = .next t.endStep ∧ p.BytesStored t key w.bytes x ∧
          p.StoreFrame { t with others := p.others, counted := p.counted } ∧ t.counted = p.counted ++ count ∧ now t k ∧
          k = { c with out := c.out.eraseIdx j, held := k.held }
        let source (src b ks : Nat) : Prop := b ∈ [1, 2, 4, 8] ∧ src % b = 0 ∧ src < 2 ^ 64 ∧ p.pinKey core c src = some ks ∧ p.unreached ks = false
        (∀ x, w.move = .value x → stored x) ∧
        (∀ src ks, w.move = .copy src none → source src w.bytes ks → stored (p.read ks w.bytes)) ∧
        (∀ src run (ks : Nat → Nat), w.move = .copy src (some run) → w.ofRun → c.held = [] → src < 2 ^ 64 →
          (∀ i, i < w.bytes → p.pinKey core c ((src + i) % 2 ^ 64) = some (ks i) ∧ p.unreached (ks i) = false) →
          stored (ofBytes ((List.range w.bytes).map fun i => p.read (ks i) 1))) ∧
        (∀ src ks f g rm sat, w.move = .convert src f g rm sat → source src f.bytes ks →
          stored (convert f g rm sat (p.read ks f.bytes)).bits)) ∧
    (s.agenda = .work hart n :: rest → c.op = .pgin ∨ c.op = .pgout → c.out = [] → c.done = false → c.step = 0 →
      let root := entryAddr (p.hart hart).csr.ptroot.toNat
      let tier := if c.op = .pgin then c.a.toNat else c.b.toNat
      ∀ ka kb pin, p.leafKey core c.a.toNat walkLevels root = some ka → p.leafKey core c.b.toNat walkLevels root = some kb →
        c.pins.find? (·.covers c.asid tier) = some pin → p.PlainAt ka 8 → p.PlainAt kb 8 → (ka + 8 ≤ kb ∨ kb + 8 ≤ ka) →
        let a := BitVec.ofNat 64 (p.read ka 8)
        let b := BitVec.ofNat 64 (p.read kb 8)
        let swap : Word := 0x00FFFFFFFFFFF040
        let x := if c.op = .pgin then a else b
        let same := entryAddr x.toNat = entryAddr pin.leaf.toNat ∧ x.getLsbD 6 = true
        (same → ∃ t, step s = .next t.endStep ∧ now t { c with step := 1 } ∧
          p.StoreFrame { t with others := p.others, clusters := p.clusters } ∧
          (∀ i, i < 8 → t.seen (ka + i) = ((a &&& ~~~swap) ||| (b &&& swap)).toNat / 256 ^ i % 256 ∧
            t.seen (kb + i) = ((b &&& ~~~swap) ||| (a &&& swap)).toNat / 256 ^ i % 256) ∧
          (∀ k, (k < ka ∨ ka + 8 ≤ k) → (k < kb ∨ kb + 8 ≤ k) → t.seen k = p.seen k) ∧
          ∀ m, (∀ e ∈ (t.coreAt m).tlb ++ (t.coreAt m).itlb ++ (t.clusterAt m).itlb,
            e.covers c.asid c.a.toNat = false ∧ e.covers c.asid c.b.toNat = false)) ∧
        (¬ same → ∃ t, step s = .next t.endStep ∧ p.SameBytes t ∧
          now t { c with step := 1, reports := c.reports ++ [{ cond := 6, unit := p.pkg.number.toNat }] }))

/-- `Claims.TransferCommandStartAndRetire`, `Claims.TransferWritesFormed`, `Claims.TransferWrites` together. -/
def Obligations.TransferCommandEvents : Prop :=
  Claims.TransferCommandStartAndRetire ∧ Claims.TransferWritesFormed ∧ Claims.TransferWrites

/-- R309, R310, R321: a train's element performs its op on the old value at its home and leaves every other byte: one of another package at
once, the acting package's own at its arrival, one sent to another package at its acknowledgement, with the condition reported;
a refused element changes nothing. An accepted nmx hands its elements to their homes, or reports condition 4. -/
def Claims.TrainAndExpressionEvents : Prop :=
  ∀ (s : State), Memory.wf s.mem = true → s.me.sb = [] →
    let frame (t : State) : Prop := s.StoreFrame { t with others := s.others, counted := s.counted }
    (∀ hart op w fmt key x,
      let n := 2 ^ (w % 4)
      let here := s.keyOf 0 .user key ≠ none ∧ s.keyPackage key = s.pkg.number.toNat ∧ key < 2 ^ 56
      (here → s.Writable key n → ∃ t, exec (.trainArrival hart [(key, x)] op w fmt) s = .next t ∧ s.StoreFrame t ∧ t.me = s.me ∧
        s.BytesStored t key n (trainValue op ((Fmt.ofCode fmt).getD .f32) n (s.read key n) (x % 2 ^ (8 * n)))) ∧
      (¬ here ∨ s.dropCond key ≠ none → exec (.trainArrival hart [(key, x)] op w fmt) s = .next s)) ∧
    (∀ hart c p op f x key, c ∈ (s.hart hart).xq → c.started = true → c.op = .strain → c.out = [p] → p.move = .train op f x →
      (∀ o ∈ (s.hart hart).xq, o.op = .strain → o = c) → s.pinKey (coreOf hart) c p.va = some key → s.Writable key p.bytes →
      let pkg := s.keyPackage key
      let new := trainValue op f p.bytes (s.read key p.bytes) x
      (∀ w fmt o, pkg = s.pkg.number.toNat →
        ∃ t k, exec (.trainArrival hart [] o w fmt) s = .next t ∧ frame t ∧ s.BytesStored t key p.bytes new ∧
          t.hart hart = (s.hart hart).transferNow c k ∧ k = { c with out := [], prog := mapSet c.prog pkg 1, cover := k.cover, spoilt := k.spoilt } ∧
          ∀ n, n ≠ hart → t.hart n = s.hart n) ∧
      (∀ cond, pkg ≠ s.pkg.number.toNat → mapGet c.prog pkg = some 0 →
        let k : ECmd := { c with out := [], prog := mapSet c.prog pkg 1
                                 reports := if cond = 0 then c.reports else c.reports ++ [{ cond, unit := pkg }] }
        (∃ t cover spoilt, exec (.trainAcknowledgement hart pkg cond []) s = .next t ∧ frame t ∧ s.BytesStored t key p.bytes new ∧
          t.hart hart = (s.hart hart).transferNow c { k with cover, spoilt }) ∧
        ∃ t, exec (.trainAcknowledgement hart pkg cond [0]) s = .next t ∧ s.SameBytes t ∧ t.mem = s.mem ∧
          t.hart hart = (s.hart hart).transferNow c k)) ∧
    ∀ hart c, c ∈ (s.hart hart).xq → c.started = true → c.op = .nmx → c.done = false → (∀ o ∈ (s.hart hart).xq, o.op = .nmx → o = c) →
      (mapGet c.data 0 = none → (s.hart hart).csr.xerr.getLsbD 0 = false → (s.hart hart).csr.xerr.toNat < 2 ^ 48 →
        ∃ t, exec (.nmxAccept hart) s = .next t ∧ t = { s with me := t.me, others := t.others, snaps := t.snaps } ∧
          t.hart hart = { (s.hart hart).transferNow c { c with done := true } with
            csr := { (s.hart hart).csr with xerr := BitVec.ofNat 64 (2 ^ 48 + s.pkg.number.toNat % 2048 * 2 ^ 32 + 4 * 2 ^ 8 + 1)
                                            xepc := c.pc &&& ~~~3#64 } }) ∧
      ∀ els, s.exprElems (coreOf hart) c = (els, []) → els ≠ [] →
        ∃ t, exec (.nmxAccept hart) s = .next t ∧ t = { s with me := t.me, others := t.others, snaps := t.snaps } ∧
          t.hart hart = { (s.hart hart).transferNow c { c with done := true } with
            rf := (s.hart hart).rf ++ [{ id := c.id, pc := c.pc, elems := els }] }

/-- R313, R314: a send from another package to a window with its tag and room performs its bytes and then adds their number to the
inbound counter; one that the window does not take changes nothing. A send of this package lands so or with condition 2, and bytes that
the window's memory refuses are reported as it lands: that such a send still makes both counter adds is log entry 28 (DEDUCED), and
that bytes and count perform in one event is log entry 31 (DEDUCED). Its acknowledgement adds the length to the outbound counter, or reports its
condition, or with condition 8 does both, and ends it. -/
def Claims.SendEvents : Prop :=
  ∀ (s : State), Memory.wf s.mem = true → s.me.sb = [] →
    let counter (t : State) (key n : Nat) : Prop := s.BytesStored t key 8 ((s.read key 8 + n) % 2 ^ 64)
    (∀ id tag off (l : List Nat),
      ((∀ w, mapGet s.windows id = some w → w.tag ≠ tag ∨ w.size < off + l.length) → exec (.sendArrival 0 id tag off l) s = .next s) ∧
      ∀ w key c, mapGet s.windows id = some w → w.tag = tag → off + l.length ≤ w.size → l ≠ [] →
        (∀ i, i < l.length → s.windowKey w (w.base + off + i) = some (key + i) ∧ s.Writable (key + i) 1) →
        s.windowKey w w.counter = some c → s.Writable c 8 → (c + 8 ≤ key ∨ key + l.length ≤ c) →
        ∃ t, exec (.sendArrival 0 id tag off l) s = .next t ∧ s.StoreFrame t ∧ t.me = s.me ∧
          (∀ i x, l[i]? = some x → t.seen (key + i) = x % 256) ∧
          (∀ j, j < 8 → t.seen (c + j) = (s.read c 8 + l.length) % 2 ^ 64 / 256 ^ j % 256) ∧
          ∀ k, (k < key ∨ key + l.length ≤ k) → (k < c ∨ c + 8 ≤ k) → t.seen k = s.seen k) ∧
    (∀ (k : Nat) (d : Send), s.sends[k]? = some d → d.pkg = s.pkg.number.toNat → d.landed = none →
      (s.land d.window d.tag d.off d.bytes d.bad = none →
        exec (.sendArrival (k + 1) 0 0 0 []) s = .next { s with sends := s.sends.set k { d with landed := some 2 } }) ∧
      (∀ u, s.land d.window d.tag d.off d.bytes d.bad = some u → s.landReports d.window d.off d.bytes = [] →
        exec (.sendArrival (k + 1) 0 0 0 []) s = .next { u with sends := s.sends.set k { d with landed := some 0 } }) ∧
      (∀ u r, s.land d.window d.tag d.off d.bytes d.bad = some u → s.landReports d.window d.off d.bytes = [r] → r.cond = 8 →
        (u.hart d.hart).csr.xerr.getLsbD 0 = false → (u.hart d.hart).csr.xerr.toNat < 2 ^ 48 →
        ∃ t, exec (.sendArrival (k + 1) 0 0 0 []) s = .next t ∧
          t = { u with me := t.me, others := t.others, snaps := t.snaps, sends := s.sends.set k { d with landed := some 0 } } ∧
          t.hart d.hart = { u.hart d.hart with csr := { (u.hart d.hart).csr with
            xerr := BitVec.ofNat 64 (2 ^ 48 + r.unit % 2048 * 2 ^ 32 + 8 * 2 ^ 8 + 1), xepc := d.pc &&& ~~~3#64 } } ∧
          ∀ n, n ≠ d.hart → t.hart n = u.hart n) ∧
      ∀ cond, exec (.sendAcknowledgement k cond) s = .next s) ∧
    ∀ (k cond : Nat) (d : Send), s.sends[k]? = some d → (if d.pkg = s.pkg.number.toNat then d.landed else some cond) = some cond →
      let counted := s.counted ++ match d.counts with | some g => [(g.1, g.2, d.bytes.length)] | none => []
      (cond = 0 →
        (d.out = none → exec (.sendAcknowledgement k cond) s = .next { s with sends := s.sends.eraseIdx k, counted }) ∧
        ∀ key, d.out = some key → s.PlainAt key 8 → ∃ t, exec (.sendAcknowledgement k cond) s = .next t ∧
          t.sends = s.sends.eraseIdx k ∧ t.counted = counted ∧ s.StoreFrame { t with sends := s.sends, counted := s.counted } ∧
          counter t key d.bytes.length ∧ t.me = s.me) ∧
      (cond = 8 → ∀ key, d.out = some key → s.PlainAt key 8 → ∃ t, exec (.sendAcknowledgement k cond) s = .next t ∧
          t.sends = s.sends.eraseIdx k ∧ t.counted = counted ∧ counter t key d.bytes.length ∧
          s.StoreFrame { t with me := s.me, others := s.others, snaps := s.snaps, sends := s.sends, counted := s.counted }) ∧
      (cond ≠ 0 → cond ∉ [1, 3, 7] → (cond = 8 → d.out = none) → (s.hart d.hart).csr.xerr.getLsbD 0 = false → (s.hart d.hart).csr.xerr.toNat < 2 ^ 48 →
        ∃ t, exec (.sendAcknowledgement k cond) s = .next t ∧
          t = { s with me := t.me, others := t.others, snaps := t.snaps, sends := s.sends.eraseIdx k, counted } ∧
          t.hart d.hart = { s.hart d.hart with csr := { (s.hart d.hart).csr with
            xerr := BitVec.ofNat 64 (2 ^ 48 + d.pkg % 2048 * 2 ^ 32 + cond * 2 ^ 8 + 1), xepc := d.pc &&& ~~~3#64 } } ∧
          ∀ n, n ≠ d.hart → t.hart n = s.hart n)

/-- `Claims.TrainAndExpressionEvents`, `Claims.SendEvents` together. -/
def Obligations.TrainAndSendEvents : Prop :=
  Claims.TrainAndExpressionEvents ∧ Claims.SendEvents

/-! ### Synchronization (R336 to R344) -/

/-- R336, R337: a fence waits until the hart's queues are empty and, at package and domain scope, its return-free operations have
performed, and the stores that were kept back perform before it moves on; nmfence waits for its nma and nmx commands, its store
pairs of bank operations and its return-free operations. Each then moves on and changes nothing else. That fence.hart waits for
the same as fence.core is log entry 42 (DEDUCED). -/
def Obligations.FenceResults : Prop :=
  ∀ (s : State) (scope : Scope),
    let clear := s.me.quiet = true ∧ (4 ≤ scope.code.toNat → s.me.rf = [])
    let near := (∃ c ∈ s.me.xq, c.op = .nma ∨ c.op = .nmx) ∨ (∃ i ∈ s.me.vq, ∃ l, i.work = .convoy l ∧ ∃ m ∈ l, m.op.bank.isSome = true ∧ m.op.op.isStore = true) ∨ s.me.rf ≠ []
    (clear → s.me.sb = [] → Changes (.fence scope) s id) ∧
    (clear → ∃ t, exec (.fence scope) s = .next t ∧ t.me.sb = [] ∧ ∀ r, t.g r = s.g r) ∧
    (¬ clear → exec (.fence scope) s = .next (s.stall .drain)) ∧
    (¬ near → Changes .nmfence s id) ∧ (near → exec .nmfence s = .next (s.stall .drain))

/-- R340, R341, R342: bar records its arrival at the group's record and leaves the hart waiting for the phase: that it retires as it
arrives, and the hart waits at PC + 4, is log entry 41 (DEDUCED); barexp adds to the
pending bytes. The phase advances with the last condition met. A hart that is no member of the group takes the
sync-operand trap. -/
def Obligations.BarrierResults : Prop :=
  ∀ (s : State) (a b : BitVec 5),
    let id := (s.g a).toNat % 256
    (s.myGroup id = none →
      exec (.bar a) s = .next (s.trap .syncOperand (fieldsVal (fieldsOf (.bar a)))) ∧
      exec (.barexp a b) s = .next (s.trap .syncOperand (fieldsVal (fieldsOf (.barexp a b))))) ∧
    ∀ l g, s.myGroup id = some (l, g) →
      let complete (x : Group) : Prop := 0 < x.arrived ∧ x.members ≤ x.arrived + x.exited ∧ x.pending = 0
      let settled (x y : Group) : Prop :=
        (complete x → y = { x with phase := x.phase + 1, arrived := 0 }) ∧ (¬ complete x → y = x)
      (s.me.quiet = true → s.me.rf = [] → s.me.sb = [] →
        ∃ t y, exec (.bar a) s = .next t ∧ t = { s with me := t.me, launches := t.launches } ∧
          Hart.Moved { s.me with barWait := some (id, g.phase, s.me.level) } t.me ∧
          t.groupOf l id = some y ∧ settled { g with arrived := g.arrived + 1 } y ∧
          ∀ k j, (k ≠ l ∨ j ≠ id) → t.groupOf k j = s.groupOf k j) ∧
      (s.me.quiet = true →
        ∃ t y, exec (.barexp a b) s = .next t ∧ t = { s with me := t.me, launches := t.launches } ∧ s.me.Moved t.me ∧
          t.groupOf l id = some y ∧ settled { g with pending := g.pending + (s.g b).setWidth 32 } y ∧
          ∀ k j, (k ≠ l ∨ j ≠ id) → t.groupOf k j = s.groupOf k j) ∧
      (s.me.quiet = false ∨ s.me.rf ≠ [] → exec (.bar a) s = .next (s.stall .drain)) ∧
      (s.me.quiet = false → exec (.barexp a b) s = .next (s.stall .drain))

/-- R343: itpost posts its iteration where its distance from the frontier is below 64, and the frontier moves past what is posted;
itwait goes on once the frontier has passed the iteration. Neither changes another pair's entry, a register or memory.
A full ring is the ring-full trap, and a group that is not the hart's the sync-operand trap. -/
def Claims.IterationRing : Prop :=
  ∀ (s : State) (a : BitVec 5), s.core.fmask.getLsbD 14 = true →
    let id := (s.g a).toNat % 256
    let n := (s.g a).toNat / 256
    (s.myGroup id = none → ∀ i ∈ [Instr.itpost a, .itwait a], exec i s = .next (s.trap .syncOperand (fieldsVal (fieldsOf i)))) ∧
    ∀ l g, s.myGroup id = some (l, g) →
      (¬ s.RingRoom l id → ∀ i ∈ [Instr.itpost a, .itwait a], exec i s = .next (s.trap .ringFull (BitVec.ofNat 64 id))) ∧
      (s.RingRoom l id →
        let e := s.ringEntryOf l id
        let same (t : State) : Prop := t = { s with me := t.me, dies := t.dies } ∧
          ∀ k j, (k ≠ l ∨ j ≠ id) → t.ringEntryOf k j = s.ringEntryOf k j
        (e.map.getLsbD 0 = false → n < e.frontier + 64 → s.me.quiet = true → s.me.sb = [] →
          ∃ t, exec (.itpost a) s = .next t ∧ same t ∧ s.me.Moved t.me ∧
            (∀ k, (t.ringEntryOf l id).posted k ↔ e.posted k ∨ k = n) ∧ ¬ (t.ringEntryOf l id).posted (t.ringEntryOf l id).frontier) ∧
        (e.frontier + 64 ≤ n → s.me.quiet = true → s.me.sb = [] → ∃ t, exec (.itpost a) s = .next t ∧ same t ∧ t.me = { s.me with wait := .ring }) ∧
        (n < e.frontier → ∃ t, exec (.itwait a) s = .next t ∧ same t ∧ s.me.Moved t.me ∧ t.ringEntryOf l id = e) ∧
        (e.frontier ≤ n → ∃ t, exec (.itwait a) s = .next t ∧ same t ∧ t.me = { s.me with wait := .ring }))

/-- R344: pwait reads the word at gs1 as a scalar load does, and goes on if its distance from gs2, modulo 2^64, is below 2^63;
otherwise it waits at its PC. -/
def Claims.ProgressWait : Prop :=
  ∀ (s : State) (a b : BitVec 5) (key : Nat),
    (6 ≤ s.me.csr.escope.toNat → exec (.pwait a b) s = .next (s.trap .illegalScope (fieldsVal (fieldsOf (.pwait a b))))) ∧
    (s.me.csr.escope.toNat < 6 → s.Readable .load (s.g a) 8 key →
      let there := (BitVec.ofNat 64 (s.readMe key 8) - s.g b).toNat < 2 ^ 63
      ∃ t, exec (.pwait a b) s = .next t ∧ t = { s with me := t.me, cores := t.cores, poison := t.poison, uncached := t.uncached } ∧ s.SameBytes t ∧
        (there → s.me.Moved t.me) ∧ (¬ there → t.me = { s.me with wait := .progress }))

/-- `Claims.IterationRing`, `Claims.ProgressWait` together. -/
def Obligations.IterationAndProgress : Prop :=
  Claims.IterationRing ∧ Claims.ProgressWait

/-! ### Control and status registers, features, privilege (R351 to R356, R377) -/

/-- R352, R353, R377: a CSR instruction with no trap and nothing to wait for reads the old value into gd and, where it writes, applies
its new value; a csrrs or csrrc of g0 or 0 writes nothing. A supervisor register at user level, a write that R354 forbids and
a number that R354 does not list trap. feat reads one bit of `fmask`. -/
def Claims.CsrAccess : Prop :=
  (∀ (s : State) (d a u : BitVec 5) (csr : BitVec 12) (bit : BitVec 6),
    let n := csr.toNat
    let old := s.csrRead n
    (∀ e ∈ ([(Instr.csrrw d csr a, true, s.g a), (.csrrs d csr a, a ≠ 0, old ||| s.g a), (.csrrc d csr a, a ≠ 0, old &&& ~~~(s.g a)),
             (.csrrwi d csr u, true, u.setWidth 64), (.csrrsi d csr u, u ≠ 0, old ||| u.setWidth 64),
             (.csrrci d csr u, u ≠ 0, old &&& ~~~(u.setWidth 64))] : List (Instr × Bool × Word)),
      let writes := e.2.1 = true
      let word := fieldsVal (fieldsOf e.1)
      let user := s.me.level = .user
      let hidden := 0x100 ≤ n ∧ user
      let never := writes ∧ csrOnWrite n = .trap
      let above := writes ∧ csrOnWrite n = .userTrap ∧ user
      let waits := (n = 1 ∧ s.me.vq ≠ []) ∨ (writes ∧ (n = 0x108 ∨ n = 0x109) ∧ s.me.quiet = false)
      (hidden → exec e.1 s = .next (s.trap .privilege word)) ∧
      (¬ hidden → never → exec e.1 s = .next (s.trap .illegalInstruction word)) ∧
      (¬ hidden → above → exec e.1 s = .next (s.trap .privilege word)) ∧
      (¬ hidden → ¬ never → ¬ above →
        (waits → exec e.1 s = .next (s.stall .drain)) ∧
        (¬ waits → writes → exec e.1 s = .next ((s.csrWrite n e.2.2).write d old)) ∧
        (¬ waits → ¬ writes → Gives e.1 s d old 0))) ∧
    Gives (.feat d bit) s d (if s.core.fmask.getLsbD bit.toNat = true then 1 else 0) 0) ∧
  ∀ (d a : BitVec 5) (csr : BitVec 12) (k : BitVec 3), csrKnown csr = false →
    decode (Fields.i csr k a d 0x74).pack = .error .illegalInstruction

/-- R354, R8: a written register reads back its writable bits, and the others as zero; a bit written 1 to `fflags`, LCHG or
PEND is cleared and one written 0 stays. No other register changes, but that `drift` counts an emptied window after a write of
`asid` or `ptroot`. -/
def Claims.CsrFieldWrites : Prop :=
  ∀ (s : State) (x : Word),
    let all : Word := BitVec.allOnes 64
    (∀ e ∈ ([(0x002, 3), (0x003, 7), (0x014, 0x7FF), (0x015, 0x7FFFFFFFF), (0x017, ~~~7), (0x018, all), (0x021, 0x3FFD), (0x022, ~~~3)] ++
            [(0x023, 0xFFFFFFFF), (0x028, 0xFFFFFFFF), (0x030, ~~~3), (0x035, 0x1FF), (0x036, ~~~7), (0x100, 3), (0x101, ~~~3)] ++
            [(0x102, ~~~3), (0x103, 0x80000000000003FF), (0x104, all), (0x105, all), (0x107, 3), (0x108, 0x1FF)] ++
            [(0x109, 0x00FFFFFFFFFFF000), (0x10E, 0xFFF), (0x400, 0), (0x401, all), (0x40A, all), (0x41F, all)] : List (Nat × Word)),
      (s.csrWrite e.1 x).csrRead e.1 = x &&& e.2 ∧
      (e.1 ≠ 0x10E → ∀ m, m ≠ e.1 → (m = 0x020 → e.1 ≠ 0x108 ∧ e.1 ≠ 0x109) → (s.csrWrite e.1 x).csrRead m = s.csrRead m)) ∧
    (s.csrWrite 0x001 x).csrRead 0x001 = s.csrRead 0x001 &&& ~~~x ∧
    (s.csrWrite 0x013 x).me.csr.lchg = (s.me.csr.lchg && !x.getLsbD 8) ∧
    (s.csrWrite 0x106 x).me.csr.pend = s.me.csr.pend &&& ~~~(x.extractLsb' 8 3) ∧
    (s.csrWrite 0x106 x).me.csr.en = x.extractLsb' 0 3 ∧
    (s.csrWrite 0x10A x).csrRead 0x10A = x ∧
    (x.getLsbD 0 = true → (s.csrWrite 0x031 x).csrRead 0x031 = 0 ∧ (s.csrWrite 0x031 x).csrRead 0x032 = 0 ∧
      (s.csrWrite 0x033 x).csrRead 0x033 = 0 ∧ (s.csrWrite 0x033 x).csrRead 0x034 = 0) ∧
    (x.getLsbD 0 = false → s.csrWrite 0x031 x = s ∧ s.csrWrite 0x033 x = s) ∧ s.csrWrite 0x10B x = s

/-- `Claims.CsrAccess`, `Claims.CsrFieldWrites` together. -/
def Obligations.CsrResults : Prop :=
  Claims.CsrAccess ∧ Claims.CsrFieldWrites

/-- R351: each supervisor-only instruction raises the privilege trap at user level, with its word as VAL. -/
def Obligations.PrivilegeTraps : Prop :=
  ∀ (s : State) (a b : BitVec 5) (i : BitVec 12), s.me.level = .user →
    ∀ e ∈ [Instr.eret, .ctxsave a, .ctxrest a, .tlbinvVa a b, .tlbinvAsid a, .tlbinvAll, .cinv a i],
      exec e s = .next (s.trap .privilege (fieldsVal (fieldsOf e)))

/-! ### Traps, interrupts, halts and returns (R356 to R361, R374 to R376) -/

/-- R358, R357: a precise trap at user level with nothing older outstanding: `tpc` is the PC of the trapping instruction, `tcause` its
code, `tval` its VAL, PP the level before, and the hart stands at `tvec`. While something older is outstanding the trap is
due, and TRAP_ENTRY enters it. -/
def Claims.TrapEntryState : Prop :=
  ∀ (s : State) (c : Cause) (v : Word),
    (s.me.quiet = true → s.me.level = .user → c ≠ .syscall →
      s.Entered (s.trap c v) (BitVec.ofNat 64 c.code) v { pc := s.me.pc } s.me.csr.uie ∧
      s.Entered (s.trapFetch c v) (BitVec.ofNat 64 (256 + c.code)) v { pc := s.me.pc } s.me.csr.uie) ∧
    (s.me.quiet = false →
      s.trap c v = s.updMe fun h => { h with due := some (.trap { cause := c, val := v, pos := { pc := s.me.pc } }), wait := .none }) ∧
    (∀ (w : Bool) (pos : Position), s.me.quiet = true → s.me.level = .user → c ≠ .syscall →
      s.me.due = some (.trap { cause := c, val := v, lost := w, pos }) →
      ∃ t, exec .trapEntry s = .next t ∧
        s.Entered t (BitVec.ofNat 64 ((if w = true then 512 else 0) + c.code)) v pos s.me.csr.uie) ∧
    (s.me.due = none → exec .trapEntry s = .next s)

/-- R361, R358, R376: a system call enters the handler with `tpc` past it, code 0x1A and VAL 0, from either level; a breakpoint enters with
`tpc` at it and code 0x1B, or with BRKH set halts the hart there. -/
def Claims.CallAndBreakpoint : Prop :=
  ∀ (s : State), s.me.quiet = true →
    (s.me.csr.step = false → ∃ t, exec .syscall s = .next t ∧ s.Entered t 0x1A 0 { pc := s.me.pc + 4 } s.me.csr.uie) ∧
    (s.me.level = .user → s.me.csr.brkh = false →
      ∃ t, exec .brk s = .next t ∧ s.Entered t 0x1B 0 { pc := s.me.pc } s.me.csr.uie) ∧
    (s.me.csr.brkh = true → ∃ t, exec .brk s = .next t ∧ s.Halted t { pc := s.me.pc } ∧ s.SameBytes t)

/-- `Claims.TrapEntryState`, `Claims.CallAndBreakpoint` together. -/
def Obligations.TrapEntry : Prop :=
  Claims.TrapEntryState ∧ Claims.CallAndBreakpoint

/-- R360: a fault at supervisor level halts the hart at the faulting instruction with every CSR as it was, and adds a fault record
of kind 8 with the cause, the PC and, for causes 0x10 to 0x15, the address. Beyond the hart and its gang only the die's queue and
what the host is told differ. -/
def Obligations.DoubleTrap : Prop :=
  ∀ (s : State) (c : Cause) (v : Word), s.me.quiet = true → s.me.level = .supervisor → c ≠ .syscall →
    let q (t : State) := (t.dieAt (dieOf s.cur)).frq
    s.Halted (s.trap c v) { pc := s.me.pc } ∧ s.SameBytes (s.trap c v) ∧
    (let t := s.trap c v
     t = { s with me := t.me, others := t.others, dies := t.dies, sent := t.sent,
                  pkg := { s.pkg with sessions := t.pkg.sessions, outbox := t.pkg.outbox } }) ∧
    (4096 ≤ (q s).length → q (s.trap c v) = q s ∧ ((s.trap c v).dieAt (dieOf s.cur)).lost = (s.dieAt (dieOf s.cur)).lost + 1) ∧
    ((q s).length < 4096 →
      let addr : Word := if 0x10 ≤ c.code ∧ c.code ≤ 0x15 then v else 0
      let record : FaultRecord := { kind := 8, code := c.code, hart := s.cur, asid := s.me.csr.asid.toNat, pc := s.me.pc, addr }
      ∃ i, q (s.trap c v) = q s ++ [(i, record)] ∧ ∀ e ∈ q s, e.1 ≠ i)

/-! ### Events of traps, interrupts and registers (R107, R339, R357, R359, R364, R379, R399, R413, R441) -/

/-- R379, R357, R399, R341, R359, R413: the sources of the three interrupts. The cycle compare's pending bit is a level: it is up while
the count has reached `cyccmp` and down otherwise, and its rise sets the event bit. A doorbell and a pre-emption set their pending
bit and the hart's event bit and leave all else (that the compare's bit falls by itself is log entry 36, DEDUCED: R379 fixes when it is set); a pre-emption also notes the count from which its limit runs. It goes to a
waiter at a barrier whose group has a member that has not started, where its own launch has no idle eligible hart, or to a task of
the lowest priority below that of a starved launch, such a waiter ahead of the others of its launch. -/
def Claims.InterruptSources : Prop :=
  ∀ (s : State),
    let now := s.cycle (coreOf s.cur)
    let up := s.me.csr.pend.getLsbD 1
    (∃ t, exec .cycleCompare s = .next t ∧ t = { s with me := t.me, snaps := t.snaps } ∧
      (s.me.csr.cyccmp ≤ now → t.me = { s.me with
        csr := { s.me.csr with pend := s.me.csr.pend ||| 2 }, eventBit := s.me.eventBit || !up }) ∧
      (now < s.me.csr.cyccmp → t.me = { s.me with csr := { s.me.csr with pend := s.me.csr.pend &&& 5 } })) ∧
    ∀ n,
      let raised (k : Nat) (h : Hart) : Hart := { h with csr := { h.csr with pend := h.csr.pend ||| BitVec.ofNat 3 (2 ^ k) }, eventBit := true }
      let only (t : State) : Prop := t = { s with me := t.me, others := t.others, snaps := t.snaps } ∧ ∀ k, k ≠ n → t.hart k = s.hart k
      (∃ t, exec (.doorbell n) s = .next t ∧ only t ∧ t.hart n = raised 2 (s.hart n)) ∧
      (∀ l q, s.preemptible n = some (l, q) →
        let waiter := s.waitsForStart n = true ∧ ∃ x, mapGet s.launches l = some x ∧ s.noRoom x = true
        let lowest := ∃ p, s.starved = some p ∧ q < p ∧ (∀ h, h < 2304 → ∀ x, s.preemptible h = some x → q ≤ x.2) ∧
          (s.waitsForStart n = true ∨ ∀ h, h < 2304 → ∀ x, s.preemptible h = some x → x.1 = l → s.waitsForStart h = false)
        (waiter ∨ lowest →
          ∃ t, exec (.preemptionRequest n) s = .next t ∧ only t ∧
            t.hart n = { raised 0 (s.hart n) with preempt := some (s.cycle (coreOf n)) }) ∧
        (¬ waiter → ¬ lowest → exec (.preemptionRequest n) s = .next s)) ∧
      (s.preemptible n = none → exec (.preemptionRequest n) s = .next s)

/-- R107, R339: where nothing is queued, a hart that waits at a queue instruction whose queue still blocks it takes the queue-deadlock
trap, and one that waits so at a token instruction the token-deadlock trap, at its position; where a queued instruction is the oldest
blocked, the trap is taken there; a hart that does not wait, or whose queue no longer blocks it, takes none. When a hart is in such
a deadlock (`queueDeadlock`, `tokenDeadlock`), with which of the two for one that a token and a queue hold together, is the model's
reading: log entries 44 and 77 (DEDUCED). -/
def Claims.DeadlockTraps : Prop :=
  ∀ (s : State),
    let pos := s.me.restart.getD { pc := s.me.pc }
    (s.me.quiet = true → s.me.level = .user → ∀ k,
      ((s.me.wait = .queueEmpty k ∧ s.me.queue k = []) ∨ (s.me.wait = .queueFull k ∧ 16 ≤ (s.me.queue k).length) →
        ∃ t, exec .queueDeadlock s = .next t ∧ s.Entered t 0x17 0 pos s.me.csr.uie) ∧
      ((s.me.wait = .tokenEmpty k ∧ (s.me.tokens k).count = 0) ∨
       (s.me.wait = .tokenFull k ∧ 8 ≤ (s.me.tokens k).count + (s.me.tokens k).reserved) →
        ∃ t, exec .tokenDeadlock s = .next t ∧ s.Entered t 0x18 0 pos s.me.csr.uie)) ∧
    (∀ id, s.me.oldestOpen = some id →
      (s.me.queueDeadlock = true → exec .queueDeadlock s =
        .next ((s.rollbackTo id).post (.trap { cause := .queueDeadlock, val := 0, pos := s.me.openPosition id }))) ∧
      (s.me.tokenDeadlock = true → exec .tokenDeadlock s =
        .next ((s.rollbackTo id).post (.trap { cause := .tokenDeadlock, val := 0, pos := s.me.openPosition id })))) ∧
    (∀ k, (s.me.wait = .queueEmpty k ∧ s.me.queue k ≠ []) ∨ (s.me.wait = .queueFull k ∧ (s.me.queue k).length < 16) →
      exec .queueDeadlock s = .next s) ∧
    (s.me.wait = .none → s.me.due = none → exec .queueDeadlock s = .next s ∧ exec .tokenDeadlock s = .next s)

/-- `Claims.InterruptSources`, `Claims.DeadlockTraps` together. -/
def Obligations.InterruptAndDeadlock : Prop :=
  Claims.InterruptSources ∧ Claims.DeadlockTraps

/-! ### Traps, interrupts, halts and returns (R356 to R361, R374 to R376) -/

/-- R359: INTERRUPT_ENTRY at user level with UIE set takes the lowest pending enabled interrupt at the hart's resumable position, clears
UIE and leaves PEND; a wfe that waits is then complete, with the event bit clear (R414). With none, at supervisor level, or with UIE clear it does nothing. -/
def Obligations.InterruptEntry : Prop :=
  ∀ (s : State), s.me.task.isSome = true → s.me.halted = false → s.me.due = none → s.me.haltReq = false → s.me.leave = none →
    s.me.quiet = true →
    let from' : State := if s.me.wait = .event then { s with me := { s.me with eventBit := false } } else s
    let pos : Position := if s.me.wait = .event then { pc := s.me.pc + 4 } else s.me.restart.getD { pc := s.me.pc }
    let ready (k : Nat) : Prop := s.me.csr.pend.getLsbD k = true ∧ s.me.csr.en.getLsbD k = true
    (∀ k, k < 3 → s.me.level = .user → s.me.csr.uie = true → ready k → (∀ j, j < k → ¬ ready j) →
      ∃ t, exec .interruptEntry s = .next t ∧
        from'.Entered t (BitVec.ofNat 64 (2 ^ 63 + k)) 0 pos false) ∧
    ((s.me.level = .supervisor ∨ s.me.csr.uie = false ∨ ∀ k, k < 3 → ¬ ready k) → exec .interruptEntry s = .next s)

/-- R361, R140, R177: eret at supervisor level, with every earlier instruction retired and no save due, goes to the level in PP and to
`tpc`, sets UIE on a return to user level, leaves the hart detached with an empty window, and gives the next instruction the
position that the CSRs hold; the loop continues only if the PC is that of its next body word, and `lstat` otherwise keeps its word
alone (log entry 39, DEDUCED). Cause 4 for an attached hart is log entry 58 (DEDUCED). Where a save is due the hart waits for its return-free operations and is then saved (R399, R299). -/
def Obligations.ExceptionReturn : Prop :=
  ∀ (s : State), s.me.level = .supervisor →
    (s.me.quiet = false → exec .eret s = .next (s.stall .drain)) ∧
    (s.me.quiet = true → s.me.leave ≠ none →
      (s.me.rf ≠ [] → exec .eret s = .next (s.stall .drain)) ∧
      (s.me.rf = [] → ∀ u, s.saveContext s.cur {} false = some u → exec .eret s = .next u)) ∧
    (s.me.quiet = true → s.me.leave = none → s.me.preempt = none →
      let c := s.me.csr
      let live := c.loop.active = true ∧ c.tpc = c.lbase + BitVec.ofNat 64 (4 * c.loop.word.toNat)
      ∃ t, exec .eret s = .next t ∧ t = { s with me := t.me, others := t.others } ∧ s.SameBytes t ∧ s.LeftGang t 4 ∧
        t.me = { s.me with
          level := c.pp, pc := c.tpc, wait := .none, viaEret := true, win := [], gang := t.me.gang
          restart := some { pc := c.tpc, eix := c.eix, vsidx := c.vsidx, lanes := c.vpcm }
          loopLive := t.me.loopLive, csr := { c with uie := t.me.csr.uie, loop := t.me.csr.loop } } ∧
        (t.me.csr.uie = true ↔ c.pp = .user ∨ c.uie = true) ∧ (t.me.loopLive = true ↔ live) ∧
        (live → t.me.csr.loop = c.loop) ∧ (¬ live → t.me.csr.loop = { word := c.loop.word }))

/-- R374, R375: HALT of a hart with a task and nothing outstanding records its resumable position and leaves every CSR; RESUME continues a
halted hart from it. Neither changes a byte of memory. -/
def Obligations.HaltAndResume : Prop :=
  ∀ (s : State),
    (s.me.task.isSome = true → s.me.halted = false → s.me.due = none → s.me.quiet = true → s.me.wait ≠ .event →
      ∃ t, exec (.halt s.cur) s = .next t ∧ ({ s with me := { s.me with haltReq := false } } : State).Halted t (s.me.restart.getD { pc := s.me.pc }) ∧
        s.SameBytes t) ∧
    (∀ n, (s.hart n).task.isSome = true → (s.hart n).halted = true →
      ∃ t, exec (.resume n) s = .next t ∧ (t.hart n).halted = false ∧ (t.hart n).haltPos = {} ∧
        (t.hart n).pc = (s.hart n).haltPos.pc ∧ (t.hart n).restart = some (s.hart n).haltPos ∧ (t.hart n).ug = (s.hart n).ug ∧
        (t.hart n).csr.eix = (s.hart n).csr.eix ∧ (t.hart n).csr.vsidx = (s.hart n).csr.vsidx ∧
        (t.hart n).csr.vpcm = (s.hart n).csr.vpcm ∧ ∀ k, k ≠ n → t.hart k = s.hart k) ∧
    ∀ n, (s.hart n).halted = false → ∃ t, exec (.resume n) s = .next t ∧ ∀ k, t.hart k = s.hart k

/-! ### Context save and restore, translations (R370 to R373) -/

/-- R371: ctxsave with an aligned address, a translated range of plain memory, and nothing outstanding writes the sealed image of the user
context there and sets `cxstat` to 0; every other byte stays. A misaligned address traps. -/
def Claims.ContextSave : Prop :=
  ∀ (s : State) (a : BitVec 5) (parts : List Part), s.me.level = .supervisor →
    let va := s.g a
    let saved : Csrs := { s.me.csr with energy := s.energyNow, sample := s.energyCount }
    let image := sealedImage { s.me with csr := saved } s.me.csr.returnPosition
    let inside (k : Nat) : Prop := ∃ p ∈ parts, p.key ≤ k ∧ k < p.key + p.bytes
    (va.toNat % 64 ≠ 0 → exec (.ctxsave a) s = .next (s.trap .misalignedAccess va)) ∧
    (va.toNat % 64 = 0 → s.xlateRange .store va.toNat (imageBody s.me.lanes + 64) = .ok parts → s.me.Clear →
      Memory.wf s.mem = true → (∀ p ∈ parts, s.PlainAt p.key p.bytes) →
      parts.Pairwise (fun p q => p.key + p.bytes ≤ q.key ∨ q.key + q.bytes ≤ p.key) → (∀ k, (s.me.tokens k).count < 256) → (∀ k, (s.me.queue k).length < 256) →
      ∃ t, exec (.ctxsave a) s = .next t ∧ t.readParts parts = image ∧ (∀ k, ¬ inside k → t.seen k = s.seen k) ∧
        Hart.Moved { s.me with csr := { saved with cxstat := 0 } } t.me)

/-- R373: ctxrest of a translated image checks it. An uncorrectable error that its read meets is `cxstat` 1, be it transient or not
(log entry 65, DEDUCED); the first check that fails sets `cxstat` and leaves the hart otherwise as it was; a good
image whose quads are free replaces the user context, the ASID and the quads, and sets `cxstat` to 0. -/
def Claims.ContextRestore : Prop :=
  ∀ (s : State) (a : BitVec 5) (header parts : List Part), s.me.level = .supervisor → s.me.quiet = true → (s.g a).toNat % 64 = 0 →
    s.xlateRange .load (s.g a).toNat 64 = .ok header →
    let quads := bytesAt (s.readParts header) 6 1
    s.xlateRange .load (s.g a).toNat (imageBody (16 * quads) + 64) = .ok parts →
    let l := s.readParts parts
    let free := s.freeQuads (coreOf s.cur) (some s.cur)
    let refused (n : Nat) : Prop := ∃ t, exec (.ctxrest a) s = .next t ∧ t = { s with me := t.me, cores := t.cores, poison := t.poison } ∧
      Hart.Moved { s.me with csr := { s.me.csr with cxstat := BitVec.ofNat 64 n } } t.me
    (s.poisonedParts parts = true → refused 1) ∧
    (s.poisonedParts parts = false → imageCheck l s.core.fmask ≠ 0 → refused (imageCheck l s.core.fmask)) ∧
    (s.poisonedParts parts = false → imageCheck l s.core.fmask = 0 → free.length < bytesAt l 6 1 → refused 4) ∧
    (s.poisonedParts parts = false → imageCheck l s.core.fmask = 0 → bytesAt l 6 1 ≤ free.length → s.me.gang.state = .detached →
      let h := s.me.loadImage l (takeQuads free (bytesAt l 6 1) (bytesAt l 7 1 / 2 % 8)) s.energyCount
      ∃ t, exec (.ctxrest a) s = .next t ∧ t = { s with me := t.me, cores := t.cores, poison := t.poison } ∧
        Hart.Moved { h with csr := { h.csr with cxstat := 0 }, slots := 0 } t.me)

/-- `Claims.ContextSave`, `Claims.ContextRestore` together. -/
def Obligations.ContextTransfer : Prop :=
  Claims.ContextSave ∧ Claims.ContextRestore

/-- R372, R373: a sealed image passes the checks on a core with the features it declares, and what it restores is what was saved (the
barrier wait's word and the quads are not stated here): the user registers, nest registers, tags, tokens, queues, masks, the vector registers in the lanes held, and the CSRs. -/
def Obligations.ContextImageRoundTrip : Prop :=
  ∀ (h g : Hart) (p : Position) (fmask : BitVec 15) (quads : Vector Quad 4) (x : Word),
    h.features &&& ~~~(fmask.setWidth 64) = 0 →
    (∀ k, (h.tokens k).count ≤ 8) → (∀ k, (h.queue k).length ≤ 16) → fileGet (w := 5) 0 h.ug = 0 →
    (∀ t, h.task = some t → t.launch < 4096 ∧ t.index < 2 ^ 32) →
    h.csr.lkwin &&& 3 = 0 → h.csr.wout &&& 7 = 0 → h.csr.vprog &&& 7 = 0 → h.csr.xbar.toNat < 512 → h.csr.lbase &&& 3 = 0 →
    h.csr.ptroot &&& 0x00FFFFFFFFFFF000 = h.csr.ptroot → h.csr.lkepc &&& 3 = 0 → h.csr.xepc &&& 3 = 0 →
    h.csr.lkerr &&& 0xFFFF001F1F1F0F01 = h.csr.lkerr → h.csr.xerr &&& 0xFFFF07FF00000F01 = h.csr.xerr →
    let l := sealedImage h p
    let r := g.loadImage l quads x
    imageCheck l fmask = 0 ∧ l.length = imageBody h.lanes + 64 ∧
    r.ug = h.ug ∧ r.nest = h.nest ∧ r.tag = h.tag ∧ r.q = h.q ∧ r.m = h.m ∧ r.features = h.features ∧
    (∀ k, (r.tokens k).count = (h.tokens k).count) ∧ (h.task ≠ none → r.task = h.task) ∧
    (∀ n k, k < 256 * h.lanes → (fileGet (w := 5) n r.v).getLsbD k = (fileGet (w := 5) n h.v).getLsbD k) ∧
    r.csr.tpc = p.pc &&& ~~~3#64 ∧ r.csr.eix = p.eix ∧ r.csr.vsidx = p.vsidx ∧ r.csr.vpcm = p.lanes ∧
    r.csr.fflags = h.csr.fflags ∧ r.csr.vrm = h.csr.vrm ∧ r.csr.escope = h.csr.escope ∧ r.csr.vl = h.csr.vl ∧
    r.csr.vlFmt = h.csr.vlFmt ∧ r.csr.vlGrp = h.csr.vlGrp ∧ r.csr.vstrip = h.csr.vstrip ∧ r.csr.lchg = h.csr.lchg ∧
    r.csr.vprog = h.csr.vprog ∧ r.csr.vpcnt = h.csr.vpcnt ∧ r.csr.lkwin = h.csr.lkwin ∧ r.csr.lkerr = h.csr.lkerr ∧
    r.csr.lkepc = h.csr.lkepc ∧ r.csr.xerr = h.csr.xerr ∧ r.csr.xepc = h.csr.xepc ∧ r.csr.xbar = h.csr.xbar ∧ r.csr.wout = h.csr.wout ∧ r.csr.loop = h.csr.loop ∧
    r.csr.lbase = h.csr.lbase ∧ r.csr.lix = h.csr.lix ∧ r.csr.asid = h.csr.asid ∧ r.csr.ptroot = h.csr.ptroot ∧
    r.csr.cyccmp = h.csr.cyccmp ∧ r.csr.wear = h.csr.wear ∧ r.csr.energy = h.csr.energy ∧ r.csr.uie = h.csr.uie ∧ r.csr.pp = h.csr.pp ∧
    r.eventBit = h.eventBit

/-- R370: each tlbinv at supervisor level, once earlier accesses have performed and no pin holds a matching entry, leaves no matching
entry in any TLB or instruction TLB, keeps every other one, empties the walk caches, and changes no byte. -/
def Claims.TranslationRemoval : Prop :=
  ∀ (s : State) (a b : BitVec 5), s.me.level = .supervisor → s.me.Clear →
    ∀ e ∈ ([(Instr.tlbinvVa a b, fun t => t.maps ((s.g b).setWidth 9) (s.g a).toNat),
            (.tlbinvAsid a, fun t => t.asid = (s.g a).setWidth 9 ∧ t.leaf.getLsbD 7 = false), (.tlbinvAll, fun _ => True)] :
           List (Instr × (TlbEntry → Prop))),
      (∀ p ∈ s.allPins s.seq, ¬ e.2 p) →
      ∃ t, exec e.1 s = .next t ∧ t = { s with me := t.me, cores := t.cores, clusters := t.clusters } ∧ s.me.Moved t.me ∧ s.SameBytes t ∧
        ∀ n, (∀ x, x ∈ (t.coreAt n).tlb ↔ x ∈ (s.coreAt n).tlb ∧ ¬ e.2 x) ∧ (∀ x, x ∈ (t.coreAt n).itlb ↔ x ∈ (s.coreAt n).itlb ∧ ¬ e.2 x) ∧
          (∀ x, x ∈ (t.clusterAt n).itlb ↔ x ∈ (s.clusterAt n).itlb ∧ ¬ e.2 x) ∧ (t.coreAt n).walk = []

/-! ### Events of traps, interrupts and registers (R107, R339, R357, R359, R364, R379, R399, R413, R441) -/

/-- R8, R292, R303, R355, R364, R368, R441: the register events and the management interface's. Each changes what it names and leaves all
else: a CSR's fields, the reports, the ASID with its table, a fault record, a halted hart's context image, or an entry of a
translation cache that no pin holds. A write into a context image sets the hart as its load would (log entry 45, DEDUCED), but keeps the
task and the quads that the header gives, and each of the loop bounds, the barrier wait, the tokens and the queues that no byte of
it meets. -/
def Claims.RegisterEvents : Prop :=
  ∀ (s : State),
    (∀ n x, exec (.registerWrite n x) s = .next (s.csrWrite n x)) ∧
    exec .lkerrClear s = .next { s with me := { s.me with csr := { s.me.csr with lkerr := 0, lkepc := 0 } } } ∧
    exec .xerrClear s = .next { s with me := { s.me with csr := { s.me.csr with xerr := 0, xepc := 0 } } } ∧
    (∀ asid root,
      (s.me.quiet = false → exec (.asidWrite asid root) s = .next s) ∧
      (s.me.quiet = true → ∃ t, exec (.asidWrite asid root) s = .next t ∧ t.csrRead 0x108 = asid.setWidth 64 ∧
        t.csrRead 0x109 = root &&& 0x00FFFFFFFFFFF000 ∧
        (s.me.gang.state = .detached → t.me.win = []) ∧
        t = { s with me := { s.me with win := t.me.win, csr := { s.me.csr with asid := t.me.csr.asid, ptroot := t.me.csr.ptroot } } })) ∧
    (∀ i, ∃ t, exec (.frqack i) s = .next t ∧ t = { s with dies := t.dies } ∧ (∀ d, d ≠ dieOf s.cur → t.dieAt d = s.dieAt d) ∧
      t.dieAt (dieOf s.cur) = { s.dieAt (dieOf s.cur) with
        frq := (s.dieAt (dieOf s.cur)).frq.filter fun e => decide (e.1 ≠ i % 4096 ∨ e.2.hart ≠ s.cur) }) ∧
    (∀ d i, ∃ t, exec (.recordRemoval d i) s = .next t ∧ t = { s with dies := t.dies } ∧ (∀ k, k ≠ d → t.dieAt k = s.dieAt k) ∧
      t.dieAt d = { s.dieAt d with frq := (s.dieAt d).frq.filter fun e => decide (e.1 ≠ i) }) ∧
    (∀ n off l,
      let h := s.hart n
      let old := imageBytes h h.csr.returnPosition
      let legal := h.halted = true ∧ 64 ≤ off ∧ off + l.length ≤ imageBody h.lanes
      (¬ legal → exec (.contextImageWrite n off l) s = .next s) ∧
      (legal → ∀ new : List Nat, new.length = old.length →
        (∀ k, k < old.length → new[k]? = if off ≤ k ∧ k < off + l.length then l[k - off]? else old[k]?) →
        ∃ t, exec (.contextImageWrite n off l) s = .next t ∧ t = { s with me := t.me, others := t.others } ∧
          (∀ k, k ≠ n → t.hart k = s.hart k) ∧
          let x := h.loadImage new h.csr.quads h.csr.sample
          let meets (o k : Nat) : Bool := decide (off < o + k) && decide (o < off + l.length)
          let queues := meets 968 8 || meets 1024 1024
          t.hart n = { x with
            task := h.task, changed := h.changed
            bounds := if meets 224 8 then x.bounds else h.bounds
            barWait := if meets 304 8 then x.barWait else h.barWait
            tok := if meets 960 8 then x.tok else h.tok
            q := if queues then x.q else h.q
            debt := if queues then x.debt else h.debt })) ∧
    ∀ n k, ∀ e, (s.coreAt n).tlb[k]? = some e →
      (e ∈ s.allPins s.seq → ∃ t, exec (.tlbEntryDrop 0 n k) s = .next t ∧ ∀ m, t.coreAt m = s.coreAt m) ∧
      (e ∉ s.allPins s.seq → ∃ t, exec (.tlbEntryDrop 0 n k) s = .next t ∧ t = { s with cores := t.cores } ∧
        (∀ m, m ≠ n → t.coreAt m = s.coreAt m) ∧ t.coreAt n = { s.coreAt n with tlb := (s.coreAt n).tlb.eraseIdx k })

/-- `Claims.TranslationRemoval`, `Claims.RegisterEvents` together. -/
def Obligations.TranslationAndRegisterEvents : Prop :=
  Claims.TranslationRemoval ∧ Claims.RegisterEvents

/-! ### Task instructions (R410 to R415) -/

/-- R411: launch reads its record as one load, waits for the release, and writes the launch number or bit 63 with the status: a record out
of its limits or, from a user task, of another ASID has status 1, and a full table status 4. -/
def Obligations.LaunchResults : Prop :=
  ∀ (s : State) (d a : BitVec 5) (key : Nat), s.Readable .load (s.g a) 128 key → s.me.Clear →
    let l := leBytes 128 (s.readMe key 128)
    let foreign := s.me.level = .user ∧ bytesAt l 36 2 ≠ s.me.csr.asid.toNat
    ∃ t x, exec (.launch d a) s = .next t ∧ s.GWritten t d x ∧ Hart.Moved { s.me with ug := t.me.ug, sg := t.me.sg } t.me ∧ s.SameBytes t ∧
      (foreign ∨ s.recordGood l = false → x = BitVec.ofNat 64 (2 ^ 63 + 1) ∧ t.launches = s.launches) ∧
      (¬ foreign → s.recordGood l = true → 4096 ≤ s.launches.length → x = BitVec.ofNat 64 (2 ^ 63 + 4) ∧ t.launches = s.launches) ∧
      (¬ foreign → s.recordGood l = true → s.launches.length < 4096 →
        ∃ n y, n < 4096 ∧ x = BitVec.ofNat 64 n ∧ mapGet s.launches n = none ∧ mapGet t.launches n = some y ∧ y.record = l ∧
          y.stage = .accepted ∧ ∀ k, k ≠ n → mapGet t.launches k = mapGet s.launches k)

/-- R414, R412: wfe goes on and clears the event bit where it is set, and otherwise waits. yield of a user task goes on without effect where no
launch of its priority has work waiting or no slot is free, and otherwise hands the hart to the save. At supervisor level it also
saves for a pre-emption request (PEND bit 0), and goes on without effect where there is neither that nor work; that the request
is dropped where no slot is free, or none can be written, is log entry 50 (DEDUCED). -/
def Claims.WaitAndYield : Prop :=
  ∀ (s : State),
    (s.me.eventBit = true → Changes .wfe s fun h => { h with eventBit := false }) ∧
    (s.me.eventBit = false → exec .wfe s = .next (s.stall .event)) ∧
    (s.myLaunch = none → Changes .yield s id) ∧
    ∀ l, s.myLaunch = some l →
      let offer := s.offered (recPriority l.record) = true
      (s.me.level = .user → (¬ offer ∨ l.freeSlot = none) → Changes .yield s id) ∧
      (s.me.level = .user → offer → l.freeSlot ≠ none → s.me.quiet = true → s.me.rf = [] →
        ∀ u, s.saveContext s.cur { pc := s.me.pc + 4 } false = some u → exec .yield s = .next (u.updMe Hart.clearPreempt)) ∧
      (s.me.level = .supervisor → s.me.csr.pend.getLsbD 0 = false → ¬ offer → Changes .yield s id) ∧
      (s.me.level = .supervisor → s.me.csr.pend.getLsbD 0 = true ∨ offer →
        (l.freeSlot = none → Changes .yield s Hart.clearPreempt) ∧
        (l.freeSlot ≠ none →
          (s.me.quiet = false ∨ s.me.rf ≠ [] → exec .yield s = .next (s.stall .drain)) ∧
          (s.me.quiet = true → s.me.rf = [] →
            (∀ u, s.saveContext s.cur { pc := s.me.pc + 4 } false = some u → exec .yield s = .next (u.updMe Hart.clearPreempt)) ∧
            (s.saveContext s.cur { pc := s.me.pc + 4 } false = none → Changes .yield s Hart.clearPreempt))))

/-- R415: texit with everything retired and performed leaves the hart idle, with no task, quad, queue entry, token, mask or report; its
launch no longer runs the index, and has it counted as completed from user level and as aborted from supervisor level, with its
wear. -/
def Claims.TaskExit : Prop :=
  ∀ (s : State) (k : TaskId) (l : Launch), s.me.task = some k → mapGet s.launches k.launch = some l →
    (s.me.quiet = false ∨ s.me.rf ≠ [] → exec .texit s = .next (s.stall .drain)) ∧
    (s.me.quiet = true → s.me.rf = [] → s.me.sb = [] →
      ∃ t y, exec .texit s = .next t ∧ s.SameBytes t ∧
        t.me.task = none ∧ t.me.gang.state = .detached ∧ t.me.csr.lkerr = 0 ∧ t.me.csr.xerr = 0 ∧
        (∀ n, n < 4 → t.me.csr.quad n = .free) ∧ (∀ q, t.me.queue q = []) ∧ (∀ c, t.me.tokens c = {}) ∧ (∀ r, t.me.mask r = 0) ∧
        mapGet t.launches k.launch = some y ∧ y.running = l.running.filter (· ≠ k.index) ∧
        y.wear = (l.wear + s.me.csr.wear.toNat) % 2 ^ 64 ∧
        (s.me.level = .user → y.completed = l.completed + 1 ∧ y.aborted = l.aborted) ∧
        (s.me.level = .supervisor → y.completed = l.completed ∧ y.aborted = l.aborted + 1) ∧
        ∀ n, n ≠ k.launch → mapGet t.launches n = mapGet s.launches n)

/-- `Claims.WaitAndYield`, `Claims.TaskExit` together. -/
def Obligations.YieldAndTaskExit : Prop :=
  Claims.WaitAndYield ∧ Claims.TaskExit

/-! ### Events of launches and tasks (R383 to R400, R411, R422, R444) -/

/-- R383, R385, R387, R389, R391: the master takes up the oldest record of the host: a good one becomes a live launch under a free number,
a bad one is refused; a launch whose prerequisites are over becomes ready with its image, or ends with status 3 or the image's;
a die that asks receives the next eight indices; and a cancelled launch hands out nothing more and ends with status 9, its running
tasks counting as nothing (log entry 47, DEDUCED). That the image is read when the launch becomes ready, through its ASID's tables, is log
entry 46 (DEDUCED). -/
def Claims.LaunchEvents : Prop :=
  (∀ (s : State) (k : Nat) (l : List Nat) (rest : List (Nat × List Nat)), s.pkg.inbox = (k, l) :: rest →
    (s.recordGood l = true → s.launches.length < 4096 →
      ∃ t n y, exec .launchAccept s = .next t ∧ t.pkg.inbox = rest ∧ n < 4096 ∧ mapGet s.launches n = none ∧ mapGet t.launches n = some y ∧
        (∀ j, j < n → mapGet s.launches j ≠ none) ∧ (∀ j, j ≠ n → mapGet t.launches j = mapGet s.launches j) ∧
        y.record = l ∧ y.stage = .accepted ∧ y.session = some k ∧ y.order = s.accepted ∧ t.accepted = s.accepted + 1 ∧
        y.waits = (recPrereqs l).filter fun x => s.launches.any fun e => recId e.2.record == x) ∧
    (s.recordGood l = false ∨ 4096 ≤ s.launches.length →
      let status := if s.recordGood l = true then 4 else 1
      ∃ t, exec .launchAccept s = .next t ∧ t.pkg.inbox = rest ∧ t.launches = s.launches ∧
        ∀ x, s.pkg.sessions[k]? = some x → s.pkg.hostUp = true → s.pkg.paused = 0 → t.sent = s.sent ++
          [{ session := k, type := 2, seq := x.next, ack := x.expect - 1
             body := leBytes 8 (recId l) ++ leBytes 1 status ++ List.replicate 55 0 }])) ∧
  ∀ (s : State) (n : Nat) (l : Launch), mapGet s.launches n = some l →
    let becomes (i : Instr) (y : Launch) : Prop := ∃ t, exec i s = .next t ∧ t = { s with launches := t.launches } ∧
      mapGet t.launches n = some y ∧ ∀ j, j ≠ n → mapGet t.launches j = mapGet s.launches j
    (l.stage ≠ .accepted ∨ l.waits ≠ [] ∨ s.pkg.electing = true → exec (.launchReady n) s = .next s) ∧
    (l.stage = .accepted → l.waits = [] → s.pkg.electing = false →
      (l.blocked = true → recRUNF l.record = false → becomes (.launchReady n) { l with stage := .ended 3 }) ∧
      (l.blocked = false ∨ recRUNF l.record = true →
        (∀ y, s.readImage l = .ok y → becomes (.launchReady n) { y with stage := .running }) ∧
        ∀ st, s.readImage l = .error st → becomes (.launchReady n) { l with stage := .ended st })) ∧
    (∀ before after d more, s.service = before ++ (n, l) :: after → (∀ e ∈ before, s.asking e.1 e.2 = []) → s.asking n l = d :: more →
       l.again = [] →
       d < 9 ∧ l.hasBlock = true ∧ l.saved = [] ∧ s.openCores l d ≠ [] ∧ s.pkg.electing = false ∧
       ∃ t, exec .blockRequest s = .next t ∧ t = { s with launches := t.launches, pkg := { s.pkg with served := d } } ∧
         mapGet t.launches n = some { l with
           nextBlock := l.nextBlock + 1
           held := l.held ++ [(d, (List.range (min 8 (recTasks l.record - 8 * l.nextBlock))).map (8 * l.nextBlock + ·))] } ∧
         ∀ j, j ≠ n → mapGet t.launches j = mapGet s.launches j) ∧
    (l.stage = .running → ∃ t y, exec (.launchCancel n) s = .next t ∧ mapGet t.launches n = some y ∧
      y.status = (if l.status = 0 then 9 else min l.status 9) ∧ y.hasBlock = false ∧ y.held = [] ∧ y.saved = l.saved.filter s.lostSlot ∧
      y.running = l.running ∧ y.aborted = l.aborted ∧ y.completed = l.completed ∧ y.lost = l.lost ∧ (∀ j, j ≠ n → mapGet t.launches j = mapGet s.launches j) ∧
      ∀ h, h < 2304 → t.hart h = match (s.hart h).task with
        | some k => if k.launch = n ∧ (s.dieAt (dieOf h)).fenced = false then { s.hart h with leave := some (.ended false) } else s.hart h
        | none => s.hart h) ∧
    (l.stage = .accepted → ∃ t y, exec (.launchCancel n) s = .next t ∧ t = { s with launches := t.launches } ∧
      mapGet t.launches n = some y ∧ y.stage = .ended 9)

/-- R384, R386, R387, R411, R413, R422: a launch that is over has its completion record written: all of it in the device, or bytes 8 to 63
to the host and the id after them. With the id it leaves the live table, its status is remembered, and those that wait for it
wait no more. The id waits while its pair's priority is paused or the body has still to leave. A queue pair in error carries no record: it
is dropped with a fault record, which holds the completion's virtual address (log entry 48, DESIGN CHOICE). That the record is
written through the tables of the launch's ASID is log entry 46 (DEDUCED). -/
def Claims.CompletionEvents : Prop :=
  ∀ (s : State) (n : Nat) (l : Launch), mapGet s.launches n = some l → (s.launches.map (·.1)).Nodup →
    let id := recId l.record
    let record (st : Nat) := leBytes 8 id ++ leBytes 1 st ++ leBytes 7 0 ++
      [l.completed, l.aborted, l.lost, l.reissued, l.wear, l.energy].flatMap (leBytes 8)
    let gone (t : State) (st : Nat) : Prop := t.recent.head? = some (id, st) ∧ mapGet t.launches n = none ∧
      ∀ k, k ≠ n → mapGet t.launches k = (mapGet s.launches k).map fun x =>
        if x.waits.contains id then { x with waits := x.waits.filter (· ≠ id), blocked := x.blocked || st != 0 } else x
    (l.ready = none → exec (.completionRecordWrite n) s = .next s) ∧
    (∀ st, l.ready = some st →
      (recCDEV l.record = true → ∀ key, s.spaceParts (recAsid l.record) .store (recCompletion l.record) 64 = some [(key, 64)] →
        (s.store (key + 8) 56 (ofBytes ((record st).drop 8))).spaceParts (recAsid l.record) .store (recCompletion l.record) 8 = some [(key, 8)] →
        s.PlainAt key 64 → Memory.wf s.mem = true → s.me.sb = [] →
        ∃ t, exec (.completionRecordWrite n) s = .next t ∧ gone t st ∧
          (∀ i b, (record st)[i]? = some b → t.seen (key + i) = b) ∧ ∀ k, k < key ∨ key + 64 ≤ k → t.seen k = s.seen k) ∧
      (recCDEV l.record = false → ∀ qp q, s.pairOf l.session = some qp → mapGet s.pkg.qps qp = some q → s.pkg.hostUp = true → s.pkg.paused = 0 →
        ∃ t y, exec (.completionRecordWrite n) s = .next t ∧ mapGet t.launches n = some y ∧ y = { l with stage := .bodyWritten st qp } ∧
          mapGet t.pkg.qps qp = some { q with written := q.written ++ [(recCompletion l.record + 8, (record st).drop 8)] } ∧
          (∀ k, k ≠ n → mapGet t.launches k = mapGet s.launches k) ∧ s.SameBytes t)) ∧
    (∀ st qp, l.stage = .bodyWritten st qp → s.pkg.hostUp = false ∨ (∃ o ∈ s.pkg.outbox, o.onPair qp = true) ∨
        s.pkg.paused.getLsbD (Outgoing.write qp 0 []).priority = true →
      exec (.completionIdWrite n) s = .next s) ∧
    (∀ st qp q, l.stage = .bodyWritten st qp → s.pkg.hostUp = true → (∀ o ∈ s.pkg.outbox, o.onPair qp = false) →
      s.pkg.paused.getLsbD (Outgoing.write qp 0 []).priority = false → mapGet s.pkg.qps qp = some q →
      ∃ t, exec (.completionIdWrite n) s = .next t ∧ gone t st ∧ s.SameBytes t ∧
        mapGet t.pkg.qps qp = some { q with written := q.written ++ [(recCompletion l.record, leBytes 8 id)] }) ∧
    ∀ qp q, mapGet s.pkg.qps qp = some q →
      ((∀ e ∈ s.launches, ∀ st, e.2.stage ≠ .bodyWritten st qp) → exec (.queuePairError qp) s =
        .next { s with pkg := { s.pkg with
          qps := mapSet s.pkg.qps qp { q with error := true }
          outbox := s.pkg.outbox.filter fun o => !o.onPair qp } }) ∧
      ∀ st, s.launches = [(n, l)] → l.stage = .bodyWritten st qp →
        (s.dieAt s.pkg.master).frq.length < 4096 →
        ∃ t i r, exec (.queuePairError qp) s = .next t ∧ gone t st ∧ (t.dieAt s.pkg.master).frq = (s.dieAt s.pkg.master).frq ++ [(i, r)] ∧
          r.kind = 6 ∧ r.code = 3 ∧ r.addr = BitVec.ofNat 64 (recCompletion l.record)

/-- `Claims.LaunchEvents`, `Claims.CompletionEvents` together. -/
def Obligations.LaunchAndCompletionEvents : Prop :=
  Claims.LaunchEvents ∧ Claims.CompletionEvents

/-- R388, R394, R395, R397, R400: a die places a task that it holds of the launch served first on its least worn eligible core, at the entry
of the image, with the task's registers and the lowest free quads; a full block of eight starts as a gang, index 8m + j on core j, in the
cluster least worn of those with a slot of the gang free on every core (R444); a halted hart that is to leave has its context written into the
lowest free slot and becomes idle, but not after a supply-loss warning (R434); a saved context whose image passes its checks resumes on
the hart, and one that does not is lost: that its check 2, as its check 1, loses it is log entry 50 (DEDUCED), and the state of the
resumed hart beyond the image log entry 45 (DEDUCED). -/
def Obligations.PlacementEvents : Prop :=
  (∀ (s : State) (die n i : Nat) (l : Launch) (before after : List (Nat × Launch)),
    s.service = before ++ (n, l) :: after → (∀ e ∈ before, s.canServe die e.2 = false) → s.canServe die l = true →
    mapGet s.launches n = some l → ∀ b, l.held = [(die, b)] → i ∈ b → (∀ j ∈ b, i ≤ j) → l.lockMember i = false →
    (b.length = 8 → ∀ c, 8 * die ≤ c → c < 8 * die + 8 → s.gangSlot l c = none) →
    let fit (c : Nat) : Prop := c ∈ s.openCores l die ∧ l.laneMin ≤ (s.freeQuads c none).length
    ((∀ c, ¬ fit c) → exec (.taskPlacement die) s = .next s) ∧
    ((∃ c, fit c) → ∃ t c k y, exec (.taskPlacement die) s = .next t ∧ fit c ∧ (∀ d, fit d → (s.coreAt c).index ≤ (s.coreAt d).index) ∧
      k < 4 ∧ (s.hart (4 * c + k)).idle = true ∧ (∀ j, j < k → (s.hart (4 * c + j)).idle = false) ∧
      (∀ h, h ≠ 4 * c + k → t.hart h = s.hart h) ∧ t = { s with me := t.me, others := t.others, launches := t.launches } ∧
      mapGet t.launches n = some y ∧ y.running = l.running ++ [i] ∧
      y.held = (if b.filter (fun j => decide (j ≠ i)) = [] then [] else [(die, b.filter fun j => decide (j ≠ i))]) ∧
      let h := t.hart (4 * c + k)
      let image := BitVec.ofNat 64 (recImage l.record)
      let X := recExtent l.record 0
      let Y := recExtent l.record 1
      h.task = some { launch := n, index := i } ∧ h.level = .user ∧ h.pc = image + BitVec.ofNat 64 l.entry ∧
      h.g 2 = image ∧ h.g 10 = BitVec.ofNat 64 (i % X) ∧ h.g 11 = BitVec.ofNat 64 (i / X % Y) ∧ h.g 12 = BitVec.ofNat 64 (i / (X * Y)) ∧
      h.g 13 = BitVec.ofNat 64 i ∧ h.g 14 = BitVec.ofNat 64 (recArgument l.record) ∧
      h.csr.asid = BitVec.ofNat 9 (recAsid l.record) ∧ h.gang.state = .detached ∧ h.gang.cause = 6 ∧
      ∀ q, q < 4 → h.csr.quad q = if q ∈ (s.freeQuads c none).take l.lanes then .owned else .free)) ∧
  (∀ (s : State) (die n m : Nat) (l : Launch) (b : List Nat) (before after : List (Nat × Launch)),
    s.service = before ++ (n, l) :: after → (∀ e ∈ before, s.canServe die e.2 = false) → s.canServe die l = true →
    mapGet s.launches n = some l → l.held = [(die, b)] → b.length = 8 → (∀ j, j < 8 → 8 * m + j ∈ b) → (∀ i ∈ b, l.lockMember i = false) →
    let takes (c k : Nat) : Prop := 8 * die ≤ c ∧ c < 8 * die + 8 ∧ s.gangSlot l c = some k
    (∃ c k, takes c k) → ∃ t c k y, exec (.taskPlacement die) s = .next t ∧ takes c k ∧ (∀ d j, takes d j → s.worst c ≤ s.worst d) ∧
      k < 4 ∧ (∀ j, j < 8 → (s.hart (32 * c + 4 * j + k)).idle = true) ∧
      t = { s with me := t.me, others := t.others, launches := t.launches } ∧ mapGet t.launches n = some y ∧ y.held = [] ∧
      y.running = l.running ++ b ∧ (∀ h, (∀ j, j < 8 → h ≠ 32 * c + 4 * j + k) → t.hart h = s.hart h) ∧
      ∀ j, j < 8 →
        let h := t.hart (32 * c + 4 * j + k)
        h.task = some { launch := n, index := 8 * m + j } ∧ h.gang.state = .attached ∧ h.level = .user ∧
        h.pc = BitVec.ofNat 64 (recImage l.record) + BitVec.ofNat 64 l.entry ∧ h.g 13 = BitVec.ofNat 64 (8 * m + j)) ∧
  (∀ (s : State) (k : TaskId) (l : Launch) (slot : Nat) (parts : List (Nat × Nat)), s.me.task = some k → mapGet s.launches k.launch = some l →
    s.me.halted = true → s.me.leave = some .preempt → s.me.preempt = none → s.me.rf = [] → s.me.sb = [] → l.freeSlot = some slot →
    (s.pkg.status = 2 → exec (.hardwareSave s.cur) s = .next s) ∧
    (s.pkg.status ≠ 2 →
    let image := s.savedImage s.me s.me.haltPos
    s.spaceParts (recAsid l.record) .store (recSaveArea l.record + 73728 * slot) image.length = some parts →
    (∀ p ∈ parts, s.PlainAt p.1 p.2) → parts.Pairwise (fun p q => p.1 + p.2 ≤ q.1 ∨ q.1 + q.2 ≤ p.1) → Memory.wf s.mem = true →
    (∀ b ∈ image, b < 256) →
    ∃ t y, exec (.hardwareSave s.cur) s = .next t ∧ (parts.flatMap fun p => leBytes p.2 (t.read p.1 p.2)) = image ∧
      (∀ x, (∀ p ∈ parts, x < p.1 ∨ p.1 + p.2 ≤ x) → t.seen x = s.seen x) ∧
      t.me.task = none ∧ t.me.halted = false ∧ t.me.leave = none ∧ (∀ q, q < 4 → t.me.csr.quad q = .free) ∧
      mapGet t.launches k.launch = some y ∧ y.running = l.running.filter (· ≠ k.index) ∧
      y.saved = l.saved ++ [⟨k.index, .area slot, s.me.csr.vstrip.toNat, s.me.csr.wear.toNat, (s.energyOf s.me).toNat⟩])) ∧
  (∀ (s : State) (n : Nat), (s.hart n).task = none → exec (.hardwareSave n) s = .next s) ∧
  ∀ (s : State) (hart n : Nat) (l : Launch), s.servedBy (dieOf hart) = some (n, l) → s.eligible l (coreOf hart) = true →
    s.pkg.electing = false → (s.hart hart).idle = true → mapGet s.launches n = some l →
    ((∀ x ∈ l.saved, s.imageFits l (coreOf hart) x = false) → exec (.contextResume hart) s = .next s) ∧
    ∀ x skipped more, l.saved = skipped ++ x :: more → (∀ y ∈ skipped, s.imageFits l (coreOf hart) y = false) →
    s.imageFits l (coreOf hart) x = true → (∀ y ∈ skipped ++ more, y.index ≠ x.index) →
    (s.slotImage l x.slot = none → exec (.contextResume hart) s = .next ((s.passSlot l x.slot).loseTask n x.index 7)) ∧
    ∀ img, s.slotImage l x.slot = some img →
      let free := s.freeQuads (coreOf hart) none
      let whole := bytesAt img 24 8 = taskWord (some { launch := n, index := x.index }) ∧ bytesAt img 12 2 = recAsid l.record
      let check := imageCheck img (s.coreAt (coreOf hart)).fmask
      (check = 1 ∨ check = 2 → exec (.contextResume hart) s = .next (s.loseTask n x.index 7)) ∧
      (¬ whole → check ≠ 1 → check ≠ 2 → ∃ t y, exec (.contextResume hart) s = .next t ∧ t = s.discardImage n x.index ∧
        mapGet t.launches n = some y ∧ y.lost = l.lost + 1 ∧ y.reissued = l.reissued ∧ y.again.Sublist l.again) ∧
      (whole → check = 0 → l.lockMember x.index = false →
        let e := (mapGet s.spaces (recAsid l.record)).getD {}
        ∃ t y, exec (.contextResume hart) s = .next t ∧
          t.hart hart = { resumedHart e img (takeQuads free (bytesAt img 6 1) (bytesAt img 7 1 / 2 % 8)) s.energyCount with
            sg := (s.hart hart).sg } ∧
          (∀ h, h ≠ hart → t.hart h = s.hart h) ∧ t = { s with me := t.me, others := t.others, launches := t.launches } ∧
          mapGet t.launches n = some y ∧ y.saved = skipped ++ more ∧ y.running = l.running ++ [x.index])

/-! ### Events of wear, faults and power (R149, R381, R404 to R409, R433) -/

/-- R381, R404, R405, R406, R149: an interval adds its wear to the core and the one context on it; INDEX never falls and the life state
moves forward at its thresholds. A lasting fault retires the core and makes its tasks leave; an unheld lane is replaced by the
quad's spare, or its quad is gone, with a record, and for a held one its holders are to be saved first; the ripening record is written to
flash. That an interval ends by an event, with its stress code and the monitors' index, is log entry 52 (DESIGN CHOICE). -/
def Claims.WearAndFaultEvents : Prop :=
  ∀ (s : State) (core : Nat),
    let c := s.coreAt core
    let hart (t : State) (k : Nat) : Hart := t.hart (4 * core + k)
    let others (t : State) : Prop := (∀ n, n ≠ core → t.coreAt n = s.coreAt n) ∧ (∀ h, (∀ k, k < 4 → h ≠ 4 * core + k) → t.hart h = s.hart h) ∧
      t.mem = s.mem ∧ t.launches = s.launches
    (∀ stress mon,
      let u := 4096 * max 1 (min stress 255) / 16
      let wu := (c.wu + u) % 2 ^ 64
      let index := max c.index (min 1000 (max (1000 * wu / c.rated) (min mon 1000)))
      ∃ t, exec (.wearInterval core stress mon) s = .next t ∧ others t ∧
        (t.coreAt core).wu = wu ∧ (t.coreAt core).mon = min mon 1000 ∧ (t.coreAt core).index = index ∧
        (index < 1000 → (t.coreAt core).life =
          if (c.life = .fresh ∨ c.life = .derated) ∧ 970 ≤ index then .drained else if c.life = .fresh ∧ 850 ≤ index then .derated else c.life) ∧
        (index = 1000 → (t.coreAt core).life =
          if c.life = .retired ∨ ((hart s 0).task = none ∧ (hart s 1).task = none ∧ (hart s 2).task = none ∧ (hart s 3).task = none) then .retired else .drained) ∧
        (index = 1000 → c.life ≠ .retired → (∃ k, k < 4 ∧ (hart s k).task ≠ none) → ∀ k, k < 4 →
          (hart t k).leave = if (s.preemptible (4 * core + k)).isSome then (hart s k).leave <|> some .preempt else (hart s k).leave) ∧
        (∀ k, k < 4 → (hart t k).slots = 0) ∧
        ∀ k, k < 4 → (hart s k).task ≠ none → (∀ j, j < 4 → j ≠ k → (hart s j).task = none) →
          (c.carry.toList.getD k (0, 1)).1 < (c.carry.toList.getD k (0, 1)).2 →
          (hart t k).csr.wear = (hart s k).csr.wear + BitVec.ofNat 64 u ∧ ∀ j, j < 4 → j ≠ k → (hart t j).csr.wear = (hart s j).csr.wear) ∧
    exec (.ripeningReplication core) s = .next { s with pkg := { s.pkg with flash := { s.pkg.flash with
      ripening := mapSet s.pkg.flash.ripening core [c.wu, c.rated, c.mon, c.index, c.life.code] } } } ∧
    (c.life = .retired → exec (.lastingFault core) s = .next s) ∧
    (c.life ≠ .retired → ∃ t, exec (.lastingFault core) s = .next t ∧ others t ∧ t.coreAt core = { c with life := .retired } ∧
      ∀ k, k < 4 → hart t k = if (hart s k).task ≠ none then { hart s k with leave := some .lasting } else hart s k) ∧
    ∀ lane, lane < 64 →
      let q := lane / 16
      (c.present q = false → exec (.laneRetirement core lane) s = .next s) ∧
      (c.present q = true → (∃ k, k < 4 ∧ (hart s k).holdsQuad q = true) →
        ∃ t, exec (.laneRetirement core lane) s = .next t ∧ others t ∧ t.coreAt core = c ∧ ∀ k, k < 4 →
          hart t k = if (hart s k).holdsQuad q = true ∧ (s.preemptible (4 * core + k)).isSome
            then { hart s k with leave := (hart s k).leave <|> some .preempt } else hart s k) ∧
      (c.present q = true → (∀ k, k < 4 → (hart s k).holdsQuad q = false) → (s.dieAt (core / 64)).frq.length < 4096 →
        ∃ t i r, exec (.laneRetirement core lane) s = .next t ∧ others t ∧ (∀ k, k < 4 → hart t k = hart s k) ∧
          (t.dieAt (core / 64)).frq = (s.dieAt (core / 64)).frq ++ [(i, r)] ∧ r.kind = 4 ∧ r.lane = lane ∧
          (∀ p, p < 4 → p ≠ q → bits (t.coreAt core).lmap.toNat (8 * p + 7) (8 * p) = bits c.lmap.toNat (8 * p + 7) (8 * p)) ∧
          (c.lmap.getLsbD (8 * q + 6) = false → bits (t.coreAt core).lmap.toNat (8 * q + 7) (8 * q) = 0xC0 + lane % 16) ∧
          (c.lmap.getLsbD (8 * q + 6) = true → (t.coreAt core).present q = false))

/-- R407, R408, R409, R433: a power step moves PWR by one between 3 and 15. When the least ceiling of a lock's members has changed, each
receives a proposal; a member's reply is its strip; with the last one, here and elsewhere, the pair is agreed at one more than
the greatest strip; and it reaches every member, whose stall then ends. A pair that every member has passed is forgotten. That members
on other packages come in as arguments of AGREEMENT (their ceiling) and of AGREEMENT_REPLY (number 2,304 their largest
strip, a higher one their least), and that the pair is formed here, is log entry 79 (DEDUCED). A member that has replied and left
counts in the strip with what it replied. -/
def Claims.PowerAndLockEvents : Prop :=
  ∀ (s : State),
    (∀ die up, ∃ t, exec (.powerCeilingStep die up) s = .next t ∧ t = { s with dies := t.dies } ∧ (∀ d, d ≠ die → t.dieAt d = s.dieAt d) ∧
      t.dieAt die = { s.dieAt die with pwr := (t.dieAt die).pwr } ∧
      (t.dieAt die).pwr.toNat = if up = true then min 15 ((s.dieAt die).pwr.toNat + 1)
        else if (s.dieAt die).pwr.toNat ≤ 3 then (s.dieAt die).pwr.toNat else (s.dieAt die).pwr.toNat - 1) ∧
    ∀ k x, s.locks[k]? = some x →
      let m := s.members x
      let harts (t : State) : Prop := t = { s with me := t.me, others := t.others, snaps := t.snaps, locks := t.locks }
      (∀ out c, (∀ h ∈ m, c ≤ s.ceilingAt h) → c ≤ out → c ≤ 15 → (c = out ∨ c = 15 ∨ ∃ h ∈ m, c = s.ceilingAt h) →
        let opens := (m ≠ [] ∨ out < 16) ∧ x.proposal = none ∧ (keptPairs x.pairs (s.lockStrips x)).length < 16 ∧ BitVec.ofNat 4 c ≠ x.last
        (¬ opens → exec (.agreement k out) s = .next s) ∧
        (opens → ∃ t, exec (.agreement k out) s = .next t ∧ harts t ∧
          t.locks = s.locks.set k { x with proposal := some (BitVec.ofNat 4 c), replies := [], gone := 0, agreed := none,
                                              far := decide (out < 16), toSend := [] } ∧
          ∀ h, t.hart h = if h ∈ m then { s.hart h with proposed := true } else s.hart h)) ∧
      let kept (l : List (BitVec 4 × Nat)) (p : BitVec 4 × Nat) : Prop := p ∈ l ∧ (p.2 = 0 ∨ ∃ z ∈ s.lockStrips x, z < p.2)
      let stays (t : State) (y : Lock) (j : Nat) : Prop := t.hart j = { s.hart j with pairs := (t.hart j).pairs } ∧
        (t.hart j).pairs.Sublist (s.hart j).pairs ∧ ∀ p ∈ (s.hart j).pairs, p ∈ y.pairs → p ∈ (t.hart j).pairs
      (∀ h c v, x.proposal = some c → x.agreed = none → x.toSend = [] → (if h < 2304 then h ∈ m else h = 2304 ∧ x.far = true) → m ≠ [] →
        (∀ r ∈ x.replies, r.1 ≠ h) →
        let replies := x.replies ++ [(h, if h < 2304 then (s.hart h).csr.vstrip.toNat else v % 2 ^ 32)]
        let strips := x.gone :: replies.map (·.2) ++ s.savedStrips x
        let here := replies.filter fun r => m.contains r.1 || decide (2304 ≤ r.1)
        let all := (∀ j ∈ m, ∃ r ∈ replies, r.1 = j) ∧ (x.far = true → ∃ r ∈ replies, 2304 ≤ r.1)
        (¬ all → ∃ t y, exec (.agreementReply k h v) s = .next t ∧ harts t ∧ t.locks = s.locks.set k y ∧ (∀ j, stays t y j) ∧
          y = { x with replies := here, gone := y.gone, pairs := y.pairs } ∧ y.gone ∈ strips ∧ x.gone ≤ y.gone ∧
          (∀ r ∈ replies, r ∉ here → r.2 ≤ y.gone) ∧ ∀ p, p ∈ y.pairs ↔ kept x.pairs p) ∧
        (all → ∃ t y n, exec (.agreementReply k h v) s = .next t ∧ harts t ∧ t.locks = s.locks.set k y ∧ (∀ j, stays t y j) ∧
          y = { x with replies := here, gone := y.gone, pairs := y.pairs, agreed := some (c, n), toSend := m, last := c } ∧
          (∀ z ∈ strips, z < n) ∧ n - 1 ∈ strips ∧ ∀ p, p ∈ y.pairs ↔ kept (x.pairs ++ [(c, n)]) p)) ∧
      (∀ h v, 2304 < h →
        (x.far = false → exec (.agreementReply k h v) s = .next s) ∧
        (x.far = true → x.proposal = none → x.agreed = none → ∃ t y, exec (.agreementReply k h v) s = .next t ∧ harts t ∧
          t.locks = s.locks.set k y ∧ y.farStrip = v % 2 ^ 32 ∧ (∀ j, stays t y j) ∧
          ∀ p, p ∈ y.pairs ↔ p ∈ x.pairs ∧ (p.2 = 0 ∨ v % 2 ^ 32 < p.2 ∨ (∃ z ∈ s.savedStrips x, z < p.2) ∨
            ∃ j ∈ m, (s.hart j).csr.vstrip.toNat < p.2))) ∧
      ∀ h p, x.agreed = some p → h ∈ x.toSend → h ∈ m →
        ∃ t y, exec (.pairArrival k h) s = .next t ∧ harts t ∧ t.locks = s.locks.set k y ∧
          t.hart h = { s.hart h with proposed := false, pairs := y.pairs } ∧ (∀ j, j ≠ h → stays t y j) ∧
          (∀ q, q ∈ y.pairs ↔ kept x.pairs q) ∧
          ((∀ j ∈ x.toSend, j ≠ h → j ∉ m) →
            y = { x with proposal := none, agreed := none, replies := [], gone := 0, toSend := [], pairs := y.pairs }) ∧
          ((∃ j ∈ x.toSend, j ≠ h ∧ j ∈ m) → y.agreed = some p ∧ y.proposal = x.proposal ∧
            ∀ j, j ∈ y.toSend ↔ j ∈ x.toSend ∧ j ≠ h ∧ j ∈ m)

/-- `Claims.WearAndFaultEvents`, `Claims.PowerAndLockEvents` together. -/
def Obligations.WearPowerAndLockEvents : Prop :=
  Claims.WearAndFaultEvents ∧ Claims.PowerAndLockEvents

/-! ### Events of the host port (R417 to R422, R428, R429, R441) -/

/-- R417, R418, R419, R420, R421, R429: a launch message goes to the master's list; an acknowledgement takes effect and no more; an
attestation request draws the report; a session open with a listed key draws a challenge and proves the key; a bad message is
dropped and counted. A write of the host performs and is acknowledged, or is refused whole; a retransmission sends a message
again. What is sent in a paused priority, a message, an answer or a write, waits until the pause ends. That a queue pair is bound by its
first write is log entry 53 (DEDUCED), and which priority a message or an answer has log entry 80 (DESIGN CHOICE). -/
def Claims.HostEvents : Prop :=
  (∀ (s s' : State) (peer k : Nat) (l : List Nat), s.Hears s' peer l k →
    let body := l.drop 32
    (msgType l = 1 → exec (.launchMessage peer l) s = .next { s' with pkg := { s'.pkg with inbox := s'.pkg.inbox ++ [(k, body)] } }) ∧
    (msgType l = 9 → exec (.acknowledgement peer l) s = .next s') ∧
    (msgType l = 7 → exec (.attestationRequest peer l) s = .next (s'.sendOn k 8 (s'.attest body))) ∧
    (msgType l = 11 →
      let key := body.drop 36
      let listed := ∃ d, s.pkg.keys[bytesAt body 32 4]? = some d ∧ d = Config.digest key
      let nonce := leBytes 32 (Config.freeNat s.free 0x421)
      ∀ x, s'.pkg.sessions[k]? = some x → s.pkg.paused = 0 →
        ∃ t y, exec (.sessionOpen peer l) s = .next t ∧ t.pkg.sessions[k]? = some y ∧ y.hostNonce = body.take 32 ∧
          (listed → y.key = some key ∧ y.devNonce = nonce ∧ t.free = s.free + 1 ∧ t.sent = s.sent ++
            [{ session := k, type := 12, seq := x.next, ack := x.expect - 1
               body := nonce ++ leBytes 8 Config.serial ++ leBytes 2 s.pkg.number.toNat }]) ∧
          (¬ listed → y.key = none ∧ t.sent = s.sent ++
            [{ session := k, type := 5, seq := x.next, ack := x.expect - 1, body := leBytes 4 3 ++ leBytes 4 0 }]))) ∧
  ∀ (s : State),
    let up := s.pkg.hostUp = true ∧ s.pkg.hostOpen = true
    (∀ peer l, up → msgGood l = false → bytesAt l 1 1 = 1 → exec (.launchMessage peer l) s =
      .next { s with pkg := { s.pkg with drops := (s.pkg.drops + 1) % 2 ^ 64 } }) ∧
    (∀ peer l, ¬ up → ∀ i ∈ [Instr.launchMessage peer l, .acknowledgement peer l, .sessionOpen peer l, .attestationRequest peer l],
      exec i s = .next s) ∧
    (∀ n j, exec (.messageRetransmit n j) s = .next (match (s.pkg.sessions[n]?).bind fun x => x.unacked[j]? with
      | some m => if s.pkg.hostUp = false then s
        else if s.pkg.paused.getLsbD (Config.priority m.type % 8) = true then
          { s with pkg := { s.pkg with outbox := s.pkg.outbox ++ [.message m] } }
        else { s with sent := s.sent ++ [m] }
      | none => s)) ∧
    (∀ mask pause, s.pkg.outbox = [] →
      ∃ t, exec (.priorityFlowControlFrame mask pause) s = .next t ∧ t = { s with pkg := { s.pkg with paused := t.pkg.paused } } ∧
      ∀ i, i < 8 → t.pkg.paused.getLsbD i = if mask / 2 ^ i % 2 = 1 then pause else s.pkg.paused.getLsbD i) ∧
    (∀ mask m, s.pkg.outbox = [.message m] → s.pkg.hostUp = true →
      let cleared := mask / 2 ^ (Config.priority m.type % 8) % 2 = 1 ∨ s.pkg.paused.getLsbD (Config.priority m.type % 8) = false
      ∃ t, exec (.priorityFlowControlFrame mask false) s = .next t ∧
        t = { s with pkg := { s.pkg with paused := t.pkg.paused, outbox := if cleared then [] else s.pkg.outbox }
                     sent := if cleared then s.sent ++ [m] else s.sent }) ∧
    (∀ mask qp ok q, s.pkg.outbox = [.answer qp ok] → s.pkg.hostUp = true → mapGet s.pkg.qps qp = some q →
      let k := (Outgoing.answer qp ok).priority
      (mask / 2 ^ k % 2 = 1 → ∃ t, exec (.priorityFlowControlFrame mask false) s = .next t ∧ t.pkg.outbox = [] ∧
        mapGet t.pkg.qps qp = some { q with answers := q.answers ++ [ok] }) ∧
      (mask / 2 ^ k % 2 = 0 → s.pkg.paused.getLsbD k = true → ∃ t, exec (.priorityFlowControlFrame mask false) s = .next t ∧
        t = { s with pkg := { s.pkg with paused := t.pkg.paused } })) ∧
    (∀ qp, exec (.congestionNotification qp) s = .next
      (if mapGet s.pkg.qps qp = none then s else { s with pkg := { s.pkg with congested := s.pkg.congested + 1 } })) ∧
    ∀ qp asid session va l q, up → s.queuePair qp asid session = some q → q.error = false →
      let answered (t : State) (ok : Bool) : Prop :=
        (s.pkg.paused.getLsbD (Outgoing.answer qp ok).priority = false → mapGet t.pkg.qps qp = some { q with answers := q.answers ++ [ok] }) ∧
        (s.pkg.paused.getLsbD (Outgoing.answer qp ok).priority = true → mapGet t.pkg.qps qp = some q ∧
          ∃ more, t.pkg.outbox = s.pkg.outbox ++ .answer qp ok :: more) ∧
        ∀ n, n ≠ qp → mapGet t.pkg.qps n = mapGet s.pkg.qps n
      (s.spaceParts q.asid .store va l.length = none → ∃ t, exec (.rdmaWrite qp asid session va l) s = .next t ∧
        t = { s with pkg := { s.pkg with qps := t.pkg.qps, notified := t.pkg.notified, outbox := t.pkg.outbox } } ∧ answered t false) ∧
      ∀ key, s.spaceParts q.asid .store va l.length = some [(key, l.length)] → l ≠ [] → s.PlainAt key l.length → Memory.wf s.mem = true →
        s.me.sb = [] → ∃ t, exec (.rdmaWrite qp asid session va l) s = .next t ∧ answered t true ∧ t.me = s.me ∧
          (∀ i b, l[i]? = some b → b < 256 → (∀ c ∈ l, c < 256) → t.seen (key + i) = b) ∧
          ∀ j, j < key ∨ key + l.length ≤ j → t.seen j = s.seen j

/-- R441, R428: a signed message is answered with status 3 and changes nothing where its session has proved no key, it is too short to hold a
signature, or its signature does not verify. Otherwise a good read of one word answers its value, and a write of one word
changes it, or the status says why not; a firmware chunk joins the assembly, and with the last the image becomes active if it
is good, and otherwise the old one stays with status 4. Which signatures and images are good is open in the model. That status 0 says
success and that the last chunk of an image is marked as such is log entry 53 (DESIGN CHOICE). -/
def Claims.ManagementEvents : Prop :=
  ∀ (s s' : State) (peer k : Nat) (l : List Nat) (x : Session), s.Hears s' peer l k → s'.pkg.sessions[k]? = some x →
    let body := l.drop 32
    let b := body.take (body.length - 3309)
    let unsigned : Prop := x.key = none ∨ body.length < 3309
    (unsigned →
      (msgType l = 3 → exec (.managementRead peer l) s = .next (s'.answered k 3 [])) ∧
      (msgType l = 4 → exec (.managementWrite peer l) s = .next (s'.answered k 3 [])) ∧
      ∀ last, msgType l = 6 → exec (.firmwareImageChunk peer l last) s = .next (s'.answered k 3 [])) ∧
    ∀ key, x.key = some key → 3309 ≤ body.length →
      let verified := Config.verified key (Config.digest (x.devNonce ++ x.hostNonce ++ l.take 32 ++ b)) (body.drop (body.length - 3309))
      let gives (i : Instr) (t : State) : Prop := exec i s = .next (if verified = true then t else s'.answered k 3 [])
      let off := bytesAt b 0 8
      (msgType l = 3 → b.length = 12 → bytesAt b 8 4 = 8 →
        (off % 8 ≠ 0 → gives (.managementRead peer l) (s'.answered k 2 [])) ∧
        (∀ v, off % 8 = 0 → s'.mgmtWord off = .ok v → gives (.managementRead peer l) (s'.answered k 0 (leBytes 8 v))) ∧
        ∀ e, off % 8 = 0 → e ≠ 0 → s'.mgmtWord off = .error e → gives (.managementRead peer l) (s'.answered k e [])) ∧
      (msgType l = 4 → b.length = 20 → bytesAt b 8 4 = 8 →
        (off % 8 ≠ 0 → gives (.managementWrite peer l) (s'.answered k 2 [])) ∧
        (∀ t, off % 8 = 0 → s'.writeMgmtWord off (bytesAt b 12 8) = .ok t → gives (.managementWrite peer l) (t.answered k 0 [])) ∧
        ∀ e, off % 8 = 0 → e ≠ 0 → s'.writeMgmtWord off (bytesAt b 12 8) = .error e →
          gives (.managementWrite peer l) (s'.answered k e [])) ∧
      (msgType l = 6 →
        let whole := s.pkg.flash.assembly ++ b
        let flash (f : Flash) : State := { s' with pkg := { s'.pkg with flash := f } }
        gives (.firmwareImageChunk peer l false) ((flash { s.pkg.flash with assembly := whole }).answered k 0 []) ∧
        gives (.firmwareImageChunk peer l true) (if Config.firmwareGood whole s.pkg.flash.params = true
          then (flash { s.pkg.flash with assembly := [], image := whole }).answered k 0 []
          else (flash { s.pkg.flash with assembly := [] }).answered k 4 []))

/-- `Claims.HostEvents`, `Claims.ManagementEvents` together. -/
def Obligations.HostAndManagementEvents : Prop :=
  Claims.HostEvents ∧ Claims.ManagementEvents

/-! ### Events of links, fences, power and boot (R401 to R403, R423 to R439) -/

/-- R401, R423, R424, R426, R439: a link event changes its port alone; a route names up to four next hops; a package is unreachable
until a route with a live port reaches it. A fence clears the features of what it takes away: a die goes with its stacks and
ports and starts an election, which, with no launch live, makes the lowest healthy die master. That links, routes and reports of
unreachable packages come as events with these arguments is log entry 61 (DESIGN CHOICE). -/
def Claims.LinkAndFenceEvents : Prop :=
  ∀ (s : State),
    let ports (t : State) : Prop := t = { s with pkg := { s.pkg with ports := t.pkg.ports } }
    (∀ p, p < 32 →
      (∃ t, exec (.linkDegrade p) s = .next t ∧ ports t ∧ ∀ i, i < 32 → t.pkg.ports.toList.getD i {} =
        if i = p ∧ (s.pkg.ports.toList.getD i {}).link ≠ .down then { link := .x32, cost := 4 } else s.pkg.ports.toList.getD i {}) ∧
      ∃ t, exec (.linkFailure p) s = .next t ∧ ports t ∧ ∀ i, i < 32 → t.pkg.ports.toList.getD i {} =
        if i = p then { link := .down, cost := 255 } else s.pkg.ports.toList.getD i {}) ∧
    (∀ p, p < 4 → ∃ t, exec (.cxlLinkDown p) s = .next t ∧ t = { s with pkg := { s.pkg with cxlPorts := t.pkg.cxlPorts, cxl := t.pkg.cxl } } ∧
      ∀ i, i < 4 → t.pkg.cxl.toList.getD i 0 = (if i = p then 0 else s.pkg.cxl.toList.getD i 0) ∧
        t.pkg.cxlPorts.toList.getD i {} = if i = p then { s.pkg.cxlPorts.toList.getD i {} with up := false, fenced := true }
          else s.pkg.cxlPorts.toList.getD i {}) ∧
    (∀ n l cost, n < 2048 →
      let live (p : Nat) : Prop := (s.pkg.ports.toList.getD p {}).link = .x64 ∨ (s.pkg.ports.toList.getD p {}).link = .x32
      ∃ t, exec (.routeUpdate n l cost) s = .next t ∧
        t = { s with pkg := { s.pkg with routes := mapSet s.pkg.routes n { ports := l.take 4, cost }, unreachable := t.pkg.unreachable } } ∧
        ((∃ p ∈ l.take 4, live p) → t.pkg.unreachable = s.pkg.unreachable.filter (· ≠ n)) ∧
        ((∀ p ∈ l.take 4, ¬ live p) → t.pkg.unreachable = s.pkg.unreachable)) ∧
    (∀ n, exec (.packetRetransmit n) s = .next s) ∧
    (∀ n, ∃ t, exec (.destinationUnreachable n) s = .next t ∧ t = { s with pkg := { s.pkg with unreachable := t.pkg.unreachable } } ∧
      (n ≠ s.pkg.number.toNat → ∀ x, x ∈ t.pkg.unreachable ↔ x = n ∨ x ∈ s.pkg.unreachable)) ∧
    (∀ σ j, j < 32 →
      let masked (m : BitVec 15) (t : State) (c : Nat) : Prop := t.coreAt c = { s.coreAt c with fmask := (s.coreAt c).fmask &&& ~~~m }
      (∃ t, exec (.stackFence 0 σ 0) s = .next t ∧ t = { s with cores := t.cores, lkStacks := t.lkStacks } ∧ (t.stackAt σ).fenced = true ∧
        ∀ c, (c / 32 = σ → masked 0x18 t c) ∧ (c / 32 ≠ σ → t.coreAt c = s.coreAt c)) ∧
      (∃ t, exec (.stackFence 1 σ j) s = .next t ∧ t = { s with cores := t.cores, lkStacks := t.lkStacks } ∧ j ∈ (t.stackAt σ).fencedSlices ∧
        ∀ c, (c = 32 * σ + j → masked 0x18 t c) ∧ (c ≠ 32 * σ + j → t.coreAt c = s.coreAt c)) ∧
      (∀ b, b < 1024 → ∃ t, exec (.stackFence 3 σ b) s = .next t ∧ t = { s with cores := t.cores, lkStacks := t.lkStacks } ∧
        b ∈ (t.stackAt σ).fencedBanks ∧ (t.stackAt σ).banks ≤ (s.stackAt σ).banks ∧
        ∀ c, (c = 32 * σ + b / 32 → masked 0x18 t c) ∧ (c ≠ 32 * σ + b / 32 → t.coreAt c = s.coreAt c)) ∧
      ∃ t, exec (.stackFence 2 σ 0) s = .next t ∧ t = { s with cores := t.cores } ∧
        masked 1 t σ ∧ ∀ c, c ≠ σ → t.coreAt c = s.coreAt c) ∧
    (∀ d, d < 9 → (s.dieAt d).fenced = false → (∀ e ∈ s.launches, e.2.stage ≠ .running) →
      ∃ t, exec (.dieFence d) s = .next t ∧ (t.dieAt d).fenced = true ∧ t.pkg.electing = true ∧ (d = 0 → t.pkg.hostUp = false) ∧ (d ≠ 0 → t.pkg.hostUp = s.pkg.hostUp) ∧
        (t.stackAt (2 * d)).fenced = true ∧
        (t.stackAt (2 * d + 1)).fenced = true ∧ (∀ k, k ≠ d → t.dieAt k = s.dieAt k) ∧
        (∀ p, p < 32 → uavorPort d (p % 4) = some p → (t.pkg.ports.toList.getD p {}).link = .down) ∧
        (∀ p, cxlPort d = some p → t.pkg.cxl.toList.getD p 0 = 0) ∧ t.launches = s.launches ∧ s.SameBytes t) ∧
    (s.pkg.electing = false → exec .masterElection s = .next s) ∧
    ∀ m d, s.pkg.electing = true → m < 9 → d < 9 → m < d → (s.dieAt m).fenced = false → (s.dieAt d).fenced = false →
      (∀ k, k < 9 → k ≠ m → k < d → (s.dieAt k).fenced = true) → s.launches = [] →
      (∀ h, h < 2304 → (s.dieAt (h / 256)).fenced = true → (s.hart h).task = none) →
      exec .masterElection s = .next { s with pkg := { s.pkg with electing := false, master := m, mirror := d } }

/-- R427, R428, R430, R432, R434, R436, R437, R438: clock events change the clock alone; a hot die lowers its power until it has cooled, and at
115 °C its tasks are to leave and it takes no more; at 125 °C every clock stops. A supply loss halts every task, closes the
package and leaves the marker, and after it no step leaves a line dirty. A boot with a good image and good parameters makes the package ready with them, and otherwise
stops with its status, keeping what a later boot may resume. Which images are good is open in the model. That a step after a trip
answers the fault `clocksStopped` is log entry 62 (DESIGN CHOICE), and what memory holds after a restart and what a refused boot
keeps is log entry 55 (DEDUCED). -/
def Claims.PowerAndBootEvents : Prop :=
  ∀ (s : State),
    let onlyDie (t : State) (d : Nat) : Prop := t = { s with dies := t.dies } ∧ ∀ k, k ≠ d → t.dieAt k = s.dieAt k
    (∀ d,
      (∃ t, exec (.droop d) s = .next t ∧ onlyDie t d ∧ t.dieAt d = { s.dieAt d with stretched := true }) ∧
      (∃ t, exec (.droopRecovery d) s = .next t ∧ onlyDie t d ∧ t.dieAt d = { s.dieAt d with stretched := false }) ∧
      (∃ t, exec (.pllHop d) s = .next t ∧ onlyDie t d ∧ t.dieAt d = if (s.dieAt d).stretched = true
        then { s.dieAt d with hopAgain := true } else { s.dieAt d with pll := !(s.dieAt d).pll, hopAgain := false }) ∧
      ∀ temp, temp < 256 →
        let on := 105 < temp ∨ (103 ≤ temp ∧ (s.dieAt d).throttled = true)
        ∃ t, exec (.junctionThrottle d temp) s = .next t ∧ onlyDie t d ∧ (t.dieAt d).junction = temp ∧
          ((t.dieAt d).throttled = true ↔ on) ∧ (¬ on → (t.dieAt d).pwr = (s.dieAt d).pwr) ∧
          (on → (t.dieAt d).pwr.toNat = if (s.dieAt d).pwr.toNat ≤ 3 then (s.dieAt d).pwr.toNat else (s.dieAt d).pwr.toNat - 1)) ∧
    (∀ d, ∃ t, exec (.emergencySave d) s = .next t ∧ (t.dieAt d).closed = true ∧ 115 ≤ (t.dieAt d).junction ∧
      (∀ h, h / 256 = d → t.hart h = if (s.hart h).task = none then s.hart h else { s.hart h with leave := some .emergency }) ∧
      (∀ h, h / 256 ≠ d → t.hart h = s.hart h) ∧ (s.pkg.status ≠ 2 → t.pkg.status = 3)) ∧
    (∀ v, ∃ t, exec (.hardTrip v) s = .next t ∧ t = { s with pkg := { s.pkg with stopped := true, tripn := true, selfRefresh := v } } ∧
      (s.agenda = [] → step t = .fault .clocksStopped)) ∧
    (∀ v, ∃ t l, exec (.supplyLossWarning v) s = .next t ∧ t.dram = [] ∧ t.cxlDirty = [] ∧ t.mem = s.mem ∧ t.pkg.hostOpen = false ∧ t.pkg.status = 2 ∧
      t.pkg.selfRefresh = v ∧ t.pkg.flash.marker = some l ∧ bytesAt l 56 8 = sealWord (l.take 56) ∧ (∀ d, d < 9 → (t.dieAt d).closed = true) ∧
      ∀ h, h < 2304 → t.hart h = if (s.hart h).task ≠ none
        then { s.hart h with haltReq := (s.hart h).haltReq || !(s.hart h).halted
                             leave := match (s.hart h).leave with | some (.ended c) => some (.ended c) | _ => none }
        else s.hart h) ∧
    (∀ t, step s = .next t → t.pkg.status = 2 → t.dram = [] ∧ t.cxlDirty = []) ∧
    ∀ image params cxl,
      let im := if image = [] then s.pkg.flash.image else image
      let pr := if params = [] then s.pkg.flash.params else params
      let kept (t : State) : Prop := Memory.wf s.mem = true → (s.dram.map (·.1)).Nodup → t.dram = [] ∧ ∀ key, memGet t.mem key =
        if s.keeps key = true then s.dramByte key else if key < 2 ^ 56 ∧ s.isRemote key = true then memGet s.mem key else memGet [] key
      let stopped (t : State) (code : Nat) : Prop := t.pkg.status = 6 ∧ t.pkg.boot = code ∧ t.launches = [] ∧ t.pkg.hostUp = false ∧
        t.pkg.asleep = some s.sleeping ∧ t.pkg.selfRefresh = s.pkg.selfRefresh ∧ kept t ∧ ∀ d, d < 9 → (t.dieAt d).fenced = (s.dieAt d).fenced
      (paramsGood pr = false → ∃ t, exec (.powerOnBoot image params cxl) s = .next t ∧ stopped t (if Config.firmwareGood im pr = true then 2 else 1)) ∧
      (paramsGood pr = true → s.sleeping.restart = false → (∀ d, d < 9 → (s.dieAt d).fenced = false) →
        ∃ t, exec (.powerOnBoot image params cxl) s = .next t ∧
          if Config.firmwareGood im pr = true then
            t.pkg.status = 1 ∧ t.pkg.hostUp = true ∧ t.pkg.hostOpen = true ∧
            t.pkg.number = BitVec.ofNat 11 (bytesAt pr 0 2) ∧ t.pkg.scratchSteps = bytesAt pr 2 1 ∧ t.pkg.master = 0 ∧ t.pkg.mirror = 1 ∧
            t.launches = [] ∧ t.me = Hart.reset ∧ t.others = [] ∧ kept t ∧
            (∀ c, c < 576 → (t.coreAt c).lfsr = BitVec.ofNat 16 (bytesAt pr 4 2)) ∧
            ∀ n, n < 18 → (t.stackAt n).check = BitVec.ofNat 32 (bytesAt pr 8 4)
          else stopped t 1) ∧
      (paramsGood pr = true → s.sleeping.restart = true →
        ∃ t, exec (.powerOnBoot image params cxl) s = .next t ∧
          if Config.firmwareGood im pr = true then
            let resumes := s.pkg.selfRefresh = true ∧ (s.markerGood = true ∨ s.goodCopy ≠ none)
            let a := s.sleeping.launches
            t.pkg.status = (if resumes then 4 else 5) ∧ (¬ resumes → t.launches = [] ∧ kept t) ∧
            (resumes → (a.map (·.1)).Nodup → (∀ e ∈ a, e.2.running = []) → kept t ∧ ∀ n l, mapGet a n = some l →
              let x := match s.goodCopy with | some d => l.fromRecord (s.recordAt d n) | none => l
              mapGet t.launches n = some { x with held := [], again := x.again ++ x.held.flatMap (·.2), session := none })
          else stopped t 1)

/-- `Claims.LinkAndFenceEvents`, `Claims.PowerAndBootEvents` together. -/
def Obligations.LinkAndBootEvents : Prop :=
  Claims.LinkAndFenceEvents ∧ Claims.PowerAndBootEvents

/-! ### Movement, reductions and segments (R97, R98, R192, R197, R199 to R210) -/

/-- R192, R197, R201 to R204: merges, conversions, slides, permutations and vmv.vg. Source and destination have one tag but for
a conversion, and every element outside the rule's stays. -/
def Claims.VectorMoveResults : Prop :=
  ∀ (s : State) (d a b : BitVec 5) (rep : BitVec 3) (m : BitVec 4) (rm : BitVec 2) (f sf : Fmt) (tag : Tag),
    Fmt.ofCode tag.fmt = some f → legalRep rep = true → s.me.tagOf d = tag →
    let vl := s.me.vl
    let value (r : BitVec 5) (n : Nat) : Nat := s.me.elem s.me.lanes r f.width n
    let bit (n : Nat) : Bool := (s.me.mask m).getLsbD n
    let on (n : Nat) : Bool := decide (n < vl) && (m == 0 || bit n)
    let fills (i : Instr) (o : VOp) (g : Nat → Option Nat) : Prop :=
      s.VectorAlone o → ∃ t, exec i s = .next t ∧ s.Filled t d tag 0 fun n => (g n).getD (value d n)
    -- the elements selected below one
    let rank (n : Nat) : Nat := ((List.range n).filter bit).length
    let off := (s.g b).toNat
    let x := scalarOperand f (s.g b)
    let active (n : Nat) (y : Nat) : Option Nat := if on n then some y else none
    (s.me.tagOf a = tag → s.me.tagOf b = tag → m ≠ 0 →
      fills (.vmerge d a b rep false m) { op := .merge, d, a, b, rep, m } fun n =>
        if n < vl then some (if bit n then value b (repIndex rep n) else value a n) else none) ∧
    (Fmt.ofCode (s.me.tagOf a).fmt = some sf → ∀ sat : Bool,
      let o : VOp := { op := .cvt, d, a, b := (if sat then 4#5 else 0#5) ||| rm.setWidth 5, m }
      let res (n : Nat) : FRes := convert sf f (RM.ofCode rm) sat (s.me.elem s.me.lanes a sf.width n)
      s.VectorAlone o →
      ∃ t, exec (if sat then .vcvtsat d a rm false m else .vcvt d a rm false m) s = .next t ∧
        s.Filled t d tag (flagsOf ((List.range vl).filter on) fun n => (res n).fl) fun n =>
          if on n = true then (res n).bits else value d n) ∧
    fills (.vmvVg d b m) { op := .mvVG, d, a := b, m } (fun n => active n x) ∧
    (s.me.tagOf a = tag →
      fills (.vslideup d a b false m) { op := .slideup, d, a, b, m } (fun n => if off ≤ n then active n (value a (n - off)) else none) ∧
      fills (.vslidedn d a b false m) { op := .slidedn, d, a, b, m } (fun n => active n (if n + off < vl then value a (n + off) else 0)) ∧
      fills (.vslide1up d a b false m) { op := .slide1up, d, a, b, m } (fun n => active n (if n = 0 then x else value a (n - 1))) ∧
      fills (.vslide1dn d a b false m) { op := .slide1dn, d, a, b, m } (fun n => active n (if n + 1 = vl then x else value a (n + 1))) ∧
      (Fmt.ofCode (s.me.tagOf b).fmt = some sf →
        let k (n : Nat) : Nat := s.me.elem s.me.lanes b sf.width (repIndex rep n)
        fills (.vperm d a b rep m) { op := .perm, d, a, b, rep, m } (fun n => active n (if k n < vl then value a (k n) else 0))) ∧
      (m ≠ 0 →
        (s.VectorAlone { op := .compress, d, a, m } →
          ∃ t, exec (.vcompress d a m) s = .next t ∧
            s.Filled t d tag 0 (fun n => if n < rank vl then t.me.elem s.me.lanes d f.width n else value d n) ∧
            ∀ n, n < vl → bit n = true → t.me.elem s.me.lanes d f.width (rank n) = value a n) ∧
        fills (.vexpand d a m) { op := .expand, d, a, m } (fun n => if n < vl ∧ bit n = true then some (value a (rank n)) else none))) ∧
    (m ≠ 0 → f.cls = .int → fills (.viota d m) { op := .iota, d, a := 0, m } (fun n => if n < vl then some (rank n) else none))

/-- R97, R98, R199, R200: reductions by the fixed tree and scans in element order, in every format that has them. Only element 0 of a reduction's destination changes, and only the active elements of a scan's; the flags
of every step are raised. -/
def Claims.VectorReductionResults : Prop :=
  ∀ (s : State) (d a b : BitVec 5) (rep : BitVec 3) (m : BitVec 4) (f : Fmt) (tag : Tag),
    f.cls ≠ .scale → Fmt.ofCode tag.fmt = some f → legalRep rep = true →
    s.me.tagOf d = tag → s.me.tagOf a = tag → s.me.tagOf b = tag → 0 < s.me.vl →
    let rm := RM.ofCode s.me.csr.vrm
    let value (r : BitVec 5) (n : Nat) : Nat := s.me.elem s.me.lanes r f.width n
    let on (n : Nat) : Bool := decide (n < s.me.vl) && (m == 0 || (s.me.mask m).getLsbD n)
    (∀ e ∈ [(Instr.vredsum d a b rep m, VOpc.redsum, Comb.sum), (.vredmin d a b rep m, .redmin, .min),
            (.vredmax d a b rep m, .redmax, .max), (.vredor d a b rep m, .redor, .or)],
      s.VectorAlone { op := e.2.1, d, a, b, rep, m } → ∀ k, s.me.vl ≤ 2 ^ k → (∀ j, s.me.vl ≤ 2 ^ j → k ≤ j) →
        let x := treeOf (e.2.2.step f rm) (fun n => if on n = true then value a n else e.2.2.start f) k 0
        let r := e.2.2.step f rm x.bits (value b 0)
        ∃ t, exec e.1 s = .next t ∧ s.Filled t d tag (x.fl ||| r.fl) fun n => if n = 0 then e.2.2.written f r.bits else value d n) ∧
    ∀ e ∈ [(Instr.vscansum d a m, VOpc.scansum, Comb.sum), (.vscanmin d a m, .scanmin, .min), (.vscanmax d a m, .scanmax, .max)],
      s.VectorAlone { op := e.2.1, d, a, m } →
      let upTo (n : Nat) : FRes :=
        runOf (e.2.2.step f rm) (e.2.2.start f) ((List.range (n + 1)).map fun j => if on j = true then value a j else e.2.2.start f)
      ∃ t, exec e.1 s = .next t ∧ s.Filled t d tag (upTo (s.me.vl - 1)).fl fun n =>
        if on n = true then e.2.2.written f (upTo n).bits else value d n

/-- R206 to R208: within each segment the sort instructions put the keys into their order, equal keys in the order in which they
stood, and take each key's value with it; vdupmerge leaves the sum of each run of equal keys at the run's first element, zero at its
others, and the runs' beginnings in m0. -/
def Claims.VectorSegmentResults : Prop :=
  ∀ (s : State) (d a b : BitVec 5) (rep : BitVec 3) (m : BitVec 4) (f : Fmt) (tag : Tag),
    f.cls ≠ .scale → Fmt.ofCode tag.fmt = some f → legalRep rep = true → s.me.tagOf d = tag →
    let vl := s.me.vl
    let value (r : BitVec 5) (w n : Nat) : Nat := s.me.elem s.me.lanes r w n
    let head (n : Nat) : Prop := n = 0 ∨ (m ≠ 0 ∧ (s.me.mask m).getLsbD n = true)
    -- no segment begins behind p up to q
    let together (p q : Nat) : Prop := ∀ j, p < j → j ≤ q → ¬ head j
    -- the order that place n of the result takes place `from' n` of the source
    let sorted (out : Nat → Nat) (from' : Nat → Nat) : Prop :=
      (∀ n, n < vl → from' n < vl ∧ out n = value a f.width (from' n)) ∧
      (∀ n k, n < vl → k < vl → from' n = from' k → n = k) ∧
      (∀ n, n < vl → (together n (from' n) ∧ together (from' n) n)) ∧
      ∀ n k, n < k → k < vl → together n k →
        keyBefore f (out k) (out n) = false ∧ (keyBefore f (out n) (out k) = false → from' n < from' k)
    (s.me.tagOf a = tag → s.VectorAlone { op := .segsort, d, a, m } →
      ∃ t from', exec (.vsegsort d a m) s = .next t ∧
        s.Filled t d tag 0 (fun n => if n < vl then t.me.elem s.me.lanes d f.width n else value d f.width n) ∧
        sorted (fun n => t.me.elem s.me.lanes d f.width n) from') ∧
    (∀ vf, s.me.tagOf a = tag → let vb := d + BitVec.ofNat 5 tag.group
      s.me.tagOf b = s.me.tagOf vb → Fmt.ofCode (s.me.tagOf b).fmt = some vf → s.VectorAlone { op := .segsortkv, d, a, b, rep, m } →
      ∃ t from', exec (.vsegsortkv d a b rep m) s = .next t ∧ s.SameBytes t ∧ s.IssueFrame t ∧ Hart.Moved { s.me with v := t.me.v } t.me ∧
        sorted (fun n => t.me.elem s.me.lanes d f.width n) from' ∧
        (∀ n, n < vl → t.me.elem s.me.lanes vb vf.width n = value b vf.width (repIndex rep (from' n))) ∧
        (∀ n, vl ≤ n → n < vlmax s.me.lanes f.width tag.group → t.me.elem s.me.lanes d f.width n = value d f.width n) ∧
        (∀ n, vl ≤ n → n < vlmax s.me.lanes vf.width (s.me.tagOf vb).group → t.me.elem s.me.lanes vb vf.width n = value vb vf.width n) ∧
        ∀ r, r < d.toNat ∨ d.toNat + tag.group + (s.me.tagOf vb).group ≤ r → t.me.vreg r = s.me.vreg r) ∧
    (∀ kf, Fmt.ofCode (s.me.tagOf a).fmt = some kf → s.me.tagOf b = tag → 0 < vl → s.VectorAlone { op := .dupmerge, d, a, b, rep, m } →
      let begins (n : Nat) : Bool := decide (head n) || value a kf.width n != value a kf.width (n - 1)
      let addend (n : Nat) : Nat := value b f.width (repIndex rep n)
      let others (n : Nat) : List Nat := (List.range vl).filter fun j => decide (n < j) && (List.range vl).all fun k => !(decide (n < k ∧ k ≤ j) && begins k)
      let sum (n : Nat) : FRes := runOf (Comb.sum.step f (RM.ofCode s.me.csr.vrm)) (addend n) ((others n).map addend)
      let fl := flagsOf ((List.range vl).filter begins) fun n => (sum n).fl
      ∃ t, exec (.vdupmerge d a b rep m) s = .next t ∧ s.SameBytes t ∧ s.IssueFrame t ∧
        Hart.Moved { s.me with v := t.me.v, m := t.me.m, csr := { s.me.csr with fflags := s.me.csr.fflags ||| fl } } t.me ∧
        (∀ n, n < vlmax s.me.lanes f.width tag.group → t.me.elem s.me.lanes d f.width n =
          if n < vl then (if begins n = true then (sum n).bits else 0) else value d f.width n) ∧
        (∀ n, n < 2048 → (t.me.mask 0).getLsbD n = (decide (n < vl) && begins n)) ∧ (∀ r, r ≠ 0 → t.me.mask r = s.me.mask r) ∧
        ∀ r, r < d.toNat ∨ d.toNat + tag.group ≤ r → t.me.vreg r = s.me.vreg r)

/-- R210, R205: each group of an outer product accumulates the product of vs1 with its own element of vs2; a queue move takes the
elements of whole entries from the queue, or appends them, lowest element lowest, with zero bits where no active element stands. -/
def Claims.OuterAndQueueResults : Prop :=
  ∀ (s : State) (d a b : BitVec 5) (q : BitVec 3) (rep : BitVec 3) (m : BitVec 4) (f : Fmt) (tag : Tag),
    Fmt.ofCode tag.fmt = some f → legalRep rep = true →
    let vl := s.me.vl
    let w := f.width
    let value (r : BitVec 5) (n : Nat) : Nat := s.me.elem s.me.lanes r w n
    let on (n : Nat) : Bool := decide (n < vl) && (m == 0 || (s.me.mask m).getLsbD n)
    let per := 64 / w
    let entries := (vl * w + 63) / 64
    (f.cls ≠ .scale → s.me.tagOf d = tag → s.me.tagOf a = tag → s.me.tagOf b = tag →
      ∀ e ∈ [(Instr.vopaX1 d a b rep false m, VOpc.opa1, 1), (.vopaX2 d a b rep false m, .opa2, 2), (.vopaX4 d a b rep false m, .opa4, 4),
             (.vopaX8 d a b rep false m, .opa8, 8)],
        s.VectorAlone { op := e.2.1, d, a, b, rep, m } →
        let group (k : Nat) : BitVec 5 := BitVec.ofNat 5 (d.toNat + k * tag.group)
        let res (k n : Nat) : FRes :=
          let x := value a n
          let y := value b (repIndex rep k)
          let z := value (group k) n
          if f.cls = .int then { bits := ((f.int z + f.int x * f.int y) % 2 ^ w).toNat }
          else fmaNum f (RM.ofCode s.me.csr.vrm) (f.decode x) (f.decode y) (f.decode z)
        let fl := flagsOf (List.range e.2.2) fun k => flagsOf ((List.range vl).filter on) fun n => (res k n).fl
        ∃ t, exec e.1 s = .next t ∧ s.SameBytes t ∧ s.IssueFrame t ∧
          Hart.Moved { s.me with v := t.me.v, csr := { s.me.csr with fflags := s.me.csr.fflags ||| fl } } t.me ∧
          (∀ k n, k < e.2.2 → n < vlmax s.me.lanes w tag.group →
            t.me.elem s.me.lanes (group k) w n = if on n = true then (res k n).bits else value (group k) n) ∧
          ∀ r, r < d.toNat ∨ d.toNat + e.2.2 * tag.group ≤ r → t.me.vreg r = s.me.vreg r) ∧
    (s.me.tagOf d = tag → s.VectorAlone { op := .mvVQ, d, a := q.setWidth 5, m } → entries ≤ (s.me.queue q).length →
      ∃ t, exec (.vmvVq d q m) s = .next t ∧ s.SameBytes t ∧ s.IssueFrame t ∧
        Hart.Moved { s.me with v := t.me.v, q := t.me.q } t.me ∧
        (∀ n, n < vlmax s.me.lanes w tag.group → t.me.elem s.me.lanes d w n =
          if on n = true then ((s.me.queue q).getD (n / per) 0).toNat / 2 ^ (n % per * w) % 2 ^ w else value d n) ∧
        t.me.queue q = (s.me.queue q).drop entries ∧ (∀ p, p ≠ q → t.me.queue p = s.me.queue p) ∧
        ∀ r, r < d.toNat ∨ d.toNat + tag.group ≤ r → t.me.vreg r = s.me.vreg r) ∧
    (s.me.tagOf a = tag → s.VectorAlone { op := .mvQV, d := q.setWidth 5, a, m } → (s.me.queue q).length + entries ≤ 16 →
      ∃ t, exec (.vmvQv q a m) s = .next t ∧ s.SameBytes t ∧ s.IssueFrame t ∧ Hart.Moved { s.me with q := t.me.q } t.me ∧
        (t.me.queue q = s.me.queue q ++ (List.range entries).map fun e => BitVec.ofNat 64
          (((List.range per).map fun k => if on (e * per + k) = true then value a (e * per + k) * 2 ^ (k * w) else 0).sum)) ∧
        ∀ p, p ≠ q → t.me.queue p = s.me.queue p)

/-- `Claims.VectorMoveResults`, `Claims.VectorReductionResults`, `Claims.VectorSegmentResults`, `Claims.OuterAndQueueResults` together. -/
def Obligations.VectorMovementResults : Prop :=
  Claims.VectorMoveResults ∧ Claims.VectorReductionResults ∧ Claims.VectorSegmentResults ∧ Claims.OuterAndQueueResults

end Statements
end

