-- ==== Sys2Proof/Laws/State.lean ====
section
/-! SUPPORT. What each named update of the state leaves as it was, one lemma for each field: true by unfolding the record
update, so that no later proof has to. -/

namespace Sys2Proof.Machine

/-! ### updMe -/

@[simp] theorem State.updMe_cur (s : State) (f : Hart → Hart) : (s.updMe f).cur = s.cur := rfl
@[simp] theorem State.updMe_me (s : State) (f : Hart → Hart) : (s.updMe f).me = f s.me := rfl
@[simp] theorem State.updMe_others (s : State) (f : Hart → Hart) : (s.updMe f).others = s.others := rfl
@[simp] theorem State.updMe_snaps (s : State) (f : Hart → Hart) : (s.updMe f).snaps = s.snaps := rfl
@[simp] theorem State.updMe_cores (s : State) (f : Hart → Hart) : (s.updMe f).cores = s.cores := rfl
@[simp] theorem State.updMe_clusters (s : State) (f : Hart → Hart) : (s.updMe f).clusters = s.clusters := rfl
@[simp] theorem State.updMe_dies (s : State) (f : Hart → Hart) : (s.updMe f).dies = s.dies := rfl
@[simp] theorem State.updMe_mem (s : State) (f : Hart → Hart) : (s.updMe f).mem = s.mem := rfl
@[simp] theorem State.updMe_dram (s : State) (f : Hart → Hart) : (s.updMe f).dram = s.dram := rfl
@[simp] theorem State.updMe_cxlDirty (s : State) (f : Hart → Hart) : (s.updMe f).cxlDirty = s.cxlDirty := rfl
@[simp] theorem State.updMe_uncached (s : State) (f : Hart → Hart) : (s.updMe f).uncached = s.uncached := rfl
@[simp] theorem State.updMe_oldCode (s : State) (f : Hart → Hart) : (s.updMe f).oldCode = s.oldCode := rfl
@[simp] theorem State.updMe_poison (s : State) (f : Hart → Hart) : (s.updMe f).poison = s.poison := rfl
@[simp] theorem State.updMe_stacks (s : State) (f : Hart → Hart) : (s.updMe f).lkStacks = s.lkStacks := rfl
@[simp] theorem State.updMe_windows (s : State) (f : Hart → Hart) : (s.updMe f).windows = s.windows := rfl
@[simp] theorem State.updMe_sends (s : State) (f : Hart → Hart) : (s.updMe f).sends = s.sends := rfl
@[simp] theorem State.updMe_counted (s : State) (f : Hart → Hart) : (s.updMe f).counted = s.counted := rfl
@[simp] theorem State.updMe_pkg (s : State) (f : Hart → Hart) : (s.updMe f).pkg = s.pkg := rfl
@[simp] theorem State.updMe_launches (s : State) (f : Hart → Hart) : (s.updMe f).launches = s.launches := rfl
@[simp] theorem State.updMe_recent (s : State) (f : Hart → Hart) : (s.updMe f).recent = s.recent := rfl
@[simp] theorem State.updMe_accepted (s : State) (f : Hart → Hart) : (s.updMe f).accepted = s.accepted := rfl
@[simp] theorem State.updMe_spaces (s : State) (f : Hart → Hart) : (s.updMe f).spaces = s.spaces := rfl
@[simp] theorem State.updMe_locks (s : State) (f : Hart → Hart) : (s.updMe f).locks = s.locks := rfl
@[simp] theorem State.updMe_free (s : State) (f : Hart → Hart) : (s.updMe f).free = s.free := rfl
@[simp] theorem State.updMe_seq (s : State) (f : Hart → Hart) : (s.updMe f).seq = s.seq := rfl
@[simp] theorem State.updMe_clock (s : State) (f : Hart → Hart) : (s.updMe f).clock = s.clock := rfl
@[simp] theorem State.updMe_sent (s : State) (f : Hart → Hart) : (s.updMe f).sent = s.sent := rfl
@[simp] theorem State.updMe_agenda (s : State) (f : Hart → Hart) : (s.updMe f).agenda = s.agenda := rfl

/-! ### updCsr -/

@[simp] theorem State.updCsr_cur (s : State) (f : Csrs → Csrs) : (s.updCsr f).cur = s.cur := rfl
@[simp] theorem State.updCsr_me (s : State) (f : Csrs → Csrs) : (s.updCsr f).me = { s.me with csr := f s.me.csr } := rfl
@[simp] theorem State.updCsr_others (s : State) (f : Csrs → Csrs) : (s.updCsr f).others = s.others := rfl
@[simp] theorem State.updCsr_snaps (s : State) (f : Csrs → Csrs) : (s.updCsr f).snaps = s.snaps := rfl
@[simp] theorem State.updCsr_cores (s : State) (f : Csrs → Csrs) : (s.updCsr f).cores = s.cores := rfl
@[simp] theorem State.updCsr_clusters (s : State) (f : Csrs → Csrs) : (s.updCsr f).clusters = s.clusters := rfl
@[simp] theorem State.updCsr_dies (s : State) (f : Csrs → Csrs) : (s.updCsr f).dies = s.dies := rfl
@[simp] theorem State.updCsr_mem (s : State) (f : Csrs → Csrs) : (s.updCsr f).mem = s.mem := rfl
@[simp] theorem State.updCsr_dram (s : State) (f : Csrs → Csrs) : (s.updCsr f).dram = s.dram := rfl
@[simp] theorem State.updCsr_cxlDirty (s : State) (f : Csrs → Csrs) : (s.updCsr f).cxlDirty = s.cxlDirty := rfl
@[simp] theorem State.updCsr_uncached (s : State) (f : Csrs → Csrs) : (s.updCsr f).uncached = s.uncached := rfl
@[simp] theorem State.updCsr_oldCode (s : State) (f : Csrs → Csrs) : (s.updCsr f).oldCode = s.oldCode := rfl
@[simp] theorem State.updCsr_poison (s : State) (f : Csrs → Csrs) : (s.updCsr f).poison = s.poison := rfl
@[simp] theorem State.updCsr_stacks (s : State) (f : Csrs → Csrs) : (s.updCsr f).lkStacks = s.lkStacks := rfl
@[simp] theorem State.updCsr_windows (s : State) (f : Csrs → Csrs) : (s.updCsr f).windows = s.windows := rfl
@[simp] theorem State.updCsr_sends (s : State) (f : Csrs → Csrs) : (s.updCsr f).sends = s.sends := rfl
@[simp] theorem State.updCsr_counted (s : State) (f : Csrs → Csrs) : (s.updCsr f).counted = s.counted := rfl
@[simp] theorem State.updCsr_pkg (s : State) (f : Csrs → Csrs) : (s.updCsr f).pkg = s.pkg := rfl
@[simp] theorem State.updCsr_launches (s : State) (f : Csrs → Csrs) : (s.updCsr f).launches = s.launches := rfl
@[simp] theorem State.updCsr_recent (s : State) (f : Csrs → Csrs) : (s.updCsr f).recent = s.recent := rfl
@[simp] theorem State.updCsr_accepted (s : State) (f : Csrs → Csrs) : (s.updCsr f).accepted = s.accepted := rfl
@[simp] theorem State.updCsr_spaces (s : State) (f : Csrs → Csrs) : (s.updCsr f).spaces = s.spaces := rfl
@[simp] theorem State.updCsr_locks (s : State) (f : Csrs → Csrs) : (s.updCsr f).locks = s.locks := rfl
@[simp] theorem State.updCsr_free (s : State) (f : Csrs → Csrs) : (s.updCsr f).free = s.free := rfl
@[simp] theorem State.updCsr_seq (s : State) (f : Csrs → Csrs) : (s.updCsr f).seq = s.seq := rfl
@[simp] theorem State.updCsr_clock (s : State) (f : Csrs → Csrs) : (s.updCsr f).clock = s.clock := rfl
@[simp] theorem State.updCsr_sent (s : State) (f : Csrs → Csrs) : (s.updCsr f).sent = s.sent := rfl
@[simp] theorem State.updCsr_agenda (s : State) (f : Csrs → Csrs) : (s.updCsr f).agenda = s.agenda := rfl

/-! ### updGang -/

@[simp] theorem State.updGang_cur (s : State) (f : Gang → Gang) : (s.updGang f).cur = s.cur := rfl
@[simp] theorem State.updGang_me (s : State) (f : Gang → Gang) : (s.updGang f).me = { s.me with gang := f s.me.gang } := rfl
@[simp] theorem State.updGang_others (s : State) (f : Gang → Gang) : (s.updGang f).others = s.others := rfl
@[simp] theorem State.updGang_snaps (s : State) (f : Gang → Gang) : (s.updGang f).snaps = s.snaps := rfl
@[simp] theorem State.updGang_cores (s : State) (f : Gang → Gang) : (s.updGang f).cores = s.cores := rfl
@[simp] theorem State.updGang_clusters (s : State) (f : Gang → Gang) : (s.updGang f).clusters = s.clusters := rfl
@[simp] theorem State.updGang_dies (s : State) (f : Gang → Gang) : (s.updGang f).dies = s.dies := rfl
@[simp] theorem State.updGang_mem (s : State) (f : Gang → Gang) : (s.updGang f).mem = s.mem := rfl
@[simp] theorem State.updGang_dram (s : State) (f : Gang → Gang) : (s.updGang f).dram = s.dram := rfl
@[simp] theorem State.updGang_cxlDirty (s : State) (f : Gang → Gang) : (s.updGang f).cxlDirty = s.cxlDirty := rfl
@[simp] theorem State.updGang_uncached (s : State) (f : Gang → Gang) : (s.updGang f).uncached = s.uncached := rfl
@[simp] theorem State.updGang_oldCode (s : State) (f : Gang → Gang) : (s.updGang f).oldCode = s.oldCode := rfl
@[simp] theorem State.updGang_poison (s : State) (f : Gang → Gang) : (s.updGang f).poison = s.poison := rfl
@[simp] theorem State.updGang_stacks (s : State) (f : Gang → Gang) : (s.updGang f).lkStacks = s.lkStacks := rfl
@[simp] theorem State.updGang_windows (s : State) (f : Gang → Gang) : (s.updGang f).windows = s.windows := rfl
@[simp] theorem State.updGang_sends (s : State) (f : Gang → Gang) : (s.updGang f).sends = s.sends := rfl
@[simp] theorem State.updGang_counted (s : State) (f : Gang → Gang) : (s.updGang f).counted = s.counted := rfl
@[simp] theorem State.updGang_pkg (s : State) (f : Gang → Gang) : (s.updGang f).pkg = s.pkg := rfl
@[simp] theorem State.updGang_launches (s : State) (f : Gang → Gang) : (s.updGang f).launches = s.launches := rfl
@[simp] theorem State.updGang_recent (s : State) (f : Gang → Gang) : (s.updGang f).recent = s.recent := rfl
@[simp] theorem State.updGang_accepted (s : State) (f : Gang → Gang) : (s.updGang f).accepted = s.accepted := rfl
@[simp] theorem State.updGang_spaces (s : State) (f : Gang → Gang) : (s.updGang f).spaces = s.spaces := rfl
@[simp] theorem State.updGang_locks (s : State) (f : Gang → Gang) : (s.updGang f).locks = s.locks := rfl
@[simp] theorem State.updGang_free (s : State) (f : Gang → Gang) : (s.updGang f).free = s.free := rfl
@[simp] theorem State.updGang_seq (s : State) (f : Gang → Gang) : (s.updGang f).seq = s.seq := rfl
@[simp] theorem State.updGang_clock (s : State) (f : Gang → Gang) : (s.updGang f).clock = s.clock := rfl
@[simp] theorem State.updGang_sent (s : State) (f : Gang → Gang) : (s.updGang f).sent = s.sent := rfl
@[simp] theorem State.updGang_agenda (s : State) (f : Gang → Gang) : (s.updGang f).agenda = s.agenda := rfl

/-! ### updCore -/

@[simp] theorem State.updCore_cur (s : State) (c : Nat) (f : Core → Core) : (s.updCore c f).cur = s.cur := rfl
@[simp] theorem State.updCore_me (s : State) (c : Nat) (f : Core → Core) : (s.updCore c f).me = s.me := rfl
@[simp] theorem State.updCore_others (s : State) (c : Nat) (f : Core → Core) : (s.updCore c f).others = s.others := rfl
@[simp] theorem State.updCore_snaps (s : State) (c : Nat) (f : Core → Core) : (s.updCore c f).snaps = s.snaps := rfl
@[simp] theorem State.updCore_cores (s : State) (c : Nat) (f : Core → Core) : (s.updCore c f).cores = mapSet s.cores c (f (s.coreAt c)) := rfl
@[simp] theorem State.updCore_clusters (s : State) (c : Nat) (f : Core → Core) : (s.updCore c f).clusters = s.clusters := rfl
@[simp] theorem State.updCore_dies (s : State) (c : Nat) (f : Core → Core) : (s.updCore c f).dies = s.dies := rfl
@[simp] theorem State.updCore_mem (s : State) (c : Nat) (f : Core → Core) : (s.updCore c f).mem = s.mem := rfl
@[simp] theorem State.updCore_dram (s : State) (c : Nat) (f : Core → Core) : (s.updCore c f).dram = s.dram := rfl
@[simp] theorem State.updCore_cxlDirty (s : State) (c : Nat) (f : Core → Core) : (s.updCore c f).cxlDirty = s.cxlDirty := rfl
@[simp] theorem State.updCore_uncached (s : State) (c : Nat) (f : Core → Core) : (s.updCore c f).uncached = s.uncached := rfl
@[simp] theorem State.updCore_oldCode (s : State) (c : Nat) (f : Core → Core) : (s.updCore c f).oldCode = s.oldCode := rfl
@[simp] theorem State.updCore_poison (s : State) (c : Nat) (f : Core → Core) : (s.updCore c f).poison = s.poison := rfl
@[simp] theorem State.updCore_stacks (s : State) (c : Nat) (f : Core → Core) : (s.updCore c f).lkStacks = s.lkStacks := rfl
@[simp] theorem State.updCore_windows (s : State) (c : Nat) (f : Core → Core) : (s.updCore c f).windows = s.windows := rfl
@[simp] theorem State.updCore_sends (s : State) (c : Nat) (f : Core → Core) : (s.updCore c f).sends = s.sends := rfl
@[simp] theorem State.updCore_counted (s : State) (c : Nat) (f : Core → Core) : (s.updCore c f).counted = s.counted := rfl
@[simp] theorem State.updCore_pkg (s : State) (c : Nat) (f : Core → Core) : (s.updCore c f).pkg = s.pkg := rfl
@[simp] theorem State.updCore_launches (s : State) (c : Nat) (f : Core → Core) : (s.updCore c f).launches = s.launches := rfl
@[simp] theorem State.updCore_recent (s : State) (c : Nat) (f : Core → Core) : (s.updCore c f).recent = s.recent := rfl
@[simp] theorem State.updCore_accepted (s : State) (c : Nat) (f : Core → Core) : (s.updCore c f).accepted = s.accepted := rfl
@[simp] theorem State.updCore_spaces (s : State) (c : Nat) (f : Core → Core) : (s.updCore c f).spaces = s.spaces := rfl
@[simp] theorem State.updCore_locks (s : State) (c : Nat) (f : Core → Core) : (s.updCore c f).locks = s.locks := rfl
@[simp] theorem State.updCore_free (s : State) (c : Nat) (f : Core → Core) : (s.updCore c f).free = s.free := rfl
@[simp] theorem State.updCore_seq (s : State) (c : Nat) (f : Core → Core) : (s.updCore c f).seq = s.seq := rfl
@[simp] theorem State.updCore_clock (s : State) (c : Nat) (f : Core → Core) : (s.updCore c f).clock = s.clock := rfl
@[simp] theorem State.updCore_sent (s : State) (c : Nat) (f : Core → Core) : (s.updCore c f).sent = s.sent := rfl
@[simp] theorem State.updCore_agenda (s : State) (c : Nat) (f : Core → Core) : (s.updCore c f).agenda = s.agenda := rfl

/-! ### updCluster -/

@[simp] theorem State.updCluster_cur (s : State) (c : Nat) (f : Cluster → Cluster) : (s.updCluster c f).cur = s.cur := rfl
@[simp] theorem State.updCluster_me (s : State) (c : Nat) (f : Cluster → Cluster) : (s.updCluster c f).me = s.me := rfl
@[simp] theorem State.updCluster_others (s : State) (c : Nat) (f : Cluster → Cluster) : (s.updCluster c f).others = s.others := rfl
@[simp] theorem State.updCluster_snaps (s : State) (c : Nat) (f : Cluster → Cluster) : (s.updCluster c f).snaps = s.snaps := rfl
@[simp] theorem State.updCluster_cores (s : State) (c : Nat) (f : Cluster → Cluster) : (s.updCluster c f).cores = s.cores := rfl
@[simp] theorem State.updCluster_clusters (s : State) (c : Nat) (f : Cluster → Cluster) : (s.updCluster c f).clusters = mapSet s.clusters c (f (s.clusterAt c)) := rfl
@[simp] theorem State.updCluster_dies (s : State) (c : Nat) (f : Cluster → Cluster) : (s.updCluster c f).dies = s.dies := rfl
@[simp] theorem State.updCluster_mem (s : State) (c : Nat) (f : Cluster → Cluster) : (s.updCluster c f).mem = s.mem := rfl
@[simp] theorem State.updCluster_dram (s : State) (c : Nat) (f : Cluster → Cluster) : (s.updCluster c f).dram = s.dram := rfl
@[simp] theorem State.updCluster_cxlDirty (s : State) (c : Nat) (f : Cluster → Cluster) : (s.updCluster c f).cxlDirty = s.cxlDirty := rfl
@[simp] theorem State.updCluster_uncached (s : State) (c : Nat) (f : Cluster → Cluster) : (s.updCluster c f).uncached = s.uncached := rfl
@[simp] theorem State.updCluster_oldCode (s : State) (c : Nat) (f : Cluster → Cluster) : (s.updCluster c f).oldCode = s.oldCode := rfl
@[simp] theorem State.updCluster_poison (s : State) (c : Nat) (f : Cluster → Cluster) : (s.updCluster c f).poison = s.poison := rfl
@[simp] theorem State.updCluster_stacks (s : State) (c : Nat) (f : Cluster → Cluster) : (s.updCluster c f).lkStacks = s.lkStacks := rfl
@[simp] theorem State.updCluster_windows (s : State) (c : Nat) (f : Cluster → Cluster) : (s.updCluster c f).windows = s.windows := rfl
@[simp] theorem State.updCluster_sends (s : State) (c : Nat) (f : Cluster → Cluster) : (s.updCluster c f).sends = s.sends := rfl
@[simp] theorem State.updCluster_counted (s : State) (c : Nat) (f : Cluster → Cluster) : (s.updCluster c f).counted = s.counted := rfl
@[simp] theorem State.updCluster_pkg (s : State) (c : Nat) (f : Cluster → Cluster) : (s.updCluster c f).pkg = s.pkg := rfl
@[simp] theorem State.updCluster_launches (s : State) (c : Nat) (f : Cluster → Cluster) : (s.updCluster c f).launches = s.launches := rfl
@[simp] theorem State.updCluster_recent (s : State) (c : Nat) (f : Cluster → Cluster) : (s.updCluster c f).recent = s.recent := rfl
@[simp] theorem State.updCluster_accepted (s : State) (c : Nat) (f : Cluster → Cluster) : (s.updCluster c f).accepted = s.accepted := rfl
@[simp] theorem State.updCluster_spaces (s : State) (c : Nat) (f : Cluster → Cluster) : (s.updCluster c f).spaces = s.spaces := rfl
@[simp] theorem State.updCluster_locks (s : State) (c : Nat) (f : Cluster → Cluster) : (s.updCluster c f).locks = s.locks := rfl
@[simp] theorem State.updCluster_free (s : State) (c : Nat) (f : Cluster → Cluster) : (s.updCluster c f).free = s.free := rfl
@[simp] theorem State.updCluster_seq (s : State) (c : Nat) (f : Cluster → Cluster) : (s.updCluster c f).seq = s.seq := rfl
@[simp] theorem State.updCluster_clock (s : State) (c : Nat) (f : Cluster → Cluster) : (s.updCluster c f).clock = s.clock := rfl
@[simp] theorem State.updCluster_sent (s : State) (c : Nat) (f : Cluster → Cluster) : (s.updCluster c f).sent = s.sent := rfl
@[simp] theorem State.updCluster_agenda (s : State) (c : Nat) (f : Cluster → Cluster) : (s.updCluster c f).agenda = s.agenda := rfl

/-! ### updDie -/

@[simp] theorem State.updDie_cur (s : State) (d : Nat) (f : Die → Die) : (s.updDie d f).cur = s.cur := rfl
@[simp] theorem State.updDie_me (s : State) (d : Nat) (f : Die → Die) : (s.updDie d f).me = s.me := rfl
@[simp] theorem State.updDie_others (s : State) (d : Nat) (f : Die → Die) : (s.updDie d f).others = s.others := rfl
@[simp] theorem State.updDie_snaps (s : State) (d : Nat) (f : Die → Die) : (s.updDie d f).snaps = s.snaps := rfl
@[simp] theorem State.updDie_cores (s : State) (d : Nat) (f : Die → Die) : (s.updDie d f).cores = s.cores := rfl
@[simp] theorem State.updDie_clusters (s : State) (d : Nat) (f : Die → Die) : (s.updDie d f).clusters = s.clusters := rfl
@[simp] theorem State.updDie_dies (s : State) (d : Nat) (f : Die → Die) : (s.updDie d f).dies = mapSet s.dies d (f (s.dieAt d)) := rfl
@[simp] theorem State.updDie_mem (s : State) (d : Nat) (f : Die → Die) : (s.updDie d f).mem = s.mem := rfl
@[simp] theorem State.updDie_dram (s : State) (d : Nat) (f : Die → Die) : (s.updDie d f).dram = s.dram := rfl
@[simp] theorem State.updDie_cxlDirty (s : State) (d : Nat) (f : Die → Die) : (s.updDie d f).cxlDirty = s.cxlDirty := rfl
@[simp] theorem State.updDie_uncached (s : State) (d : Nat) (f : Die → Die) : (s.updDie d f).uncached = s.uncached := rfl
@[simp] theorem State.updDie_oldCode (s : State) (d : Nat) (f : Die → Die) : (s.updDie d f).oldCode = s.oldCode := rfl
@[simp] theorem State.updDie_poison (s : State) (d : Nat) (f : Die → Die) : (s.updDie d f).poison = s.poison := rfl
@[simp] theorem State.updDie_stacks (s : State) (d : Nat) (f : Die → Die) : (s.updDie d f).lkStacks = s.lkStacks := rfl
@[simp] theorem State.updDie_windows (s : State) (d : Nat) (f : Die → Die) : (s.updDie d f).windows = s.windows := rfl
@[simp] theorem State.updDie_sends (s : State) (d : Nat) (f : Die → Die) : (s.updDie d f).sends = s.sends := rfl
@[simp] theorem State.updDie_counted (s : State) (d : Nat) (f : Die → Die) : (s.updDie d f).counted = s.counted := rfl
@[simp] theorem State.updDie_pkg (s : State) (d : Nat) (f : Die → Die) : (s.updDie d f).pkg = s.pkg := rfl
@[simp] theorem State.updDie_launches (s : State) (d : Nat) (f : Die → Die) : (s.updDie d f).launches = s.launches := rfl
@[simp] theorem State.updDie_recent (s : State) (d : Nat) (f : Die → Die) : (s.updDie d f).recent = s.recent := rfl
@[simp] theorem State.updDie_accepted (s : State) (d : Nat) (f : Die → Die) : (s.updDie d f).accepted = s.accepted := rfl
@[simp] theorem State.updDie_spaces (s : State) (d : Nat) (f : Die → Die) : (s.updDie d f).spaces = s.spaces := rfl
@[simp] theorem State.updDie_locks (s : State) (d : Nat) (f : Die → Die) : (s.updDie d f).locks = s.locks := rfl
@[simp] theorem State.updDie_free (s : State) (d : Nat) (f : Die → Die) : (s.updDie d f).free = s.free := rfl
@[simp] theorem State.updDie_seq (s : State) (d : Nat) (f : Die → Die) : (s.updDie d f).seq = s.seq := rfl
@[simp] theorem State.updDie_clock (s : State) (d : Nat) (f : Die → Die) : (s.updDie d f).clock = s.clock := rfl
@[simp] theorem State.updDie_sent (s : State) (d : Nat) (f : Die → Die) : (s.updDie d f).sent = s.sent := rfl
@[simp] theorem State.updDie_agenda (s : State) (d : Nat) (f : Die → Die) : (s.updDie d f).agenda = s.agenda := rfl

/-! ### updStack -/

@[simp] theorem State.updStack_cur (s : State) (n : Nat) (f : Stack → Stack) : (s.updStack n f).cur = s.cur := rfl
@[simp] theorem State.updStack_me (s : State) (n : Nat) (f : Stack → Stack) : (s.updStack n f).me = s.me := rfl
@[simp] theorem State.updStack_others (s : State) (n : Nat) (f : Stack → Stack) : (s.updStack n f).others = s.others := rfl
@[simp] theorem State.updStack_snaps (s : State) (n : Nat) (f : Stack → Stack) : (s.updStack n f).snaps = s.snaps := rfl
@[simp] theorem State.updStack_cores (s : State) (n : Nat) (f : Stack → Stack) : (s.updStack n f).cores = s.cores := rfl
@[simp] theorem State.updStack_clusters (s : State) (n : Nat) (f : Stack → Stack) : (s.updStack n f).clusters = s.clusters := rfl
@[simp] theorem State.updStack_dies (s : State) (n : Nat) (f : Stack → Stack) : (s.updStack n f).dies = s.dies := rfl
@[simp] theorem State.updStack_mem (s : State) (n : Nat) (f : Stack → Stack) : (s.updStack n f).mem = s.mem := rfl
@[simp] theorem State.updStack_dram (s : State) (n : Nat) (f : Stack → Stack) : (s.updStack n f).dram = s.dram := rfl
@[simp] theorem State.updStack_cxlDirty (s : State) (n : Nat) (f : Stack → Stack) : (s.updStack n f).cxlDirty = s.cxlDirty := rfl
@[simp] theorem State.updStack_uncached (s : State) (n : Nat) (f : Stack → Stack) : (s.updStack n f).uncached = s.uncached := rfl
@[simp] theorem State.updStack_oldCode (s : State) (n : Nat) (f : Stack → Stack) : (s.updStack n f).oldCode = s.oldCode := rfl
@[simp] theorem State.updStack_poison (s : State) (n : Nat) (f : Stack → Stack) : (s.updStack n f).poison = s.poison := rfl
@[simp] theorem State.updStack_stacks (s : State) (n : Nat) (f : Stack → Stack) : (s.updStack n f).lkStacks = mapSet s.lkStacks n (f (s.stackAt n)) := rfl
@[simp] theorem State.updStack_windows (s : State) (n : Nat) (f : Stack → Stack) : (s.updStack n f).windows = s.windows := rfl
@[simp] theorem State.updStack_sends (s : State) (n : Nat) (f : Stack → Stack) : (s.updStack n f).sends = s.sends := rfl
@[simp] theorem State.updStack_counted (s : State) (n : Nat) (f : Stack → Stack) : (s.updStack n f).counted = s.counted := rfl
@[simp] theorem State.updStack_pkg (s : State) (n : Nat) (f : Stack → Stack) : (s.updStack n f).pkg = s.pkg := rfl
@[simp] theorem State.updStack_launches (s : State) (n : Nat) (f : Stack → Stack) : (s.updStack n f).launches = s.launches := rfl
@[simp] theorem State.updStack_recent (s : State) (n : Nat) (f : Stack → Stack) : (s.updStack n f).recent = s.recent := rfl
@[simp] theorem State.updStack_accepted (s : State) (n : Nat) (f : Stack → Stack) : (s.updStack n f).accepted = s.accepted := rfl
@[simp] theorem State.updStack_spaces (s : State) (n : Nat) (f : Stack → Stack) : (s.updStack n f).spaces = s.spaces := rfl
@[simp] theorem State.updStack_locks (s : State) (n : Nat) (f : Stack → Stack) : (s.updStack n f).locks = s.locks := rfl
@[simp] theorem State.updStack_free (s : State) (n : Nat) (f : Stack → Stack) : (s.updStack n f).free = s.free := rfl
@[simp] theorem State.updStack_seq (s : State) (n : Nat) (f : Stack → Stack) : (s.updStack n f).seq = s.seq := rfl
@[simp] theorem State.updStack_clock (s : State) (n : Nat) (f : Stack → Stack) : (s.updStack n f).clock = s.clock := rfl
@[simp] theorem State.updStack_sent (s : State) (n : Nat) (f : Stack → Stack) : (s.updStack n f).sent = s.sent := rfl
@[simp] theorem State.updStack_agenda (s : State) (n : Nat) (f : Stack → Stack) : (s.updStack n f).agenda = s.agenda := rfl

/-! ### bump -/

@[simp] theorem State.bump_cur (s : State) : (s.bump).cur = s.cur := rfl
@[simp] theorem State.bump_me (s : State) : (s.bump).me = s.me := rfl
@[simp] theorem State.bump_others (s : State) : (s.bump).others = s.others := rfl
@[simp] theorem State.bump_snaps (s : State) : (s.bump).snaps = s.snaps := rfl
@[simp] theorem State.bump_cores (s : State) : (s.bump).cores = s.cores := rfl
@[simp] theorem State.bump_clusters (s : State) : (s.bump).clusters = s.clusters := rfl
@[simp] theorem State.bump_dies (s : State) : (s.bump).dies = s.dies := rfl
@[simp] theorem State.bump_mem (s : State) : (s.bump).mem = s.mem := rfl
@[simp] theorem State.bump_dram (s : State) : (s.bump).dram = s.dram := rfl
@[simp] theorem State.bump_cxlDirty (s : State) : (s.bump).cxlDirty = s.cxlDirty := rfl
@[simp] theorem State.bump_uncached (s : State) : (s.bump).uncached = s.uncached := rfl
@[simp] theorem State.bump_oldCode (s : State) : (s.bump).oldCode = s.oldCode := rfl
@[simp] theorem State.bump_poison (s : State) : (s.bump).poison = s.poison := rfl
@[simp] theorem State.bump_stacks (s : State) : (s.bump).lkStacks = s.lkStacks := rfl
@[simp] theorem State.bump_windows (s : State) : (s.bump).windows = s.windows := rfl
@[simp] theorem State.bump_sends (s : State) : (s.bump).sends = s.sends := rfl
@[simp] theorem State.bump_counted (s : State) : (s.bump).counted = s.counted := rfl
@[simp] theorem State.bump_pkg (s : State) : (s.bump).pkg = s.pkg := rfl
@[simp] theorem State.bump_launches (s : State) : (s.bump).launches = s.launches := rfl
@[simp] theorem State.bump_recent (s : State) : (s.bump).recent = s.recent := rfl
@[simp] theorem State.bump_accepted (s : State) : (s.bump).accepted = s.accepted := rfl
@[simp] theorem State.bump_spaces (s : State) : (s.bump).spaces = s.spaces := rfl
@[simp] theorem State.bump_locks (s : State) : (s.bump).locks = s.locks := rfl
@[simp] theorem State.bump_free (s : State) : (s.bump).free = s.free + 1 := rfl
@[simp] theorem State.bump_seq (s : State) : (s.bump).seq = s.seq := rfl
@[simp] theorem State.bump_clock (s : State) : (s.bump).clock = s.clock := rfl
@[simp] theorem State.bump_sent (s : State) : (s.bump).sent = s.sent := rfl
@[simp] theorem State.bump_agenda (s : State) : (s.bump).agenda = s.agenda := rfl

/-! ### setG -/

@[simp] theorem State.setG_cur (s : State) (r : BitVec 5) (x : Word) : (s.setG r x).cur = s.cur := rfl
@[simp] theorem State.setG_me (s : State) (r : BitVec 5) (x : Word) : (s.setG r x).me = s.me.setG r x := rfl
@[simp] theorem State.setG_others (s : State) (r : BitVec 5) (x : Word) : (s.setG r x).others = s.others := rfl
@[simp] theorem State.setG_snaps (s : State) (r : BitVec 5) (x : Word) : (s.setG r x).snaps = s.snaps := rfl
@[simp] theorem State.setG_cores (s : State) (r : BitVec 5) (x : Word) : (s.setG r x).cores = s.cores := rfl
@[simp] theorem State.setG_clusters (s : State) (r : BitVec 5) (x : Word) : (s.setG r x).clusters = s.clusters := rfl
@[simp] theorem State.setG_dies (s : State) (r : BitVec 5) (x : Word) : (s.setG r x).dies = s.dies := rfl
@[simp] theorem State.setG_mem (s : State) (r : BitVec 5) (x : Word) : (s.setG r x).mem = s.mem := rfl
@[simp] theorem State.setG_dram (s : State) (r : BitVec 5) (x : Word) : (s.setG r x).dram = s.dram := rfl
@[simp] theorem State.setG_cxlDirty (s : State) (r : BitVec 5) (x : Word) : (s.setG r x).cxlDirty = s.cxlDirty := rfl
@[simp] theorem State.setG_uncached (s : State) (r : BitVec 5) (x : Word) : (s.setG r x).uncached = s.uncached := rfl
@[simp] theorem State.setG_oldCode (s : State) (r : BitVec 5) (x : Word) : (s.setG r x).oldCode = s.oldCode := rfl
@[simp] theorem State.setG_poison (s : State) (r : BitVec 5) (x : Word) : (s.setG r x).poison = s.poison := rfl
@[simp] theorem State.setG_stacks (s : State) (r : BitVec 5) (x : Word) : (s.setG r x).lkStacks = s.lkStacks := rfl
@[simp] theorem State.setG_windows (s : State) (r : BitVec 5) (x : Word) : (s.setG r x).windows = s.windows := rfl
@[simp] theorem State.setG_sends (s : State) (r : BitVec 5) (x : Word) : (s.setG r x).sends = s.sends := rfl
@[simp] theorem State.setG_counted (s : State) (r : BitVec 5) (x : Word) : (s.setG r x).counted = s.counted := rfl
@[simp] theorem State.setG_pkg (s : State) (r : BitVec 5) (x : Word) : (s.setG r x).pkg = s.pkg := rfl
@[simp] theorem State.setG_launches (s : State) (r : BitVec 5) (x : Word) : (s.setG r x).launches = s.launches := rfl
@[simp] theorem State.setG_recent (s : State) (r : BitVec 5) (x : Word) : (s.setG r x).recent = s.recent := rfl
@[simp] theorem State.setG_accepted (s : State) (r : BitVec 5) (x : Word) : (s.setG r x).accepted = s.accepted := rfl
@[simp] theorem State.setG_spaces (s : State) (r : BitVec 5) (x : Word) : (s.setG r x).spaces = s.spaces := rfl
@[simp] theorem State.setG_locks (s : State) (r : BitVec 5) (x : Word) : (s.setG r x).locks = s.locks := rfl
@[simp] theorem State.setG_free (s : State) (r : BitVec 5) (x : Word) : (s.setG r x).free = s.free := rfl
@[simp] theorem State.setG_seq (s : State) (r : BitVec 5) (x : Word) : (s.setG r x).seq = s.seq := rfl
@[simp] theorem State.setG_clock (s : State) (r : BitVec 5) (x : Word) : (s.setG r x).clock = s.clock := rfl
@[simp] theorem State.setG_sent (s : State) (r : BitVec 5) (x : Word) : (s.setG r x).sent = s.sent := rfl
@[simp] theorem State.setG_agenda (s : State) (r : BitVec 5) (x : Word) : (s.setG r x).agenda = s.agenda := rfl

/-! ### raiseFlags -/

@[simp] theorem State.raiseFlags_cur (s : State) (x : FFlags) : (s.raiseFlags x).cur = s.cur := rfl
@[simp] theorem State.raiseFlags_me (s : State) (x : FFlags) : (s.raiseFlags x).me = { s.me with csr := { s.me.csr with fflags := s.me.csr.fflags ||| x } } := rfl
@[simp] theorem State.raiseFlags_others (s : State) (x : FFlags) : (s.raiseFlags x).others = s.others := rfl
@[simp] theorem State.raiseFlags_snaps (s : State) (x : FFlags) : (s.raiseFlags x).snaps = s.snaps := rfl
@[simp] theorem State.raiseFlags_cores (s : State) (x : FFlags) : (s.raiseFlags x).cores = s.cores := rfl
@[simp] theorem State.raiseFlags_clusters (s : State) (x : FFlags) : (s.raiseFlags x).clusters = s.clusters := rfl
@[simp] theorem State.raiseFlags_dies (s : State) (x : FFlags) : (s.raiseFlags x).dies = s.dies := rfl
@[simp] theorem State.raiseFlags_mem (s : State) (x : FFlags) : (s.raiseFlags x).mem = s.mem := rfl
@[simp] theorem State.raiseFlags_dram (s : State) (x : FFlags) : (s.raiseFlags x).dram = s.dram := rfl
@[simp] theorem State.raiseFlags_cxlDirty (s : State) (x : FFlags) : (s.raiseFlags x).cxlDirty = s.cxlDirty := rfl
@[simp] theorem State.raiseFlags_uncached (s : State) (x : FFlags) : (s.raiseFlags x).uncached = s.uncached := rfl
@[simp] theorem State.raiseFlags_oldCode (s : State) (x : FFlags) : (s.raiseFlags x).oldCode = s.oldCode := rfl
@[simp] theorem State.raiseFlags_poison (s : State) (x : FFlags) : (s.raiseFlags x).poison = s.poison := rfl
@[simp] theorem State.raiseFlags_stacks (s : State) (x : FFlags) : (s.raiseFlags x).lkStacks = s.lkStacks := rfl
@[simp] theorem State.raiseFlags_windows (s : State) (x : FFlags) : (s.raiseFlags x).windows = s.windows := rfl
@[simp] theorem State.raiseFlags_sends (s : State) (x : FFlags) : (s.raiseFlags x).sends = s.sends := rfl
@[simp] theorem State.raiseFlags_counted (s : State) (x : FFlags) : (s.raiseFlags x).counted = s.counted := rfl
@[simp] theorem State.raiseFlags_pkg (s : State) (x : FFlags) : (s.raiseFlags x).pkg = s.pkg := rfl
@[simp] theorem State.raiseFlags_launches (s : State) (x : FFlags) : (s.raiseFlags x).launches = s.launches := rfl
@[simp] theorem State.raiseFlags_recent (s : State) (x : FFlags) : (s.raiseFlags x).recent = s.recent := rfl
@[simp] theorem State.raiseFlags_accepted (s : State) (x : FFlags) : (s.raiseFlags x).accepted = s.accepted := rfl
@[simp] theorem State.raiseFlags_spaces (s : State) (x : FFlags) : (s.raiseFlags x).spaces = s.spaces := rfl
@[simp] theorem State.raiseFlags_locks (s : State) (x : FFlags) : (s.raiseFlags x).locks = s.locks := rfl
@[simp] theorem State.raiseFlags_free (s : State) (x : FFlags) : (s.raiseFlags x).free = s.free := rfl
@[simp] theorem State.raiseFlags_seq (s : State) (x : FFlags) : (s.raiseFlags x).seq = s.seq := rfl
@[simp] theorem State.raiseFlags_clock (s : State) (x : FFlags) : (s.raiseFlags x).clock = s.clock := rfl
@[simp] theorem State.raiseFlags_sent (s : State) (x : FFlags) : (s.raiseFlags x).sent = s.sent := rfl
@[simp] theorem State.raiseFlags_agenda (s : State) (x : FFlags) : (s.raiseFlags x).agenda = s.agenda := rfl

/-! ### stall -/

@[simp] theorem State.stall_cur (s : State) (w : Wait) : (s.stall w).cur = s.cur := rfl
@[simp] theorem State.stall_me (s : State) (w : Wait) : (s.stall w).me = { s.me with wait := w } := rfl
@[simp] theorem State.stall_others (s : State) (w : Wait) : (s.stall w).others = s.others := rfl
@[simp] theorem State.stall_snaps (s : State) (w : Wait) : (s.stall w).snaps = s.snaps := rfl
@[simp] theorem State.stall_cores (s : State) (w : Wait) : (s.stall w).cores = s.cores := rfl
@[simp] theorem State.stall_clusters (s : State) (w : Wait) : (s.stall w).clusters = s.clusters := rfl
@[simp] theorem State.stall_dies (s : State) (w : Wait) : (s.stall w).dies = s.dies := rfl
@[simp] theorem State.stall_mem (s : State) (w : Wait) : (s.stall w).mem = s.mem := rfl
@[simp] theorem State.stall_dram (s : State) (w : Wait) : (s.stall w).dram = s.dram := rfl
@[simp] theorem State.stall_cxlDirty (s : State) (w : Wait) : (s.stall w).cxlDirty = s.cxlDirty := rfl
@[simp] theorem State.stall_uncached (s : State) (w : Wait) : (s.stall w).uncached = s.uncached := rfl
@[simp] theorem State.stall_oldCode (s : State) (w : Wait) : (s.stall w).oldCode = s.oldCode := rfl
@[simp] theorem State.stall_poison (s : State) (w : Wait) : (s.stall w).poison = s.poison := rfl
@[simp] theorem State.stall_stacks (s : State) (w : Wait) : (s.stall w).lkStacks = s.lkStacks := rfl
@[simp] theorem State.stall_windows (s : State) (w : Wait) : (s.stall w).windows = s.windows := rfl
@[simp] theorem State.stall_sends (s : State) (w : Wait) : (s.stall w).sends = s.sends := rfl
@[simp] theorem State.stall_counted (s : State) (w : Wait) : (s.stall w).counted = s.counted := rfl
@[simp] theorem State.stall_pkg (s : State) (w : Wait) : (s.stall w).pkg = s.pkg := rfl
@[simp] theorem State.stall_launches (s : State) (w : Wait) : (s.stall w).launches = s.launches := rfl
@[simp] theorem State.stall_recent (s : State) (w : Wait) : (s.stall w).recent = s.recent := rfl
@[simp] theorem State.stall_accepted (s : State) (w : Wait) : (s.stall w).accepted = s.accepted := rfl
@[simp] theorem State.stall_spaces (s : State) (w : Wait) : (s.stall w).spaces = s.spaces := rfl
@[simp] theorem State.stall_locks (s : State) (w : Wait) : (s.stall w).locks = s.locks := rfl
@[simp] theorem State.stall_free (s : State) (w : Wait) : (s.stall w).free = s.free := rfl
@[simp] theorem State.stall_seq (s : State) (w : Wait) : (s.stall w).seq = s.seq := rfl
@[simp] theorem State.stall_clock (s : State) (w : Wait) : (s.stall w).clock = s.clock := rfl
@[simp] theorem State.stall_sent (s : State) (w : Wait) : (s.stall w).sent = s.sent := rfl
@[simp] theorem State.stall_agenda (s : State) (w : Wait) : (s.stall w).agenda = s.agenda := rfl

/-! ### next -/

@[simp] theorem State.next_cur (s : State) : (s.next).cur = s.cur := rfl
@[simp] theorem State.next_me (s : State) : (s.next).me = s.me.advance 1 := rfl
@[simp] theorem State.next_others (s : State) : (s.next).others = s.others := rfl
@[simp] theorem State.next_snaps (s : State) : (s.next).snaps = s.snaps := rfl
@[simp] theorem State.next_cores (s : State) : (s.next).cores = s.cores := rfl
@[simp] theorem State.next_clusters (s : State) : (s.next).clusters = s.clusters := rfl
@[simp] theorem State.next_dies (s : State) : (s.next).dies = s.dies := rfl
@[simp] theorem State.next_mem (s : State) : (s.next).mem = s.mem := rfl
@[simp] theorem State.next_dram (s : State) : (s.next).dram = s.dram := rfl
@[simp] theorem State.next_cxlDirty (s : State) : (s.next).cxlDirty = s.cxlDirty := rfl
@[simp] theorem State.next_uncached (s : State) : (s.next).uncached = s.uncached := rfl
@[simp] theorem State.next_oldCode (s : State) : (s.next).oldCode = s.oldCode := rfl
@[simp] theorem State.next_poison (s : State) : (s.next).poison = s.poison := rfl
@[simp] theorem State.next_stacks (s : State) : (s.next).lkStacks = s.lkStacks := rfl
@[simp] theorem State.next_windows (s : State) : (s.next).windows = s.windows := rfl
@[simp] theorem State.next_sends (s : State) : (s.next).sends = s.sends := rfl
@[simp] theorem State.next_counted (s : State) : (s.next).counted = s.counted := rfl
@[simp] theorem State.next_pkg (s : State) : (s.next).pkg = s.pkg := rfl
@[simp] theorem State.next_launches (s : State) : (s.next).launches = s.launches := rfl
@[simp] theorem State.next_recent (s : State) : (s.next).recent = s.recent := rfl
@[simp] theorem State.next_accepted (s : State) : (s.next).accepted = s.accepted := rfl
@[simp] theorem State.next_spaces (s : State) : (s.next).spaces = s.spaces := rfl
@[simp] theorem State.next_locks (s : State) : (s.next).locks = s.locks := rfl
@[simp] theorem State.next_free (s : State) : (s.next).free = s.free := rfl
@[simp] theorem State.next_seq (s : State) : (s.next).seq = s.seq := rfl
@[simp] theorem State.next_clock (s : State) : (s.next).clock = s.clock := rfl
@[simp] theorem State.next_sent (s : State) : (s.next).sent = s.sent := rfl
@[simp] theorem State.next_agenda (s : State) : (s.next).agenda = s.agenda := rfl

/-! ### write -/

@[simp] theorem State.write_cur (s : State) (d : BitVec 5) (x : Word) : (s.write d x).cur = s.cur := rfl
@[simp] theorem State.write_me (s : State) (d : BitVec 5) (x : Word) : (s.write d x).me = (s.me.setG d x).advance 1 := rfl
@[simp] theorem State.write_others (s : State) (d : BitVec 5) (x : Word) : (s.write d x).others = s.others := rfl
@[simp] theorem State.write_snaps (s : State) (d : BitVec 5) (x : Word) : (s.write d x).snaps = s.snaps := rfl
@[simp] theorem State.write_cores (s : State) (d : BitVec 5) (x : Word) : (s.write d x).cores = s.cores := rfl
@[simp] theorem State.write_clusters (s : State) (d : BitVec 5) (x : Word) : (s.write d x).clusters = s.clusters := rfl
@[simp] theorem State.write_dies (s : State) (d : BitVec 5) (x : Word) : (s.write d x).dies = s.dies := rfl
@[simp] theorem State.write_mem (s : State) (d : BitVec 5) (x : Word) : (s.write d x).mem = s.mem := rfl
@[simp] theorem State.write_dram (s : State) (d : BitVec 5) (x : Word) : (s.write d x).dram = s.dram := rfl
@[simp] theorem State.write_cxlDirty (s : State) (d : BitVec 5) (x : Word) : (s.write d x).cxlDirty = s.cxlDirty := rfl
@[simp] theorem State.write_uncached (s : State) (d : BitVec 5) (x : Word) : (s.write d x).uncached = s.uncached := rfl
@[simp] theorem State.write_oldCode (s : State) (d : BitVec 5) (x : Word) : (s.write d x).oldCode = s.oldCode := rfl
@[simp] theorem State.write_poison (s : State) (d : BitVec 5) (x : Word) : (s.write d x).poison = s.poison := rfl
@[simp] theorem State.write_stacks (s : State) (d : BitVec 5) (x : Word) : (s.write d x).lkStacks = s.lkStacks := rfl
@[simp] theorem State.write_windows (s : State) (d : BitVec 5) (x : Word) : (s.write d x).windows = s.windows := rfl
@[simp] theorem State.write_sends (s : State) (d : BitVec 5) (x : Word) : (s.write d x).sends = s.sends := rfl
@[simp] theorem State.write_counted (s : State) (d : BitVec 5) (x : Word) : (s.write d x).counted = s.counted := rfl
@[simp] theorem State.write_pkg (s : State) (d : BitVec 5) (x : Word) : (s.write d x).pkg = s.pkg := rfl
@[simp] theorem State.write_launches (s : State) (d : BitVec 5) (x : Word) : (s.write d x).launches = s.launches := rfl
@[simp] theorem State.write_recent (s : State) (d : BitVec 5) (x : Word) : (s.write d x).recent = s.recent := rfl
@[simp] theorem State.write_accepted (s : State) (d : BitVec 5) (x : Word) : (s.write d x).accepted = s.accepted := rfl
@[simp] theorem State.write_spaces (s : State) (d : BitVec 5) (x : Word) : (s.write d x).spaces = s.spaces := rfl
@[simp] theorem State.write_locks (s : State) (d : BitVec 5) (x : Word) : (s.write d x).locks = s.locks := rfl
@[simp] theorem State.write_free (s : State) (d : BitVec 5) (x : Word) : (s.write d x).free = s.free := rfl
@[simp] theorem State.write_seq (s : State) (d : BitVec 5) (x : Word) : (s.write d x).seq = s.seq := rfl
@[simp] theorem State.write_clock (s : State) (d : BitVec 5) (x : Word) : (s.write d x).clock = s.clock := rfl
@[simp] theorem State.write_sent (s : State) (d : BitVec 5) (x : Word) : (s.write d x).sent = s.sent := rfl
@[simp] theorem State.write_agenda (s : State) (d : BitVec 5) (x : Word) : (s.write d x).agenda = s.agenda := rfl

/-! ### storeMem -/

@[simp] theorem State.storeMem_cur (s : State) (k n x : Nat) : (s.storeMem k n x).cur = s.cur := rfl
@[simp] theorem State.storeMem_me (s : State) (k n x : Nat) : (s.storeMem k n x).me = s.me := rfl
@[simp] theorem State.storeMem_others (s : State) (k n x : Nat) : (s.storeMem k n x).others = s.others := rfl
@[simp] theorem State.storeMem_snaps (s : State) (k n x : Nat) : (s.storeMem k n x).snaps = s.snaps := rfl
@[simp] theorem State.storeMem_cores (s : State) (k n x : Nat) : (s.storeMem k n x).cores = s.cores := rfl
@[simp] theorem State.storeMem_clusters (s : State) (k n x : Nat) : (s.storeMem k n x).clusters = s.clusters := rfl
@[simp] theorem State.storeMem_dies (s : State) (k n x : Nat) : (s.storeMem k n x).dies = s.dies := rfl
@[simp] theorem State.storeMem_mem (s : State) (k n x : Nat) : (s.storeMem k n x).mem = memWrite s.mem k n x := rfl
@[simp] theorem State.storeMem_dram (s : State) (k n x : Nat) : (s.storeMem k n x).dram = (limitCxl (if keyCached k then noteDram s.mem s.dram k n else s.dram) s.cxlDirty k n).1 := rfl
@[simp] theorem State.storeMem_cxlDirty (s : State) (k n x : Nat) : (s.storeMem k n x).cxlDirty = (limitCxl (if keyCached k then noteDram s.mem s.dram k n else s.dram) s.cxlDirty k n).2 := rfl
@[simp] theorem State.storeMem_uncached (s : State) (k n x : Nat) : (s.storeMem k n x).uncached = stillUncached s.uncached k n := rfl
@[simp] theorem State.storeMem_oldCode (s : State) (k n x : Nat) : (s.storeMem k n x).oldCode = overwritten s.mem k n ++ s.oldCode := rfl
@[simp] theorem State.storeMem_poison (s : State) (k n x : Nat) : (s.storeMem k n x).poison = clearPoison s.poison k n := rfl
@[simp] theorem State.storeMem_stacks (s : State) (k n x : Nat) : (s.storeMem k n x).lkStacks = s.noteRows k n := rfl
@[simp] theorem State.storeMem_windows (s : State) (k n x : Nat) : (s.storeMem k n x).windows = s.windows := rfl
@[simp] theorem State.storeMem_sends (s : State) (k n x : Nat) : (s.storeMem k n x).sends = s.sends := rfl
@[simp] theorem State.storeMem_counted (s : State) (k n x : Nat) : (s.storeMem k n x).counted = s.counted := rfl
@[simp] theorem State.storeMem_pkg (s : State) (k n x : Nat) : (s.storeMem k n x).pkg = s.pkg := rfl
@[simp] theorem State.storeMem_launches (s : State) (k n x : Nat) : (s.storeMem k n x).launches = s.launches := rfl
@[simp] theorem State.storeMem_recent (s : State) (k n x : Nat) : (s.storeMem k n x).recent = s.recent := rfl
@[simp] theorem State.storeMem_accepted (s : State) (k n x : Nat) : (s.storeMem k n x).accepted = s.accepted := rfl
@[simp] theorem State.storeMem_spaces (s : State) (k n x : Nat) : (s.storeMem k n x).spaces = s.spaces := rfl
@[simp] theorem State.storeMem_locks (s : State) (k n x : Nat) : (s.storeMem k n x).locks = s.locks := rfl
@[simp] theorem State.storeMem_free (s : State) (k n x : Nat) : (s.storeMem k n x).free = s.free := rfl
@[simp] theorem State.storeMem_seq (s : State) (k n x : Nat) : (s.storeMem k n x).seq = s.seq := rfl
@[simp] theorem State.storeMem_clock (s : State) (k n x : Nat) : (s.storeMem k n x).clock = s.clock := rfl
@[simp] theorem State.storeMem_sent (s : State) (k n x : Nat) : (s.storeMem k n x).sent = s.sent := rfl
@[simp] theorem State.storeMem_agenda (s : State) (k n x : Nat) : (s.storeMem k n x).agenda = s.agenda := rfl

/-! ### poisonBytes -/

@[simp] theorem State.poisonBytes_cur (s : State) (k n : Nat) : (s.poisonBytes k n).cur = s.cur := rfl
@[simp] theorem State.poisonBytes_me (s : State) (k n : Nat) : (s.poisonBytes k n).me = s.me := rfl
@[simp] theorem State.poisonBytes_others (s : State) (k n : Nat) : (s.poisonBytes k n).others = s.others := rfl
@[simp] theorem State.poisonBytes_snaps (s : State) (k n : Nat) : (s.poisonBytes k n).snaps = s.snaps := rfl
@[simp] theorem State.poisonBytes_cores (s : State) (k n : Nat) : (s.poisonBytes k n).cores = s.cores := rfl
@[simp] theorem State.poisonBytes_clusters (s : State) (k n : Nat) : (s.poisonBytes k n).clusters = s.clusters := rfl
@[simp] theorem State.poisonBytes_dies (s : State) (k n : Nat) : (s.poisonBytes k n).dies = s.dies := rfl
@[simp] theorem State.poisonBytes_mem (s : State) (k n : Nat) : (s.poisonBytes k n).mem = s.mem := rfl
@[simp] theorem State.poisonBytes_dram (s : State) (k n : Nat) : (s.poisonBytes k n).dram = s.dram := rfl
@[simp] theorem State.poisonBytes_cxlDirty (s : State) (k n : Nat) : (s.poisonBytes k n).cxlDirty = s.cxlDirty := rfl
@[simp] theorem State.poisonBytes_uncached (s : State) (k n : Nat) : (s.poisonBytes k n).uncached = s.uncached := rfl
@[simp] theorem State.poisonBytes_oldCode (s : State) (k n : Nat) : (s.poisonBytes k n).oldCode = s.oldCode := rfl
@[simp] theorem State.poisonBytes_poison (s : State) (k n : Nat) : (s.poisonBytes k n).poison = { key := k, bytes := n, persist := true } ::
      (clearPoison s.poison k n).filter fun p => !(p.key = k && p.bytes = n) := rfl
@[simp] theorem State.poisonBytes_stacks (s : State) (k n : Nat) : (s.poisonBytes k n).lkStacks = s.lkStacks := rfl
@[simp] theorem State.poisonBytes_windows (s : State) (k n : Nat) : (s.poisonBytes k n).windows = s.windows := rfl
@[simp] theorem State.poisonBytes_sends (s : State) (k n : Nat) : (s.poisonBytes k n).sends = s.sends := rfl
@[simp] theorem State.poisonBytes_counted (s : State) (k n : Nat) : (s.poisonBytes k n).counted = s.counted := rfl
@[simp] theorem State.poisonBytes_pkg (s : State) (k n : Nat) : (s.poisonBytes k n).pkg = s.pkg := rfl
@[simp] theorem State.poisonBytes_launches (s : State) (k n : Nat) : (s.poisonBytes k n).launches = s.launches := rfl
@[simp] theorem State.poisonBytes_recent (s : State) (k n : Nat) : (s.poisonBytes k n).recent = s.recent := rfl
@[simp] theorem State.poisonBytes_accepted (s : State) (k n : Nat) : (s.poisonBytes k n).accepted = s.accepted := rfl
@[simp] theorem State.poisonBytes_spaces (s : State) (k n : Nat) : (s.poisonBytes k n).spaces = s.spaces := rfl
@[simp] theorem State.poisonBytes_locks (s : State) (k n : Nat) : (s.poisonBytes k n).locks = s.locks := rfl
@[simp] theorem State.poisonBytes_free (s : State) (k n : Nat) : (s.poisonBytes k n).free = s.free := rfl
@[simp] theorem State.poisonBytes_seq (s : State) (k n : Nat) : (s.poisonBytes k n).seq = s.seq := rfl
@[simp] theorem State.poisonBytes_clock (s : State) (k n : Nat) : (s.poisonBytes k n).clock = s.clock := rfl
@[simp] theorem State.poisonBytes_sent (s : State) (k n : Nat) : (s.poisonBytes k n).sent = s.sent := rfl
@[simp] theorem State.poisonBytes_agenda (s : State) (k n : Nat) : (s.poisonBytes k n).agenda = s.agenda := rfl

/-! ### A g register written -/

@[simp] theorem Hart.setG_level (h : Hart) (r : BitVec 5) (x : Word) : (h.setG r x).level = h.level := by
  unfold Hart.setG; split; · rfl
  split <;> rfl
@[simp] theorem Hart.setG_pc (h : Hart) (r : BitVec 5) (x : Word) : (h.setG r x).pc = h.pc := by
  unfold Hart.setG; split; · rfl
  split <;> rfl
@[simp] theorem Hart.setG_q (h : Hart) (r : BitVec 5) (x : Word) : (h.setG r x).q = h.q := by
  unfold Hart.setG; split; · rfl
  split <;> rfl
@[simp] theorem Hart.setG_tok (h : Hart) (r : BitVec 5) (x : Word) : (h.setG r x).tok = h.tok := by
  unfold Hart.setG; split; · rfl
  split <;> rfl
@[simp] theorem Hart.setG_m (h : Hart) (r : BitVec 5) (x : Word) : (h.setG r x).m = h.m := by
  unfold Hart.setG; split; · rfl
  split <;> rfl
@[simp] theorem Hart.setG_v (h : Hart) (r : BitVec 5) (x : Word) : (h.setG r x).v = h.v := by
  unfold Hart.setG; split; · rfl
  split <;> rfl
@[simp] theorem Hart.setG_tag (h : Hart) (r : BitVec 5) (x : Word) : (h.setG r x).tag = h.tag := by
  unfold Hart.setG; split; · rfl
  split <;> rfl
@[simp] theorem Hart.setG_nest (h : Hart) (r : BitVec 5) (x : Word) : (h.setG r x).nest = h.nest := by
  unfold Hart.setG; split; · rfl
  split <;> rfl
@[simp] theorem Hart.setG_csr (h : Hart) (r : BitVec 5) (x : Word) : (h.setG r x).csr = h.csr := by
  unfold Hart.setG; split; · rfl
  split <;> rfl
@[simp] theorem Hart.setG_gang (h : Hart) (r : BitVec 5) (x : Word) : (h.setG r x).gang = h.gang := by
  unfold Hart.setG; split; · rfl
  split <;> rfl
@[simp] theorem Hart.setG_loopLive (h : Hart) (r : BitVec 5) (x : Word) : (h.setG r x).loopLive = h.loopLive := by
  unfold Hart.setG; split; · rfl
  split <;> rfl
@[simp] theorem Hart.setG_debt (h : Hart) (r : BitVec 5) (x : Word) : (h.setG r x).debt = h.debt := by
  unfold Hart.setG; split; · rfl
  split <;> rfl
@[simp] theorem Hart.setG_late (h : Hart) (r : BitVec 5) (x : Word) : (h.setG r x).late = h.late := by
  unfold Hart.setG; split; · rfl
  split <;> rfl
@[simp] theorem Hart.setG_win (h : Hart) (r : BitVec 5) (x : Word) : (h.setG r x).win = h.win := by
  unfold Hart.setG; split; · rfl
  split <;> rfl
@[simp] theorem Hart.setG_loopBuf (h : Hart) (r : BitVec 5) (x : Word) : (h.setG r x).loopBuf = h.loopBuf := by
  unfold Hart.setG; split; · rfl
  split <;> rfl
@[simp] theorem Hart.setG_bounds (h : Hart) (r : BitVec 5) (x : Word) : (h.setG r x).bounds = h.bounds := by
  unfold Hart.setG; split; · rfl
  split <;> rfl
@[simp] theorem Hart.setG_wait (h : Hart) (r : BitVec 5) (x : Word) : (h.setG r x).wait = h.wait := by
  unfold Hart.setG; split; · rfl
  split <;> rfl
@[simp] theorem Hart.setG_restart (h : Hart) (r : BitVec 5) (x : Word) : (h.setG r x).restart = h.restart := by
  unfold Hart.setG; split; · rfl
  split <;> rfl
@[simp] theorem Hart.setG_viaEret (h : Hart) (r : BitVec 5) (x : Word) : (h.setG r x).viaEret = h.viaEret := by
  unfold Hart.setG; split; · rfl
  split <;> rfl
@[simp] theorem Hart.setG_vq (h : Hart) (r : BitVec 5) (x : Word) : (h.setG r x).vq = h.vq := by
  unfold Hart.setG; split; · rfl
  split <;> rfl
@[simp] theorem Hart.setG_lq (h : Hart) (r : BitVec 5) (x : Word) : (h.setG r x).lq = h.lq := by
  unfold Hart.setG; split; · rfl
  split <;> rfl
@[simp] theorem Hart.setG_xq (h : Hart) (r : BitVec 5) (x : Word) : (h.setG r x).xq = h.xq := by
  unfold Hart.setG; split; · rfl
  split <;> rfl
@[simp] theorem Hart.setG_rf (h : Hart) (r : BitVec 5) (x : Word) : (h.setG r x).rf = h.rf := by
  unfold Hart.setG; split; · rfl
  split <;> rfl
@[simp] theorem Hart.setG_sb (h : Hart) (r : BitVec 5) (x : Word) : (h.setG r x).sb = h.sb := by
  unfold Hart.setG; split; · rfl
  split <;> rfl
@[simp] theorem Hart.setG_due (h : Hart) (r : BitVec 5) (x : Word) : (h.setG r x).due = h.due := by
  unfold Hart.setG; split; · rfl
  split <;> rfl
@[simp] theorem Hart.setG_barWait (h : Hart) (r : BitVec 5) (x : Word) : (h.setG r x).barWait = h.barWait := by
  unfold Hart.setG; split; · rfl
  split <;> rfl
@[simp] theorem Hart.setG_task (h : Hart) (r : BitVec 5) (x : Word) : (h.setG r x).task = h.task := by
  unfold Hart.setG; split; · rfl
  split <;> rfl
@[simp] theorem Hart.setG_halted (h : Hart) (r : BitVec 5) (x : Word) : (h.setG r x).halted = h.halted := by
  unfold Hart.setG; split; · rfl
  split <;> rfl
@[simp] theorem Hart.setG_haltPos (h : Hart) (r : BitVec 5) (x : Word) : (h.setG r x).haltPos = h.haltPos := by
  unfold Hart.setG; split; · rfl
  split <;> rfl
@[simp] theorem Hart.setG_haltReq (h : Hart) (r : BitVec 5) (x : Word) : (h.setG r x).haltReq = h.haltReq := by
  unfold Hart.setG; split; · rfl
  split <;> rfl
@[simp] theorem Hart.setG_preempt (h : Hart) (r : BitVec 5) (x : Word) : (h.setG r x).preempt = h.preempt := by
  unfold Hart.setG; split; · rfl
  split <;> rfl
@[simp] theorem Hart.setG_leave (h : Hart) (r : BitVec 5) (x : Word) : (h.setG r x).leave = h.leave := by
  unfold Hart.setG; split; · rfl
  split <;> rfl
@[simp] theorem Hart.setG_features (h : Hart) (r : BitVec 5) (x : Word) : (h.setG r x).features = h.features := by
  unfold Hart.setG; split; · rfl
  split <;> rfl
@[simp] theorem Hart.setG_changed (h : Hart) (r : BitVec 5) (x : Word) : (h.setG r x).changed = h.changed := by
  unfold Hart.setG; split; · rfl
  split <;> rfl
@[simp] theorem Hart.setG_eventBit (h : Hart) (r : BitVec 5) (x : Word) : (h.setG r x).eventBit = h.eventBit := by
  unfold Hart.setG; split; · rfl
  split <;> rfl
@[simp] theorem Hart.setG_entered (h : Hart) (r : BitVec 5) (x : Word) : (h.setG r x).entered = h.entered := by
  unfold Hart.setG; split; · rfl
  split <;> rfl
@[simp] theorem Hart.setG_slots (h : Hart) (r : BitVec 5) (x : Word) : (h.setG r x).slots = h.slots := by
  unfold Hart.setG; split; · rfl
  split <;> rfl
@[simp] theorem Hart.setG_locked (h : Hart) (r : BitVec 5) (x : Word) : (h.setG r x).locked = h.locked := by
  unfold Hart.setG; split; · rfl
  split <;> rfl
@[simp] theorem Hart.setG_proposed (h : Hart) (r : BitVec 5) (x : Word) : (h.setG r x).proposed = h.proposed := by
  unfold Hart.setG; split; · rfl
  split <;> rfl
@[simp] theorem Hart.setG_pairs (h : Hart) (r : BitVec 5) (x : Word) : (h.setG r x).pairs = h.pairs := by
  unfold Hart.setG; split; · rfl
  split <;> rfl

/-! ### Moving past an instruction -/

@[simp] theorem Hart.advance_ug (h : Hart) (n : Nat) : (h.advance n).ug = h.ug := by
  unfold Hart.advance; dsimp only; repeat' split
  all_goals rfl
@[simp] theorem Hart.advance_sg (h : Hart) (n : Nat) : (h.advance n).sg = h.sg := by
  unfold Hart.advance; dsimp only; repeat' split
  all_goals rfl
@[simp] theorem Hart.advance_level (h : Hart) (n : Nat) : (h.advance n).level = h.level := by
  unfold Hart.advance; dsimp only; repeat' split
  all_goals rfl
@[simp] theorem Hart.advance_q (h : Hart) (n : Nat) : (h.advance n).q = h.q := by
  unfold Hart.advance; dsimp only; repeat' split
  all_goals rfl
@[simp] theorem Hart.advance_tok (h : Hart) (n : Nat) : (h.advance n).tok = h.tok := by
  unfold Hart.advance; dsimp only; repeat' split
  all_goals rfl
@[simp] theorem Hart.advance_m (h : Hart) (n : Nat) : (h.advance n).m = h.m := by
  unfold Hart.advance; dsimp only; repeat' split
  all_goals rfl
@[simp] theorem Hart.advance_v (h : Hart) (n : Nat) : (h.advance n).v = h.v := by
  unfold Hart.advance; dsimp only; repeat' split
  all_goals rfl
@[simp] theorem Hart.advance_tag (h : Hart) (n : Nat) : (h.advance n).tag = h.tag := by
  unfold Hart.advance; dsimp only; repeat' split
  all_goals rfl
@[simp] theorem Hart.advance_nest (h : Hart) (n : Nat) : (h.advance n).nest = h.nest := by
  unfold Hart.advance; dsimp only; repeat' split
  all_goals rfl
@[simp] theorem Hart.advance_gang (h : Hart) (n : Nat) : (h.advance n).gang = h.gang := by
  unfold Hart.advance; dsimp only; repeat' split
  all_goals rfl
@[simp] theorem Hart.advance_debt (h : Hart) (n : Nat) : (h.advance n).debt = h.debt := by
  unfold Hart.advance; dsimp only; repeat' split
  all_goals rfl
@[simp] theorem Hart.advance_late (h : Hart) (n : Nat) : (h.advance n).late = h.late := by
  unfold Hart.advance; dsimp only; repeat' split
  all_goals rfl
@[simp] theorem Hart.advance_loopBuf (h : Hart) (n : Nat) : (h.advance n).loopBuf = h.loopBuf := by
  unfold Hart.advance; dsimp only; repeat' split
  all_goals rfl
@[simp] theorem Hart.advance_viaEret (h : Hart) (n : Nat) : (h.advance n).viaEret = h.viaEret := by
  unfold Hart.advance; dsimp only; repeat' split
  all_goals rfl
@[simp] theorem Hart.advance_vq (h : Hart) (n : Nat) : (h.advance n).vq = h.vq := by
  unfold Hart.advance; dsimp only; repeat' split
  all_goals rfl
@[simp] theorem Hart.advance_lq (h : Hart) (n : Nat) : (h.advance n).lq = h.lq := by
  unfold Hart.advance; dsimp only; repeat' split
  all_goals rfl
@[simp] theorem Hart.advance_xq (h : Hart) (n : Nat) : (h.advance n).xq = h.xq := by
  unfold Hart.advance; dsimp only; repeat' split
  all_goals rfl
@[simp] theorem Hart.advance_rf (h : Hart) (n : Nat) : (h.advance n).rf = h.rf := by
  unfold Hart.advance; dsimp only; repeat' split
  all_goals rfl
@[simp] theorem Hart.advance_sb (h : Hart) (n : Nat) : (h.advance n).sb = h.sb := by
  unfold Hart.advance; dsimp only; repeat' split
  all_goals rfl
@[simp] theorem Hart.advance_due (h : Hart) (n : Nat) : (h.advance n).due = h.due := by
  unfold Hart.advance; dsimp only; repeat' split
  all_goals rfl
@[simp] theorem Hart.advance_barWait (h : Hart) (n : Nat) : (h.advance n).barWait = h.barWait := by
  unfold Hart.advance; dsimp only; repeat' split
  all_goals rfl
@[simp] theorem Hart.advance_task (h : Hart) (n : Nat) : (h.advance n).task = h.task := by
  unfold Hart.advance; dsimp only; repeat' split
  all_goals rfl
@[simp] theorem Hart.advance_halted (h : Hart) (n : Nat) : (h.advance n).halted = h.halted := by
  unfold Hart.advance; dsimp only; repeat' split
  all_goals rfl
@[simp] theorem Hart.advance_haltPos (h : Hart) (n : Nat) : (h.advance n).haltPos = h.haltPos := by
  unfold Hart.advance; dsimp only; repeat' split
  all_goals rfl
@[simp] theorem Hart.advance_haltReq (h : Hart) (n : Nat) : (h.advance n).haltReq = h.haltReq := by
  unfold Hart.advance; dsimp only; repeat' split
  all_goals rfl
@[simp] theorem Hart.advance_preempt (h : Hart) (n : Nat) : (h.advance n).preempt = h.preempt := by
  unfold Hart.advance; dsimp only; repeat' split
  all_goals rfl
@[simp] theorem Hart.advance_leave (h : Hart) (n : Nat) : (h.advance n).leave = h.leave := by
  unfold Hart.advance; dsimp only; repeat' split
  all_goals rfl
@[simp] theorem Hart.advance_features (h : Hart) (n : Nat) : (h.advance n).features = h.features := by
  unfold Hart.advance; dsimp only; repeat' split
  all_goals rfl
@[simp] theorem Hart.advance_changed (h : Hart) (n : Nat) : (h.advance n).changed = h.changed := by
  unfold Hart.advance; dsimp only; repeat' split
  all_goals rfl
@[simp] theorem Hart.advance_eventBit (h : Hart) (n : Nat) : (h.advance n).eventBit = h.eventBit := by
  unfold Hart.advance; dsimp only; repeat' split
  all_goals rfl
@[simp] theorem Hart.advance_entered (h : Hart) (n : Nat) : (h.advance n).entered = h.entered := by
  unfold Hart.advance; dsimp only; repeat' split
  all_goals rfl
@[simp] theorem Hart.advance_slots (h : Hart) (n : Nat) : (h.advance n).slots = h.slots := by
  unfold Hart.advance; dsimp only; repeat' split
  all_goals rfl
@[simp] theorem Hart.advance_locked (h : Hart) (n : Nat) : (h.advance n).locked = h.locked := by
  unfold Hart.advance; dsimp only; repeat' split
  all_goals rfl
@[simp] theorem Hart.advance_proposed (h : Hart) (n : Nat) : (h.advance n).proposed = h.proposed := by
  unfold Hart.advance; dsimp only; repeat' split
  all_goals rfl
@[simp] theorem Hart.advance_pairs (h : Hart) (n : Nat) : (h.advance n).pairs = h.pairs := by
  unfold Hart.advance; dsimp only; repeat' split
  all_goals rfl
@[simp] theorem Hart.advance_wait (h : Hart) (n : Nat) : (h.advance n).wait = .none := by
  unfold Hart.advance; dsimp only; repeat' split
  all_goals rfl
@[simp] theorem Hart.advance_restart (h : Hart) (n : Nat) : (h.advance n).restart = none := by
  unfold Hart.advance; dsimp only; repeat' split
  all_goals rfl

/-! ### What the host is told -/

/-- A message that leaves changes what has been sent and what waits to be. -/
theorem State.transmit_message (s : State) (m : Message) :
    ∃ o l, s.transmit (.message m) = { s with pkg := { s.pkg with outbox := o }, sent := l } := by
  unfold State.transmit
  split
  · exact ⟨_, _, rfl⟩
  · split <;> exact ⟨_, _, rfl⟩

theorem State.sendOn_told (s : State) (k type : Nat) (b : List Nat) :
    ∃ x o l, s.sendOn k type b = { s with pkg := { s.pkg with sessions := x, outbox := o }, sent := l } := by
  unfold State.sendOn
  split
  · exact ⟨_, _, _, rfl⟩
  · dsimp only
    obtain ⟨o, l, h⟩ := State.transmit_message { s with pkg := { s.pkg with sessions := _ } } _
    exact ⟨_, o, l, h⟩

/-- Telling the host changes its sessions, what has been sent and what waits to be, and nothing else. -/
theorem State.tellHost_told (s : State) (b : List Nat) :
    ∃ x o l, s.tellHost b = { s with pkg := { s.pkg with sessions := x, outbox := o }, sent := l } := by
  unfold State.tellHost
  suffices h : ∀ (ks : List Nat) (t : State),
      (∃ x o l, t = { s with pkg := { s.pkg with sessions := x, outbox := o }, sent := l }) →
      ∃ x o l, ks.foldl (fun t k => t.sendOn k 10 b) t = { s with pkg := { s.pkg with sessions := x, outbox := o }, sent := l } from
    h _ s ⟨_, _, _, rfl⟩
  intro ks
  induction ks with
  | nil => exact fun t h => h
  | cons k ks ih =>
    intro t h
    obtain ⟨x, o, l, rfl⟩ := h
    obtain ⟨x', o', l', h'⟩ := State.sendOn_told { s with pkg := { s.pkg with sessions := x, outbox := o }, sent := l } k 10 b
    exact ih _ ⟨x', o', l', h'⟩

end Sys2Proof.Machine
end

