-- ==== Sys2Proof/Laws/Memory.lean ====
section
/-! SUPPORT. Byte memory and sparse maps: a read after a write, what a write leaves alone, and that every operation keeps
the canonical form. -/

namespace Sys2Proof.Machine

/-! ### One byte -/

theorem memAbove_mono {lo hi : Nat} (h : lo ≤ hi) : ∀ {m : List Host.Cell}, memAbove hi m = true → memAbove lo m = true
  | [], _ => rfl
  | (k, v) :: t, w => by
    simp only [memAbove, Bool.and_eq_true, decide_eq_true_eq] at w ⊢
    exact ⟨⟨by omega, w.1.2⟩, w.2⟩

theorem memSet_above {lo : Nat} (k : Nat) (v : Byte) (hk : lo ≤ k) :
    ∀ {m : List Host.Cell}, memAbove lo m = true → memAbove lo (memSet m k v) = true := by
  intro m
  induction m generalizing lo with
  | nil => intro _; unfold memSet; split <;> simp_all [memAbove]
  | cons e t ih =>
    obtain ⟨k', v'⟩ := e
    intro w
    simp only [memAbove, Bool.and_eq_true, decide_eq_true_eq] at w
    unfold memSet
    split
    · split
      · simpa [memAbove] using w
      · rename_i h1 h2
        simp only [memAbove, Bool.and_eq_true, decide_eq_true_eq]
        exact ⟨⟨hk, by simpa using h2⟩, ⟨by omega, w.1.2⟩, w.2⟩
    · split
      · split
        · exact memAbove_mono (by omega) w.2
        · rename_i h1 h2 h3
          subst h2
          simp only [memAbove, Bool.and_eq_true, decide_eq_true_eq]
          exact ⟨⟨hk, by simpa using h3⟩, w.2⟩
      · simp only [memAbove, Bool.and_eq_true, decide_eq_true_eq]
        exact ⟨w.1, ih (by omega) w.2⟩

/-- Setting a byte keeps the canonical form. -/
theorem memSet_wf {m : List Host.Cell} (k : Nat) (v : Byte) (h : Memory.wf m = true) : Memory.wf (memSet m k v) = true :=
  memSet_above k v (Nat.zero_le k) h

/-- A key below every entry reads as an unlisted byte. -/
theorem memGet_below : ∀ {m : List Host.Cell} {lo k : Nat}, memAbove lo m = true → k < lo → memGet m k = unlistedByte
  | [], _, _, _, _ => rfl
  | (k', v) :: t, lo, k, w, h => by
    simp only [memAbove, Bool.and_eq_true, decide_eq_true_eq] at w
    have : k' ≠ k := by omega
    simp only [memGet, this, ite_false]
    exact memGet_below w.2 (by omega)

/-- A byte read after it was set. -/
theorem memGet_memSet_self (k : Nat) (v : Byte) : ∀ {m : List Host.Cell} {lo : Nat}, memAbove lo m = true →
    memGet (memSet m k v) k = v := by
  intro m
  induction m with
  | nil => intro lo _; unfold memSet; split <;> simp_all [memGet]
  | cons e t ih =>
    obtain ⟨k', v'⟩ := e
    intro lo w
    have w' := w
    simp only [memAbove, Bool.and_eq_true, decide_eq_true_eq] at w
    unfold memSet
    split
    · split
      · rename_i h1 h2
        rw [h2]
        exact memGet_below (lo := k') (by simp only [memAbove, Bool.and_eq_true, decide_eq_true_eq]; exact ⟨⟨Nat.le_refl _, w.1.2⟩, w.2⟩) h1
      · simp [memGet]
    · split
      · split
        · rename_i h1 h2 h3
          rw [h3]
          exact memGet_below w.2 (by omega)
        · simp [memGet]
      · rename_i h1 h2
        simp only [memGet, h2, ite_false]
        exact ih w.2

/-- Every other byte stays. -/
theorem memGet_memSet_other (k j : Nat) (v : Byte) (h : j ≠ k) : ∀ {m : List Host.Cell} {lo : Nat}, memAbove lo m = true →
    memGet (memSet m k v) j = memGet m j := by
  intro m
  induction m with
  | nil => intro lo _; unfold memSet; split <;> simp [memGet, Ne.symm h]
  | cons e t ih =>
    obtain ⟨k', v'⟩ := e
    intro lo w
    simp only [memAbove, Bool.and_eq_true, decide_eq_true_eq] at w
    unfold memSet
    split
    · split
      · rfl
      · simp [memGet, Ne.symm h]
    · split
      · rename_i h1 h2
        split
        · subst h2
          simp [memGet, Ne.symm h]
        · subst h2
          simp [memGet, Ne.symm h]
      · simp only [memGet]
        split
        · rfl
        · exact ih w.2

/-! ### Several bytes -/

/-- Every write keeps the canonical form. -/
theorem memWrite_wf {m : List Host.Cell} (k n x : Nat) (h : Memory.wf m = true) : Memory.wf (memWrite m k n x) = true := by
  induction n generalizing m k x with
  | zero => exact h
  | succ n ih => exact ih _ _ (memSet_wf _ _ h)

/-- A write leaves every byte outside it. -/
theorem memGet_memWrite_other {m : List Host.Cell} (k n x j : Nat) (hw : Memory.wf m = true) (h : j < k ∨ k + n ≤ j) :
    memGet (memWrite m k n x) j = memGet m j := by
  induction n generalizing m k x with
  | zero => rfl
  | succ n ih =>
    simp only [memWrite]
    rw [ih _ _ (memSet_wf _ _ hw) (by omega), memGet_memSet_other _ _ _ (by omega) hw]

/-- A read of what was written. -/
theorem memRead_memWrite {m : List Host.Cell} (k n x : Nat) (hw : Memory.wf m = true) :
    memRead (memWrite m k n x) k n = x % 256 ^ n := by
  induction n generalizing m k x with
  | zero => simp [memRead, Nat.mod_one]
  | succ n ih =>
    simp only [memRead, memWrite]
    rw [ih _ _ (memSet_wf _ _ hw), memGet_memWrite_other _ _ _ _ (memSet_wf _ _ hw) (by omega), memGet_memSet_self _ _ hw]
    have e : (256 : Nat) ^ (n + 1) = 256 * 256 ^ n := Nat.pow_succ'
    simp only [BitVec.toNat_ofNat, e, Nat.mod_mul]

/-- A read beside what was written. -/
theorem memRead_memWrite_other {m : List Host.Cell} (k n x j w : Nat) (hw : Memory.wf m = true) (h : j + w ≤ k ∨ k + n ≤ j) :
    memRead (memWrite m k n x) j w = memRead m j w := by
  induction w generalizing j with
  | zero => rfl
  | succ w ih =>
    simp only [memRead]
    rw [memGet_memWrite_other _ _ _ _ hw (by omega), ih _ (by omega)]

/-- A shorter read gives the low bytes of a longer one. -/
theorem memRead_mod {m : List Host.Cell} (k n j : Nat) : memRead m k (n + j) % 256 ^ n = memRead m k n := by
  induction n generalizing k with
  | zero => simp [memRead, Nat.mod_one]
  | succ n ih =>
    rw [show n + 1 + j = (n + j) + 1 by omega]
    simp only [memRead]
    rw [Nat.pow_succ', Nat.mod_mul, Nat.add_mul_mod_self_left, Nat.mod_eq_of_lt (memGet m k).isLt,
      Nat.add_mul_div_left _ _ (by omega), Nat.div_eq_of_lt (memGet m k).isLt, Nat.zero_add, ih]

/-- Bytes laid out and taken apart again. -/
theorem leBytes_ofBytes (l : List Nat) (h : ∀ b ∈ l, b < 256) : leBytes l.length (ofBytes l) = l := by
  induction l with
  | nil => rfl
  | cons b t ih =>
    have hb : b < 256 := h b List.mem_cons_self
    simp only [List.length_cons, leBytes, ofBytes]
    rw [Nat.add_mul_mod_self_left, Nat.mod_eq_of_lt hb, Nat.add_mul_div_left _ _ (by omega), Nat.div_eq_of_lt hb, Nat.zero_add,
      ih fun x hx => h x (List.mem_cons_of_mem _ hx)]

/-- The low bytes of a number do not depend on what stands above them. -/
theorem leBytes_mod (n x : Nat) : leBytes n (x % 256 ^ n) = leBytes n x := by
  induction n generalizing x with
  | zero => rfl
  | succ n ih =>
    simp only [leBytes]
    rw [Nat.pow_succ', Nat.mod_mul_right_mod, Nat.mod_mul_right_div_self, ih]

/-- The first bytes of a number. -/
theorem leBytes_take (n j x : Nat) : (leBytes (n + j) x).take n = leBytes n x := by
  induction n generalizing x with
  | zero => simp [leBytes]
  | succ n ih =>
    rw [show n + 1 + j = (n + j) + 1 by omega]
    simp only [leBytes, List.take_succ_cons, ih]

theorem leBytes_length (n x : Nat) : (leBytes n x).length = n := by
  induction n generalizing x with
  | zero => rfl
  | succ n ih => simp only [leBytes, List.length_cons, ih]

/-! ### Sparse maps -/

theorem mapGet_mapSet_self {α : Type} (k : Nat) (v : α) : ∀ m : AMap α, mapGet (mapSet m k v) k = some v
  | [] => by simp [mapSet, mapGet]
  | (k', v') :: t => by
    unfold mapSet
    split
    · simp [mapGet]
    · split
      · simp [mapGet]
      · rename_i h1 h2
        simp only [mapGet, h2, ite_false]
        exact mapGet_mapSet_self k v t

theorem mapGet_mapSet_other {α : Type} (k j : Nat) (v : α) (h : j ≠ k) : ∀ m : AMap α, mapGet (mapSet m k v) j = mapGet m j
  | [] => by simp [mapSet, mapGet, Ne.symm h]
  | (k', v') :: t => by
    unfold mapSet
    split
    · simp [mapGet, Ne.symm h]
    · split
      · rename_i h1 h2
        subst h2
        simp [mapGet, Ne.symm h]
      · simp only [mapGet]
        split
        · rfl
        · exact mapGet_mapSet_other k j v h t

/-! ### The operations of the state that write memory -/

/-- A plain store keeps the canonical form. -/
theorem State.storeMem_wf (s : State) (k n x : Nat) (h : Memory.wf s.mem = true) : Memory.wf (s.storeMem k n x).mem = true :=
  memWrite_wf k n x h

/-- A store, to memory or to a control window, keeps the canonical form. -/
theorem State.store_wf (s : State) (k n x : Nat) (h : Memory.wf s.mem = true) : Memory.wf (s.store k n x).mem = true := by
  unfold State.store
  split
  · exact h
  · exact s.storeMem_wf k n x h

/-- A store through to stack DRAM keeps the canonical form. -/
theorem State.storeThrough_wf (s : State) (k n x : Nat) (h : Memory.wf s.mem = true) :
    Memory.wf (s.storeThrough k n x).mem = true := s.store_wf k n x h

/-- A fault record leaves memory. -/
theorem State.recordPoisoned_mem (s : State) (k n : Nat) (pc va : Word) : (s.recordPoisoned k n pc va).mem = s.mem := by
  unfold State.recordPoisoned
  split
  · unfold State.faultRecord
    dsimp only
    split
    · rfl
    · obtain ⟨x, o, l, h⟩ := State.tellHost_told (s.updDie _ _) _
      rw [h]; rfl
  · rfl

/-- A kept-back store that performs keeps the canonical form. -/
theorem State.performKept_wf (s : State) (e : Kept) (h : Memory.wf s.mem = true) : Memory.wf (s.performKept e).mem = true := by
  unfold State.performKept
  split
  · exact h
  · exact State.store_wf _ _ _ _ (by rw [State.recordPoisoned_mem]; exact h)
  · exact s.store_wf _ _ _ h

/-- A store of the acting hart's own streams keeps the canonical form. -/
theorem State.storeMe_wf (s : State) (k n x : Nat) (note : Option (Word × Word)) (h : Memory.wf s.mem = true) :
    Memory.wf (s.storeMe k n x note).mem = true := by
  unfold State.storeMe
  dsimp only
  split
  · exact h
  · exact s.performKept_wf _ h

/-- The memory after reset lists nothing. -/
theorem State.reset_wf : Memory.wf State.reset.mem = true := rfl

end Sys2Proof.Machine
end

