-- ==== Sys2Proof/Laws/Context.lean ====
section
/-! SUPPORT. A context image consists of bytes, and its seal is found good. -/

namespace Sys2Proof.Machine

/-- Every element of a number's little-endian form is a byte. -/
theorem leBytes_lt (n x : Nat) : ∀ b ∈ leBytes n x, b < 256 := by
  induction n generalizing x with
  | zero => intro b hb; simp [leBytes] at hb
  | succ n ih =>
    intro b hb
    simp only [leBytes, List.mem_cons] at hb
    rcases hb with rfl | hb
    · omega
    · exact ih _ b hb

/-- A concatenation of little-endian forms consists of bytes. -/
theorem flatMap_lt {α : Type} (f : α → List Nat) (l : List α) (h : ∀ x ∈ l, ∀ b ∈ f x, b < 256) : ∀ b ∈ l.flatMap f, b < 256 := by
  intro b hb
  obtain ⟨x, hx, hb⟩ := List.mem_flatMap.mp hb
  exact h x hx b hb

/-- A list of small numbers consists of bytes. -/
theorem map_lt {α : Type} (f : α → Nat) (l : List α) (h : ∀ x ∈ l, f x < 256) : ∀ b ∈ l.map f, b < 256 := by
  intro b hb
  obtain ⟨x, hx, rfl⟩ := List.mem_map.mp hb
  exact h x hx

/-- A hart holds at most its core's four quads. -/
theorem Csrs.quadsHeld_le (c : Csrs) : c.quadsHeld ≤ 4 := by
  unfold Csrs.quadsHeld
  exact Nat.le_trans (List.length_filter_le _ _) (by simp)

/-- The image of a hart whose tokens and queues have counts of one byte consists of bytes (R372). -/
theorem imageBytes_lt (h : Hart) (p : Position) (ht : ∀ t ∈ h.tok.toList, t.count < 256) (hq : ∀ l ∈ h.q.toList, l.length < 256) :
    ∀ b ∈ imageBytes h p, b < 256 := by
  have h4 := h.csr.quadsHeld_le
  have h5 : (h.csr.quads.toList.filter (· = .leaving)).length ≤ 4 := Nat.le_trans (List.length_filter_le _ _) (by simp)
  have hf (n : Nat) (l : List Nat) : ∀ b ∈ l.flatMap (leBytes n), b < 256 := flatMap_lt _ _ fun x _ => leBytes_lt n x
  have hp : ∀ b ∈ [h.csr.quadsHeld, (if (h.csr.quads.toList.any fun x => x = .granted ∨ x = .leaving) then 1 else 0) +
      2 * (h.csr.quads.toList.filter (· = .leaving)).length], b < 256 := by
    intro b hb
    simp only [List.mem_cons, List.not_mem_nil, or_false] at hb
    rcases hb with rfl | rfl
    · omega
    · split <;> omega
  have hg : ∀ b ∈ h.tag.toList.map (fun t => t.fmt.toNat + 16 * t.grp.toNat), b < 256 := map_lt _ _ fun t _ => by
    have := t.fmt.isLt; have := t.grp.isLt; omega
  unfold imageBytes
  repeat' refine List.forall_mem_append.mpr ⟨?_, ?_⟩
  all_goals
    first
    | exact leBytes_lt _ _
    | exact hf _ _
    | exact hp
    | exact hg
    | exact map_lt _ _ ht
    | exact map_lt _ _ hq
    | exact flatMap_lt _ _ fun x _ => leBytes_lt _ _

/-- The same with its seal. -/
theorem sealedImage_lt (h : Hart) (p : Position) (ht : ∀ t ∈ h.tok.toList, t.count < 256) (hq : ∀ l ∈ h.q.toList, l.length < 256) :
    ∀ b ∈ sealedImage h p, b < 256 := by
  unfold sealedImage
  exact List.forall_mem_append.mpr ⟨List.forall_mem_append.mpr ⟨imageBytes_lt h p ht hq, leBytes_lt _ _⟩, leBytes_lt _ _⟩

theorem crcBit_lt {c : Nat} (h : c < 2 ^ 32) : crcBit c < 2 ^ 32 := by
  unfold crcBit
  split
  · exact Nat.xor_lt_two_pow (by omega) (by decide)
  · omega

/-- The CRC of bytes has 32 bits. -/
theorem crc32c_lt (l : List Nat) (h : ∀ b ∈ l, b < 256) : crc32c l < 2 ^ 32 := by
  suffices ∀ (l : List Nat) c, (∀ b ∈ l, b < 256) → c < 2 ^ 32 →
      l.foldl (fun c b => crcBit (crcBit (crcBit (crcBit (crcBit (crcBit (crcBit (crcBit (c ^^^ b))))))))) c < 2 ^ 32 from
    Nat.xor_lt_two_pow (this l _ h (by decide)) (by decide)
  intro l
  induction l with
  | nil => intro c _ hc; exact hc
  | cons b t ih =>
    intro c hb hc
    have hx : c ^^^ b < 2 ^ 32 := Nat.xor_lt_two_pow hc (by have := hb b (.head _); omega)
    exact ih _ (fun x hx => hb x (.tail _ hx))
      (crcBit_lt (crcBit_lt (crcBit_lt (crcBit_lt (crcBit_lt (crcBit_lt (crcBit_lt (crcBit_lt hx))))))))

/-- A number in its little-endian form reads as itself. -/
theorem ofBytes_leBytes (n x : Nat) : ofBytes (leBytes n x) = x % 256 ^ n := by
  induction n generalizing x with
  | zero => simp [leBytes, ofBytes, Nat.mod_one]
  | succ n ih => simp only [leBytes, ofBytes, ih, Nat.pow_succ', Nat.mod_mul]

/-- The seal of a sealed image is found good. -/
theorem sealedImage_good (h : Hart) (p : Position) (n : Nat) (hl : (imageBytes h p).length = n)
    (hb : ∀ b ∈ imageBytes h p, b < 256) :
    bytesAt (sealedImage h p) n 8 = sealWord ((sealedImage h p).take n) := by
  have hc := crc32c_lt _ hb
  subst hl
  simp only [sealedImage, bytesAt, List.append_assoc, List.drop_left, List.take_left]
  rw [List.take_append_of_le_length (by simp [leBytes_length]), List.take_of_length_le (by simp [leBytes_length]), ofBytes_leBytes]
  unfold sealWord
  omega

end Sys2Proof.Machine
end

