-- ==== Sys2Proof/Laws/Encoding.lean ====
section
/-! SUPPORT. The fields of a word and the form constructors undo each other, bit by bit. -/

namespace Sys2Proof

/-- The fields of a packed word are the fields packed. -/
@[simp] theorem Fields.ofWord_pack (f : Fields) : Fields.ofWord f.pack = f := by
  obtain ⟨t, b, a, d, m⟩ := f
  simp only [Fields.ofWord, Fields.pack, Fields.mk.injEq]
  refine ⟨?_, ?_, ?_, ?_, ?_⟩ <;>
    · apply BitVec.eq_of_getLsbD_eq
      intro i hi
      simp only [BitVec.getLsbD_extractLsb', BitVec.getLsbD_append]
      grind

/-- A word is its fields packed. -/
@[simp] theorem Fields.pack_ofWord (w : BitVec 32) : (Fields.ofWord w).pack = w := by
  apply BitVec.eq_of_getLsbD_eq
  intro i hi
  simp only [Fields.ofWord, Fields.pack, BitVec.getLsbD_append, BitVec.getLsbD_extractLsb']
  grind

/-- The low part of two that stand side by side. -/
theorem extract_append_low {v w : Nat} (x : BitVec v) (y : BitVec w) : (x ++ y).extractLsb' 0 w = y := by
  apply BitVec.eq_of_getLsbD_eq
  intro i hi
  simp only [BitVec.getLsbD_extractLsb', BitVec.getLsbD_append]
  grind

/-- The high part. -/
theorem extract_append_high {v w : Nat} (x : BitVec v) (y : BitVec w) : (x ++ y).extractLsb' w v = x := by
  apply BitVec.eq_of_getLsbD_eq
  intro i hi
  simp only [BitVec.getLsbD_extractLsb', BitVec.getLsbD_append]
  grind

/-- A part that lies in the high one. -/
theorem extract_append_above {v w : Nat} (x : BitVec v) (y : BitVec w) (k n : Nat) :
    (x ++ y).extractLsb' (w + k) n = x.extractLsb' k n := by
  apply BitVec.eq_of_getLsbD_eq
  intro i hi
  simp only [BitVec.getLsbD_extractLsb', BitVec.getLsbD_append]
  grind

/-- A part that lies in the low one. -/
theorem extract_append_below {v w : Nat} (x : BitVec v) (y : BitVec w) (k n : Nat) (h : k + n ≤ w) :
    (x ++ y).extractLsb' k n = y.extractLsb' k n := by
  apply BitVec.eq_of_getLsbD_eq
  intro i hi
  simp only [BitVec.getLsbD_extractLsb', BitVec.getLsbD_append]
  grind

/-- Two halves of a value make the value. -/
theorem append_extract {v w : Nat} (x : BitVec (v + w)) : x.extractLsb' w v ++ x.extractLsb' 0 w = x := by
  apply BitVec.eq_of_getLsbD_eq
  intro i hi
  simp only [BitVec.getLsbD_extractLsb', BitVec.getLsbD_append]
  grind

/-! ### What each form's accessors give -/

@[simp] theorem Fields.i_imm12 (imm : BitVec 12) (c : BitVec 3) (a d : BitVec 5) (m : BitVec 7) : (Fields.i imm c a d m).imm12 = imm := by
  apply BitVec.eq_of_getLsbD_eq
  intro i hi
  simp only [Fields.imm12, Fields.i, BitVec.getLsbD_append, BitVec.getLsbD_extractLsb']
  grind
@[simp] theorem Fields.i_funct3 (imm : BitVec 12) (c : BitVec 3) (a d : BitVec 5) (m : BitVec 7) : (Fields.i imm c a d m).funct3 = c := by
  apply BitVec.eq_of_getLsbD_eq
  intro i hi
  simp only [Fields.funct3, Fields.i, BitVec.getLsbD_append, BitVec.getLsbD_extractLsb']
  grind
@[simp] theorem Fields.u_imm20 (imm : BitVec 20) (d : BitVec 5) (m : BitVec 7) : (Fields.u imm d m).imm20 = imm := by
  apply BitVec.eq_of_getLsbD_eq
  intro i hi
  simp only [Fields.imm20, Fields.u, BitVec.getLsbD_append, BitVec.getLsbD_extractLsb']
  grind
@[simp] theorem Fields.br_off12 (off : BitVec 12) (c : BitVec 3) (b a : BitVec 5) (m : BitVec 7) : (Fields.br off c b a m).off12 = off := by
  apply BitVec.eq_of_getLsbD_eq
  intro i hi
  simp only [Fields.off12, Fields.br, BitVec.getLsbD_append, BitVec.getLsbD_extractLsb']
  grind
@[simp] theorem Fields.br_cond (off : BitVec 12) (c : BitVec 3) (b a : BitVec 5) (m : BitVec 7) : (Fields.br off c b a m).cond = c := by
  apply BitVec.eq_of_getLsbD_eq
  intro i hi
  simp only [Fields.cond, Fields.br, BitVec.getLsbD_append, BitVec.getLsbD_extractLsb']
  grind
@[simp] theorem Fields.v_vfn (fn : BitVec 2) (r : BitVec 3) (cv : Bool) (k : BitVec 4) (b a d : BitVec 5) (m : BitVec 7) : (Fields.v fn r cv k b a d m).vfn = fn := by
  apply BitVec.eq_of_getLsbD_eq
  intro i hi
  simp only [Fields.vfn, Fields.v, BitVec.getLsbD_append, BitVec.getLsbD_extractLsb']
  grind
@[simp] theorem Fields.v_rep (fn : BitVec 2) (r : BitVec 3) (cv : Bool) (k : BitVec 4) (b a d : BitVec 5) (m : BitVec 7) : (Fields.v fn r cv k b a d m).rep = r := by
  apply BitVec.eq_of_getLsbD_eq
  intro i hi
  simp only [Fields.rep, Fields.v, BitVec.getLsbD_append, BitVec.getLsbD_extractLsb']
  grind
@[simp] theorem Fields.v_mask (fn : BitVec 2) (r : BitVec 3) (cv : Bool) (k : BitVec 4) (b a d : BitVec 5) (m : BitVec 7) : (Fields.v fn r cv k b a d m).mask = k := by
  apply BitVec.eq_of_getLsbD_eq
  intro i hi
  simp only [Fields.mask, Fields.v, BitVec.getLsbD_append, BitVec.getLsbD_extractLsb']
  grind
@[simp] theorem Fields.v_cv (fn : BitVec 2) (r : BitVec 3) (cv : Bool) (k : BitVec 4) (b a d : BitVec 5) (m : BitVec 7) : (Fields.v fn r cv k b a d m).cv = cv := by
  simp only [Fields.cv, Fields.v, BitVec.getLsbD_append, BitVec.getLsbD_ofBool]
  simp
@[simp] theorem Fields.e_nest (e : EMod) (n : BitVec 3) (b a d : BitVec 5) (m : BitVec 7) : (Fields.e e n b a d m).nest = n := by
  apply BitVec.eq_of_getLsbD_eq
  intro i hi
  simp only [Fields.nest, Fields.e, BitVec.getLsbD_append, BitVec.getLsbD_extractLsb']
  grind
@[simp] theorem Fields.e_emod (e : EMod) (n : BitVec 3) (b a d : BitVec 5) (m : BitVec 7) : (Fields.e e n b a d m).emod = e := by
  obtain ⟨o, p, q, c⟩ := e
  simp only [Fields.emod, Fields.e, EMod.mk.injEq]
  refine ⟨?_, ?_, ?_, ?_⟩
  · apply BitVec.eq_of_getLsbD_eq
    intro i hi
    simp only [BitVec.getLsbD_append, BitVec.getLsbD_extractLsb']
    grind
  · simp only [BitVec.getLsbD_append, BitVec.getLsbD_ofBool]
    simp
  · simp only [BitVec.getLsbD_append, BitVec.getLsbD_ofBool]
    simp
  · apply BitVec.eq_of_getLsbD_eq
    intro i hi
    simp only [BitVec.getLsbD_append, BitVec.getLsbD_extractLsb']
    grind
@[simp] theorem Fields.i_a (imm : BitVec 12) (c : BitVec 3) (a d : BitVec 5) (m : BitVec 7) : (Fields.i imm c a d m).a = a := rfl
@[simp] theorem Fields.i_d (imm : BitVec 12) (c : BitVec 3) (a d : BitVec 5) (m : BitVec 7) : (Fields.i imm c a d m).d = d := rfl
@[simp] theorem Fields.i_maj (imm : BitVec 12) (c : BitVec 3) (a d : BitVec 5) (m : BitVec 7) : (Fields.i imm c a d m).maj = m := rfl
@[simp] theorem Fields.u_d (imm : BitVec 20) (d : BitVec 5) (m : BitVec 7) : (Fields.u imm d m).d = d := rfl
@[simp] theorem Fields.u_maj (imm : BitVec 20) (d : BitVec 5) (m : BitVec 7) : (Fields.u imm d m).maj = m := rfl
@[simp] theorem Fields.br_b (off : BitVec 12) (c : BitVec 3) (b a : BitVec 5) (m : BitVec 7) : (Fields.br off c b a m).b = b := rfl
@[simp] theorem Fields.br_a (off : BitVec 12) (c : BitVec 3) (b a : BitVec 5) (m : BitVec 7) : (Fields.br off c b a m).a = a := rfl
@[simp] theorem Fields.br_maj (off : BitVec 12) (c : BitVec 3) (b a : BitVec 5) (m : BitVec 7) : (Fields.br off c b a m).maj = m := rfl
@[simp] theorem Fields.v_b (fn : BitVec 2) (r : BitVec 3) (cv : Bool) (k : BitVec 4) (b a d : BitVec 5) (m : BitVec 7) : (Fields.v fn r cv k b a d m).b = b := rfl
@[simp] theorem Fields.v_a (fn : BitVec 2) (r : BitVec 3) (cv : Bool) (k : BitVec 4) (b a d : BitVec 5) (m : BitVec 7) : (Fields.v fn r cv k b a d m).a = a := rfl
@[simp] theorem Fields.v_d (fn : BitVec 2) (r : BitVec 3) (cv : Bool) (k : BitVec 4) (b a d : BitVec 5) (m : BitVec 7) : (Fields.v fn r cv k b a d m).d = d := rfl
@[simp] theorem Fields.v_maj (fn : BitVec 2) (r : BitVec 3) (cv : Bool) (k : BitVec 4) (b a d : BitVec 5) (m : BitVec 7) : (Fields.v fn r cv k b a d m).maj = m := rfl
@[simp] theorem Fields.e_b (e : EMod) (n : BitVec 3) (b a d : BitVec 5) (m : BitVec 7) : (Fields.e e n b a d m).b = b := rfl
@[simp] theorem Fields.e_a (e : EMod) (n : BitVec 3) (b a d : BitVec 5) (m : BitVec 7) : (Fields.e e n b a d m).a = a := rfl
@[simp] theorem Fields.e_d (e : EMod) (n : BitVec 3) (b a d : BitVec 5) (m : BitVec 7) : (Fields.e e n b a d m).d = d := rfl
@[simp] theorem Fields.e_maj (e : EMod) (n : BitVec 3) (b a d : BitVec 5) (m : BitVec 7) : (Fields.e e n b a d m).maj = m := rfl
@[simp] theorem Fields.r_b (t : BitVec 10) (b a d : BitVec 5) (m : BitVec 7) : (Fields.r t b a d m).b = b := rfl
@[simp] theorem Fields.r_a (t : BitVec 10) (b a d : BitVec 5) (m : BitVec 7) : (Fields.r t b a d m).a = a := rfl
@[simp] theorem Fields.r_d (t : BitVec 10) (b a d : BitVec 5) (m : BitVec 7) : (Fields.r t b a d m).d = d := rfl
@[simp] theorem Fields.r_maj (t : BitVec 10) (b a d : BitVec 5) (m : BitVec 7) : (Fields.r t b a d m).maj = m := rfl
@[simp] theorem Fields.r_top (t : BitVec 10) (b a d : BitVec 5) (m : BitVec 7) : (Fields.r t b a d m).top = t := rfl

/-! ### Codes -/

@[simp] theorem Scope.ofCode_code (s : Scope) : Scope.ofCode s.code = some s := by cases s <;> rfl

@[simp] theorem FFmt.ofCode_code (f : FFmt) : FFmt.ofCode f.code = some f := by cases f <;> rfl

@[simp] theorem hiZero_append (x : BitVec 3) : hiZero (0#2 ++ x) = true := by
  unfold hiZero; rw [extract_append_high (0#2) x]; rfl

@[simp] theorem low3_append (x : BitVec 3) : low3 (0#2 ++ x) = x := extract_append_low _ _

@[simp] theorem topZero_append (x : BitVec 4) : topZero (0#1 ++ x) = true := by
  unfold topZero; rw [extract_append_high (0#1) x]; rfl

@[simp] theorem low4_append (x : BitVec 4) : low4 (0#1 ++ x) = x := extract_append_low _ _

/-! ### Parts of the fields that tables cut further -/

@[simp] theorem part6_6_high (x : BitVec 6) (y : BitVec 6) : (x ++ y : BitVec 12).extractLsb' 6 6 = x := by
  apply BitVec.eq_of_getLsbD_eq
  intro i hi
  simp only [BitVec.getLsbD_append, BitVec.getLsbD_extractLsb']
  grind
@[simp] theorem part6_6_low (x : BitVec 6) (y : BitVec 6) : (x ++ y : BitVec 12).extractLsb' 0 6 = y := by
  apply BitVec.eq_of_getLsbD_eq
  intro i hi
  simp only [BitVec.getLsbD_append, BitVec.getLsbD_extractLsb']
  grind
@[simp] theorem part9_3_high (x : BitVec 9) (y : BitVec 3) : (x ++ y : BitVec 12).extractLsb' 3 9 = x := by
  apply BitVec.eq_of_getLsbD_eq
  intro i hi
  simp only [BitVec.getLsbD_append, BitVec.getLsbD_extractLsb']
  grind
@[simp] theorem part9_3_low (x : BitVec 9) (y : BitVec 3) : (x ++ y : BitVec 12).extractLsb' 0 3 = y := by
  apply BitVec.eq_of_getLsbD_eq
  intro i hi
  simp only [BitVec.getLsbD_append, BitVec.getLsbD_extractLsb']
  grind
@[simp] theorem part7_5_high (x : BitVec 7) (y : BitVec 5) : (x ++ y : BitVec 12).extractLsb' 5 7 = x := by
  apply BitVec.eq_of_getLsbD_eq
  intro i hi
  simp only [BitVec.getLsbD_append, BitVec.getLsbD_extractLsb']
  grind
@[simp] theorem part7_5_low (x : BitVec 7) (y : BitVec 5) : (x ++ y : BitVec 12).extractLsb' 0 5 = y := by
  apply BitVec.eq_of_getLsbD_eq
  intro i hi
  simp only [BitVec.getLsbD_append, BitVec.getLsbD_extractLsb']
  grind
@[simp] theorem part2_3_high (x : BitVec 2) (y : BitVec 3) : (x ++ y : BitVec 5).extractLsb' 3 2 = x := by
  apply BitVec.eq_of_getLsbD_eq
  intro i hi
  simp only [BitVec.getLsbD_append, BitVec.getLsbD_extractLsb']
  grind
@[simp] theorem part2_3_low (x : BitVec 2) (y : BitVec 3) : (x ++ y : BitVec 5).extractLsb' 0 3 = y := by
  apply BitVec.eq_of_getLsbD_eq
  intro i hi
  simp only [BitVec.getLsbD_append, BitVec.getLsbD_extractLsb']
  grind
@[simp] theorem part3_2_high (x : BitVec 3) (y : BitVec 2) : (x ++ y : BitVec 5).extractLsb' 2 3 = x := by
  apply BitVec.eq_of_getLsbD_eq
  intro i hi
  simp only [BitVec.getLsbD_append, BitVec.getLsbD_extractLsb']
  grind
@[simp] theorem part3_2_low (x : BitVec 3) (y : BitVec 2) : (x ++ y : BitVec 5).extractLsb' 0 2 = y := by
  apply BitVec.eq_of_getLsbD_eq
  intro i hi
  simp only [BitVec.getLsbD_append, BitVec.getLsbD_extractLsb']
  grind
@[simp] theorem part1_2_high (x : BitVec 1) (y : BitVec 2) : (x ++ y : BitVec 3).extractLsb' 2 1 = x := by
  apply BitVec.eq_of_getLsbD_eq
  intro i hi
  simp only [BitVec.getLsbD_append, BitVec.getLsbD_extractLsb']
  grind
@[simp] theorem part1_2_low (x : BitVec 1) (y : BitVec 2) : (x ++ y : BitVec 3).extractLsb' 0 2 = y := by
  apply BitVec.eq_of_getLsbD_eq
  intro i hi
  simp only [BitVec.getLsbD_append, BitVec.getLsbD_extractLsb']
  grind
@[simp] theorem part7_3_high (x : BitVec 7) (y : BitVec 3) : (x ++ y : BitVec 10).extractLsb' 3 7 = x := by
  apply BitVec.eq_of_getLsbD_eq
  intro i hi
  simp only [BitVec.getLsbD_append, BitVec.getLsbD_extractLsb']
  grind
@[simp] theorem part7_3_low (x : BitVec 7) (y : BitVec 3) : (x ++ y : BitVec 10).extractLsb' 0 3 = y := by
  apply BitVec.eq_of_getLsbD_eq
  intro i hi
  simp only [BitVec.getLsbD_append, BitVec.getLsbD_extractLsb']
  grind
@[simp] theorem part6_2_2_high (x : BitVec 6) (y : BitVec 2) (z : BitVec 2) : (x ++ y ++ z : BitVec 10).extractLsb' 4 6 = x := by
  apply BitVec.eq_of_getLsbD_eq
  intro i hi
  simp only [BitVec.getLsbD_append, BitVec.getLsbD_extractLsb']
  grind
@[simp] theorem part6_2_2_mid (x : BitVec 6) (y : BitVec 2) (z : BitVec 2) : (x ++ y ++ z : BitVec 10).extractLsb' 2 2 = y := by
  apply BitVec.eq_of_getLsbD_eq
  intro i hi
  simp only [BitVec.getLsbD_append, BitVec.getLsbD_extractLsb']
  grind
@[simp] theorem part6_2_2_low (x : BitVec 6) (y : BitVec 2) (z : BitVec 2) : (x ++ y ++ z : BitVec 10).extractLsb' 0 2 = z := by
  apply BitVec.eq_of_getLsbD_eq
  intro i hi
  simp only [BitVec.getLsbD_append, BitVec.getLsbD_extractLsb']
  grind
@[simp] theorem part6_2_4_high (x : BitVec 6) (y : BitVec 2) (z : BitVec 4) : (x ++ y ++ z : BitVec 12).extractLsb' 6 6 = x := by
  apply BitVec.eq_of_getLsbD_eq
  intro i hi
  simp only [BitVec.getLsbD_append, BitVec.getLsbD_extractLsb']
  grind
@[simp] theorem part6_2_4_mid (x : BitVec 6) (y : BitVec 2) (z : BitVec 4) : (x ++ y ++ z : BitVec 12).extractLsb' 4 2 = y := by
  apply BitVec.eq_of_getLsbD_eq
  intro i hi
  simp only [BitVec.getLsbD_append, BitVec.getLsbD_extractLsb']
  grind
@[simp] theorem part6_2_4_low (x : BitVec 6) (y : BitVec 2) (z : BitVec 4) : (x ++ y ++ z : BitVec 12).extractLsb' 0 4 = z := by
  apply BitVec.eq_of_getLsbD_eq
  intro i hi
  simp only [BitVec.getLsbD_append, BitVec.getLsbD_extractLsb']
  grind
@[simp] theorem part1_2_bit (b : Bool) (y : BitVec 2) : (BitVec.ofBool b ++ y : BitVec 3)[2] = b := by
  rw [← BitVec.getLsbD_eq_getElem, BitVec.getLsbD_append, BitVec.getLsbD_ofBool]
  simp
@[simp] theorem part1_2_zero (y : BitVec 2) : (0#1 ++ y : BitVec 3)[2] = false := by
  rw [← BitVec.getLsbD_eq_getElem, BitVec.getLsbD_append]
  simp

/-! ### What the major decides -/

theorem decode_maj01 (f : Fields) (h : f.maj = 0x01) :
    decodeFields f = decodeOp f := by
  unfold decodeFields; rw [h]; rfl
theorem decode_maj02 (f : Fields) (h : f.maj = 0x02) :
    decodeFields f = decodeOpImm f := by
  unfold decodeFields; rw [h]; rfl
theorem decode_maj03 (f : Fields) (h : f.maj = 0x03) :
    decodeFields f = .ok (.lui f.d f.imm20) := by
  unfold decodeFields; rw [h]; rfl
theorem decode_maj04 (f : Fields) (h : f.maj = 0x04) :
    decodeFields f = .ok (.auipc f.d f.imm20) := by
  unfold decodeFields; rw [h]; rfl
theorem decode_maj05 (f : Fields) (h : f.maj = 0x05) :
    decodeFields f = decodeFp f := by
  unfold decodeFields; rw [h]; rfl
theorem decode_maj06 (f : Fields) (h : f.maj = 0x06) :
    decodeFields f = decodeQueue f := by
  unfold decodeFields; rw [h]; rfl
theorem decode_maj08 (f : Fields) (h : f.maj = 0x08) :
    decodeFields f = decodeLoad f := by
  unfold decodeFields; rw [h]; rfl
theorem decode_maj09 (f : Fields) (h : f.maj = 0x09) :
    decodeFields f = decodeStore f := by
  unfold decodeFields; rw [h]; rfl
theorem decode_maj0A (f : Fields) (h : f.maj = 0x0A) :
    decodeFields f = decodeLoadA f := by
  unfold decodeFields; rw [h]; rfl
theorem decode_maj0B (f : Fields) (h : f.maj = 0x0B) :
    decodeFields f = decodeStoreL f := by
  unfold decodeFields; rw [h]; rfl
theorem decode_maj0C (f : Fields) (h : f.maj = 0x0C) :
    decodeFields f = decodeCache f := by
  unfold decodeFields; rw [h]; rfl
theorem decode_maj10 (f : Fields) (h : f.maj = 0x10) :
    decodeFields f = .ok (.jal f.d f.imm20) := by
  unfold decodeFields; rw [h]; rfl
theorem decode_maj11 (f : Fields) (h : f.maj = 0x11) :
    decodeFields f = need (f.funct3 == 0) (.jalr f.d f.a f.imm12) := by
  unfold decodeFields; rw [h]; rfl
theorem decode_maj12 (f : Fields) (h : f.maj = 0x12) :
    decodeFields f = decodeBranch f := by
  unfold decodeFields; rw [h]; rfl
theorem decode_maj13 (f : Fields) (h : f.maj = 0x13) :
    decodeFields f = decodeGang f := by
  unfold decodeFields; rw [h]; rfl
theorem decode_maj14 (f : Fields) (h : f.maj = 0x14) :
    decodeFields f = need (f.d == 0 && f.a == 0 && f.imm12.extractLsb' 5 7 == 0 && legalLoop f.funct3 (f.imm12.extractLsb' 0 5)) (.loopn f.funct3 (f.imm12.extractLsb' 0 5)) := by
  unfold decodeFields; rw [h]; rfl
theorem decode_maj18 (f : Fields) (h : f.maj = 0x18) :
    decodeFields f = decodeMask f := by
  unfold decodeFields; rw [h]; rfl
theorem decode_maj20 (f : Fields) (h : f.maj = 0x20) :
    decodeFields f = decodeVcfg f := by
  unfold decodeFields; rw [h]; rfl
theorem decode_maj30 (f : Fields) (h : f.maj = 0x30) :
    decodeFields f = decodeV30 f := by
  unfold decodeFields; rw [h]; rfl
theorem decode_maj31 (f : Fields) (h : f.maj = 0x31) :
    decodeFields f = decodeV31 f := by
  unfold decodeFields; rw [h]; rfl
theorem decode_maj32 (f : Fields) (h : f.maj = 0x32) :
    decodeFields f = decodeV32 f := by
  unfold decodeFields; rw [h]; rfl
theorem decode_maj33 (f : Fields) (h : f.maj = 0x33) :
    decodeFields f = decodeV33 f := by
  unfold decodeFields; rw [h]; rfl
theorem decode_maj34 (f : Fields) (h : f.maj = 0x34) :
    decodeFields f = decodeV34 f := by
  unfold decodeFields; rw [h]; rfl
theorem decode_maj35 (f : Fields) (h : f.maj = 0x35) :
    decodeFields f = decodeV35 f := by
  unfold decodeFields; rw [h]; rfl
theorem decode_maj36 (f : Fields) (h : f.maj = 0x36) :
    decodeFields f = decodeV36 f := by
  unfold decodeFields; rw [h]; rfl
theorem decode_maj37 (f : Fields) (h : f.maj = 0x37) :
    decodeFields f = decodeV37 f := by
  unfold decodeFields; rw [h]; rfl
theorem decode_maj38 (f : Fields) (h : f.maj = 0x38) :
    decodeFields f = decodeV38 f := by
  unfold decodeFields; rw [h]; rfl
theorem decode_maj39 (f : Fields) (h : f.maj = 0x39) :
    decodeFields f = decodeV39 f := by
  unfold decodeFields; rw [h]; rfl
theorem decode_maj3A (f : Fields) (h : f.maj = 0x3A) :
    decodeFields f = decodeV3A f := by
  unfold decodeFields; rw [h]; rfl
theorem decode_maj3B (f : Fields) (h : f.maj = 0x3B) :
    decodeFields f = decodeV3B f := by
  unfold decodeFields; rw [h]; rfl
theorem decode_maj3C (f : Fields) (h : f.maj = 0x3C) :
    decodeFields f = decodeV3C f := by
  unfold decodeFields; rw [h]; rfl
theorem decode_maj3D (f : Fields) (h : f.maj = 0x3D) :
    decodeFields f = decodeV3D f := by
  unfold decodeFields; rw [h]; rfl
theorem decode_maj3E (f : Fields) (h : f.maj = 0x3E) :
    decodeFields f = decodeV3E f := by
  unfold decodeFields; rw [h]; rfl
theorem decode_maj3F (f : Fields) (h : f.maj = 0x3F) :
    decodeFields f = decodeV3F f := by
  unfold decodeFields; rw [h]; rfl
theorem decode_maj40 (f : Fields) (h : f.maj = 0x40) :
    decodeFields f = decodeV40 f := by
  unfold decodeFields; rw [h]; rfl
theorem decode_maj41 (f : Fields) (h : f.maj = 0x41) :
    decodeFields f = decodeV41 f := by
  unfold decodeFields; rw [h]; rfl
theorem decode_maj48 (f : Fields) (h : f.maj = 0x48) :
    decodeFields f = decodeV48 f := by
  unfold decodeFields; rw [h]; rfl
theorem decode_maj49 (f : Fields) (h : f.maj = 0x49) :
    decodeFields f = decodeV49 f := by
  unfold decodeFields; rw [h]; rfl
theorem decode_maj4A (f : Fields) (h : f.maj = 0x4A) :
    decodeFields f = decodeV4A f := by
  unfold decodeFields; rw [h]; rfl
theorem decode_maj4B (f : Fields) (h : f.maj = 0x4B) :
    decodeFields f = decodeV4B f := by
  unfold decodeFields; rw [h]; rfl
theorem decode_maj4C (f : Fields) (h : f.maj = 0x4C) :
    decodeFields f = decodeV4C f := by
  unfold decodeFields; rw [h]; rfl
theorem decode_maj50 (f : Fields) (h : f.maj = 0x50) :
    decodeFields f = need (f.d == 0 && legalNest f.nest) (.cbload f.a f.b f.nest f.emod) := by
  unfold decodeFields; rw [h]; rfl
theorem decode_maj51 (f : Fields) (h : f.maj = 0x51) :
    decodeFields f = need (f.d == 0 && f.nest == 0) (.cbclr f.a f.b f.emod) := by
  unfold decodeFields; rw [h]; rfl
theorem decode_maj52 (f : Fields) (h : f.maj = 0x52) :
    decodeFields f = need (f.d == 0 && legalNest f.nest) (.tbuild f.a f.b f.nest f.emod) := by
  unfold decodeFields; rw [h]; rfl
theorem decode_maj53 (f : Fields) (h : f.maj = 0x53) :
    decodeFields f = need (f.d == 0 && legalNest f.nest) (.tbload f.a f.b f.nest f.emod) := by
  unfold decodeFields; rw [h]; rfl
theorem decode_maj54 (f : Fields) (h : f.maj = 0x54) :
    decodeFields f = need (f.d == 0 && f.nest == 0) (.tbfree f.a f.b f.emod) := by
  unfold decodeFields; rw [h]; rfl
theorem decode_maj55 (f : Fields) (h : f.maj = 0x55) :
    decodeFields f = need (f.d == 0 && f.nest == 0) (.lkinit f.a f.b f.emod) := by
  unfold decodeFields; rw [h]; rfl
theorem decode_maj56 (f : Fields) (h : f.maj = 0x56) :
    decodeFields f = need (f.d == 0 && legalNest f.nest) (.lkacc f.a f.b f.nest f.emod) := by
  unfold decodeFields; rw [h]; rfl
theorem decode_maj57 (f : Fields) (h : f.maj = 0x57) :
    decodeFields f = need (f.d == 0 && legalNest f.nest) (.lkdrain f.a f.b f.nest f.emod) := by
  unfold decodeFields; rw [h]; rfl
theorem decode_maj58 (f : Fields) (h : f.maj = 0x58) :
    decodeFields f = need (f.d == 0 && legalNest f.nest) (.lkdrainc f.a f.b f.nest f.emod) := by
  unfold decodeFields; rw [h]; rfl
theorem decode_maj59 (f : Fields) (h : f.maj = 0x59) :
    decodeFields f = need (f.d == 0 && f.nest == 0) (.lkread f.a f.b f.emod) := by
  unfold decodeFields; rw [h]; rfl
theorem decode_maj5A (f : Fields) (h : f.maj = 0x5A) :
    decodeFields f = need (f.d == 0 && f.b == 0 && f.nest == 0) (.lkclr f.a f.emod) := by
  unfold decodeFields; rw [h]; rfl
theorem decode_maj5B (f : Fields) (h : f.maj = 0x5B) :
    decodeFields f = need (f.b == 0 && f.nest == 0) (.lkstat f.d f.a f.emod) := by
  unfold decodeFields; rw [h]; rfl
theorem decode_maj5C (f : Fields) (h : f.maj = 0x5C) :
    decodeFields f = need (f.b == 0 && f.nest == 0) (.lkmeta f.d f.a f.emod) := by
  unfold decodeFields; rw [h]; rfl
theorem decode_maj5D (f : Fields) (h : f.maj = 0x5D) :
    decodeFields f = need (f.a == 0 && f.b == 0 && f.nest == 0) (.lkwait f.d f.emod) := by
  unfold decodeFields; rw [h]; rfl
theorem decode_maj5F (f : Fields) (h : f.maj = 0x5F) :
    decodeFields f = decodeBankOp f := by
  unfold decodeFields; rw [h]; rfl
theorem decode_maj60 (f : Fields) (h : f.maj = 0x60) :
    decodeFields f = need (legalNest f.nest) (.xcopy f.d f.a f.b f.nest f.emod) := by
  unfold decodeFields; rw [h]; rfl
theorem decode_maj61 (f : Fields) (h : f.maj = 0x61) :
    decodeFields f = need (f.d == 0 && f.b == 0 && legalNest f.nest) (.xshape f.a f.nest f.emod) := by
  unfold decodeFields; rw [h]; rfl
theorem decode_maj62 (f : Fields) (h : f.maj = 0x62) :
    decodeFields f = need (legalNest f.nest) (.xfill f.d f.a f.b f.nest f.emod) := by
  unfold decodeFields; rw [h]; rfl
theorem decode_maj63 (f : Fields) (h : f.maj = 0x63) :
    decodeFields f = need (f.b == 0 && f.nest == 0) (.xgather f.d f.a f.emod) := by
  unfold decodeFields; rw [h]; rfl
theorem decode_maj64 (f : Fields) (h : f.maj = 0x64) :
    decodeFields f = need (f.nest == 0) (.wsend f.d f.a f.b f.emod) := by
  unfold decodeFields; rw [h]; rfl
theorem decode_maj65 (f : Fields) (h : f.maj = 0x65) :
    decodeFields f = need (f.nest == 0) (.wsendi f.d f.a f.b f.emod) := by
  unfold decodeFields; rw [h]; rfl
theorem decode_maj66 (f : Fields) (h : f.maj = 0x66) :
    decodeFields f = need (f.b == 0 && f.nest == 0) (.wreg f.d f.a f.emod) := by
  unfold decodeFields; rw [h]; rfl
theorem decode_maj67 (f : Fields) (h : f.maj = 0x67) :
    decodeFields f = need (f.d == 0 && f.b == 0 && f.nest == 0) (.wunreg f.a f.emod) := by
  unfold decodeFields; rw [h]; rfl
theorem decode_maj68 (f : Fields) (h : f.maj = 0x68) :
    decodeFields f = need (f.a == 0 && f.b == 0 && f.nest == 0) (.wctr f.d f.emod) := by
  unfold decodeFields; rw [h]; rfl
theorem decode_maj69 (f : Fields) (h : f.maj = 0x69) :
    decodeFields f = need (f.nest == 0) (.strain f.d f.a f.b f.emod) := by
  unfold decodeFields; rw [h]; rfl
theorem decode_maj6A (f : Fields) (h : f.maj = 0x6A) :
    decodeFields f = need (f.d == 0 && f.b == 0 && f.nest == 0) (.nmx f.a f.emod) := by
  unfold decodeFields; rw [h]; rfl
theorem decode_maj6B (f : Fields) (h : f.maj = 0x6B) :
    decodeFields f = need (f.d == 0 && f.nest == 0) (.nmxld f.a f.b f.emod) := by
  unfold decodeFields; rw [h]; rfl
theorem decode_maj6C (f : Fields) (h : f.maj = 0x6C) :
    decodeFields f = need (f.d == 0 && f.nest == 0) (.pgin f.a f.b f.emod) := by
  unfold decodeFields; rw [h]; rfl
theorem decode_maj6D (f : Fields) (h : f.maj = 0x6D) :
    decodeFields f = need (f.d == 0 && f.nest == 0) (.pgout f.a f.b f.emod) := by
  unfold decodeFields; rw [h]; rfl
theorem decode_maj6E (f : Fields) (h : f.maj = 0x6E) :
    decodeFields f = need (f.a == 0 && f.b == 0 && f.nest == 0) (.xwait f.d f.emod) := by
  unfold decodeFields; rw [h]; rfl
theorem decode_maj70 (f : Fields) (h : f.maj = 0x70) :
    decodeFields f = decodeAmo f := by
  unfold decodeFields; rw [h]; rfl
theorem decode_maj71 (f : Fields) (h : f.maj = 0x71) :
    decodeFields f = need (legalNest f.nest) (.nma f.d f.a f.b f.nest f.emod) := by
  unfold decodeFields; rw [h]; rfl
theorem decode_maj72 (f : Fields) (h : f.maj = 0x72) :
    decodeFields f = decodeSync f := by
  unfold decodeFields; rw [h]; rfl
theorem decode_maj73 (f : Fields) (h : f.maj = 0x73) :
    decodeFields f = decodeSys f := by
  unfold decodeFields; rw [h]; rfl
theorem decode_maj74 (f : Fields) (h : f.maj = 0x74) :
    decodeFields f = decodeCsr f := by
  unfold decodeFields; rw [h]; rfl
theorem decode_maj75 (f : Fields) (h : f.maj = 0x75) :
    decodeFields f = decodePriv f := by
  unfold decodeFields; rw [h]; rfl

end Sys2Proof
end

