-- ==== Sys2Proof/Laws/Ops.lean ====
section
/-! SUPPORT. What the shared operations can do, each said once. -/

namespace Sys2Proof.Machine

/-! ### Register files -/

theorem fileGet_fileSet {α : Type} {w : Nat} (r q : BitVec w) (v : Vector α (2 ^ w)) (x : α) :
    fileGet q (fileSet r v x) = if r = q then x else fileGet q v := by
  unfold fileGet fileSet
  rw [Vector.getElem_set]
  simp only [BitVec.toNat_inj]

/-- A g register after a write of one. -/
theorem Hart.g_setG (h : Hart) (d r : BitVec 5) (x : Word) : (h.setG d x).g r = if r = d ∧ r ≠ 0 then x else h.g r := by
  unfold Hart.setG
  by_cases hd : d = 0
  · rw [if_pos hd]
    by_cases hr : r = d
    · rw [if_neg (by rintro ⟨_, h⟩; exact h (hr.trans hd))]
    · rw [if_neg (by rintro ⟨h, _⟩; exact hr h)]
  · rw [if_neg hd]
    unfold Hart.g
    by_cases hr : r = 0
    · rw [if_pos hr, if_pos hr, if_neg (by rintro ⟨_, h⟩; exact h hr)]
    · rw [if_neg hr, if_neg hr]
      cases hl : h.level <;> simp only [fileGet_fileSet]
      all_goals
        by_cases hrd : r = d
        · rw [if_pos hrd.symm, if_pos ⟨hrd, hr⟩]
        · rw [if_neg (Ne.symm hrd), if_neg (by rintro ⟨h, _⟩; exact hrd h)]

theorem Hart.setG_other (h : Hart) (d : BitVec 5) (x : Word) :
    (h.level = .user → (h.setG d x).sg = h.sg) ∧ (h.level = .supervisor → (h.setG d x).ug = h.ug) := by
  unfold Hart.setG
  by_cases hd : d = 0
  · rw [if_pos hd]; exact ⟨fun _ => rfl, fun _ => rfl⟩
  · rw [if_neg hd]
    constructor <;> intro hl <;> simp only [hl]

/-- A write of a g register changes the two banks at most. -/
theorem Hart.setG_eq (h : Hart) (d : BitVec 5) (x : Word) :
    h.setG d x = { h with ug := (h.setG d x).ug, sg := (h.setG d x).sg } := by
  unfold Hart.setG
  split
  · rfl
  · split <;> rfl

/-! ### Reading memory -/

/-- What a hart's loads see depends on its kept-back stores, memory, stacks, the package and the count of free choices. -/
theorem State.readMe_congr (s t : State) (hsb : t.me.sb = s.me.sb) (hm : t.mem = s.mem) (hs : t.lkStacks = s.lkStacks)
    (hp : t.pkg = s.pkg) (hf : t.free = s.free) (key n : Nat) : t.readMe key n = s.readMe key n := by
  induction n generalizing key with
  | zero => rfl
  | succ n ih => simp [State.readMe, State.byteAt, State.windowAt, State.stackAt, hsb, hm, hs, hp, hf, ih]

/-- The addresses below stack 0's control window lie in no window. -/
theorem State.windowAt_low (s : State) (key : Nat) (h : key < 0xBFF000000) : s.windowAt key = none := by
  unfold State.windowAt regionOf gpaOffset
  split
  · rfl
  · have h1 : key % 2 ^ 45 = key := Nat.mod_eq_of_lt (by omega)
    have h2 : key / 0x1000000000 = 0 := Nat.div_eq_of_lt (by omega)
    have h3 : key % 0x1000000000 = key := Nat.mod_eq_of_lt (by omega)
    simp only [h1, h2, h3]
    rw [if_pos (by omega), if_neg (by omega), if_neg (by omega)]
    split
    · rename_i e; split at e <;> cases e
    · rfl

/-- Where no store is kept back and no window lies, a hart's own loads see memory. -/
theorem State.readMe_plain (s : State) (hsb : s.me.sb = []) (key n : Nat) (h : s.PlainAt key n) : s.readMe key n = memRead s.mem key n := by
  induction n generalizing key with
  | zero => rfl
  | succ n ih =>
    have h0 : s.windowAt key = none := h 0 (by omega)
    have hb : s.byteAt key = memGet s.mem key := by unfold State.byteAt; rw [h0]
    have hs : sbByte ([] : List Kept) key = none := rfl
    simp only [State.readMe, memRead, hsb, hb, hs, Option.getD_none]
    rw [ih (key + 1) fun j hj => by have := h (j + 1) (by omega); rwa [Nat.add_assoc, Nat.add_comm 1 j]]

theorem State.sameBytes_of (s t : State) (hsb : t.me.sb = s.me.sb) (hm : t.mem = s.mem) (hs : t.lkStacks = s.lkStacks)
    (hp : t.pkg = s.pkg) (hf : t.free = s.free) : s.SameBytes t := fun k => s.readMe_congr t hsb hm hs hp hf k 1

/-! ### Moving on -/

/-- Moving past an instruction of one word. -/
theorem Hart.advance_moved (h : Hart) : h.Moved (h.advance 1) := by
  refine ⟨?_, fun hl => ?_, rfl⟩
  · unfold Hart.advance; dsimp only; repeat' split
    all_goals rfl
  · unfold Hart.advance; simp [hl]

/-- The acting hart moves on. -/
theorem State.next_moved (s : State) : s.MovedWith s.next id :=
  ⟨rfl, Hart.advance_moved s.me, s.sameBytes_of _ (by simp) rfl rfl rfl rfl⟩

/-- A change of the acting hart and a move past the instruction, where the change leaves the kept-back stores. -/
theorem State.updMe_next_moved (s : State) (f : Hart → Hart) (h : (f s.me).sb = s.me.sb) :
    s.MovedWith (s.updMe f).next f :=
  ⟨rfl, Hart.advance_moved (f s.me), s.sameBytes_of _ (by simp [h]) rfl rfl rfl rfl⟩

/-- A result written and the hart moved on. -/
theorem State.write_wrote (s : State) (d : BitVec 5) (x : Word) : s.Wrote (s.write d x) d x 0 := by
  refine ⟨rfl, ⟨fun r => ?_, ?_, ?_⟩, ?_, s.sameBytes_of _ (by simp) rfl rfl rfl rfl⟩
  · have : (s.write d x).g r = (s.me.setG d x).g r := by simp [State.g, Hart.g]
    rw [this, Hart.g_setG]; rfl
  · intro h; simpa using (s.me.setG_other d x).1 h
  · intro h; simpa using (s.me.setG_other d x).2 h
  · have h := Hart.advance_moved (s.me.setG d x)
    have e : s.me.setG d x = { s.me with ug := ((s.me.setG d x).advance 1).ug, sg := ((s.me.setG d x).advance 1).sg,
                                         csr := { s.me.csr with fflags := s.me.csr.fflags ||| 0 } } := by
      rw [Hart.advance_ug, Hart.advance_sg]
      have z : s.me.csr.fflags ||| 0 = s.me.csr.fflags := BitVec.or_zero
      rw [z]
      exact Hart.setG_eq _ _ _
    exact e ▸ h

end Sys2Proof.Machine
end

