-- ==== Sys2Proof/Laws/PerInstr.lean ====
section
/-! SUPPORT. Decoding undoes encoding, one lemma for each constructor (R32 to R58). -/

set_option Elab.async false
set_option linter.unusedSimpArgs false

namespace Sys2Proof.Laws.RoundTrip

/-- The decoder reads the word of a well-formed instruction as that instruction. -/
def Statement (i : Instr) : Prop := i.wf = true → decode (encode i) = .ok i

theorem add (d a b : BitVec 5) : Statement (.add d a b) := by
  intro h
  simp only [encode, decode, Fields.ofWord_pack, fieldsOf]
  rw [decode_maj01 _ rfl]
  simp_all [decodeOp, need, needLone, Instr.wf]
theorem sub (d a b : BitVec 5) : Statement (.sub d a b) := by
  intro h
  simp only [encode, decode, Fields.ofWord_pack, fieldsOf]
  rw [decode_maj01 _ rfl]
  simp_all [decodeOp, need, needLone, Instr.wf]
theorem and (d a b : BitVec 5) : Statement (.and d a b) := by
  intro h
  simp only [encode, decode, Fields.ofWord_pack, fieldsOf]
  rw [decode_maj01 _ rfl]
  simp_all [decodeOp, need, needLone, Instr.wf]
theorem or (d a b : BitVec 5) : Statement (.or d a b) := by
  intro h
  simp only [encode, decode, Fields.ofWord_pack, fieldsOf]
  rw [decode_maj01 _ rfl]
  simp_all [decodeOp, need, needLone, Instr.wf]
theorem xor (d a b : BitVec 5) : Statement (.xor d a b) := by
  intro h
  simp only [encode, decode, Fields.ofWord_pack, fieldsOf]
  rw [decode_maj01 _ rfl]
  simp_all [decodeOp, need, needLone, Instr.wf]
theorem andn (d a b : BitVec 5) : Statement (.andn d a b) := by
  intro h
  simp only [encode, decode, Fields.ofWord_pack, fieldsOf]
  rw [decode_maj01 _ rfl]
  simp_all [decodeOp, need, needLone, Instr.wf]
theorem sll (d a b : BitVec 5) : Statement (.sll d a b) := by
  intro h
  simp only [encode, decode, Fields.ofWord_pack, fieldsOf]
  rw [decode_maj01 _ rfl]
  simp_all [decodeOp, need, needLone, Instr.wf]
theorem srl (d a b : BitVec 5) : Statement (.srl d a b) := by
  intro h
  simp only [encode, decode, Fields.ofWord_pack, fieldsOf]
  rw [decode_maj01 _ rfl]
  simp_all [decodeOp, need, needLone, Instr.wf]
theorem sra (d a b : BitVec 5) : Statement (.sra d a b) := by
  intro h
  simp only [encode, decode, Fields.ofWord_pack, fieldsOf]
  rw [decode_maj01 _ rfl]
  simp_all [decodeOp, need, needLone, Instr.wf]
theorem slt (d a b : BitVec 5) : Statement (.slt d a b) := by
  intro h
  simp only [encode, decode, Fields.ofWord_pack, fieldsOf]
  rw [decode_maj01 _ rfl]
  simp_all [decodeOp, need, needLone, Instr.wf]
theorem sltn (d a b : BitVec 5) : Statement (.sltn d a b) := by
  intro h
  simp only [encode, decode, Fields.ofWord_pack, fieldsOf]
  rw [decode_maj01 _ rfl]
  simp_all [decodeOp, need, needLone, Instr.wf]
theorem min (d a b : BitVec 5) : Statement (.min d a b) := by
  intro h
  simp only [encode, decode, Fields.ofWord_pack, fieldsOf]
  rw [decode_maj01 _ rfl]
  simp_all [decodeOp, need, needLone, Instr.wf]
theorem max (d a b : BitVec 5) : Statement (.max d a b) := by
  intro h
  simp only [encode, decode, Fields.ofWord_pack, fieldsOf]
  rw [decode_maj01 _ rfl]
  simp_all [decodeOp, need, needLone, Instr.wf]
theorem minn (d a b : BitVec 5) : Statement (.minn d a b) := by
  intro h
  simp only [encode, decode, Fields.ofWord_pack, fieldsOf]
  rw [decode_maj01 _ rfl]
  simp_all [decodeOp, need, needLone, Instr.wf]
theorem maxn (d a b : BitVec 5) : Statement (.maxn d a b) := by
  intro h
  simp only [encode, decode, Fields.ofWord_pack, fieldsOf]
  rw [decode_maj01 _ rfl]
  simp_all [decodeOp, need, needLone, Instr.wf]
theorem mul (d a b : BitVec 5) : Statement (.mul d a b) := by
  intro h
  simp only [encode, decode, Fields.ofWord_pack, fieldsOf]
  rw [decode_maj01 _ rfl]
  simp_all [decodeOp, need, needLone, Instr.wf]
theorem mulh (d a b : BitVec 5) : Statement (.mulh d a b) := by
  intro h
  simp only [encode, decode, Fields.ofWord_pack, fieldsOf]
  rw [decode_maj01 _ rfl]
  simp_all [decodeOp, need, needLone, Instr.wf]
theorem mulhn (d a b : BitVec 5) : Statement (.mulhn d a b) := by
  intro h
  simp only [encode, decode, Fields.ofWord_pack, fieldsOf]
  rw [decode_maj01 _ rfl]
  simp_all [decodeOp, need, needLone, Instr.wf]
theorem mulhsn (d a b : BitVec 5) : Statement (.mulhsn d a b) := by
  intro h
  simp only [encode, decode, Fields.ofWord_pack, fieldsOf]
  rw [decode_maj01 _ rfl]
  simp_all [decodeOp, need, needLone, Instr.wf]
theorem div (d a b : BitVec 5) : Statement (.div d a b) := by
  intro h
  simp only [encode, decode, Fields.ofWord_pack, fieldsOf]
  rw [decode_maj01 _ rfl]
  simp_all [decodeOp, need, needLone, Instr.wf]
theorem divn (d a b : BitVec 5) : Statement (.divn d a b) := by
  intro h
  simp only [encode, decode, Fields.ofWord_pack, fieldsOf]
  rw [decode_maj01 _ rfl]
  simp_all [decodeOp, need, needLone, Instr.wf]
theorem rem (d a b : BitVec 5) : Statement (.rem d a b) := by
  intro h
  simp only [encode, decode, Fields.ofWord_pack, fieldsOf]
  rw [decode_maj01 _ rfl]
  simp_all [decodeOp, need, needLone, Instr.wf]
theorem remn (d a b : BitVec 5) : Statement (.remn d a b) := by
  intro h
  simp only [encode, decode, Fields.ofWord_pack, fieldsOf]
  rw [decode_maj01 _ rfl]
  simp_all [decodeOp, need, needLone, Instr.wf]
theorem clz (d a : BitVec 5) : Statement (.clz d a) := by
  intro h
  simp only [encode, decode, Fields.ofWord_pack, fieldsOf]
  rw [decode_maj01 _ rfl]
  simp_all [decodeOp, need, needLone, Instr.wf]
theorem ctz (d a : BitVec 5) : Statement (.ctz d a) := by
  intro h
  simp only [encode, decode, Fields.ofWord_pack, fieldsOf]
  rw [decode_maj01 _ rfl]
  simp_all [decodeOp, need, needLone, Instr.wf]
theorem cpop (d a : BitVec 5) : Statement (.cpop d a) := by
  intro h
  simp only [encode, decode, Fields.ofWord_pack, fieldsOf]
  rw [decode_maj01 _ rfl]
  simp_all [decodeOp, need, needLone, Instr.wf]
theorem bswap (d a : BitVec 5) : Statement (.bswap d a) := by
  intro h
  simp only [encode, decode, Fields.ofWord_pack, fieldsOf]
  rw [decode_maj01 _ rfl]
  simp_all [decodeOp, need, needLone, Instr.wf]
theorem addi (d a : BitVec 5) (imm : BitVec 12) : Statement (.addi d a imm) := by
  intro h
  simp only [encode, decode, Fields.ofWord_pack, fieldsOf]
  rw [decode_maj02 _ rfl]
  simp_all [decodeOpImm, need, needLone, Instr.wf]
theorem slti (d a : BitVec 5) (imm : BitVec 12) : Statement (.slti d a imm) := by
  intro h
  simp only [encode, decode, Fields.ofWord_pack, fieldsOf]
  rw [decode_maj02 _ rfl]
  simp_all [decodeOpImm, need, needLone, Instr.wf]
theorem sltni (d a : BitVec 5) (imm : BitVec 12) : Statement (.sltni d a imm) := by
  intro h
  simp only [encode, decode, Fields.ofWord_pack, fieldsOf]
  rw [decode_maj02 _ rfl]
  simp_all [decodeOpImm, need, needLone, Instr.wf]
theorem xori (d a : BitVec 5) (imm : BitVec 12) : Statement (.xori d a imm) := by
  intro h
  simp only [encode, decode, Fields.ofWord_pack, fieldsOf]
  rw [decode_maj02 _ rfl]
  simp_all [decodeOpImm, need, needLone, Instr.wf]
theorem ori (d a : BitVec 5) (imm : BitVec 12) : Statement (.ori d a imm) := by
  intro h
  simp only [encode, decode, Fields.ofWord_pack, fieldsOf]
  rw [decode_maj02 _ rfl]
  simp_all [decodeOpImm, need, needLone, Instr.wf]
theorem andi (d a : BitVec 5) (imm : BitVec 12) : Statement (.andi d a imm) := by
  intro h
  simp only [encode, decode, Fields.ofWord_pack, fieldsOf]
  rw [decode_maj02 _ rfl]
  simp_all [decodeOpImm, need, needLone, Instr.wf]
theorem slli (d a : BitVec 5) (sh : BitVec 6) : Statement (.slli d a sh) := by
  intro h
  simp only [encode, decode, Fields.ofWord_pack, fieldsOf]
  rw [decode_maj02 _ rfl]
  simp_all [decodeOpImm, need, needLone, Instr.wf]
theorem srli (d a : BitVec 5) (sh : BitVec 6) : Statement (.srli d a sh) := by
  intro h
  simp only [encode, decode, Fields.ofWord_pack, fieldsOf]
  rw [decode_maj02 _ rfl]
  simp_all [decodeOpImm, need, needLone, Instr.wf]
theorem srai (d a : BitVec 5) (sh : BitVec 6) : Statement (.srai d a sh) := by
  intro h
  simp only [encode, decode, Fields.ofWord_pack, fieldsOf]
  rw [decode_maj02 _ rfl]
  simp_all [decodeOpImm, need, needLone, Instr.wf]
theorem lui (d : BitVec 5) (imm : BitVec 20) : Statement (.lui d imm) := by
  intro h
  simp only [encode, decode, Fields.ofWord_pack, fieldsOf]
  rw [decode_maj03 _ rfl]
  simp_all [need, needLone, Instr.wf]
theorem auipc (d : BitVec 5) (imm : BitVec 20) : Statement (.auipc d imm) := by
  intro h
  simp only [encode, decode, Fields.ofWord_pack, fieldsOf]
  rw [decode_maj04 _ rfl]
  simp_all [need, needLone, Instr.wf]
theorem fadd (d a b : BitVec 5) (fmt : FFmt) (rm : BitVec 2) : Statement (.fadd d a b fmt rm) := by
  intro h
  simp only [encode, decode, Fields.ofWord_pack, fieldsOf]
  rw [decode_maj05 _ rfl]
  simp_all [decodeFpOp, decodeFp, need, needLone, Instr.wf]
theorem fsub (d a b : BitVec 5) (fmt : FFmt) (rm : BitVec 2) : Statement (.fsub d a b fmt rm) := by
  intro h
  simp only [encode, decode, Fields.ofWord_pack, fieldsOf]
  rw [decode_maj05 _ rfl]
  simp_all [decodeFpOp, decodeFp, need, needLone, Instr.wf]
theorem fmul (d a b : BitVec 5) (fmt : FFmt) (rm : BitVec 2) : Statement (.fmul d a b fmt rm) := by
  intro h
  simp only [encode, decode, Fields.ofWord_pack, fieldsOf]
  rw [decode_maj05 _ rfl]
  simp_all [decodeFpOp, decodeFp, need, needLone, Instr.wf]
theorem fdiv (d a b : BitVec 5) (fmt : FFmt) (rm : BitVec 2) : Statement (.fdiv d a b fmt rm) := by
  intro h
  simp only [encode, decode, Fields.ofWord_pack, fieldsOf]
  rw [decode_maj05 _ rfl]
  simp_all [decodeFpOp, decodeFp, need, needLone, Instr.wf]
theorem fsqrt (d a : BitVec 5) (fmt : FFmt) (rm : BitVec 2) : Statement (.fsqrt d a fmt rm) := by
  intro h
  simp only [encode, decode, Fields.ofWord_pack, fieldsOf]
  rw [decode_maj05 _ rfl]
  simp_all [decodeFpOp, decodeFp, need, needLone, Instr.wf]
theorem fmin (d a b : BitVec 5) (fmt : FFmt) (rm : BitVec 2) : Statement (.fmin d a b fmt rm) := by
  intro h
  simp only [encode, decode, Fields.ofWord_pack, fieldsOf]
  rw [decode_maj05 _ rfl]
  simp_all [decodeFpOp, decodeFp, need, needLone, Instr.wf]
theorem fmax (d a b : BitVec 5) (fmt : FFmt) (rm : BitVec 2) : Statement (.fmax d a b fmt rm) := by
  intro h
  simp only [encode, decode, Fields.ofWord_pack, fieldsOf]
  rw [decode_maj05 _ rfl]
  simp_all [decodeFpOp, decodeFp, need, needLone, Instr.wf]
theorem fmacc (d a b : BitVec 5) (fmt : FFmt) (rm : BitVec 2) : Statement (.fmacc d a b fmt rm) := by
  intro h
  simp only [encode, decode, Fields.ofWord_pack, fieldsOf]
  rw [decode_maj05 _ rfl]
  simp_all [decodeFpOp, decodeFp, need, needLone, Instr.wf]
theorem fnmacc (d a b : BitVec 5) (fmt : FFmt) (rm : BitVec 2) : Statement (.fnmacc d a b fmt rm) := by
  intro h
  simp only [encode, decode, Fields.ofWord_pack, fieldsOf]
  rw [decode_maj05 _ rfl]
  simp_all [decodeFpOp, decodeFp, need, needLone, Instr.wf]
theorem fsgnj (d a b : BitVec 5) (fmt : FFmt) (rm : BitVec 2) : Statement (.fsgnj d a b fmt rm) := by
  intro h
  simp only [encode, decode, Fields.ofWord_pack, fieldsOf]
  rw [decode_maj05 _ rfl]
  simp_all [decodeFpOp, decodeFp, need, needLone, Instr.wf]
theorem fsgnjn (d a b : BitVec 5) (fmt : FFmt) (rm : BitVec 2) : Statement (.fsgnjn d a b fmt rm) := by
  intro h
  simp only [encode, decode, Fields.ofWord_pack, fieldsOf]
  rw [decode_maj05 _ rfl]
  simp_all [decodeFpOp, decodeFp, need, needLone, Instr.wf]
theorem fsgnjx (d a b : BitVec 5) (fmt : FFmt) (rm : BitVec 2) : Statement (.fsgnjx d a b fmt rm) := by
  intro h
  simp only [encode, decode, Fields.ofWord_pack, fieldsOf]
  rw [decode_maj05 _ rfl]
  simp_all [decodeFpOp, decodeFp, need, needLone, Instr.wf]
theorem feq (d a b : BitVec 5) (fmt : FFmt) (rm : BitVec 2) : Statement (.feq d a b fmt rm) := by
  intro h
  simp only [encode, decode, Fields.ofWord_pack, fieldsOf]
  rw [decode_maj05 _ rfl]
  simp_all [decodeFpOp, decodeFp, need, needLone, Instr.wf]
theorem flt (d a b : BitVec 5) (fmt : FFmt) (rm : BitVec 2) : Statement (.flt d a b fmt rm) := by
  intro h
  simp only [encode, decode, Fields.ofWord_pack, fieldsOf]
  rw [decode_maj05 _ rfl]
  simp_all [decodeFpOp, decodeFp, need, needLone, Instr.wf]
theorem fle (d a b : BitVec 5) (fmt : FFmt) (rm : BitVec 2) : Statement (.fle d a b fmt rm) := by
  intro h
  simp only [encode, decode, Fields.ofWord_pack, fieldsOf]
  rw [decode_maj05 _ rfl]
  simp_all [decodeFpOp, decodeFp, need, needLone, Instr.wf]
theorem fclass (d a : BitVec 5) (fmt : FFmt) (rm : BitVec 2) : Statement (.fclass d a fmt rm) := by
  intro h
  simp only [encode, decode, Fields.ofWord_pack, fieldsOf]
  rw [decode_maj05 _ rfl]
  simp_all [decodeFpOp, decodeFp, need, needLone, Instr.wf]
theorem fcvtI64 (d a : BitVec 5) (fmt : FFmt) (rm : BitVec 2) : Statement (.fcvtI64 d a fmt rm) := by
  intro h
  simp only [encode, decode, Fields.ofWord_pack, fieldsOf]
  rw [decode_maj05 _ rfl]
  simp_all [decodeFpOp, decodeFp, need, needLone, Instr.wf]
theorem fcvtN64 (d a : BitVec 5) (fmt : FFmt) (rm : BitVec 2) : Statement (.fcvtN64 d a fmt rm) := by
  intro h
  simp only [encode, decode, Fields.ofWord_pack, fieldsOf]
  rw [decode_maj05 _ rfl]
  simp_all [decodeFpOp, decodeFp, need, needLone, Instr.wf]
theorem fcvtFmtI64 (d a : BitVec 5) (fmt : FFmt) (rm : BitVec 2) : Statement (.fcvtFmtI64 d a fmt rm) := by
  intro h
  simp only [encode, decode, Fields.ofWord_pack, fieldsOf]
  rw [decode_maj05 _ rfl]
  simp_all [decodeFpOp, decodeFp, need, needLone, Instr.wf]
theorem fcvtFmtN64 (d a : BitVec 5) (fmt : FFmt) (rm : BitVec 2) : Statement (.fcvtFmtN64 d a fmt rm) := by
  intro h
  simp only [encode, decode, Fields.ofWord_pack, fieldsOf]
  rw [decode_maj05 _ rfl]
  simp_all [decodeFpOp, decodeFp, need, needLone, Instr.wf]
theorem fcvtFmtOther (d a : BitVec 5) (fmt : FFmt) (rm : BitVec 2) : Statement (.fcvtFmtOther d a fmt rm) := by
  intro h
  simp only [encode, decode, Fields.ofWord_pack, fieldsOf]
  rw [decode_maj05 _ rfl]
  simp_all [decodeFpOp, decodeFp, need, needLone, Instr.wf]
theorem qpush (q : BitVec 3) (a : BitVec 5) : Statement (.qpush q a) := by
  intro h
  simp only [encode, decode, Fields.ofWord_pack, fieldsOf]
  rw [decode_maj06 _ rfl]
  simp_all [decodeQueue, need, needLone, Instr.wf]
theorem qpop (d : BitVec 5) (q : BitVec 3) : Statement (.qpop d q) := by
  intro h
  simp only [encode, decode, Fields.ofWord_pack, fieldsOf]
  rw [decode_maj06 _ rfl]
  simp_all [decodeQueue, need, needLone, Instr.wf]
theorem qlen (d : BitVec 5) (q : BitVec 3) : Statement (.qlen d q) := by
  intro h
  simp only [encode, decode, Fields.ofWord_pack, fieldsOf]
  rw [decode_maj06 _ rfl]
  simp_all [decodeQueue, need, needLone, Instr.wf]
theorem lb (d a : BitVec 5) (imm : BitVec 12) : Statement (.lb d a imm) := by
  intro h
  simp only [encode, decode, Fields.ofWord_pack, fieldsOf]
  rw [decode_maj08 _ rfl]
  simp_all [decodeLoad, need, needLone, Instr.wf]
theorem lh (d a : BitVec 5) (imm : BitVec 12) : Statement (.lh d a imm) := by
  intro h
  simp only [encode, decode, Fields.ofWord_pack, fieldsOf]
  rw [decode_maj08 _ rfl]
  simp_all [decodeLoad, need, needLone, Instr.wf]
theorem lw (d a : BitVec 5) (imm : BitVec 12) : Statement (.lw d a imm) := by
  intro h
  simp only [encode, decode, Fields.ofWord_pack, fieldsOf]
  rw [decode_maj08 _ rfl]
  simp_all [decodeLoad, need, needLone, Instr.wf]
theorem ld (d a : BitVec 5) (imm : BitVec 12) : Statement (.ld d a imm) := by
  intro h
  simp only [encode, decode, Fields.ofWord_pack, fieldsOf]
  rw [decode_maj08 _ rfl]
  simp_all [decodeLoad, need, needLone, Instr.wf]
theorem lbn (d a : BitVec 5) (imm : BitVec 12) : Statement (.lbn d a imm) := by
  intro h
  simp only [encode, decode, Fields.ofWord_pack, fieldsOf]
  rw [decode_maj08 _ rfl]
  simp_all [decodeLoad, need, needLone, Instr.wf]
theorem lhn (d a : BitVec 5) (imm : BitVec 12) : Statement (.lhn d a imm) := by
  intro h
  simp only [encode, decode, Fields.ofWord_pack, fieldsOf]
  rw [decode_maj08 _ rfl]
  simp_all [decodeLoad, need, needLone, Instr.wf]
theorem lwn (d a : BitVec 5) (imm : BitVec 12) : Statement (.lwn d a imm) := by
  intro h
  simp only [encode, decode, Fields.ofWord_pack, fieldsOf]
  rw [decode_maj08 _ rfl]
  simp_all [decodeLoad, need, needLone, Instr.wf]
theorem sb (d a : BitVec 5) (imm : BitVec 12) : Statement (.sb d a imm) := by
  intro h
  simp only [encode, decode, Fields.ofWord_pack, fieldsOf]
  rw [decode_maj09 _ rfl]
  simp_all [decodeStore, need, needLone, Instr.wf]
theorem sh (d a : BitVec 5) (imm : BitVec 12) : Statement (.sh d a imm) := by
  intro h
  simp only [encode, decode, Fields.ofWord_pack, fieldsOf]
  rw [decode_maj09 _ rfl]
  simp_all [decodeStore, need, needLone, Instr.wf]
theorem sw (d a : BitVec 5) (imm : BitVec 12) : Statement (.sw d a imm) := by
  intro h
  simp only [encode, decode, Fields.ofWord_pack, fieldsOf]
  rw [decode_maj09 _ rfl]
  simp_all [decodeStore, need, needLone, Instr.wf]
theorem sd (d a : BitVec 5) (imm : BitVec 12) : Statement (.sd d a imm) := by
  intro h
  simp only [encode, decode, Fields.ofWord_pack, fieldsOf]
  rw [decode_maj09 _ rfl]
  simp_all [decodeStore, need, needLone, Instr.wf]
theorem lbAq (d a : BitVec 5) (scope : Scope) : Statement (.lbAq d a scope) := by
  intro h
  simp only [encode, decode, Fields.ofWord_pack, fieldsOf]
  rw [decode_maj0A _ rfl]
  simp_all [decodeLoadAOp, decodeLoadA, need, needLone, Instr.wf]
theorem lhAq (d a : BitVec 5) (scope : Scope) : Statement (.lhAq d a scope) := by
  intro h
  simp only [encode, decode, Fields.ofWord_pack, fieldsOf]
  rw [decode_maj0A _ rfl]
  simp_all [decodeLoadAOp, decodeLoadA, need, needLone, Instr.wf]
theorem lwAq (d a : BitVec 5) (scope : Scope) : Statement (.lwAq d a scope) := by
  intro h
  simp only [encode, decode, Fields.ofWord_pack, fieldsOf]
  rw [decode_maj0A _ rfl]
  simp_all [decodeLoadAOp, decodeLoadA, need, needLone, Instr.wf]
theorem ldAq (d a : BitVec 5) (scope : Scope) : Statement (.ldAq d a scope) := by
  intro h
  simp only [encode, decode, Fields.ofWord_pack, fieldsOf]
  rw [decode_maj0A _ rfl]
  simp_all [decodeLoadAOp, decodeLoadA, need, needLone, Instr.wf]
theorem lbnAq (d a : BitVec 5) (scope : Scope) : Statement (.lbnAq d a scope) := by
  intro h
  simp only [encode, decode, Fields.ofWord_pack, fieldsOf]
  rw [decode_maj0A _ rfl]
  simp_all [decodeLoadAOp, decodeLoadA, need, needLone, Instr.wf]
theorem lhnAq (d a : BitVec 5) (scope : Scope) : Statement (.lhnAq d a scope) := by
  intro h
  simp only [encode, decode, Fields.ofWord_pack, fieldsOf]
  rw [decode_maj0A _ rfl]
  simp_all [decodeLoadAOp, decodeLoadA, need, needLone, Instr.wf]
theorem lwnAq (d a : BitVec 5) (scope : Scope) : Statement (.lwnAq d a scope) := by
  intro h
  simp only [encode, decode, Fields.ofWord_pack, fieldsOf]
  rw [decode_maj0A _ rfl]
  simp_all [decodeLoadAOp, decodeLoadA, need, needLone, Instr.wf]
theorem sbRl (d a : BitVec 5) (scope : Scope) : Statement (.sbRl d a scope) := by
  intro h
  simp only [encode, decode, Fields.ofWord_pack, fieldsOf]
  rw [decode_maj0B _ rfl]
  simp_all [decodeStoreLOp, decodeStoreL, need, needLone, Instr.wf]
theorem shRl (d a : BitVec 5) (scope : Scope) : Statement (.shRl d a scope) := by
  intro h
  simp only [encode, decode, Fields.ofWord_pack, fieldsOf]
  rw [decode_maj0B _ rfl]
  simp_all [decodeStoreLOp, decodeStoreL, need, needLone, Instr.wf]
theorem swRl (d a : BitVec 5) (scope : Scope) : Statement (.swRl d a scope) := by
  intro h
  simp only [encode, decode, Fields.ofWord_pack, fieldsOf]
  rw [decode_maj0B _ rfl]
  simp_all [decodeStoreLOp, decodeStoreL, need, needLone, Instr.wf]
theorem sdRl (d a : BitVec 5) (scope : Scope) : Statement (.sdRl d a scope) := by
  intro h
  simp only [encode, decode, Fields.ofWord_pack, fieldsOf]
  rw [decode_maj0B _ rfl]
  simp_all [decodeStoreLOp, decodeStoreL, need, needLone, Instr.wf]
theorem pref (a : BitVec 5) (imm : BitVec 12) : Statement (.pref a imm) := by
  intro h
  simp only [encode, decode, Fields.ofWord_pack, fieldsOf]
  rw [decode_maj0C _ rfl]
  simp_all [decodeCache, need, needLone, Instr.wf]
theorem prefw (a : BitVec 5) (imm : BitVec 12) : Statement (.prefw a imm) := by
  intro h
  simp only [encode, decode, Fields.ofWord_pack, fieldsOf]
  rw [decode_maj0C _ rfl]
  simp_all [decodeCache, need, needLone, Instr.wf]
theorem cln (a : BitVec 5) (imm : BitVec 12) : Statement (.cln a imm) := by
  intro h
  simp only [encode, decode, Fields.ofWord_pack, fieldsOf]
  rw [decode_maj0C _ rfl]
  simp_all [decodeCache, need, needLone, Instr.wf]
theorem cinv (a : BitVec 5) (imm : BitVec 12) : Statement (.cinv a imm) := by
  intro h
  simp only [encode, decode, Fields.ofWord_pack, fieldsOf]
  rw [decode_maj0C _ rfl]
  simp_all [decodeCache, need, needLone, Instr.wf]
theorem cflush (a : BitVec 5) (imm : BitVec 12) : Statement (.cflush a imm) := by
  intro h
  simp only [encode, decode, Fields.ofWord_pack, fieldsOf]
  rw [decode_maj0C _ rfl]
  simp_all [decodeCache, need, needLone, Instr.wf]
theorem jal (d : BitVec 5) (imm : BitVec 20) : Statement (.jal d imm) := by
  intro h
  simp only [encode, decode, Fields.ofWord_pack, fieldsOf]
  rw [decode_maj10 _ rfl]
  simp_all [need, needLone, Instr.wf]
theorem jalr (d a : BitVec 5) (imm : BitVec 12) : Statement (.jalr d a imm) := by
  intro h
  simp only [encode, decode, Fields.ofWord_pack, fieldsOf]
  rw [decode_maj11 _ rfl]
  simp_all [need, needLone, Instr.wf]
theorem beq (a b : BitVec 5) (off : BitVec 12) : Statement (.beq a b off) := by
  intro h
  simp only [encode, decode, Fields.ofWord_pack, fieldsOf]
  rw [decode_maj12 _ rfl]
  simp_all [decodeBranch, need, needLone, Instr.wf]
theorem bne (a b : BitVec 5) (off : BitVec 12) : Statement (.bne a b off) := by
  intro h
  simp only [encode, decode, Fields.ofWord_pack, fieldsOf]
  rw [decode_maj12 _ rfl]
  simp_all [decodeBranch, need, needLone, Instr.wf]
theorem blt (a b : BitVec 5) (off : BitVec 12) : Statement (.blt a b off) := by
  intro h
  simp only [encode, decode, Fields.ofWord_pack, fieldsOf]
  rw [decode_maj12 _ rfl]
  simp_all [decodeBranch, need, needLone, Instr.wf]
theorem bge (a b : BitVec 5) (off : BitVec 12) : Statement (.bge a b off) := by
  intro h
  simp only [encode, decode, Fields.ofWord_pack, fieldsOf]
  rw [decode_maj12 _ rfl]
  simp_all [decodeBranch, need, needLone, Instr.wf]
theorem bltn (a b : BitVec 5) (off : BitVec 12) : Statement (.bltn a b off) := by
  intro h
  simp only [encode, decode, Fields.ofWord_pack, fieldsOf]
  rw [decode_maj12 _ rfl]
  simp_all [decodeBranch, need, needLone, Instr.wf]
theorem bgen (a b : BitVec 5) (off : BitVec 12) : Statement (.bgen a b off) := by
  intro h
  simp only [encode, decode, Fields.ofWord_pack, fieldsOf]
  rw [decode_maj12 _ rfl]
  simp_all [decodeBranch, need, needLone, Instr.wf]
theorem join (tag : BitVec 12) : Statement (.join tag) := by
  intro h
  simp only [encode, decode, Fields.ofWord_pack, fieldsOf]
  rw [decode_maj13 _ rfl]
  simp_all [decodeGang, need, needLone, Instr.wf]
theorem joinT (d a : BitVec 5) (tag : BitVec 12) : Statement (.joinT d a tag) := by
  intro h
  simp only [encode, decode, Fields.ofWord_pack, fieldsOf]
  rw [decode_maj13 _ rfl]
  simp_all [decodeGang, need, needLone, Instr.wf]
theorem detach : Statement (.detach) := by
  intro h
  simp only [encode, decode, Fields.ofWord_pack, fieldsOf]
  rw [decode_maj13 _ rfl]
  simp_all [decodeGang, need, needLone, Instr.wf]
theorem icinv (a : BitVec 5) (imm : BitVec 12) : Statement (.icinv a imm) := by
  intro h
  simp only [encode, decode, Fields.ofWord_pack, fieldsOf]
  rw [decode_maj13 _ rfl]
  simp_all [decodeGang, need, needLone, Instr.wf]
theorem loopn (depth : BitVec 3) (len : BitVec 5) : Statement (.loopn depth len) := by
  intro h
  simp only [encode, decode, Fields.ofWord_pack, fieldsOf]
  rw [decode_maj14 _ rfl]
  simp_all [need, needLone, Instr.wf]
theorem mand (d a b : BitVec 4) : Statement (.mand d a b) := by
  intro h
  simp only [encode, decode, Fields.ofWord_pack, fieldsOf]
  rw [decode_maj18 _ rfl]
  simp_all [decodeMask, need, needLone, Instr.wf]
theorem mor (d a b : BitVec 4) : Statement (.mor d a b) := by
  intro h
  simp only [encode, decode, Fields.ofWord_pack, fieldsOf]
  rw [decode_maj18 _ rfl]
  simp_all [decodeMask, need, needLone, Instr.wf]
theorem mxor (d a b : BitVec 4) : Statement (.mxor d a b) := by
  intro h
  simp only [encode, decode, Fields.ofWord_pack, fieldsOf]
  rw [decode_maj18 _ rfl]
  simp_all [decodeMask, need, needLone, Instr.wf]
theorem mandn (d a b : BitVec 4) : Statement (.mandn d a b) := by
  intro h
  simp only [encode, decode, Fields.ofWord_pack, fieldsOf]
  rw [decode_maj18 _ rfl]
  simp_all [decodeMask, need, needLone, Instr.wf]
theorem morn (d a b : BitVec 4) : Statement (.morn d a b) := by
  intro h
  simp only [encode, decode, Fields.ofWord_pack, fieldsOf]
  rw [decode_maj18 _ rfl]
  simp_all [decodeMask, need, needLone, Instr.wf]
theorem mxnor (d a b : BitVec 4) : Statement (.mxnor d a b) := by
  intro h
  simp only [encode, decode, Fields.ofWord_pack, fieldsOf]
  rw [decode_maj18 _ rfl]
  simp_all [decodeMask, need, needLone, Instr.wf]
theorem mnot (d a : BitVec 4) : Statement (.mnot d a) := by
  intro h
  simp only [encode, decode, Fields.ofWord_pack, fieldsOf]
  rw [decode_maj18 _ rfl]
  simp_all [decodeMask, need, needLone, Instr.wf]
theorem mmov (d a : BitVec 4) : Statement (.mmov d a) := by
  intro h
  simp only [encode, decode, Fields.ofWord_pack, fieldsOf]
  rw [decode_maj18 _ rfl]
  simp_all [decodeMask, need, needLone, Instr.wf]
theorem mset (d : BitVec 4) : Statement (.mset d) := by
  intro h
  simp only [encode, decode, Fields.ofWord_pack, fieldsOf]
  rw [decode_maj18 _ rfl]
  simp_all [decodeMask, need, needLone, Instr.wf]
theorem mclr (d : BitVec 4) : Statement (.mclr d) := by
  intro h
  simp only [encode, decode, Fields.ofWord_pack, fieldsOf]
  rw [decode_maj18 _ rfl]
  simp_all [decodeMask, need, needLone, Instr.wf]
theorem msbf (d a : BitVec 4) : Statement (.msbf d a) := by
  intro h
  simp only [encode, decode, Fields.ofWord_pack, fieldsOf]
  rw [decode_maj18 _ rfl]
  simp_all [decodeMask, need, needLone, Instr.wf]
theorem msif (d a : BitVec 4) : Statement (.msif d a) := by
  intro h
  simp only [encode, decode, Fields.ofWord_pack, fieldsOf]
  rw [decode_maj18 _ rfl]
  simp_all [decodeMask, need, needLone, Instr.wf]
theorem msof (d a : BitVec 4) : Statement (.msof d a) := by
  intro h
  simp only [encode, decode, Fields.ofWord_pack, fieldsOf]
  rw [decode_maj18 _ rfl]
  simp_all [decodeMask, need, needLone, Instr.wf]
theorem mcnt (d : BitVec 5) (a : BitVec 4) : Statement (.mcnt d a) := by
  intro h
  simp only [encode, decode, Fields.ofWord_pack, fieldsOf]
  rw [decode_maj18 _ rfl]
  simp_all [decodeMask, need, needLone, Instr.wf]
theorem many (d : BitVec 5) (a : BitVec 4) : Statement (.many d a) := by
  intro h
  simp only [encode, decode, Fields.ofWord_pack, fieldsOf]
  rw [decode_maj18 _ rfl]
  simp_all [decodeMask, need, needLone, Instr.wf]
theorem mfirst (d : BitVec 5) (a : BitVec 4) : Statement (.mfirst d a) := by
  intro h
  simp only [encode, decode, Fields.ofWord_pack, fieldsOf]
  rw [decode_maj18 _ rfl]
  simp_all [decodeMask, need, needLone, Instr.wf]
theorem setvl (d a : BitVec 5) (fmt : BitVec 4) (grp : BitVec 2) : Statement (.setvl d a fmt grp) := by
  intro h
  simp only [encode, decode, Fields.ofWord_pack, fieldsOf]
  rw [decode_maj20 _ rfl]
  simp_all [decodeVcfg, need, needLone, Instr.wf]
theorem vtag (d : BitVec 5) (fmt : BitVec 4) (grp : BitVec 2) : Statement (.vtag d fmt grp) := by
  intro h
  simp only [encode, decode, Fields.ofWord_pack, fieldsOf]
  rw [decode_maj20 _ rfl]
  simp_all [decodeVcfg, need, needLone, Instr.wf]
theorem vretag (d : BitVec 5) (fmt : BitVec 4) (grp : BitVec 2) : Statement (.vretag d fmt grp) := by
  intro h
  simp only [encode, decode, Fields.ofWord_pack, fieldsOf]
  rw [decode_maj20 _ rfl]
  simp_all [decodeVcfg, need, needLone, Instr.wf]
theorem vgettag (d v : BitVec 5) : Statement (.vgettag d v) := by
  intro h
  simp only [encode, decode, Fields.ofWord_pack, fieldsOf]
  rw [decode_maj20 _ rfl]
  simp_all [decodeVcfg, need, needLone, Instr.wf]
theorem lpreq (d a : BitVec 5) : Statement (.lpreq d a) := by
  intro h
  simp only [encode, decode, Fields.ofWord_pack, fieldsOf]
  rw [decode_maj20 _ rfl]
  simp_all [decodeVcfg, need, needLone, Instr.wf]
theorem lprel (a : BitVec 5) : Statement (.lprel a) := by
  intro h
  simp only [encode, decode, Fields.ofWord_pack, fieldsOf]
  rw [decode_maj20 _ rfl]
  simp_all [decodeVcfg, need, needLone, Instr.wf]
theorem nestld (n : BitVec 3) (a : BitVec 5) : Statement (.nestld n a) := by
  intro h
  simp only [encode, decode, Fields.ofWord_pack, fieldsOf]
  rw [decode_maj20 _ rfl]
  simp_all [decodeVcfg, need, needLone, Instr.wf]
theorem nestst (n : BitVec 3) (a : BitVec 5) : Statement (.nestst n a) := by
  intro h
  simp only [encode, decode, Fields.ofWord_pack, fieldsOf]
  rw [decode_maj20 _ rfl]
  simp_all [decodeVcfg, need, needLone, Instr.wf]
theorem vadd (d a b : BitVec 5) (rep : BitVec 3) (cv : Bool) (m : BitVec 4) : Statement (.vadd d a b rep cv m) := by
  intro h
  simp only [encode, decode, Fields.ofWord_pack, fieldsOf]
  rw [decode_maj30 _ rfl]
  simp_all [decodeV30, need, needLone, Instr.wf]
theorem vsub (d a b : BitVec 5) (rep : BitVec 3) (cv : Bool) (m : BitVec 4) : Statement (.vsub d a b rep cv m) := by
  intro h
  simp only [encode, decode, Fields.ofWord_pack, fieldsOf]
  rw [decode_maj30 _ rfl]
  simp_all [decodeV30, need, needLone, Instr.wf]
theorem vrsub (d a b : BitVec 5) (rep : BitVec 3) (cv : Bool) (m : BitVec 4) : Statement (.vrsub d a b rep cv m) := by
  intro h
  simp only [encode, decode, Fields.ofWord_pack, fieldsOf]
  rw [decode_maj30 _ rfl]
  simp_all [decodeV30, need, needLone, Instr.wf]
theorem vmul (d a b : BitVec 5) (rep : BitVec 3) (cv : Bool) (m : BitVec 4) : Statement (.vmul d a b rep cv m) := by
  intro h
  simp only [encode, decode, Fields.ofWord_pack, fieldsOf]
  rw [decode_maj30 _ rfl]
  simp_all [decodeV30, need, needLone, Instr.wf]
theorem vmin (d a b : BitVec 5) (rep : BitVec 3) (cv : Bool) (m : BitVec 4) : Statement (.vmin d a b rep cv m) := by
  intro h
  simp only [encode, decode, Fields.ofWord_pack, fieldsOf]
  rw [decode_maj31 _ rfl]
  simp_all [decodeV31, need, needLone, Instr.wf]
theorem vmax (d a b : BitVec 5) (rep : BitVec 3) (cv : Bool) (m : BitVec 4) : Statement (.vmax d a b rep cv m) := by
  intro h
  simp only [encode, decode, Fields.ofWord_pack, fieldsOf]
  rw [decode_maj31 _ rfl]
  simp_all [decodeV31, need, needLone, Instr.wf]
theorem vsadd (d a b : BitVec 5) (rep : BitVec 3) (cv : Bool) (m : BitVec 4) : Statement (.vsadd d a b rep cv m) := by
  intro h
  simp only [encode, decode, Fields.ofWord_pack, fieldsOf]
  rw [decode_maj31 _ rfl]
  simp_all [decodeV31, need, needLone, Instr.wf]
theorem vssub (d a b : BitVec 5) (rep : BitVec 3) (cv : Bool) (m : BitVec 4) : Statement (.vssub d a b rep cv m) := by
  intro h
  simp only [encode, decode, Fields.ofWord_pack, fieldsOf]
  rw [decode_maj31 _ rfl]
  simp_all [decodeV31, need, needLone, Instr.wf]
theorem vmacc (d a b : BitVec 5) (rep : BitVec 3) (cv : Bool) (m : BitVec 4) : Statement (.vmacc d a b rep cv m) := by
  intro h
  simp only [encode, decode, Fields.ofWord_pack, fieldsOf]
  rw [decode_maj32 _ rfl]
  simp_all [decodeV32, need, needLone, Instr.wf]
theorem vnmsac (d a b : BitVec 5) (rep : BitVec 3) (cv : Bool) (m : BitVec 4) : Statement (.vnmsac d a b rep cv m) := by
  intro h
  simp only [encode, decode, Fields.ofWord_pack, fieldsOf]
  rw [decode_maj32 _ rfl]
  simp_all [decodeV32, need, needLone, Instr.wf]
theorem vmadd (d a b : BitVec 5) (rep : BitVec 3) (cv : Bool) (m : BitVec 4) : Statement (.vmadd d a b rep cv m) := by
  intro h
  simp only [encode, decode, Fields.ofWord_pack, fieldsOf]
  rw [decode_maj32 _ rfl]
  simp_all [decodeV32, need, needLone, Instr.wf]
theorem vnmsub (d a b : BitVec 5) (rep : BitVec 3) (cv : Bool) (m : BitVec 4) : Statement (.vnmsub d a b rep cv m) := by
  intro h
  simp only [encode, decode, Fields.ofWord_pack, fieldsOf]
  rw [decode_maj32 _ rfl]
  simp_all [decodeV32, need, needLone, Instr.wf]
theorem vand (d a b : BitVec 5) (rep : BitVec 3) (cv : Bool) (m : BitVec 4) : Statement (.vand d a b rep cv m) := by
  intro h
  simp only [encode, decode, Fields.ofWord_pack, fieldsOf]
  rw [decode_maj33 _ rfl]
  simp_all [decodeV33, need, needLone, Instr.wf]
theorem vor (d a b : BitVec 5) (rep : BitVec 3) (cv : Bool) (m : BitVec 4) : Statement (.vor d a b rep cv m) := by
  intro h
  simp only [encode, decode, Fields.ofWord_pack, fieldsOf]
  rw [decode_maj33 _ rfl]
  simp_all [decodeV33, need, needLone, Instr.wf]
theorem vxor (d a b : BitVec 5) (rep : BitVec 3) (cv : Bool) (m : BitVec 4) : Statement (.vxor d a b rep cv m) := by
  intro h
  simp only [encode, decode, Fields.ofWord_pack, fieldsOf]
  rw [decode_maj33 _ rfl]
  simp_all [decodeV33, need, needLone, Instr.wf]
theorem vandn (d a b : BitVec 5) (rep : BitVec 3) (cv : Bool) (m : BitVec 4) : Statement (.vandn d a b rep cv m) := by
  intro h
  simp only [encode, decode, Fields.ofWord_pack, fieldsOf]
  rw [decode_maj33 _ rfl]
  simp_all [decodeV33, need, needLone, Instr.wf]
theorem vsll (d a b : BitVec 5) (rep : BitVec 3) (cv : Bool) (m : BitVec 4) : Statement (.vsll d a b rep cv m) := by
  intro h
  simp only [encode, decode, Fields.ofWord_pack, fieldsOf]
  rw [decode_maj34 _ rfl]
  simp_all [decodeV34, need, needLone, Instr.wf]
theorem vsrl (d a b : BitVec 5) (rep : BitVec 3) (cv : Bool) (m : BitVec 4) : Statement (.vsrl d a b rep cv m) := by
  intro h
  simp only [encode, decode, Fields.ofWord_pack, fieldsOf]
  rw [decode_maj34 _ rfl]
  simp_all [decodeV34, need, needLone, Instr.wf]
theorem vsra (d a b : BitVec 5) (rep : BitVec 3) (cv : Bool) (m : BitVec 4) : Statement (.vsra d a b rep cv m) := by
  intro h
  simp only [encode, decode, Fields.ofWord_pack, fieldsOf]
  rw [decode_maj34 _ rfl]
  simp_all [decodeV34, need, needLone, Instr.wf]
theorem vrot (d a b : BitVec 5) (rep : BitVec 3) (cv : Bool) (m : BitVec 4) : Statement (.vrot d a b rep cv m) := by
  intro h
  simp only [encode, decode, Fields.ofWord_pack, fieldsOf]
  rw [decode_maj34 _ rfl]
  simp_all [decodeV34, need, needLone, Instr.wf]
theorem vmseq (d : BitVec 4) (a b : BitVec 5) (rep : BitVec 3) (cv : Bool) (m : BitVec 4) : Statement (.vmseq d a b rep cv m) := by
  intro h
  simp only [encode, decode, Fields.ofWord_pack, fieldsOf]
  rw [decode_maj35 _ rfl]
  simp_all [decodeV35, need, needLone, Instr.wf]
theorem vmsne (d : BitVec 4) (a b : BitVec 5) (rep : BitVec 3) (cv : Bool) (m : BitVec 4) : Statement (.vmsne d a b rep cv m) := by
  intro h
  simp only [encode, decode, Fields.ofWord_pack, fieldsOf]
  rw [decode_maj35 _ rfl]
  simp_all [decodeV35, need, needLone, Instr.wf]
theorem vmslt (d : BitVec 4) (a b : BitVec 5) (rep : BitVec 3) (cv : Bool) (m : BitVec 4) : Statement (.vmslt d a b rep cv m) := by
  intro h
  simp only [encode, decode, Fields.ofWord_pack, fieldsOf]
  rw [decode_maj35 _ rfl]
  simp_all [decodeV35, need, needLone, Instr.wf]
theorem vmsle (d : BitVec 4) (a b : BitVec 5) (rep : BitVec 3) (cv : Bool) (m : BitVec 4) : Statement (.vmsle d a b rep cv m) := by
  intro h
  simp only [encode, decode, Fields.ofWord_pack, fieldsOf]
  rw [decode_maj35 _ rfl]
  simp_all [decodeV35, need, needLone, Instr.wf]
theorem vmerge (d a b : BitVec 5) (rep : BitVec 3) (cv : Bool) (m : BitVec 4) : Statement (.vmerge d a b rep cv m) := by
  intro h
  simp only [encode, decode, Fields.ofWord_pack, fieldsOf]
  rw [decode_maj36 _ rfl]
  simp_all [decodeV36, need, needLone, Instr.wf]
theorem vclamp (d a b : BitVec 5) (rep : BitVec 3) (cv : Bool) (m : BitVec 4) : Statement (.vclamp d a b rep cv m) := by
  intro h
  simp only [encode, decode, Fields.ofWord_pack, fieldsOf]
  rw [decode_maj36 _ rfl]
  simp_all [decodeV36, need, needLone, Instr.wf]
theorem vmv (d a : BitVec 5) (cv : Bool) (m : BitVec 4) : Statement (.vmv d a cv m) := by
  intro h
  simp only [encode, decode, Fields.ofWord_pack, fieldsOf]
  rw [decode_maj36 _ rfl]
  simp_all [decodeV36, need, needLone, Instr.wf]
theorem vabs (d a : BitVec 5) (cv : Bool) (m : BitVec 4) : Statement (.vabs d a cv m) := by
  intro h
  simp only [encode, decode, Fields.ofWord_pack, fieldsOf]
  rw [decode_maj36 _ rfl]
  simp_all [decodeV36, need, needLone, Instr.wf]
theorem vdiv (d a b : BitVec 5) (rep : BitVec 3) (cv : Bool) (m : BitVec 4) : Statement (.vdiv d a b rep cv m) := by
  intro h
  simp only [encode, decode, Fields.ofWord_pack, fieldsOf]
  rw [decode_maj37 _ rfl]
  simp_all [decodeV37, need, needLone, Instr.wf]
theorem vrem (d a b : BitVec 5) (rep : BitVec 3) (cv : Bool) (m : BitVec 4) : Statement (.vrem d a b rep cv m) := by
  intro h
  simp only [encode, decode, Fields.ofWord_pack, fieldsOf]
  rw [decode_maj37 _ rfl]
  simp_all [decodeV37, need, needLone, Instr.wf]
theorem vsqrt (d a : BitVec 5) (cv : Bool) (m : BitVec 4) : Statement (.vsqrt d a cv m) := by
  intro h
  simp only [encode, decode, Fields.ofWord_pack, fieldsOf]
  rw [decode_maj37 _ rfl]
  simp_all [decodeV37, need, needLone, Instr.wf]
theorem vrcp (d a : BitVec 5) (cv : Bool) (m : BitVec 4) : Statement (.vrcp d a cv m) := by
  intro h
  simp only [encode, decode, Fields.ofWord_pack, fieldsOf]
  rw [decode_maj37 _ rfl]
  simp_all [decodeV37, need, needLone, Instr.wf]
theorem vexp2 (d a : BitVec 5) (cv : Bool) (m : BitVec 4) : Statement (.vexp2 d a cv m) := by
  intro h
  simp only [encode, decode, Fields.ofWord_pack, fieldsOf]
  rw [decode_maj38 _ rfl]
  simp_all [decodeV38, need, needLone, Instr.wf]
theorem vlog2 (d a : BitVec 5) (cv : Bool) (m : BitVec 4) : Statement (.vlog2 d a cv m) := by
  intro h
  simp only [encode, decode, Fields.ofWord_pack, fieldsOf]
  rw [decode_maj38 _ rfl]
  simp_all [decodeV38, need, needLone, Instr.wf]
theorem vrsqrt (d a : BitVec 5) (cv : Bool) (m : BitVec 4) : Statement (.vrsqrt d a cv m) := by
  intro h
  simp only [encode, decode, Fields.ofWord_pack, fieldsOf]
  rw [decode_maj38 _ rfl]
  simp_all [decodeV38, need, needLone, Instr.wf]
theorem vtanh (d a : BitVec 5) (cv : Bool) (m : BitVec 4) : Statement (.vtanh d a cv m) := by
  intro h
  simp only [encode, decode, Fields.ofWord_pack, fieldsOf]
  rw [decode_maj38 _ rfl]
  simp_all [decodeV38, need, needLone, Instr.wf]
theorem vsin (d a : BitVec 5) (cv : Bool) (m : BitVec 4) : Statement (.vsin d a cv m) := by
  intro h
  simp only [encode, decode, Fields.ofWord_pack, fieldsOf]
  rw [decode_maj39 _ rfl]
  simp_all [decodeV39, need, needLone, Instr.wf]
theorem vcos (d a : BitVec 5) (cv : Bool) (m : BitVec 4) : Statement (.vcos d a cv m) := by
  intro h
  simp only [encode, decode, Fields.ofWord_pack, fieldsOf]
  rw [decode_maj39 _ rfl]
  simp_all [decodeV39, need, needLone, Instr.wf]
theorem vclass (d a : BitVec 5) (cv : Bool) (m : BitVec 4) : Statement (.vclass d a cv m) := by
  intro h
  simp only [encode, decode, Fields.ofWord_pack, fieldsOf]
  rw [decode_maj39 _ rfl]
  simp_all [decodeV39, need, needLone, Instr.wf]
theorem vcvt (d a : BitVec 5) (rm : BitVec 2) (cv : Bool) (m : BitVec 4) : Statement (.vcvt d a rm cv m) := by
  intro h
  simp only [encode, decode, Fields.ofWord_pack, fieldsOf]
  rw [decode_maj3A _ rfl]
  simp_all [decodeV3A, need, needLone, Instr.wf]
theorem vcvtsat (d a : BitVec 5) (rm : BitVec 2) (cv : Bool) (m : BitVec 4) : Statement (.vcvtsat d a rm cv m) := by
  intro h
  simp only [encode, decode, Fields.ofWord_pack, fieldsOf]
  rw [decode_maj3A _ rfl]
  simp_all [decodeV3A, need, needLone, Instr.wf]
theorem vcvts (d a : BitVec 5) (rm : BitVec 2) (cv : Bool) (m : BitVec 4) : Statement (.vcvts d a rm cv m) := by
  intro h
  simp only [encode, decode, Fields.ofWord_pack, fieldsOf]
  rw [decode_maj3A _ rfl]
  simp_all [decodeV3A, need, needLone, Instr.wf]
theorem vcvtssat (d a : BitVec 5) (rm : BitVec 2) (cv : Bool) (m : BitVec 4) : Statement (.vcvtssat d a rm cv m) := by
  intro h
  simp only [encode, decode, Fields.ofWord_pack, fieldsOf]
  rw [decode_maj3A _ rfl]
  simp_all [decodeV3A, need, needLone, Instr.wf]
theorem vredsum (d a b : BitVec 5) (rep : BitVec 3) (m : BitVec 4) : Statement (.vredsum d a b rep m) := by
  intro h
  simp only [encode, decode, Fields.ofWord_pack, fieldsOf]
  rw [decode_maj3B _ rfl]
  simp_all [decodeV3B, need, needLone, Instr.wf]
theorem vredmin (d a b : BitVec 5) (rep : BitVec 3) (m : BitVec 4) : Statement (.vredmin d a b rep m) := by
  intro h
  simp only [encode, decode, Fields.ofWord_pack, fieldsOf]
  rw [decode_maj3B _ rfl]
  simp_all [decodeV3B, need, needLone, Instr.wf]
theorem vredmax (d a b : BitVec 5) (rep : BitVec 3) (m : BitVec 4) : Statement (.vredmax d a b rep m) := by
  intro h
  simp only [encode, decode, Fields.ofWord_pack, fieldsOf]
  rw [decode_maj3B _ rfl]
  simp_all [decodeV3B, need, needLone, Instr.wf]
theorem vredor (d a b : BitVec 5) (rep : BitVec 3) (m : BitVec 4) : Statement (.vredor d a b rep m) := by
  intro h
  simp only [encode, decode, Fields.ofWord_pack, fieldsOf]
  rw [decode_maj3B _ rfl]
  simp_all [decodeV3B, need, needLone, Instr.wf]
theorem vscansum (d a : BitVec 5) (m : BitVec 4) : Statement (.vscansum d a m) := by
  intro h
  simp only [encode, decode, Fields.ofWord_pack, fieldsOf]
  rw [decode_maj3C _ rfl]
  simp_all [decodeV3C, need, needLone, Instr.wf]
theorem vscanmin (d a : BitVec 5) (m : BitVec 4) : Statement (.vscanmin d a m) := by
  intro h
  simp only [encode, decode, Fields.ofWord_pack, fieldsOf]
  rw [decode_maj3C _ rfl]
  simp_all [decodeV3C, need, needLone, Instr.wf]
theorem vscanmax (d a : BitVec 5) (m : BitVec 4) : Statement (.vscanmax d a m) := by
  intro h
  simp only [encode, decode, Fields.ofWord_pack, fieldsOf]
  rw [decode_maj3C _ rfl]
  simp_all [decodeV3C, need, needLone, Instr.wf]
theorem vslideup (d a b : BitVec 5) (cv : Bool) (m : BitVec 4) : Statement (.vslideup d a b cv m) := by
  intro h
  simp only [encode, decode, Fields.ofWord_pack, fieldsOf]
  rw [decode_maj3D _ rfl]
  simp_all [decodeV3D, need, needLone, Instr.wf]
theorem vslidedn (d a b : BitVec 5) (cv : Bool) (m : BitVec 4) : Statement (.vslidedn d a b cv m) := by
  intro h
  simp only [encode, decode, Fields.ofWord_pack, fieldsOf]
  rw [decode_maj3D _ rfl]
  simp_all [decodeV3D, need, needLone, Instr.wf]
theorem vslide1up (d a b : BitVec 5) (cv : Bool) (m : BitVec 4) : Statement (.vslide1up d a b cv m) := by
  intro h
  simp only [encode, decode, Fields.ofWord_pack, fieldsOf]
  rw [decode_maj3D _ rfl]
  simp_all [decodeV3D, need, needLone, Instr.wf]
theorem vslide1dn (d a b : BitVec 5) (cv : Bool) (m : BitVec 4) : Statement (.vslide1dn d a b cv m) := by
  intro h
  simp only [encode, decode, Fields.ofWord_pack, fieldsOf]
  rw [decode_maj3D _ rfl]
  simp_all [decodeV3D, need, needLone, Instr.wf]
theorem vperm (d a b : BitVec 5) (rep : BitVec 3) (m : BitVec 4) : Statement (.vperm d a b rep m) := by
  intro h
  simp only [encode, decode, Fields.ofWord_pack, fieldsOf]
  rw [decode_maj3E _ rfl]
  simp_all [decodeV3E, need, needLone, Instr.wf]
theorem vcompress (d a : BitVec 5) (m : BitVec 4) : Statement (.vcompress d a m) := by
  intro h
  simp only [encode, decode, Fields.ofWord_pack, fieldsOf]
  rw [decode_maj3E _ rfl]
  simp_all [decodeV3E, need, needLone, Instr.wf]
theorem vexpand (d a : BitVec 5) (m : BitVec 4) : Statement (.vexpand d a m) := by
  intro h
  simp only [encode, decode, Fields.ofWord_pack, fieldsOf]
  rw [decode_maj3E _ rfl]
  simp_all [decodeV3E, need, needLone, Instr.wf]
theorem viota (d : BitVec 5) (m : BitVec 4) : Statement (.viota d m) := by
  intro h
  simp only [encode, decode, Fields.ofWord_pack, fieldsOf]
  rw [decode_maj3E _ rfl]
  simp_all [decodeV3E, need, needLone, Instr.wf]
theorem vsegsort (d a : BitVec 5) (m : BitVec 4) : Statement (.vsegsort d a m) := by
  intro h
  simp only [encode, decode, Fields.ofWord_pack, fieldsOf]
  rw [decode_maj3F _ rfl]
  simp_all [decodeV3F, need, needLone, Instr.wf]
theorem vsegsortkv (d a b : BitVec 5) (rep : BitVec 3) (m : BitVec 4) : Statement (.vsegsortkv d a b rep m) := by
  intro h
  simp only [encode, decode, Fields.ofWord_pack, fieldsOf]
  rw [decode_maj3F _ rfl]
  simp_all [decodeV3F, need, needLone, Instr.wf]
theorem vdupmerge (d a b : BitVec 5) (rep : BitVec 3) (m : BitVec 4) : Statement (.vdupmerge d a b rep m) := by
  intro h
  simp only [encode, decode, Fields.ofWord_pack, fieldsOf]
  rw [decode_maj3F _ rfl]
  simp_all [decodeV3F, need, needLone, Instr.wf]
theorem vopaX1 (d a b : BitVec 5) (rep : BitVec 3) (cv : Bool) (m : BitVec 4) : Statement (.vopaX1 d a b rep cv m) := by
  intro h
  simp only [encode, decode, Fields.ofWord_pack, fieldsOf]
  rw [decode_maj40 _ rfl]
  simp_all [decodeV40, need, needLone, Instr.wf]
theorem vopaX2 (d a b : BitVec 5) (rep : BitVec 3) (cv : Bool) (m : BitVec 4) : Statement (.vopaX2 d a b rep cv m) := by
  intro h
  simp only [encode, decode, Fields.ofWord_pack, fieldsOf]
  rw [decode_maj40 _ rfl]
  simp_all [decodeV40, need, needLone, Instr.wf]
theorem vopaX4 (d a b : BitVec 5) (rep : BitVec 3) (cv : Bool) (m : BitVec 4) : Statement (.vopaX4 d a b rep cv m) := by
  intro h
  simp only [encode, decode, Fields.ofWord_pack, fieldsOf]
  rw [decode_maj40 _ rfl]
  simp_all [decodeV40, need, needLone, Instr.wf]
theorem vopaX8 (d a b : BitVec 5) (rep : BitVec 3) (cv : Bool) (m : BitVec 4) : Statement (.vopaX8 d a b rep cv m) := by
  intro h
  simp only [encode, decode, Fields.ofWord_pack, fieldsOf]
  rw [decode_maj40 _ rfl]
  simp_all [decodeV40, need, needLone, Instr.wf]
theorem vmvVg (d a : BitVec 5) (m : BitVec 4) : Statement (.vmvVg d a m) := by
  intro h
  simp only [encode, decode, Fields.ofWord_pack, fieldsOf]
  rw [decode_maj41 _ rfl]
  simp_all [decodeV41, need, needLone, Instr.wf]
theorem vmvVq (d : BitVec 5) (q : BitVec 3) (m : BitVec 4) : Statement (.vmvVq d q m) := by
  intro h
  simp only [encode, decode, Fields.ofWord_pack, fieldsOf]
  rw [decode_maj41 _ rfl]
  simp_all [decodeV41, need, needLone, Instr.wf]
theorem vmvQv (q : BitVec 3) (a : BitVec 5) (m : BitVec 4) : Statement (.vmvQv q a m) := by
  intro h
  simp only [encode, decode, Fields.ofWord_pack, fieldsOf]
  rw [decode_maj41 _ rfl]
  simp_all [decodeV41, need, needLone, Instr.wf]
theorem vld (d a : BitVec 5) (hint : BitVec 2) (cv : Bool) (m : BitVec 4) : Statement (.vld d a hint cv m) := by
  intro h
  simp only [encode, decode, Fields.ofWord_pack, fieldsOf]
  rw [decode_maj48 _ rfl]
  simp_all [decodeV48, need, needLone, Instr.wf]
theorem vlds (d a b : BitVec 5) (hint : BitVec 2) (cv : Bool) (m : BitVec 4) : Statement (.vlds d a b hint cv m) := by
  intro h
  simp only [encode, decode, Fields.ofWord_pack, fieldsOf]
  rw [decode_maj48 _ rfl]
  simp_all [decodeV48, need, needLone, Instr.wf]
theorem vldx (d a b : BitVec 5) (hint : BitVec 2) (cv : Bool) (m : BitVec 4) : Statement (.vldx d a b hint cv m) := by
  intro h
  simp only [encode, decode, Fields.ofWord_pack, fieldsOf]
  rw [decode_maj48 _ rfl]
  simp_all [decodeV48, need, needLone, Instr.wf]
theorem vldff (d a : BitVec 5) (hint : BitVec 2) (cv : Bool) (m : BitVec 4) : Statement (.vldff d a hint cv m) := by
  intro h
  simp only [encode, decode, Fields.ofWord_pack, fieldsOf]
  rw [decode_maj48 _ rfl]
  simp_all [decodeV48, need, needLone, Instr.wf]
theorem vst (d a : BitVec 5) (nfy : Bool) (hint : BitVec 2) (cv : Bool) (m : BitVec 4) : Statement (.vst d a nfy hint cv m) := by
  intro h
  simp only [encode, decode, Fields.ofWord_pack, fieldsOf]
  rw [decode_maj49 _ rfl]
  simp_all [decodeV49, need, needLone, Instr.wf]
theorem vsts (d a b : BitVec 5) (nfy : Bool) (hint : BitVec 2) (cv : Bool) (m : BitVec 4) : Statement (.vsts d a b nfy hint cv m) := by
  intro h
  simp only [encode, decode, Fields.ofWord_pack, fieldsOf]
  rw [decode_maj49 _ rfl]
  simp_all [decodeV49, need, needLone, Instr.wf]
theorem vstx (d a b : BitVec 5) (nfy : Bool) (hint : BitVec 2) (cv : Bool) (m : BitVec 4) : Statement (.vstx d a b nfy hint cv m) := by
  intro h
  simp only [encode, decode, Fields.ofWord_pack, fieldsOf]
  rw [decode_maj49 _ rfl]
  simp_all [decodeV49, need, needLone, Instr.wf]
theorem vldseg (d a : BitVec 5) (nf : BitVec 3) (m : BitVec 4) : Statement (.vldseg d a nf m) := by
  intro h
  simp only [encode, decode, Fields.ofWord_pack, fieldsOf]
  rw [decode_maj4A _ rfl]
  simp_all [decodeV4A, need, needLone, Instr.wf]
theorem vstseg (d a : BitVec 5) (nf : BitVec 3) (m : BitVec 4) : Statement (.vstseg d a nf m) := by
  intro h
  simp only [encode, decode, Fields.ofWord_pack, fieldsOf]
  rw [decode_maj4A _ rfl]
  simp_all [decodeV4A, need, needLone, Instr.wf]
theorem vamoadd (d a b : BitVec 5) (m : BitVec 4) : Statement (.vamoadd d a b m) := by
  intro h
  simp only [encode, decode, Fields.ofWord_pack, fieldsOf]
  rw [decode_maj4B _ rfl]
  simp_all [decodeV4B, need, needLone, Instr.wf]
theorem vamomin (d a b : BitVec 5) (m : BitVec 4) : Statement (.vamomin d a b m) := by
  intro h
  simp only [encode, decode, Fields.ofWord_pack, fieldsOf]
  rw [decode_maj4B _ rfl]
  simp_all [decodeV4B, need, needLone, Instr.wf]
theorem vamomax (d a b : BitVec 5) (m : BitVec 4) : Statement (.vamomax d a b m) := by
  intro h
  simp only [encode, decode, Fields.ofWord_pack, fieldsOf]
  rw [decode_maj4B _ rfl]
  simp_all [decodeV4B, need, needLone, Instr.wf]
theorem vamoswap (d a b : BitVec 5) (m : BitVec 4) : Statement (.vamoswap d a b m) := by
  intro h
  simp only [encode, decode, Fields.ofWord_pack, fieldsOf]
  rw [decode_maj4B _ rfl]
  simp_all [decodeV4B, need, needLone, Instr.wf]
theorem vscredAdd (d a b : BitVec 5) (m : BitVec 4) : Statement (.vscredAdd d a b m) := by
  intro h
  simp only [encode, decode, Fields.ofWord_pack, fieldsOf]
  rw [decode_maj4C _ rfl]
  simp_all [decodeV4C, need, needLone, Instr.wf]
theorem vscredMin (d a b : BitVec 5) (m : BitVec 4) : Statement (.vscredMin d a b m) := by
  intro h
  simp only [encode, decode, Fields.ofWord_pack, fieldsOf]
  rw [decode_maj4C _ rfl]
  simp_all [decodeV4C, need, needLone, Instr.wf]
theorem vscredMax (d a b : BitVec 5) (m : BitVec 4) : Statement (.vscredMax d a b m) := by
  intro h
  simp only [encode, decode, Fields.ofWord_pack, fieldsOf]
  rw [decode_maj4C _ rfl]
  simp_all [decodeV4C, need, needLone, Instr.wf]
theorem vscredOr (d a b : BitVec 5) (m : BitVec 4) : Statement (.vscredOr d a b m) := by
  intro h
  simp only [encode, decode, Fields.ofWord_pack, fieldsOf]
  rw [decode_maj4C _ rfl]
  simp_all [decodeV4C, need, needLone, Instr.wf]
theorem bankopAdd (a : BitVec 5) : Statement (.bankopAdd a) := by
  intro h
  simp only [encode, decode, Fields.ofWord_pack, fieldsOf]
  rw [decode_maj5F _ rfl]
  simp_all [decodeBankOp, need, needLone, Instr.wf]
theorem bankopMin (a : BitVec 5) : Statement (.bankopMin a) := by
  intro h
  simp only [encode, decode, Fields.ofWord_pack, fieldsOf]
  rw [decode_maj5F _ rfl]
  simp_all [decodeBankOp, need, needLone, Instr.wf]
theorem bankopMax (a : BitVec 5) : Statement (.bankopMax a) := by
  intro h
  simp only [encode, decode, Fields.ofWord_pack, fieldsOf]
  rw [decode_maj5F _ rfl]
  simp_all [decodeBankOp, need, needLone, Instr.wf]
theorem bankopAnd (a : BitVec 5) : Statement (.bankopAnd a) := by
  intro h
  simp only [encode, decode, Fields.ofWord_pack, fieldsOf]
  rw [decode_maj5F _ rfl]
  simp_all [decodeBankOp, need, needLone, Instr.wf]
theorem bankopOr (a : BitVec 5) : Statement (.bankopOr a) := by
  intro h
  simp only [encode, decode, Fields.ofWord_pack, fieldsOf]
  rw [decode_maj5F _ rfl]
  simp_all [decodeBankOp, need, needLone, Instr.wf]
theorem bankopXor (a : BitVec 5) : Statement (.bankopXor a) := by
  intro h
  simp only [encode, decode, Fields.ofWord_pack, fieldsOf]
  rw [decode_maj5F _ rfl]
  simp_all [decodeBankOp, need, needLone, Instr.wf]
theorem cbload (a b : BitVec 5) (nest : BitVec 3) (e : EMod) : Statement (.cbload a b nest e) := by
  intro h
  simp only [encode, decode, Fields.ofWord_pack, fieldsOf]
  rw [decode_maj50 _ rfl]
  simp_all [need, needLone, Instr.wf]
theorem cbclr (a b : BitVec 5) (e : EMod) : Statement (.cbclr a b e) := by
  intro h
  simp only [encode, decode, Fields.ofWord_pack, fieldsOf]
  rw [decode_maj51 _ rfl]
  simp_all [need, needLone, Instr.wf]
theorem tbuild (a b : BitVec 5) (nest : BitVec 3) (e : EMod) : Statement (.tbuild a b nest e) := by
  intro h
  simp only [encode, decode, Fields.ofWord_pack, fieldsOf]
  rw [decode_maj52 _ rfl]
  simp_all [need, needLone, Instr.wf]
theorem tbload (a b : BitVec 5) (nest : BitVec 3) (e : EMod) : Statement (.tbload a b nest e) := by
  intro h
  simp only [encode, decode, Fields.ofWord_pack, fieldsOf]
  rw [decode_maj53 _ rfl]
  simp_all [need, needLone, Instr.wf]
theorem tbfree (a b : BitVec 5) (e : EMod) : Statement (.tbfree a b e) := by
  intro h
  simp only [encode, decode, Fields.ofWord_pack, fieldsOf]
  rw [decode_maj54 _ rfl]
  simp_all [need, needLone, Instr.wf]
theorem lkinit (a b : BitVec 5) (e : EMod) : Statement (.lkinit a b e) := by
  intro h
  simp only [encode, decode, Fields.ofWord_pack, fieldsOf]
  rw [decode_maj55 _ rfl]
  simp_all [need, needLone, Instr.wf]
theorem lkacc (a b : BitVec 5) (nest : BitVec 3) (e : EMod) : Statement (.lkacc a b nest e) := by
  intro h
  simp only [encode, decode, Fields.ofWord_pack, fieldsOf]
  rw [decode_maj56 _ rfl]
  simp_all [need, needLone, Instr.wf]
theorem lkdrain (a b : BitVec 5) (nest : BitVec 3) (e : EMod) : Statement (.lkdrain a b nest e) := by
  intro h
  simp only [encode, decode, Fields.ofWord_pack, fieldsOf]
  rw [decode_maj57 _ rfl]
  simp_all [need, needLone, Instr.wf]
theorem lkdrainc (a b : BitVec 5) (nest : BitVec 3) (e : EMod) : Statement (.lkdrainc a b nest e) := by
  intro h
  simp only [encode, decode, Fields.ofWord_pack, fieldsOf]
  rw [decode_maj58 _ rfl]
  simp_all [need, needLone, Instr.wf]
theorem lkread (a b : BitVec 5) (e : EMod) : Statement (.lkread a b e) := by
  intro h
  simp only [encode, decode, Fields.ofWord_pack, fieldsOf]
  rw [decode_maj59 _ rfl]
  simp_all [need, needLone, Instr.wf]
theorem lkclr (a : BitVec 5) (e : EMod) : Statement (.lkclr a e) := by
  intro h
  simp only [encode, decode, Fields.ofWord_pack, fieldsOf]
  rw [decode_maj5A _ rfl]
  simp_all [need, needLone, Instr.wf]
theorem lkstat (d a : BitVec 5) (e : EMod) : Statement (.lkstat d a e) := by
  intro h
  simp only [encode, decode, Fields.ofWord_pack, fieldsOf]
  rw [decode_maj5B _ rfl]
  simp_all [need, needLone, Instr.wf]
theorem lkmeta (d a : BitVec 5) (e : EMod) : Statement (.lkmeta d a e) := by
  intro h
  simp only [encode, decode, Fields.ofWord_pack, fieldsOf]
  rw [decode_maj5C _ rfl]
  simp_all [need, needLone, Instr.wf]
theorem lkwait (d : BitVec 5) (e : EMod) : Statement (.lkwait d e) := by
  intro h
  simp only [encode, decode, Fields.ofWord_pack, fieldsOf]
  rw [decode_maj5D _ rfl]
  simp_all [need, needLone, Instr.wf]
theorem xcopy (d a b : BitVec 5) (nest : BitVec 3) (e : EMod) : Statement (.xcopy d a b nest e) := by
  intro h
  simp only [encode, decode, Fields.ofWord_pack, fieldsOf]
  rw [decode_maj60 _ rfl]
  simp_all [need, needLone, Instr.wf]
theorem xshape (a : BitVec 5) (nest : BitVec 3) (e : EMod) : Statement (.xshape a nest e) := by
  intro h
  simp only [encode, decode, Fields.ofWord_pack, fieldsOf]
  rw [decode_maj61 _ rfl]
  simp_all [need, needLone, Instr.wf]
theorem xfill (d a b : BitVec 5) (nest : BitVec 3) (e : EMod) : Statement (.xfill d a b nest e) := by
  intro h
  simp only [encode, decode, Fields.ofWord_pack, fieldsOf]
  rw [decode_maj62 _ rfl]
  simp_all [need, needLone, Instr.wf]
theorem xgather (d a : BitVec 5) (e : EMod) : Statement (.xgather d a e) := by
  intro h
  simp only [encode, decode, Fields.ofWord_pack, fieldsOf]
  rw [decode_maj63 _ rfl]
  simp_all [need, needLone, Instr.wf]
theorem wsend (d a b : BitVec 5) (e : EMod) : Statement (.wsend d a b e) := by
  intro h
  simp only [encode, decode, Fields.ofWord_pack, fieldsOf]
  rw [decode_maj64 _ rfl]
  simp_all [need, needLone, Instr.wf]
theorem wsendi (d a b : BitVec 5) (e : EMod) : Statement (.wsendi d a b e) := by
  intro h
  simp only [encode, decode, Fields.ofWord_pack, fieldsOf]
  rw [decode_maj65 _ rfl]
  simp_all [need, needLone, Instr.wf]
theorem wreg (d a : BitVec 5) (e : EMod) : Statement (.wreg d a e) := by
  intro h
  simp only [encode, decode, Fields.ofWord_pack, fieldsOf]
  rw [decode_maj66 _ rfl]
  simp_all [need, needLone, Instr.wf]
theorem wunreg (a : BitVec 5) (e : EMod) : Statement (.wunreg a e) := by
  intro h
  simp only [encode, decode, Fields.ofWord_pack, fieldsOf]
  rw [decode_maj67 _ rfl]
  simp_all [need, needLone, Instr.wf]
theorem wctr (d : BitVec 5) (e : EMod) : Statement (.wctr d e) := by
  intro h
  simp only [encode, decode, Fields.ofWord_pack, fieldsOf]
  rw [decode_maj68 _ rfl]
  simp_all [need, needLone, Instr.wf]
theorem strain (d a b : BitVec 5) (e : EMod) : Statement (.strain d a b e) := by
  intro h
  simp only [encode, decode, Fields.ofWord_pack, fieldsOf]
  rw [decode_maj69 _ rfl]
  simp_all [need, needLone, Instr.wf]
theorem nmx (a : BitVec 5) (e : EMod) : Statement (.nmx a e) := by
  intro h
  simp only [encode, decode, Fields.ofWord_pack, fieldsOf]
  rw [decode_maj6A _ rfl]
  simp_all [need, needLone, Instr.wf]
theorem nmxld (a b : BitVec 5) (e : EMod) : Statement (.nmxld a b e) := by
  intro h
  simp only [encode, decode, Fields.ofWord_pack, fieldsOf]
  rw [decode_maj6B _ rfl]
  simp_all [need, needLone, Instr.wf]
theorem pgin (a b : BitVec 5) (e : EMod) : Statement (.pgin a b e) := by
  intro h
  simp only [encode, decode, Fields.ofWord_pack, fieldsOf]
  rw [decode_maj6C _ rfl]
  simp_all [need, needLone, Instr.wf]
theorem pgout (a b : BitVec 5) (e : EMod) : Statement (.pgout a b e) := by
  intro h
  simp only [encode, decode, Fields.ofWord_pack, fieldsOf]
  rw [decode_maj6D _ rfl]
  simp_all [need, needLone, Instr.wf]
theorem xwait (d : BitVec 5) (e : EMod) : Statement (.xwait d e) := by
  intro h
  simp only [encode, decode, Fields.ofWord_pack, fieldsOf]
  rw [decode_maj6E _ rfl]
  simp_all [need, needLone, Instr.wf]
theorem amoaddw (d a b : BitVec 5) (order : BitVec 2) : Statement (.amoaddw d a b order) := by
  intro h
  simp only [encode, decode, Fields.ofWord_pack, fieldsOf]
  rw [decode_maj70 _ rfl]
  simp only [decodeAmo, Fields.r_top, Fields.r_b, Fields.r_a, Fields.r_d, part6_2_2_high, part6_2_2_mid, part6_2_2_low]
  rfl
theorem amoaddd (d a b : BitVec 5) (order : BitVec 2) : Statement (.amoaddd d a b order) := by
  intro h
  simp only [encode, decode, Fields.ofWord_pack, fieldsOf]
  rw [decode_maj70 _ rfl]
  simp only [decodeAmo, Fields.r_top, Fields.r_b, Fields.r_a, Fields.r_d, part6_2_2_high, part6_2_2_mid, part6_2_2_low]
  rfl
theorem amofadd (d a b : BitVec 5) (order : BitVec 2) : Statement (.amofadd d a b order) := by
  intro h
  simp only [encode, decode, Fields.ofWord_pack, fieldsOf]
  rw [decode_maj70 _ rfl]
  simp only [decodeAmo, Fields.r_top, Fields.r_b, Fields.r_a, Fields.r_d, part6_2_2_high, part6_2_2_mid, part6_2_2_low]
  rfl
theorem amoswapw (d a b : BitVec 5) (order : BitVec 2) : Statement (.amoswapw d a b order) := by
  intro h
  simp only [encode, decode, Fields.ofWord_pack, fieldsOf]
  rw [decode_maj70 _ rfl]
  simp only [decodeAmo, Fields.r_top, Fields.r_b, Fields.r_a, Fields.r_d, part6_2_2_high, part6_2_2_mid, part6_2_2_low]
  rfl
theorem amoswapd (d a b : BitVec 5) (order : BitVec 2) : Statement (.amoswapd d a b order) := by
  intro h
  simp only [encode, decode, Fields.ofWord_pack, fieldsOf]
  rw [decode_maj70 _ rfl]
  simp only [decodeAmo, Fields.r_top, Fields.r_b, Fields.r_a, Fields.r_d, part6_2_2_high, part6_2_2_mid, part6_2_2_low]
  rfl
theorem amoandw (d a b : BitVec 5) (order : BitVec 2) : Statement (.amoandw d a b order) := by
  intro h
  simp only [encode, decode, Fields.ofWord_pack, fieldsOf]
  rw [decode_maj70 _ rfl]
  simp only [decodeAmo, Fields.r_top, Fields.r_b, Fields.r_a, Fields.r_d, part6_2_2_high, part6_2_2_mid, part6_2_2_low]
  rfl
theorem amoandd (d a b : BitVec 5) (order : BitVec 2) : Statement (.amoandd d a b order) := by
  intro h
  simp only [encode, decode, Fields.ofWord_pack, fieldsOf]
  rw [decode_maj70 _ rfl]
  simp only [decodeAmo, Fields.r_top, Fields.r_b, Fields.r_a, Fields.r_d, part6_2_2_high, part6_2_2_mid, part6_2_2_low]
  rfl
theorem amoorw (d a b : BitVec 5) (order : BitVec 2) : Statement (.amoorw d a b order) := by
  intro h
  simp only [encode, decode, Fields.ofWord_pack, fieldsOf]
  rw [decode_maj70 _ rfl]
  simp only [decodeAmo, Fields.r_top, Fields.r_b, Fields.r_a, Fields.r_d, part6_2_2_high, part6_2_2_mid, part6_2_2_low]
  rfl
theorem amoord (d a b : BitVec 5) (order : BitVec 2) : Statement (.amoord d a b order) := by
  intro h
  simp only [encode, decode, Fields.ofWord_pack, fieldsOf]
  rw [decode_maj70 _ rfl]
  simp only [decodeAmo, Fields.r_top, Fields.r_b, Fields.r_a, Fields.r_d, part6_2_2_high, part6_2_2_mid, part6_2_2_low]
  rfl
theorem amoxorw (d a b : BitVec 5) (order : BitVec 2) : Statement (.amoxorw d a b order) := by
  intro h
  simp only [encode, decode, Fields.ofWord_pack, fieldsOf]
  rw [decode_maj70 _ rfl]
  simp only [decodeAmo, Fields.r_top, Fields.r_b, Fields.r_a, Fields.r_d, part6_2_2_high, part6_2_2_mid, part6_2_2_low]
  rfl
theorem amoxord (d a b : BitVec 5) (order : BitVec 2) : Statement (.amoxord d a b order) := by
  intro h
  simp only [encode, decode, Fields.ofWord_pack, fieldsOf]
  rw [decode_maj70 _ rfl]
  simp only [decodeAmo, Fields.r_top, Fields.r_b, Fields.r_a, Fields.r_d, part6_2_2_high, part6_2_2_mid, part6_2_2_low]
  rfl
theorem amominw (d a b : BitVec 5) (order : BitVec 2) : Statement (.amominw d a b order) := by
  intro h
  simp only [encode, decode, Fields.ofWord_pack, fieldsOf]
  rw [decode_maj70 _ rfl]
  simp only [decodeAmo, Fields.r_top, Fields.r_b, Fields.r_a, Fields.r_d, part6_2_2_high, part6_2_2_mid, part6_2_2_low]
  rfl
theorem amomind (d a b : BitVec 5) (order : BitVec 2) : Statement (.amomind d a b order) := by
  intro h
  simp only [encode, decode, Fields.ofWord_pack, fieldsOf]
  rw [decode_maj70 _ rfl]
  simp only [decodeAmo, Fields.r_top, Fields.r_b, Fields.r_a, Fields.r_d, part6_2_2_high, part6_2_2_mid, part6_2_2_low]
  rfl
theorem amomaxw (d a b : BitVec 5) (order : BitVec 2) : Statement (.amomaxw d a b order) := by
  intro h
  simp only [encode, decode, Fields.ofWord_pack, fieldsOf]
  rw [decode_maj70 _ rfl]
  simp only [decodeAmo, Fields.r_top, Fields.r_b, Fields.r_a, Fields.r_d, part6_2_2_high, part6_2_2_mid, part6_2_2_low]
  rfl
theorem amomaxd (d a b : BitVec 5) (order : BitVec 2) : Statement (.amomaxd d a b order) := by
  intro h
  simp only [encode, decode, Fields.ofWord_pack, fieldsOf]
  rw [decode_maj70 _ rfl]
  simp only [decodeAmo, Fields.r_top, Fields.r_b, Fields.r_a, Fields.r_d, part6_2_2_high, part6_2_2_mid, part6_2_2_low]
  rfl
theorem amominnw (d a b : BitVec 5) (order : BitVec 2) : Statement (.amominnw d a b order) := by
  intro h
  simp only [encode, decode, Fields.ofWord_pack, fieldsOf]
  rw [decode_maj70 _ rfl]
  simp only [decodeAmo, Fields.r_top, Fields.r_b, Fields.r_a, Fields.r_d, part6_2_2_high, part6_2_2_mid, part6_2_2_low]
  rfl
theorem amominnd (d a b : BitVec 5) (order : BitVec 2) : Statement (.amominnd d a b order) := by
  intro h
  simp only [encode, decode, Fields.ofWord_pack, fieldsOf]
  rw [decode_maj70 _ rfl]
  simp only [decodeAmo, Fields.r_top, Fields.r_b, Fields.r_a, Fields.r_d, part6_2_2_high, part6_2_2_mid, part6_2_2_low]
  rfl
theorem amomaxnw (d a b : BitVec 5) (order : BitVec 2) : Statement (.amomaxnw d a b order) := by
  intro h
  simp only [encode, decode, Fields.ofWord_pack, fieldsOf]
  rw [decode_maj70 _ rfl]
  simp only [decodeAmo, Fields.r_top, Fields.r_b, Fields.r_a, Fields.r_d, part6_2_2_high, part6_2_2_mid, part6_2_2_low]
  rfl
theorem amomaxnd (d a b : BitVec 5) (order : BitVec 2) : Statement (.amomaxnd d a b order) := by
  intro h
  simp only [encode, decode, Fields.ofWord_pack, fieldsOf]
  rw [decode_maj70 _ rfl]
  simp only [decodeAmo, Fields.r_top, Fields.r_b, Fields.r_a, Fields.r_d, part6_2_2_high, part6_2_2_mid, part6_2_2_low]
  rfl
theorem amocasw (d a b : BitVec 5) (order : BitVec 2) : Statement (.amocasw d a b order) := by
  intro h
  simp only [encode, decode, Fields.ofWord_pack, fieldsOf]
  rw [decode_maj70 _ rfl]
  simp only [decodeAmo, Fields.r_top, Fields.r_b, Fields.r_a, Fields.r_d, part6_2_2_high, part6_2_2_mid, part6_2_2_low]
  rfl
theorem amocasd (d a b : BitVec 5) (order : BitVec 2) : Statement (.amocasd d a b order) := by
  intro h
  simp only [encode, decode, Fields.ofWord_pack, fieldsOf]
  rw [decode_maj70 _ rfl]
  simp only [decodeAmo, Fields.r_top, Fields.r_b, Fields.r_a, Fields.r_d, part6_2_2_high, part6_2_2_mid, part6_2_2_low]
  rfl
theorem nma (d a b : BitVec 5) (nest : BitVec 3) (e : EMod) : Statement (.nma d a b nest e) := by
  intro h
  simp only [encode, decode, Fields.ofWord_pack, fieldsOf]
  rw [decode_maj71 _ rfl]
  simp_all [need, needLone, Instr.wf]
theorem fence (scope : Scope) : Statement (.fence scope) := by
  intro h
  simp only [encode, decode, Fields.ofWord_pack, fieldsOf]
  rw [decode_maj72 _ rfl]
  simp_all [decodeSync, need, needLone, Instr.wf]
theorem nmfence : Statement (.nmfence) := by
  intro h
  simp only [encode, decode, Fields.ofWord_pack, fieldsOf]
  rw [decode_maj72 _ rfl]
  simp_all [decodeSync, need, needLone, Instr.wf]
theorem bar (a : BitVec 5) : Statement (.bar a) := by
  intro h
  simp only [encode, decode, Fields.ofWord_pack, fieldsOf]
  rw [decode_maj72 _ rfl]
  simp_all [decodeSync, need, needLone, Instr.wf]
theorem barexp (a b : BitVec 5) : Statement (.barexp a b) := by
  intro h
  simp only [encode, decode, Fields.ofWord_pack, fieldsOf]
  rw [decode_maj72 _ rfl]
  simp_all [decodeSync, need, needLone, Instr.wf]
theorem itpost (a : BitVec 5) : Statement (.itpost a) := by
  intro h
  simp only [encode, decode, Fields.ofWord_pack, fieldsOf]
  rw [decode_maj72 _ rfl]
  simp_all [decodeSync, need, needLone, Instr.wf]
theorem itwait (a : BitVec 5) : Statement (.itwait a) := by
  intro h
  simp only [encode, decode, Fields.ofWord_pack, fieldsOf]
  rw [decode_maj72 _ rfl]
  simp_all [decodeSync, need, needLone, Instr.wf]
theorem pwait (a b : BitVec 5) : Statement (.pwait a b) := by
  intro h
  simp only [encode, decode, Fields.ofWord_pack, fieldsOf]
  rw [decode_maj72 _ rfl]
  simp_all [decodeSync, need, needLone, Instr.wf]
theorem tkpush (k : BitVec 3) : Statement (.tkpush k) := by
  intro h
  simp only [encode, decode, Fields.ofWord_pack, fieldsOf]
  rw [decode_maj72 _ rfl]
  simp_all [decodeSync, need, needLone, Instr.wf]
theorem tkpop (k : BitVec 3) : Statement (.tkpop k) := by
  intro h
  simp only [encode, decode, Fields.ofWord_pack, fieldsOf]
  rw [decode_maj72 _ rfl]
  simp_all [decodeSync, need, needLone, Instr.wf]
theorem tkcnt (d : BitVec 5) (k : BitVec 3) : Statement (.tkcnt d k) := by
  intro h
  simp only [encode, decode, Fields.ofWord_pack, fieldsOf]
  rw [decode_maj72 _ rfl]
  simp_all [decodeSync, need, needLone, Instr.wf]
theorem syscall : Statement (.syscall) := by
  intro h
  simp only [encode, decode, Fields.ofWord_pack, fieldsOf]
  rw [decode_maj73 _ rfl]
  simp_all [decodeSysCall, decodeSys, need, needLone, Instr.wf]
theorem brk : Statement (.brk) := by
  intro h
  simp only [encode, decode, Fields.ofWord_pack, fieldsOf]
  rw [decode_maj73 _ rfl]
  simp_all [decodeSysCall, decodeSys, need, needLone, Instr.wf]
theorem eret : Statement (.eret) := by
  intro h
  simp only [encode, decode, Fields.ofWord_pack, fieldsOf]
  rw [decode_maj73 _ rfl]
  simp_all [decodeSysCall, decodeSys, need, needLone, Instr.wf]
theorem wfe : Statement (.wfe) := by
  intro h
  simp only [encode, decode, Fields.ofWord_pack, fieldsOf]
  rw [decode_maj73 _ rfl]
  simp_all [decodeSysCall, decodeSys, need, needLone, Instr.wf]
theorem yield : Statement (.yield) := by
  intro h
  simp only [encode, decode, Fields.ofWord_pack, fieldsOf]
  rw [decode_maj73 _ rfl]
  simp_all [decodeSysCall, decodeSys, need, needLone, Instr.wf]
theorem texit : Statement (.texit) := by
  intro h
  simp only [encode, decode, Fields.ofWord_pack, fieldsOf]
  rw [decode_maj73 _ rfl]
  simp_all [decodeSysCall, decodeSys, need, needLone, Instr.wf]
theorem feat (d : BitVec 5) (bit : BitVec 6) : Statement (.feat d bit) := by
  intro h
  simp only [encode, decode, Fields.ofWord_pack, fieldsOf]
  rw [decode_maj73 _ rfl]
  simp_all [decodeSys, need, needLone, Instr.wf]
theorem launch (d a : BitVec 5) : Statement (.launch d a) := by
  intro h
  simp only [encode, decode, Fields.ofWord_pack, fieldsOf]
  rw [decode_maj73 _ rfl]
  simp_all [decodeSys, need, needLone, Instr.wf]
theorem csrrw (d : BitVec 5) (csr : BitVec 12) (a : BitVec 5) : Statement (.csrrw d csr a) := by
  intro h
  simp only [encode, decode, Fields.ofWord_pack, fieldsOf]
  rw [decode_maj74 _ rfl]
  simp_all [decodeCsr, need, needLone, Instr.wf]
theorem csrrs (d : BitVec 5) (csr : BitVec 12) (a : BitVec 5) : Statement (.csrrs d csr a) := by
  intro h
  simp only [encode, decode, Fields.ofWord_pack, fieldsOf]
  rw [decode_maj74 _ rfl]
  simp_all [decodeCsr, need, needLone, Instr.wf]
theorem csrrc (d : BitVec 5) (csr : BitVec 12) (a : BitVec 5) : Statement (.csrrc d csr a) := by
  intro h
  simp only [encode, decode, Fields.ofWord_pack, fieldsOf]
  rw [decode_maj74 _ rfl]
  simp_all [decodeCsr, need, needLone, Instr.wf]
theorem csrrwi (d : BitVec 5) (csr : BitVec 12) (u : BitVec 5) : Statement (.csrrwi d csr u) := by
  intro h
  simp only [encode, decode, Fields.ofWord_pack, fieldsOf]
  rw [decode_maj74 _ rfl]
  simp_all [decodeCsr, need, needLone, Instr.wf]
theorem csrrsi (d : BitVec 5) (csr : BitVec 12) (u : BitVec 5) : Statement (.csrrsi d csr u) := by
  intro h
  simp only [encode, decode, Fields.ofWord_pack, fieldsOf]
  rw [decode_maj74 _ rfl]
  simp_all [decodeCsr, need, needLone, Instr.wf]
theorem csrrci (d : BitVec 5) (csr : BitVec 12) (u : BitVec 5) : Statement (.csrrci d csr u) := by
  intro h
  simp only [encode, decode, Fields.ofWord_pack, fieldsOf]
  rw [decode_maj74 _ rfl]
  simp_all [decodeCsr, need, needLone, Instr.wf]
theorem tlbinvVa (a b : BitVec 5) : Statement (.tlbinvVa a b) := by
  intro h
  simp only [encode, decode, Fields.ofWord_pack, fieldsOf]
  rw [decode_maj75 _ rfl]
  simp_all [decodePriv, need, needLone, Instr.wf]
theorem tlbinvAsid (a : BitVec 5) : Statement (.tlbinvAsid a) := by
  intro h
  simp only [encode, decode, Fields.ofWord_pack, fieldsOf]
  rw [decode_maj75 _ rfl]
  simp_all [decodePriv, need, needLone, Instr.wf]
theorem tlbinvAll : Statement (.tlbinvAll) := by
  intro h
  simp only [encode, decode, Fields.ofWord_pack, fieldsOf]
  rw [decode_maj75 _ rfl]
  simp_all [decodePriv, need, needLone, Instr.wf]
theorem ctxsave (a : BitVec 5) : Statement (.ctxsave a) := by
  intro h
  simp only [encode, decode, Fields.ofWord_pack, fieldsOf]
  rw [decode_maj75 _ rfl]
  simp_all [decodePriv, need, needLone, Instr.wf]
theorem ctxrest (a : BitVec 5) : Statement (.ctxrest a) := by
  intro h
  simp only [encode, decode, Fields.ofWord_pack, fieldsOf]
  rw [decode_maj75 _ rfl]
  simp_all [decodePriv, need, needLone, Instr.wf]
theorem joinTTimeout : Statement (.joinTTimeout) := by
  intro h; cases h
theorem holdEnd : Statement (.holdEnd) := by
  intro h; cases h
theorem shed : Statement (.shed) := by
  intro h; cases h
theorem icinvPerform : Statement (.icinvPerform) := by
  intro h; cases h
theorem convoyIssue : Statement (.convoyIssue) := by
  intro h; cases h
theorem configurationEntry : Statement (.configurationEntry) := by
  intro h; cases h
theorem vectorWindow (k : Nat) : Statement (.vectorWindow k) := by
  intro h; cases h
theorem replayQueueReissue (key : Nat) : Statement (.replayQueueReissue key) := by
  intro h; cases h
theorem queueDeadlock : Statement (.queueDeadlock) := by
  intro h; cases h
theorem tokenDeadlock : Statement (.tokenDeadlock) := by
  intro h; cases h
theorem trapEntry : Statement (.trapEntry) := by
  intro h; cases h
theorem interruptEntry : Statement (.interruptEntry) := by
  intro h; cases h
theorem cycleCompare : Statement (.cycleCompare) := by
  intro h; cases h
theorem doorbell (hart : Nat) : Statement (.doorbell hart) := by
  intro h; cases h
theorem preemptionRequest (hart : Nat) : Statement (.preemptionRequest hart) := by
  intro h; cases h
theorem hardwareSave (hart : Nat) : Statement (.hardwareSave hart) := by
  intro h; cases h
theorem lookupCommandStart : Statement (.lookupCommandStart) := by
  intro h; cases h
theorem accumulatorCommandBegin (core : Nat) : Statement (.accumulatorCommandBegin core) := by
  intro h; cases h
theorem lookupStep (core : Nat) : Statement (.lookupStep core) := by
  intro h; cases h
theorem checkVerdict (core : Nat) : Statement (.checkVerdict core) := by
  intro h; cases h
theorem secondReplay (core : Nat) : Statement (.secondReplay core) := by
  intro h; cases h
theorem lookupCommandRetire (hart : Nat) (k : Nat) : Statement (.lookupCommandRetire hart k) := by
  intro h; cases h
theorem tableBuild (stack : Nat) (core : Nat) : Statement (.tableBuild stack core) := by
  intro h; cases h
theorem tablePress (stack : Nat) : Statement (.tablePress stack) := by
  intro h; cases h
theorem refresh (stack : Nat) (slice : Nat) (bank : Nat) : Statement (.refresh stack slice bank) := by
  intro h; cases h
theorem temperatureSample (stack : Nat) (temps : List Nat) : Statement (.temperatureSample stack temps) := by
  intro h; cases h
theorem supervisorCommand (stack : Nat) : Statement (.supervisorCommand stack) := by
  intro h; cases h
theorem apertureStore (stack : Nat) (slice : Nat) (row : Nat) (off : Nat) (n : Nat) (x : Nat) : Statement (.apertureStore stack slice row off n x) := by
  intro h; cases h
theorem transferCommandStart : Statement (.transferCommandStart) := by
  intro h; cases h
theorem transferCommandRetire (hart : Nat) : Statement (.transferCommandRetire hart) := by
  intro h; cases h
theorem pendingBytesSubtract (k : Nat) : Statement (.pendingBytesSubtract k) := by
  intro h; cases h
theorem trainArrival (hart : Nat) (elems : List (Nat × Nat)) (op : Nat) (w : Nat) (fmt : BitVec 4) : Statement (.trainArrival hart elems op w fmt) := by
  intro h; cases h
theorem trainAcknowledgement (hart : Nat) (pkg : Nat) (cond : Nat) (dropped : List Nat) : Statement (.trainAcknowledgement hart pkg cond dropped) := by
  intro h; cases h
theorem sendArrival (k : Nat) (window : Nat) (tag : Nat) (off : Nat) (l : List Nat) : Statement (.sendArrival k window tag off l) := by
  intro h; cases h
theorem sendAcknowledgement (k : Nat) (cond : Nat) : Statement (.sendAcknowledgement k cond) := by
  intro h; cases h
theorem nmxAccept (hart : Nat) : Statement (.nmxAccept hart) := by
  intro h; cases h
theorem bankOperation : Statement (.bankOperation) := by
  intro h; cases h
theorem nmaElement : Statement (.nmaElement) := by
  intro h; cases h
theorem returnFreePerformed : Statement (.returnFreePerformed) := by
  intro h; cases h
theorem barrierPhaseComplete (launch : Nat) (id : Nat) : Statement (.barrierPhaseComplete launch id) := by
  intro h; cases h
theorem progressWordResend : Statement (.progressWordResend) := by
  intro h; cases h
theorem launchMessage (peer : Nat) (l : List Nat) : Statement (.launchMessage peer l) := by
  intro h; cases h
theorem launchAccept : Statement (.launchAccept) := by
  intro h; cases h
theorem launchReady (n : Nat) : Statement (.launchReady n) := by
  intro h; cases h
theorem blockRequest : Statement (.blockRequest) := by
  intro h; cases h
theorem taskPlacement (die : Nat) : Statement (.taskPlacement die) := by
  intro h; cases h
theorem contextResume (hart : Nat) : Statement (.contextResume hart) := by
  intro h; cases h
theorem completionRecordWrite (n : Nat) : Statement (.completionRecordWrite n) := by
  intro h; cases h
theorem completionIdWrite (n : Nat) : Statement (.completionIdWrite n) := by
  intro h; cases h
theorem launchCancel (n : Nat) : Statement (.launchCancel n) := by
  intro h; cases h
theorem dieFence (die : Nat) : Statement (.dieFence die) := by
  intro h; cases h
theorem masterElection : Statement (.masterElection) := by
  intro h; cases h
theorem wearInterval (core : Nat) (stress : Nat) (mon : Nat) : Statement (.wearInterval core stress mon) := by
  intro h; cases h
theorem ripeningReplication (core : Nat) : Statement (.ripeningReplication core) := by
  intro h; cases h
theorem lastingFault (core : Nat) : Statement (.lastingFault core) := by
  intro h; cases h
theorem laneRetirement (core : Nat) (lane : Nat) : Statement (.laneRetirement core lane) := by
  intro h; cases h
theorem powerCeilingStep (die : Nat) (up : Bool) : Statement (.powerCeilingStep die up) := by
  intro h; cases h
theorem agreement (k : Nat) (outside : Nat) : Statement (.agreement k outside) := by
  intro h; cases h
theorem agreementReply (k : Nat) (hart : Nat) (strip : Nat) : Statement (.agreementReply k hart strip) := by
  intro h; cases h
theorem pairArrival (k : Nat) (hart : Nat) : Statement (.pairArrival k hart) := by
  intro h; cases h
theorem rdmaWrite (qp : Nat) (asid : Nat) (session : Nat) (va : Nat) (l : List Nat) : Statement (.rdmaWrite qp asid session va l) := by
  intro h; cases h
theorem managementRead (peer : Nat) (l : List Nat) : Statement (.managementRead peer l) := by
  intro h; cases h
theorem managementWrite (peer : Nat) (l : List Nat) : Statement (.managementWrite peer l) := by
  intro h; cases h
theorem firmwareImageChunk (peer : Nat) (l : List Nat) (last : Bool) : Statement (.firmwareImageChunk peer l last) := by
  intro h; cases h
theorem attestationRequest (peer : Nat) (l : List Nat) : Statement (.attestationRequest peer l) := by
  intro h; cases h
theorem acknowledgement (peer : Nat) (l : List Nat) : Statement (.acknowledgement peer l) := by
  intro h; cases h
theorem sessionOpen (peer : Nat) (l : List Nat) : Statement (.sessionOpen peer l) := by
  intro h; cases h
theorem messageRetransmit (session : Nat) (k : Nat) : Statement (.messageRetransmit session k) := by
  intro h; cases h
theorem routeUpdate (pkg : Nat) (l : List Nat) (cost : Nat) : Statement (.routeUpdate pkg l cost) := by
  intro h; cases h
theorem packetRetransmit (pkg : Nat) : Statement (.packetRetransmit pkg) := by
  intro h; cases h
theorem destinationUnreachable (pkg : Nat) : Statement (.destinationUnreachable pkg) := by
  intro h; cases h
theorem linkDegrade (port : Nat) : Statement (.linkDegrade port) := by
  intro h; cases h
theorem linkFailure (port : Nat) : Statement (.linkFailure port) := by
  intro h; cases h
theorem cxlLinkDown (port : Nat) : Statement (.cxlLinkDown port) := by
  intro h; cases h
theorem halt (hart : Nat) : Statement (.halt hart) := by
  intro h; cases h
theorem resume (hart : Nat) : Statement (.resume hart) := by
  intro h; cases h
theorem recordRemoval (die : Nat) (index : Nat) : Statement (.recordRemoval die index) := by
  intro h; cases h
theorem contextImageWrite (hart : Nat) (off : Nat) (l : List Nat) : Statement (.contextImageWrite hart off l) := by
  intro h; cases h
theorem frqack (index : Nat) : Statement (.frqack index) := by
  intro h; cases h
theorem lkerrClear : Statement (.lkerrClear) := by
  intro h; cases h
theorem xerrClear : Statement (.xerrClear) := by
  intro h; cases h
theorem asidWrite (asid : BitVec 9) (root : BitVec 64) : Statement (.asidWrite asid root) := by
  intro h; cases h
theorem registerWrite (csr : Nat) (x : BitVec 64) : Statement (.registerWrite csr x) := by
  intro h; cases h
theorem powerOnBoot (image : List Nat) (params : List Nat) (cxl : List Nat) : Statement (.powerOnBoot image params cxl) := by
  intro h; cases h
theorem supplyLossWarning (vstby : Bool) : Statement (.supplyLossWarning vstby) := by
  intro h; cases h
theorem junctionThrottle (die : Nat) (temp : Nat) : Statement (.junctionThrottle die temp) := by
  intro h; cases h
theorem emergencySave (die : Nat) : Statement (.emergencySave die) := by
  intro h; cases h
theorem hardTrip (vstby : Bool) : Statement (.hardTrip vstby) := by
  intro h; cases h
theorem droop (die : Nat) : Statement (.droop die) := by
  intro h; cases h
theorem droopRecovery (die : Nat) : Statement (.droopRecovery die) := by
  intro h; cases h
theorem pllHop (die : Nat) : Statement (.pllHop die) := by
  intro h; cases h
theorem elementGroupIssue (k : Nat) : Statement (.elementGroupIssue k) := by
  intro h; cases h
theorem tableCommandApply (stack : Nat) (core : Nat) : Statement (.tableCommandApply stack core) := by
  intro h; cases h
theorem remoteAccess (op : Nat) (key : Nat) (n : Nat) (x : Nat) (c : Nat) : Statement (.remoteAccess op key n x c) := by
  intro h; cases h
theorem l2Eviction (key : Nat) : Statement (.l2Eviction key) := by
  intro h; cases h
theorem tlbEntryDrop (place : Nat) (n : Nat) (k : Nat) : Statement (.tlbEntryDrop place n k) := by
  intro h; cases h
theorem instructionLineEviction (cluster : Nat) (line : Nat) : Statement (.instructionLineEviction cluster line) := by
  intro h; cases h
theorem stackFence (unit : Nat) (n : Nat) (slice : Nat) : Statement (.stackFence unit n slice) := by
  intro h; cases h
theorem priorityFlowControlFrame (mask : Nat) (pause : Bool) : Statement (.priorityFlowControlFrame mask pause) := by
  intro h; cases h
theorem congestionNotification (qp : Nat) : Statement (.congestionNotification qp) := by
  intro h; cases h
theorem queuePairError (qp : Nat) : Statement (.queuePairError qp) := by
  intro h; cases h

end Sys2Proof.Laws.RoundTrip
end

