-- ==== Sys2Proof/Laws/Vector.lean ====
section
/-! SUPPORT. Every vector instruction hands the operation of its word to the vector unit. -/

set_option Elab.async false

namespace Sys2Proof.Machine

/-- A word of a major that is no vector one holds no vector operation. -/
theorem vopOf_none (f : Fields) (h : (vopTable.any fun e => e.1 = f.maj.toNat) = false) : vopOf f = none := by
  unfold vopOf
  have : vopTable.find? (·.1 = f.maj.toNat) = none := by
    rw [List.find?_eq_none]
    intro x hx
    simpa using (List.any_eq_false.1 h) x hx
  rw [this]

theorem append_1_4 : ∀ x : BitVec 4, (0#1 ++ x : BitVec 5) = x.setWidth 5 := by decide
theorem append_3_2 : ∀ x : BitVec 2, (0#3 ++ x : BitVec 5) = x.setWidth 5 := by decide
theorem append_1_2 : ∀ x : BitVec 2, (0#1 ++ x : BitVec 3) = x.setWidth 3 := by decide
theorem append_2_3 : ∀ x : BitVec 3, (0#2 ++ x : BitVec 5) = x.setWidth 5 := by decide
theorem append_sat : ∀ x : BitVec 2, (1#3 ++ x : BitVec 5) = 4#5 ||| x.setWidth 5 := by decide

set_option maxHeartbeats 8000000 in
/-- An instruction whose word holds a vector operation executes as that operation. -/
theorem exec_vector (i : Instr) (s : State) (o : VOp) (h : vopOf (fieldsOf i) = some o) :
    exec i s = .next (s.vector o) := by
  cases i
  all_goals
    first
    | (rw [vopOf_none _ (by rfl)] at h; cases h)
    | (simp [vopOf, fieldsOf, vopTable, append_1_4, append_3_2, append_1_2, append_2_3, append_sat] at h
       obtain ⟨_, rfl⟩ := h
       rfl)

end Sys2Proof.Machine
end

