-- ==== Sys2Proof/Tests/Witness.lean ====
section
/-! SUPPORT. For every statement with hypotheses a theorem `wit_…` that names states and operands which meet them, one for
each of its clauses, at the edges of their ranges. -/

set_option maxRecDepth 20000
set_option Elab.async false

namespace Sys2Proof.Tests
open Sys2Proof Sys2Proof.Machine

/-- The state after reset with some registers of the acting level set. -/
def regs (l : List (Nat × Nat)) : State :=
  l.foldl (fun s e => s.setG (BitVec.ofNat 5 e.1) (BitVec.ofNat 64 e.2)) State.reset

/-! ### Scalar arithmetic -/

theorem wit_BitCountResults :
    (∃ s : State, s.g 1 = 0) ∧
    (∃ s : State, (s.g 1).getLsbD 0 = true ∧ ∀ m, 0 < m → (s.g 1).getLsbD m = false) ∧
    (∃ s : State, (s.g 1).getLsbD 63 = true ∧ (∀ m, 63 < m → (s.g 1).getLsbD m = false) ∧ ∀ m, m < 63 → (s.g 1).getLsbD m = false) ∧
    (∃ s : State, (s.g 1).getLsbD 0 = true ∧ ∀ m, m < 0 → (s.g 1).getLsbD m = false) := by
  have h1 : (regs [(1, 1)]).g 1 = 1#64 := by decide +kernel
  have h2 : (regs [(1, 2 ^ 63)]).g 1 = BitVec.twoPow 64 63 := by decide +kernel
  refine ⟨⟨State.reset, by decide +kernel⟩, ⟨regs [(1, 1)], ?_⟩, ⟨regs [(1, 2 ^ 63)], ?_⟩, ⟨regs [(1, 1)], by decide +kernel, by omega⟩⟩
  · rw [h1]; exact ⟨rfl, fun m hm => by simp [BitVec.getLsbD_one]; omega⟩
  · rw [h2]; exact ⟨by simp, fun m hm => by simp; omega, fun m hm => by simp; omega⟩

theorem wit_DivisionBoundaryCases :
    (∃ s : State, s.g 1 = BitVec.intMin 64 ∧ s.g 2 = BitVec.allOnes 64) ∧
    (∃ fn gn : BitVec 10, ∃ b : BitVec 5, fn.toNat = 23 ∧ gn.toNat = 26 ∧ b ≠ 0) :=
  ⟨⟨regs [(1, 2 ^ 63), (2, 2 ^ 64 - 1)], by decide +kernel⟩, 23, 26, 1, by decide⟩

theorem wit_RegisterZeroHardwired : ∃ r : BitVec 5, r ≠ 0 := ⟨1, by decide⟩

/-! ### Scalar floating point -/

/-- Registers 1 and 2 hold two f64 values. -/
def floats (x y : Nat) : State := regs [(1, x), (2, y)]

theorem wit_InvalidFloatOperations :
    (∃ s : State, s.fval .f64 1 = .inf false ∧ s.fval .f64 2 = .inf true) ∧
    (∃ s : State, s.fval .f64 1 = .inf true ∧ s.fval .f64 2 = .inf true) ∧
    (∃ s : State, ∃ e, s.fval .f64 1 = .fin false 0 e ∧ s.fval .f64 2 = .inf false) ∧
    (∃ s : State, ∃ e, s.fval .f64 1 = .inf true ∧ s.fval .f64 2 = .fin true 0 e) ∧
    (∃ s : State, ∃ e i, s.fval .f64 1 = .fin true 0 e ∧ s.fval .f64 2 = .fin false 0 i) ∧
    (∃ s : State, ∃ v e, s.fval .f64 1 = .fin true v e ∧ 0 < v) ∧
    (∃ s : State, ∃ v e i, s.fval .f64 1 = .fin false v e ∧ 0 < v ∧ s.fval .f64 2 = .fin true 0 i) ∧
    (∃ s : State, s.fval .f64 1 = .nan) ∧ (∃ s : State, s.fval .f64 2 = .nan) :=
  ⟨⟨floats 0x7FF0000000000000 0xFFF0000000000000, by decide +kernel⟩,
   ⟨floats 0xFFF0000000000000 0xFFF0000000000000, by decide +kernel⟩,
   ⟨floats 0 0x7FF0000000000000, -1074, by decide +kernel⟩,
   ⟨floats 0xFFF0000000000000 0x8000000000000000, -1074, by decide +kernel⟩,
   ⟨floats 0x8000000000000000 0, -1074, -1074, by decide +kernel⟩,
   ⟨floats 0x8000000000000001 0, 1, -1074, by decide +kernel⟩,
   ⟨floats 0x3FF0000000000000 0x8000000000000000, 2 ^ 52, -52, -1074, by decide +kernel⟩,
   ⟨floats 0x7FF8000000000000 0, by decide +kernel⟩,
   ⟨floats 0 0x7FF0000000000001, by decide +kernel⟩⟩

theorem wit_SinglePrecisionBoxing :
    ∃ (s t : State) (a b : BitVec 5), s.g a ≠ t.g b ∧ (s.g a).extractLsb' 0 32 = (t.g b).extractLsb' 0 32 :=
  ⟨regs [(1, 0x3F800000)], regs [(2, 0xFFFFFFFF3F800000)], 1, 2, by decide +kernel⟩

/-! ### Queues and tokens -/

/-- Queue 2 holds n entries. -/
def queued (n : Nat) : State := State.reset.updMe fun h => h.setQueue 2 (List.replicate n 7)
/-- Channel 5 holds n tokens and m reserved places. -/
def tokened (n m : Nat) : State := State.reset.updMe fun h => h.setTokens 5 { count := n, reserved := m }

theorem wit_QueueResults :
    (∃ s : State, (s.me.queue 2).length = 15 ∧ (fileGet (w := 3) 2 s.me.debt).at s.me.level = 0) ∧
    (∃ s : State, (s.me.queue 2).length = 15 ∧ 0 < (fileGet (w := 3) 2 s.me.debt).at s.me.level) ∧ (∃ s : State, (s.me.queue 2).length = 16) ∧
    (∃ s : State, ∃ x, s.me.queue 2 = [x]) ∧ ∃ s : State, s.me.queue 2 = [] :=
  ⟨⟨queued 15, by decide +kernel⟩,
   ⟨(queued 15).updMe fun h => { h with debt := fileSet (w := 3) 2 h.debt { user := 1, sup := 1 } }, by decide +kernel⟩, ⟨queued 16, by decide +kernel⟩, ⟨queued 1, 7, by decide +kernel⟩, State.reset, by decide +kernel⟩

theorem wit_TokenResults :
    (∃ s : State, (s.me.tokens 5).count + (s.me.tokens 5).reserved = 7 ∧ 0 < (s.me.tokens 5).reserved ∧ (s.me.tokens 5).owed.at s.me.level = 0) ∧
    (∃ s : State, (s.me.tokens 5).count + (s.me.tokens 5).reserved = 7 ∧ 0 < (s.me.tokens 5).owed.at s.me.level) ∧
    (∃ s : State, (s.me.tokens 5).count + (s.me.tokens 5).reserved = 8) ∧
    (∃ s : State, (s.me.tokens 5).count = 1) ∧ ∃ s : State, (s.me.tokens 5).count = 0 :=
  ⟨⟨tokened 6 1, by decide +kernel⟩,
   ⟨State.reset.updMe fun h => h.setTokens 5 { count := 6, reserved := 1, owed := { user := 1, sup := 1 } }, by decide +kernel⟩, ⟨tokened 6 2, by decide +kernel⟩, ⟨tokened 1 0, by decide +kernel⟩,
   State.reset, by decide +kernel⟩

/-! ### Scalar memory -/

/-- A hart whose tables map the first GiB of the package with every permission, and its registers. -/
def mapped (l : List (Nat × Nat)) : State :=
  { (l.foldl (fun s e => s.setG (BitVec.ofNat 5 e.1) (BitVec.ofNat 64 e.2)) (State.reset.place 0)) with agenda := [] }

/-- `State.Reaches` as a test. -/
def reachesB (s : State) (k : Kind) (va : Word) (n key : Nat) : Bool :=
  va.toNat % n == 0 && match s.xlate k va with
    | .ok (q, x) => q == key && !s.lacksRemote x
    | .error _ => false

theorem reaches_of {s : State} {k : Kind} {va : Word} {n key : Nat} (h : reachesB s k va n key = true) :
    s.Reaches k va n key := by
  unfold reachesB at h
  simp only [Bool.and_eq_true, beq_iff_eq] at h
  refine ⟨h.1, ?_⟩
  have h2 := h.2
  split at h2
  · rename_i q x hx
    simp only [Bool.and_eq_true, beq_iff_eq, Bool.not_eq_true'] at h2
    exact ⟨x, by rw [hx, h2.1], h2.2⟩
  · cases h2

/-- The last eight mapped bytes of the region, and a register that addresses them. -/
def atTop : State := mapped [(1, 2 ^ 30 - 8), (3, 2 ^ 30 - 1)]

theorem wit_LoadResults :
    (∃ key, atTop.Readable .load (atTop.g 1 + (0 : BitVec 12).signExtend 64) 8 key) ∧
    (∃ key, atTop.Readable .load (atTop.g 1 + (7 : BitVec 12).signExtend 64) 1 key) ∧
    (∃ key, (mapped [(1, 0x20000)]).Readable .load ((mapped [(1, 0x20000)]).g 1) 4 key) :=
  ⟨⟨2 ^ 30 - 8, reaches_of (by decide +kernel), by decide +kernel⟩,
   ⟨2 ^ 30 - 1, reaches_of (by decide +kernel), by decide +kernel⟩,
   0x20000, reaches_of (by decide +kernel), by decide +kernel⟩

theorem wit_StoreResults :
    Memory.wf atTop.mem = true ∧ atTop.me.StoresInOrder ∧
    (∃ key, atTop.Reaches .store (atTop.g 1 + (0 : BitVec 12).signExtend 64) 8 key ∧ atTop.PlainAt key 8) ∧
    (∃ key, atTop.Reaches .store (atTop.g 1) 8 key ∧ atTop.PlainAt key 8 ∧ atTop.drained (Scope.domain.code).toNat = some atTop) ∧
    (∃ key, atTop.Reaches .store (atTop.g 3) 1 key ∧ atTop.PlainAt key 1 ∧ atTop.drained (Scope.hart.code).toNat = some atTop) :=
  ⟨by decide +kernel, .inr (by decide +kernel),
   ⟨2 ^ 30 - 8, reaches_of (by decide +kernel), by unfold State.PlainAt; decide +kernel⟩,
   ⟨2 ^ 30 - 8, reaches_of (by decide +kernel), by unfold State.PlainAt; decide +kernel, by decide +kernel⟩,
   2 ^ 30 - 1, reaches_of (by decide +kernel), by unfold State.PlainAt; decide +kernel, by decide +kernel⟩

/-- What `xlate` answers as an error, if it does. -/
def xlateErr (s : State) (k : Kind) (va : Word) : Option Cause :=
  match s.xlate k va with
  | .ok _ => none
  | .error c => some c

theorem xlateErr_of {s : State} {k : Kind} {va : Word} {c : Cause} (h : xlateErr s k va = some c) : s.xlate k va = .error c := by
  unfold xlateErr at h
  split at h
  · cases h
  · rename_i e he; cases h; exact he

/-- A mapped hart whose register 1 addresses the first byte beyond the mapped GiB. -/
def beyond : State := mapped [(1, 2 ^ 30)]

/-- A mapped hart with a byte of poisoned data behind the address in register 1. -/
def spoilt : State := { mapped [(1, 0x20000)] with poison := [{ key := 0x20007, bytes := 1, persist := true }] }

theorem wit_ScalarAccessTraps :
    (∃ s : State, (s.g 1 + (1 : BitVec 12).signExtend 64).toNat % 2 ≠ 0 ∧ s.drained 4 = some s ∧ s.me.csr.escope.toNat < 6 ∧
      s.me.speculative = false ∧ s.me.sb = []) ∧
    (∃ s : State, (s.g 1 + (0 : BitVec 12).signExtend 64).toNat % 8 ≠ 0 ∧ (s.g 1 + (0 : BitVec 12).signExtend 64).toNat % 4 = 0) ∧
    (∃ c : Cause, (beyond.g 1 + (0 : BitVec 12).signExtend 64).toNat % 128 = 0 ∧ c ≠ .featureAbsent ∧ c ≠ .poisonedData ∧
      beyond.drained 4 = some beyond ∧ beyond.me.csr.escope.toNat < 6 ∧ beyond.me.speculative = false ∧ beyond.me.sb = [] ∧
      beyond.xlate .load (beyond.g 1) = .error c ∧ beyond.xlate .store (beyond.g 1) = .error c ∧ beyond.xlate .both (beyond.g 1) = .error c) ∧
    (∃ key, spoilt.Reaches .load (spoilt.g 1) 8 key ∧ spoilt.poisonedAt key 8 = true ∧ spoilt.me.csr.escope.toNat < 6) ∧
    (∃ key, spoilt.Reaches .load (spoilt.g 1) 128 key ∧ spoilt.poisonedAt key 128 = true ∧ spoilt.drained 4 = some spoilt) ∧
    ∃ key, spoilt.Reaches .both (spoilt.g 1) 8 key ∧ spoilt.poisonedAt key 8 = true ∧ spoilt.me.speculative = false ∧ spoilt.me.sb = [] :=
  ⟨⟨regs [], by decide +kernel⟩, ⟨regs [(1, 4)], by decide +kernel⟩,
   ⟨.pageFault, by decide +kernel, by decide, by decide, by decide +kernel, by decide +kernel, by decide +kernel, by decide +kernel,
    xlateErr_of (by decide +kernel), xlateErr_of (by decide +kernel), xlateErr_of (by decide +kernel)⟩,
   ⟨0x20000, reaches_of (by decide +kernel), by decide +kernel, by decide +kernel⟩,
   ⟨0x20000, reaches_of (by decide +kernel), by decide +kernel, by decide +kernel⟩,
   0x20000, reaches_of (by decide +kernel), by decide +kernel, by decide +kernel, by decide +kernel⟩

/-- The error of a table walk at an address, if there is one. -/
def lookupErr (s : State) (va : Nat) : Option Cause :=
  match s.lookup (coreOf s.cur) s.core.tlb s.me.csr.asid s.me.csr.ptroot va with
  | .ok _ => none
  | .error c => some c

/-- The leaf that a table walk finds at an address, if it finds one. -/
def lookupLeaf (s : State) (va : Nat) : Option Word :=
  match s.lookup (coreOf s.cur) s.core.tlb s.me.csr.asid s.me.csr.ptroot va with
  | .ok x => some x.entry.leaf
  | .error _ => none

theorem lookupErr_of {s : State} {va : Nat} {c : Cause} (h : lookupErr s va = some c) :
    s.lookup (coreOf s.cur) s.core.tlb s.me.csr.asid s.me.csr.ptroot va = .error c := by
  unfold lookupErr at h
  split at h
  · cases h
  · rename_i e he; cases h; exact he

theorem lookupLeaf_of {s : State} {va : Nat} {l : Word} (h : lookupLeaf s va = some l) :
    ∃ x, s.lookup (coreOf s.cur) s.core.tlb s.me.csr.asid s.me.csr.ptroot va = .ok x ∧ x.entry.leaf = l := by
  unfold lookupLeaf at h
  split at h
  · rename_i x hx; cases h; exact ⟨x, hx, rfl⟩
  · cases h

/-- A mapped hart whose leaf has only the flags given. -/
def leafed (flags : Nat) : State := { mapped [(1, 0x20000)] with
  mem := memWrite (mapped [(1, 0x20000)]).mem 0x4000 8 flags }

theorem wit_TranslationFaults :
    (∃ (s : State) (va : Word) (c : Cause),
      s.lookup (coreOf s.cur) s.core.tlb s.me.csr.asid s.me.csr.ptroot va.toNat = .error c) ∧
    (∃ x, (leafed 0x3B).lookup (coreOf (leafed 0x3B).cur) (leafed 0x3B).core.tlb (leafed 0x3B).me.csr.asid
      (leafed 0x3B).me.csr.ptroot 0x20000 = .ok x ∧ x.entry.leaf = 0x3B) ∧
    (∃ x, (leafed 0x37).lookup (coreOf (leafed 0x37).cur) (leafed 0x37).core.tlb (leafed 0x37).me.csr.asid
      (leafed 0x37).me.csr.ptroot 0x20000 = .ok x ∧ x.entry.leaf = 0x37) ∧
    (leafed 0x1F).me.level = .user ∧
    (∃ x, (leafed 0x1F).lookup (coreOf (leafed 0x1F).cur) (leafed 0x1F).core.tlb (leafed 0x1F).me.csr.asid
      (leafed 0x1F).me.csr.ptroot 0x20000 = .ok x ∧ x.entry.leaf = 0x1F) ∧
    ((0x3B : Word).getLsbD 2 = false ∧ (0x37 : Word).getLsbD 3 = false ∧ (0x1F : Word).getLsbD 5 = false) :=
  ⟨⟨beyond, 0x40000000, .pageFault, lookupErr_of (by decide +kernel)⟩, lookupLeaf_of (by decide +kernel),
   lookupLeaf_of (by decide +kernel), by decide +kernel, lookupLeaf_of (by decide +kernel), by decide⟩

/-- The leaf at an address of a mapped hart whose leaf is the word given, at user level, with package 5 unreachable. -/
def leafAt (leaf : Nat) : Option Word := lookupLeaf { leafed leaf with pkg := { (leafed leaf).pkg with unreachable := [5] } } 0x20000

theorem wit_TranslationFaults_access :
    (∀ leaf ∈ [0x4000000007F, 0x7F, 0x8000000003F, 0x1200000003F, 0xA000000003F + 2 ^ 45 * 5], leafAt leaf = some (BitVec.ofNat 64 leaf)) ∧
    gpaPackage (0xA000000003F + 2 ^ 45 * 5) = 5 ∧
    (∃ p ∈ spoilt.poison, p.persist = true ∧ p.hits 0x20000 8 = true ∧ ∀ e ∈ spoilt.me.sb, p.covered e.key e.bytes = false) := by
  decide +kernel

/-- The answer of `xlate`, if it is no error. -/
def xlateOk (s : State) (k : Kind) (va : Word) : Option (Nat × Xlate) :=
  match s.xlate k va with
  | .ok x => some x
  | .error _ => none

theorem xlateOk_of {s : State} {k : Kind} {va : Word} (h : (xlateOk s k va).isSome = true) :
    ∃ key x, s.xlate k va = .ok (key, x) := by
  unfold xlateOk at h
  split at h
  · rename_i x hx; exact ⟨x.1, x.2, hx⟩
  · cases h

/-- A state at supervisor level. -/
def super (s : State) : State := s.updMe fun h => { h with level := .supervisor, sg := h.ug }

theorem wit_CacheInstructionResults :
    atTop.me.speculative = false ∧ atTop.me.sb = [] ∧ (∃ key x, atTop.xlate .load (atTop.g 1 + (0 : BitVec 12).signExtend 64) = .ok (key, x)) ∧
    (super atTop).me.level = .supervisor ∧ (super atTop).me.speculative = false ∧ (super atTop).me.sb = [] ∧ Memory.wf (super atTop).mem = true ∧
    ∃ key x, (super atTop).xlate .both ((super atTop).g 1 + (0 : BitVec 12).signExtend 64) = .ok (key, x) :=
  ⟨by decide +kernel, by decide +kernel, xlateOk_of (by decide +kernel), by decide +kernel, by decide +kernel, by decide +kernel,
   by decide +kernel, xlateOk_of (by decide +kernel)⟩

theorem wit_AtomicResults :
    Memory.wf atTop.mem = true ∧ atTop.me.sb = [] ∧ atTop.me.speculative = false ∧ atTop.me.csr.escope.toNat < 6 ∧
    atTop.drained atTop.me.csr.escope.toNat = some atTop ∧
    (∃ key, atTop.Readable .both (atTop.g 1) 4 key ∧ atTop.PlainAt key 4) ∧
    ∃ key, atTop.Readable .both (atTop.g 1) 8 key ∧ atTop.PlainAt key 8 :=
  ⟨by decide +kernel, by decide +kernel, by decide +kernel, by decide +kernel, by decide +kernel,
   ⟨2 ^ 30 - 8, ⟨reaches_of (by decide +kernel), by decide +kernel⟩, by unfold State.PlainAt; decide +kernel⟩,
   2 ^ 30 - 8, ⟨reaches_of (by decide +kernel), by decide +kernel⟩, by unfold State.PlainAt; decide +kernel⟩

/-! ### Control flow -/

theorem wit_JumpAndBranchResults : ∃ s : State, s.me.gang.state ≠ .attached := ⟨State.reset, by decide⟩

/-- A branch at the reset PC, with the path going on 8 bytes behind it. -/
def branchEntry : Entry := { pc := Hart.reset.pc, word := 0x12, next := some 8 }

/-- A hart in a task, attached, with a window. -/
def member (win : List Entry) : Hart :=
  { Hart.reset with task := some { launch := 0, index := 0 }, gang := { state := .attached }, win }

/-- The head of a gang, alone in it. -/
def headHart : State := { State.reset with me := member [] }
/-- A member on core 1 of a gang whose head stands on core 0. -/
def second (win : List Entry) : State := { State.reset with cur := 4, me := member win, others := [(0, member [])] }
/-- The head of a gang that has a member on core 1. -/
def leading (win : List Entry) : State := { State.reset with me := member [branchEntry], others := [(4, member win)] }

theorem wit_GangBranchDirection :
    (headHart.me.gang.state = .attached ∧ headHart.gangHead headHart.cur = some headHart.cur) ∧
    ((second [branchEntry]).me.gang.state = .attached ∧ (second [branchEntry]).gangHead 4 = some 0 ∧
      (second [branchEntry]).me.direction = some 8) ∧
    ((second []).me.gang.state = .attached ∧ (second []).gangHead 4 = some 0 ∧ (second []).me.direction = none) ∧
    (∀ l ∈ [[branchEntry], []], (leading l).gangHead 0 = some 0 ∧ 4 ∈ (leading l).attachedSet 0 ∧ (leading l).me.direction ≠ some 4) ∧
    ((leading []).me.issueWords 1).length = 0 ∧ ((leading [branchEntry]).hart 4).win.length = 1 ∧ ((leading []).hart 4).win.length = 0 := by
  decide +kernel

/-- A detached hart on core 1 whose gang's head on core 0 has the gang state given. -/
def joining (g : Gang) : State :=
  { second [] with
    me := { member [] with gang := {}, ug := (member []).ug.set 3 9 }
    others := [(0, { member [] with pc := Hart.reset.pc + 4, gang := { g with state := .attached, joinTag := 5, holdPc := Hart.reset.pc } })] }

/-- The head of a gang, on core 0, with a hart of the gang state given on core 1. -/
def headOf (g : Gang) : State := { State.reset with me := member [], others := [(4, { member [] with gang := g })] }

/-- A detached hart on core 0 whose gang was made in this clock by a hart on core 1. -/
def before : State :=
  { State.reset with
    me := { member [] with gang := {} }
    others := [(4, { member [] with pc := Hart.reset.pc + 4, gang := { state := .attached, joinTag := 5, holdPc := Hart.reset.pc, formed := some (State.reset.clock, none) } })] }

theorem wit_GangInstructionResults :
    (State.reset.me.gang.state = .detached ∧ State.reset.attachedSet State.reset.cur = []) ∧
    (headHart.me.gang.state = .attached ∧ headHart.me.loopLive = false) ∧
    ((headOf {}).me.gang.state = .attached ∧ (headOf {}).gangHead (headOf {}).cur = some (headOf {}).cur ∧
      4 ∈ gangHarts (headOf {}).cur ∧ 4 ≠ (headOf {}).cur ∧ ((headOf {}).hart 4).task ≠ none ∧ ((headOf {}).hart 4).gang.state = .detached) ∧
    (let s := headOf { state := .waiting, joinTag := 5, joinT := some (3, 7) }
     4 ∈ s.waitingSet s.cur ∧ (s.hart 4).csr.asid = s.me.csr.asid ∧ (s.hart 4).gang.joinTag = 5 ∧ (s.hart 4).pc = s.me.pc ∧
     ∀ x ∈ gangHarts s.cur, x ≠ s.cur → (s.hart x).task = none ∨ (s.hart x).gang.state ≠ .detached) ∧
    ((second []).me.gang.state = .attached ∧ (second []).gangHead (second []).cur ≠ some (second []).cur) ∧
    (∀ g ∈ [({ hold := some 0 } : Gang), { formed := some (State.reset.clock, none) }],
      (joining g).me.gang.state = .detached ∧ (joining g).attachedSet 4 ≠ [] ∧ (joining g).heldHere 5 = true) ∧
    (before.me.gang.state = .detached ∧ before.attachedSet before.cur ≠ [] ∧ before.goesBefore = true) ∧
    ((joining {}).attachedSet 4 ≠ [] ∧ (joining {}).heldHere 5 = false ∧ (joining {}).goesBefore = false ∧ ((joining {}).g 3).toNat ≠ 0 ∧
      ((joining {}).g 4).toNat = 0) ∧
    ∃ s : State, s.me.gang.state = .waiting :=
  ⟨by decide +kernel, by decide +kernel, by decide +kernel, by decide +kernel, by decide +kernel, by decide +kernel, by decide +kernel,
   by decide +kernel, State.reset.updMe fun h => { h with gang := { state := .waiting } }, by decide +kernel⟩

/-- The acting hart behind a LOOPN. -/
def bodyFirst (s : State) : Hart := Hart.advance { s.me with loopLive := false } 1

/-- The answer of `checkBody`, if it is no trap. -/
def bodyOk (s : State) (n : Nat) : Bool :=
  match s.checkBody (bodyFirst s) n with
  | .ok _ => true
  | .error _ => false

theorem bodyOk_of {s : State} {n : Nat} (h : bodyOk s n = true) : ∃ t words, s.checkBody (bodyFirst s) n = .ok (t, words) := by
  unfold bodyOk at h
  split at h
  · rename_i u hu; exact ⟨u.1, u.2, hu⟩
  · cases h

/-- A mapped hart before a loop body of additions, with a bound in nest register 0. -/
def bodied (w bound : Nat) : State :=
  let s := mapped []
  let t := { s with mem := (List.range 16).foldl (fun m i => memWrite m (0x10004 + 4 * i) 4 w) s.mem }
  t.updMe fun h => { h with nest := h.nest.set 0 (BitVec.ofNat 128 bound) }

theorem wit_LoopBegins :
    ((∃ t words, (bodied 1 0).checkBody (bodyFirst (bodied 1 0)) 16 = .ok (t, words)) ∧
      0 ∈ (List.range (1 : BitVec 3).toNat).map fun n => nestBound ((bodied 1 0).me.nestAt n)) ∧
    ((∃ t words, (bodied 1 5).checkBody (bodyFirst (bodied 1 5)) 1 = .ok (t, words)) ∧
      0 ∉ (List.range (1 : BitVec 3).toNat).map fun n => nestBound ((bodied 1 5).me.nestAt n)) :=
  ⟨⟨bodyOk_of (by decide +kernel), by decide +kernel⟩, bodyOk_of (by decide +kernel), by decide +kernel⟩

/-- A hart in a loop of depth 2 and two words. -/
def looping (word i0 i1 : Nat) : Hart :=
  let h := Hart.reset
  { h with
    loopLive := true
    bounds := [3, 2]
    csr := { h.csr with
      loop := { active := true, depth := 2, len := 2, word := BitVec.ofNat 4 word }
      lix := (h.csr.lix.set 0 (BitVec.ofNat 32 i0)).set 1 (BitVec.ofNat 32 i1) } }

theorem wit_LoopAdvances :
    (let h := looping 0 0 0
     h.loopLive = true ∧ h.csr.loop.active = true ∧ h.csr.loop.depth.toNat ≤ 6 ∧ h.csr.loop.word.toNat + 1 < h.csr.loop.len.toNat) ∧
    (let h := looping 1 2 0
     h.csr.loop.len.toNat ≤ h.csr.loop.word.toNat + 1 ∧ (h.csr.lix.toList.getD 0 0).toNat + 1 = h.bound 0 ∧
     (h.csr.lix.toList.getD 1 0).toNat + 1 ≠ h.bound 1) ∧
    (let h := looping 1 2 1
     h.csr.loop.len.toNat ≤ h.csr.loop.word.toNat + 1 ∧
     ∀ n, n < 2 → (h.csr.lix.toList.getD n 0).toNat + 1 = h.bound n) := by decide +kernel

/-- The word that a hart issues next, or what keeps it from one. -/
def presentWord (s : State) (h : Hart) : Except (Option Cause) (BitVec 32) :=
  match s.present h with
  | .ok x => .ok x.2
  | .error e => .error e

/-- Whether two answers of `presentWord` are one. -/
def sameAnswer (x y : Except (Option Cause) (BitVec 32)) : Bool :=
  match x, y with
  | .ok a, .ok b => a == b
  | .error a, .error b => a == b
  | _, _ => false

theorem present_of {s : State} {h : Hart} {w : BitVec 32} (e : sameAnswer (presentWord s h) (.ok w) = true) :
    ∃ t, s.present h = .ok (t, w) := by
  unfold presentWord at e
  split at e
  · rename_i x hx; simp [sameAnswer] at e; exact ⟨x.1, by rw [hx, ← e]⟩
  · simp [sameAnswer] at e

theorem absent_of {s : State} {h : Hart} {c : Option Cause} (e : sameAnswer (presentWord s h) (.error c) = true) :
    s.present h = .error c := by
  unfold presentWord at e
  split at e
  · simp [sameAnswer] at e
  · rename_i x hx; simp [sameAnswer] at e; rw [hx, e]

/-- The head of a gang that a timed JOIN holds. -/
def heldHead : State := headHart.updMe fun h => { h with gang := { h.gang with hold := some 0 } }

/-- What stands at body word k. -/
def bodyAnswer (s : State) (k : Nat) : Except (Option Cause) (BitVec 32) :=
  match s.bodyAt (bodyFirst s) k with
  | none => .ok 0
  | some (t, h) => presentWord t h

theorem bodyAnswer_word {s : State} {k : Nat} {w : BitVec 32} (hw : w ≠ 0) (e : sameAnswer (bodyAnswer s k) (.ok w) = true) :
    ∃ t h u, s.bodyAt (bodyFirst s) k = some (t, h) ∧ t.present h = .ok (u, w) := by
  unfold bodyAnswer at e
  split at e
  · simp [sameAnswer] at e; exact absurd e.symm hw
  · rename_i t h hb; obtain ⟨u, hu⟩ := present_of e; exact ⟨t, h, u, hb, hu⟩

theorem bodyAnswer_error {s : State} {k : Nat} {c : Option Cause} (e : sameAnswer (bodyAnswer s k) (.error c) = true) :
    ∃ t h, s.bodyAt (bodyFirst s) k = some (t, h) ∧ t.present h = .error c := by
  unfold bodyAnswer at e
  split at e
  · simp [sameAnswer] at e
  · rename_i t h hb; exact ⟨t, h, hb, absent_of e⟩

/-- A mapped hart before a loop body whose words from the second on are those given. -/
def bodied2 (w : Nat) : State :=
  let s := bodied w 1
  { s with mem := memWrite s.mem 0x10004 4 1 }

theorem wit_LoopBodyTraps :
    (∃ t h u, (bodied 0x73 1).bodyAt (bodyFirst (bodied 0x73 1)) 0 = some (t, h) ∧ t.present h = .ok (u, 0x73) ∧
      illegalBody 0x73 = true) ∧
    (∃ t h u, (bodied2 0x73).bodyAt (bodyFirst (bodied2 0x73)) 1 = some (t, h) ∧ t.present h = .ok (u, 0x73)) ∧
    (∃ t h, State.reset.bodyAt (bodyFirst State.reset) 0 = some (t, h) ∧ t.present h = .error (some .pageFault)) ∧
    ∃ t h, heldHead.bodyAt (bodyFirst heldHead) 0 = some (t, h) ∧ t.present h = .error none := by
  refine ⟨?_, bodyAnswer_word (by decide) (by decide +kernel), bodyAnswer_error (by decide +kernel), bodyAnswer_error (by decide +kernel)⟩
  obtain ⟨t, h, u, hb, hu⟩ := bodyAnswer_word (s := bodied 0x73 1) (k := 0) (w := 0x73) (by decide) (by decide +kernel)
  exact ⟨t, h, u, hb, hu, by decide +kernel⟩

theorem wit_CodeLineInvalidation :
    (beyond.me.gang.icinv = none ∧
      ∃ c, beyond.lookup (coreOf beyond.cur) beyond.core.tlb beyond.me.csr.asid beyond.me.csr.ptroot 0x40000000 = .error c) ∧
    (atTop.me.gang.icinv = none ∧ atTop.me.gang.state = .detached ∧ atTop.me.vq = [] ∧ atTop.me.sb = [] ∧
      ∃ x, atTop.lookup (coreOf atTop.cur) atTop.core.tlb atTop.me.csr.asid atTop.me.csr.ptroot 0x3FFFFFF8 = .ok x ∧
        x.entry.leaf = 0x3F) :=
  ⟨⟨by decide +kernel, .pageFault, lookupErr_of (by decide +kernel)⟩,
   by decide +kernel, by decide +kernel, by decide +kernel, by decide +kernel, lookupLeaf_of (by decide +kernel)⟩

/-- The acting hart's gang changed. -/
def inGang (s : State) (g : Gang) : State := s.updMe fun h => { h with gang := g, task := some { launch := 0, index := 0 } }

theorem wit_GangEvents :
    (let s := inGang State.reset { state := .waiting, joinT := some (3, 0) }
     s.me.gang.state = .waiting ∧ s.me.gang.joinT = some (3, 0) ∧ 0 ≤ (s.cycle (coreOf s.cur)).toNat) ∧
    (let s := inGang State.reset { state := .waiting, joinT := some (3, 1) }
     s.me.gang.state = .waiting ∧ s.me.gang.joinT = some (3, 1) ∧ (s.cycle (coreOf s.cur)).toNat < 1) ∧
    (let s := inGang State.reset { state := .attached, hold := some 0 }
     s.me.gang.hold = some 0 ∧ 0 ≤ (s.cycle (coreOf s.cur)).toNat) ∧
    (let s := leading (List.replicate 32 branchEntry)
     (∃ x ∈ s.attachedSet s.cur, (s.hart x).room = false) ∧ ∃ x ∈ s.attachedSet s.cur, (s.hart x).room = true) ∧
    (let s := leading (List.replicate 31 branchEntry)
     s.attachedSet s.cur = [0, 4] ∧ ∀ x ∈ s.attachedSet s.cur, (s.hart x).room = true) ∧
    (let s := inGang State.reset { state := .attached, icinv := some 7 }
     s.me.gang.state = .attached ∧ (∀ x ∈ s.attachedSet s.cur, (s.hart x).gang.icinv ≠ none) ∧
     ∃ x ∈ s.attachedSet s.cur, (s.hart x).gang.icinv = some 7) := by decide +kernel

/-! ### Masks and vector configuration -/

/-- A hart that owns q quads, with a granted length and every tag as given. -/
def vec (s : State) (q vl : Nat) (t : Tag) : State :=
  s.updMe fun h => { h with
    tag := Vector.replicate 32 t
    csr := { h.csr with vl := BitVec.ofNat 12 vl, quads := Vector.ofFn fun i => if i.val < q then .owned else .free } }

/-- A mask function that waits in the dispatch queue. -/
def waitingMask : VItem := { id := 0, pc := 0, ctx := {}, work := .mask 8 1 0 0 }

/-- The state with an entry in its dispatch queue. -/
def behind (s : State) : State := s.updMe fun h => { h with vq := [waitingMask] }

theorem firstBit_none : FirstBit ((vec State.reset 4 0 {}).me.mask 1) (vec State.reset 4 0 {}).me.vl 0 :=
  .inr ⟨by decide +kernel, fun j _ => by
    have h : (vec State.reset 4 0 {}).me.mask 1 = 0#2048 := by decide +kernel
    rw [h, BitVec.getLsbD_zero]⟩

/-- The longest length, and a mask with only its last bit. -/
def lastBit : State := (vec State.reset 4 2048 {}).updMe fun h => { h with m := h.m.set 1 (BitVec.twoPow 2048 2047) }

theorem firstBit_last : FirstBit (lastBit.me.mask 1) lastBit.me.vl 2047 := by
  have h : lastBit.me.mask 1 = BitVec.twoPow 2048 2047 := by decide +kernel
  refine .inl ⟨by decide +kernel, by rw [h]; simp, fun j hj => ?_⟩
  rw [h, BitVec.getLsbD_twoPow]
  simp only [Bool.and_eq_false_iff, decide_eq_false_iff_not]
  omega

theorem wit_MaskFunctionResults :
    ((vec State.reset 4 0 {}).me.vectorFree = true ∧ ∃ v : BitVec 2048, ∀ i, i < 2048 → v.getLsbD i = decide (i < 0)) ∧
    (lastBit.me.vectorFree = true ∧ FirstBit (lastBit.me.mask 1) lastBit.me.vl 2047 ∧
      (∃ v : BitVec 2048, ∀ i, i < 2048 → v.getLsbD i = decide (i ≤ 2047 ∧ i < lastBit.me.vl)) ∧
      ∃ v : BitVec 2048, ∀ i, i < 2048 → v.getLsbD i = decide (i = 2047 ∧ 2047 < lastBit.me.vl)) ∧
    ((behind State.reset).me.vectorFree = false ∧ (behind State.reset).me.vqFull = false) := by
  have h : lastBit.me.vl = 2048 := by decide +kernel
  refine ⟨⟨by decide +kernel, 0, fun i _ => by simp⟩, ⟨by decide +kernel, firstBit_last, ⟨BitVec.allOnes 2048, fun i hi => ?_⟩,
    BitVec.twoPow 2048 2047, fun i hi => ?_⟩, by decide +kernel, by decide +kernel⟩
  · rw [h, BitVec.getLsbD_allOnes, decide_eq_decide]; omega
  · rw [h, BitVec.getLsbD_twoPow, ← Bool.decide_and, decide_eq_decide]; omega

theorem wit_MaskReads :
    (lastBit.me.vq = [] ∧ FirstBit (lastBit.me.mask 1) lastBit.me.vl 2047) ∧
    ((vec State.reset 4 0 {}).me.vq = [] ∧ FirstBit ((vec State.reset 4 0 {}).me.mask 1) (vec State.reset 4 0 {}).me.vl 0) ∧
    (behind State.reset).me.vq ≠ [] :=
  ⟨⟨by decide +kernel, firstBit_last⟩, ⟨by decide +kernel, firstBit_none⟩, by decide +kernel⟩

theorem wit_TagResults :
    ((14 : BitVec 4) ≠ 15 ∧ (24 : BitVec 5).toNat % max (State.reset.me.tagOf 24).group (2 ^ (3 : BitVec 2).toNat) = 0 ∧
      State.reset.me.vqFull = false ∧ State.reset.me.vectorFree = true) ∧
    ((2 : BitVec 4) ≠ 15 ∧ (9 : BitVec 5).toNat % max (State.reset.me.tagOf 9).group (2 ^ (1 : BitVec 2).toNat) ≠ 0) := by
  decide +kernel

theorem wit_LengthGrant :
    ∃ (s : State) (fmt : BitVec 4) (f : Fmt), Fmt.ofCode fmt = some f ∧ s.me.proposed = false ∧ s.me.vqFull = false ∧
      s.me.sb = [] ∧ s.me.vectorFree = true ∧ s.agenda = [] :=
  ⟨State.reset, 12, .f32, by decide +kernel⟩

theorem wit_NestRegisterResults :
    (let s := mapped [(1, 2 ^ 30 - 16)]
     (∃ key, s.Readable .load (s.g 1) 16 key) ∧ Memory.wf s.mem = true ∧ s.me.StoresInOrder ∧
      ∃ key, s.Reaches .store (s.g 1) 16 key ∧ s.PlainAt key 16) ∧
    (atTop.g 1).toNat % 16 ≠ 0 :=
  ⟨⟨⟨2 ^ 30 - 16, reaches_of (by decide +kernel), by decide +kernel⟩, by decide +kernel, .inr (by decide +kernel),
     2 ^ 30 - 16, reaches_of (by decide +kernel), by unfold State.PlainAt; decide +kernel⟩, by decide +kernel⟩

/-! ### Vector instructions -/

/-- Words of code from the placed PC on. -/
def code (s : State) (l : List Nat) : State :=
  { s with mem := (l.foldl (fun (m : List Host.Cell × Nat) w => (memWrite m.1 m.2 4 w, m.2 + 4)) (s.mem, 0x10000)).1 }

/-- A mapped hart of 64 lanes with every register tagged i32 and a granted length. -/
def vhart (vl : Nat) : State := vec (mapped [(1, 0x20000)]) 4 vl {}

/-- The state with an event to come. -/
def driven (s : State) : State := { s with agenda := [.run] }

/-- The member check of a vector instruction that stands alone. -/
def checkOf (s : State) (o : VOp) : Option Cause := s.memberCheck s.me.vctx { op := o, word := o.word, words := 1, hart := s.me }

/-- vadd v4, v2, v6. -/
def addOp : VOp := { op := .add, d := 4, a := 2, b := 6 }

theorem wit_VectorIssue :
    ((Instr.vadd 4 2 6 0 false 0).wf = true ∧ vopOf (fieldsOf (.vadd 4 2 6 0 false 0)) = some addOp ∧ addOp.cv = false) ∧
    checkOf (vec (mapped []) 4 16 { fmt := 15 }) addOp = some .illegalTag ∧
    (checkOf (vhart 512) addOp = none ∧ ∀ r ∈ addOp.scalarRegs, (vhart 512).me.busy r = false) ∧
    ((((vhart 16).updMe fun h => { h with vq := List.replicate 32 waitingMask }).me.vq.map (·.places)).sum = 32) ∧
    ((((vhart 16).updMe fun h => { h with vq := List.replicate 31 waitingMask }).me.vq.map (·.places)).sum = 31) ∧
    ((vhart 16).me.restart = none ∧ (driven (vhart 16)).agenda ≠ []) := by decide +kernel

/-- The words of vadd.cv v4, v2, v6 (R46's example without its mask) and of vmul with v2 and v6. -/
def addCv : Nat := 0x040C2230
def mulTo (d : Nat) : Nat := 0xC00C2030 + 128 * d

/-- The run that begins at a state's PC with an instruction. -/
def runAt (s : State) (o : VOp) : State × List VRead × Option VStop :=
  let head : VRead := { op := o, word := o.word, words := 1, hart := s.me }
  s.readRun 3 head [head]

/-- The acting hart is the head of a gang that a timed JOIN holds. -/
def heldGang (s : State) : State :=
  s.updMe fun h => { h with task := some { launch := 0, index := 0 }, gang := { state := .attached, hold := some 0 } }

theorem wit_ConvoyIssue :
    (∃ (w : BitVec 32) (i : Instr) (o : VOp), decode w = .error (.illegalConvoy i) ∧ vopOf (Fields.ofWord w) = some o) ∧
    ((Instr.vadd 4 2 6 0 true 0).wf = true ∧ vopOf (fieldsOf (.vadd 4 2 6 0 true 0)) = some { addOp with cv := true } ∧
      ({ addOp with cv := true } : VOp).lacksFeature (vhart 16).core.fmask = false) ∧
    (runAt (code (vhart 16) [addCv, 1]) { addOp with cv := true }).2.2 = some (.word 1) ∧
    (runAt (heldGang (code (vhart 16) [addCv, 1])) { addOp with cv := true }).2.2 = some .wait ∧
    (let r := runAt (code (vhart 16) [addCv, mulTo 2]) { addOp with cv := true }
     r.2.2 = none ∧ (firstConflict (vhart 16).me.vctx r.2.1).isSome = true) ∧
    (let r := runAt (code (vhart 16) [addCv, mulTo 10]) { addOp with cv := true }
     r.2.2 = none ∧ firstConflict (vhart 16).me.vctx r.2.1 = none ∧
      (∀ m ∈ r.2.1, r.1.memberCheck (vhart 16).me.vctx m = none ∧ ∀ g ∈ m.op.scalarRegs, r.1.me.busy g = false) ∧
      ((vhart 16).me.vq.map (·.places)).sum + r.2.1.length ≤ 32) := by
  refine ⟨⟨0x04000041, .vmvVg 0 0 0, { op := .mvVG, d := 0, a := 0, cv := true }, by decide +kernel, by decide +kernel⟩, ?_⟩
  decide +kernel

/-- `State.VectorAlone` as a test. -/
def aloneB (s : State) (o : VOp) : Bool :=
  !o.cv && checkOf s o == none && s.me.quiet && s.me.rf.isEmpty && s.me.sb.isEmpty && s.me.restart == none && s.agenda.isEmpty &&
  s.core.checkErr == none && decide (s.me.vl ≤ 2048 ∧ (s.me.lanes = 0 → s.me.vl = 0))

theorem alone_of {s : State} {o : VOp} (h : aloneB s o = true) : s.VectorAlone o := by
  unfold aloneB at h
  simp only [Bool.and_eq_true, Bool.not_eq_true', beq_iff_eq, decide_eq_true_eq, List.isEmpty_iff] at h
  obtain ⟨⟨⟨⟨⟨⟨⟨⟨h1, h2⟩, h3⟩, h4⟩, h5⟩, h6⟩, h7⟩, h8⟩, h9⟩ := h
  exact ⟨h1, h2, ⟨h3, h4, h5⟩, h6, h7, h8, h9.1, h9.2⟩

theorem wit_VectorArithmeticResults :
    ((vhart 512).VectorAlone addOp ∧ addOp.op.isMem = false ∧ addOp.op ≠ .mvVQ) ∧
    (∃ (s : State) (o : VOp) (h : Hart), vopOf (fieldsOf (.vmvVq 4 2 0)) = some o ∧ s.VectorAlone o ∧ o.op = .mvVQ ∧
      s.me.entriesDone 2049 s.me.vctx o 0 = some h) ∧
    ∃ (s : State) (o : VOp) (h : Hart), vopOf (fieldsOf (.vmvQv 2 4 0)) = some o ∧ s.VectorAlone o ∧ o.op = .mvQV ∧
      s.me.entriesDone 2049 s.me.vctx o 0 = some h :=
  ⟨⟨alone_of (by decide +kernel), by decide +kernel, by decide +kernel⟩,
   ⟨vec (queued 4) 4 4 { fmt := 12 }, { op := .mvVQ, d := 4, a := 2 }, _, by decide +kernel, alone_of (by decide +kernel), rfl,
    (Option.some_get (h := by decide +kernel)).symm⟩,
   ⟨vhart 4, { op := .mvQV, d := 2, a := 4 }, _, by decide +kernel, alone_of (by decide +kernel), rfl,
    (Option.some_get (h := by decide +kernel)).symm⟩⟩

theorem wit_IntegerVectorResults :
    Fmt.ofCode (2 : BitVec 4) = some .i32 ∧ Fmt.i32.cls = .int ∧ (vhart 512).me.tagOf 4 = {} ∧ (vhart 512).me.tagOf 2 = {} ∧
    (vhart 512).VectorAlone { op := .add, d := 4, a := 2, b := 6 } ∧
    (vhart 1).VectorAlone { op := .div, d := 4, a := 2, b := 6, rep := 4, m := 15 } ∧
    (vhart 0).VectorAlone { op := .clamp, d := 4, a := 4, b := 4 } :=
  ⟨by decide, by decide, by decide +kernel, by decide +kernel, alone_of (by decide +kernel), alone_of (by decide +kernel),
   alone_of (by decide +kernel)⟩

theorem wit_ElementPlacement :
    (24 : BitVec 5).toNat + 8 ≤ 32 ∧ 2047 < vlmax 64 8 8 ∧ 0 < vlmax 16 64 1 ∧ vlmax 64 8 8 ≥ 1 := by decide +kernel

/-- The window of a vector memory instruction's active elements. -/
def windowOf (s : State) (o : VOp) : State × List ElemXlate :=
  s.xlateWindow s.me.vctx (s.memberOf o) ((List.range s.me.vl).filter fun i => s.me.active o i)

/-- `State.Window1` and `Apart` as a test. -/
def window1B (s : State) (o : VOp) : Bool :=
  let b := (o.fmt s.me.vctx).bytes
  let xs := (windowOf s o).2
  aloneB s o && decide (o.op.isMem = true) && o.bank.isNone && decide (o.op.major = 0x49 → o.rep.getLsbD 2 = false) &&
  decide (s.me.vl ≤ 128 ∨ o.op = .ldff) &&
  decide (s.pinsOfCore + (xs.filterMap (·.entry)).eraseDups.length ≤ 256) &&
  xs.all (fun e => e.fault.isNone && !e.remote && s.poison.all (fun p => !p.hits e.key b) &&
    (List.range b).all fun j => (s.windowAt (e.key + j)).isNone) &&
  decide (xs.Pairwise fun x y => x.key + b ≤ y.key ∨ y.key + b ≤ x.key)

theorem window1_of {s : State} {o : VOp} (h : window1B s o = true) : ∃ t xs, s.Window1 o t xs ∧ Apart (o.fmt s.me.vctx).bytes xs := by
  unfold window1B at h
  simp only [Bool.and_eq_true, decide_eq_true_eq, List.all_eq_true, Option.isNone_iff_eq_none, Bool.not_eq_true', List.mem_range] at h
  obtain ⟨⟨⟨⟨⟨⟨⟨h1, h2⟩, h3⟩, h4⟩, h5⟩, hp⟩, h6⟩, h7⟩ := h
  exact ⟨(windowOf s o).1, (windowOf s o).2,
    ⟨alone_of h1, h2, h3, h4, h5, rfl, hp, fun e he => ⟨(h6 e he).1.1.1, (h6 e he).1.1.2, (h6 e he).1.2, fun j hj => (h6 e he).2 j hj⟩⟩, h7⟩

theorem wit_VectorLoadResults :
    (vopOf (fieldsOf (.vld 4 1 0 false 0)) = some { op := .ld, d := 4, a := 1 } ∧
      ∃ t xs, (vhart 4).Window1 { op := .ld, d := 4, a := 1 } t xs) ∧
    (vopOf (fieldsOf (.vldff 4 1 0 false 0)) = some { op := .ldff, d := 4, a := 1 } ∧
      ∃ t xs, (vhart 129).Window1 { op := .ldff, d := 4, a := 1 } t xs) ∧
    (vopOf (fieldsOf (.vldseg 4 1 1 0)) = some { op := .ldseg, d := 4, a := 1, b := 1 } ∧
      ∃ t xs, (vhart 4).Window1 { op := .ldseg, d := 4, a := 1, b := 1 } t xs) := by
  refine ⟨⟨by decide +kernel, ?_⟩, ⟨by decide +kernel, ?_⟩, by decide +kernel, ?_⟩
  all_goals (refine (window1_of ?_).imp fun t h => h.imp fun xs h => h.1; decide +kernel)

/-- The same hart with its addresses mapped to its core's TCM. -/
def vnear (vl : Nat) : State := { vhart vl with mem := memWrite (vhart vl).mem 0x4000 8 0x1F00000003F }

theorem wit_VectorStoreResults :
    Memory.wf (vhart 4).mem = true ∧ Memory.wf (vhart 1).mem = true ∧ Memory.wf (vnear 1).mem = true ∧
    (vopOf (fieldsOf (.vst 4 1 false 0 false 0)) = some { op := .st, d := 4, a := 1 } ∧
      ∃ t xs, (vhart 4).Window1 { op := .st, d := 4, a := 1 } t xs ∧
        Apart (({ op := .st, d := 4, a := 1 } : VOp).fmt (vhart 4).me.vctx).bytes xs) ∧
    (vopOf (fieldsOf (.vamoadd 4 1 6 0)) = some { op := .amoadd, d := 4, a := 1, b := 6 } ∧
      ∃ t xs, (vnear 1).Window1 { op := .amoadd, d := 4, a := 1, b := 6 } t xs ∧
        Apart (({ op := .amoadd, d := 4, a := 1, b := 6 } : VOp).fmt (vnear 1).me.vctx).bytes xs) ∧
    (vopOf (fieldsOf (.vscredOr 1 4 6 0)) = some { op := .scredOr, d := 1, a := 4, b := 6 } ∧
      ∃ t xs, (vhart 1).Window1 { op := .scredOr, d := 1, a := 4, b := 6 } t xs ∧
        Apart (({ op := .scredOr, d := 1, a := 4, b := 6 } : VOp).fmt (vhart 1).me.vctx).bytes xs) := by
  refine ⟨by decide +kernel, by decide +kernel, by decide +kernel, ⟨by decide +kernel, window1_of (by decide +kernel)⟩,
    ⟨by decide +kernel, window1_of (by decide +kernel)⟩, by decide +kernel, window1_of (by decide +kernel)⟩

/-- A mapped vector hart at a prefix word (bankop add) with a word after it. -/
def paired (w : Nat) : State := code (vhart 16) [0x000000DF, w]

theorem wit_BankPairIssue :
    ((paired 1).updMe fun h => { h with
      loopLive := true, csr := { h.csr with loop := { active := true, depth := 1, len := 1 } } }).me.lastOfLoop = true ∧
    (State.reset.me.lastOfLoop = false ∧ State.reset.present (State.reset.me.advance 1) = .error (some .pageFault)) ∧
    (heldGang (paired 1)).present ((heldGang (paired 1)).me.advance 1) = .error none ∧
    (∃ t, (paired 1).present ((paired 1).me.advance 1) = .ok (t, 1) ∧ (Fields.ofWord 1).maj ≠ 0x48) ∧
    (∃ t, (paired 0x080241C9).present ((paired 0x080241C9).me.advance 1) = .ok (t, 0x080241C9)) ∧
    ((Fields.ofWord 0x080241C9).maj = 0x49 ∧ (Fields.ofWord 0x080241C9).vfn = 0 ∧ vopOf (Fields.ofWord 0x080241C9) = none) ∧
    (∃ t, (paired 0x000041C9).present ((paired 0x000041C9).me.advance 1) = .ok (t, 0x000041C9)) ∧
    (vopOf (Fields.ofWord 0x000041C9) = some { op := .st, d := 3, a := 4 } ∧ (Fields.ofWord 0x000041C9).maj = 0x49 ∧
      (paired 0x000041C9).memberCheck (paired 0x000041C9).me.vctx
        { op := { op := .st, d := 3, a := 4, bank := some (1, 0) }, word := 0x000041C9, words := 2, hart := (paired 0x000041C9).me } = none ∧
      (paired 0x000041C9).me.restart = none ∧ ((paired 0x000041C9).me.vq.map (·.places)).sum < 32) := by
  refine ⟨by decide +kernel, ⟨by decide +kernel, absent_of (by decide +kernel)⟩, absent_of (by decide +kernel), ?_,
    present_of (by decide +kernel), by decide +kernel, present_of (by decide +kernel), by decide +kernel⟩
  obtain ⟨t, h⟩ := present_of (s := paired 1) (h := (paired 1).me.advance 1) (w := 1) (by decide +kernel)
  exact ⟨t, h, by decide +kernel⟩

/-- The same hart with every register tagged f32. -/
def fhart (vl : Nat) : State := vec (mapped [(1, 0x20000)]) 4 vl { fmt := 12 }

theorem wit_FloatVectorResults :
    Fmt.ofCode (12 : BitVec 4) = some .f32 ∧ Fmt.f32.cls = .float ∧ (fhart 512).me.tagOf 4 = { fmt := 12 } ∧
    (fhart 512).VectorAlone { op := .add, d := 4, a := 2, b := 6 } ∧ (fhart 1).VectorAlone { op := .sqrt, d := 4, a := 2, m := 15 } ∧
    (fhart 0).VectorAlone { op := .vclass, d := 4, a := 4 } ∧ (fhart 3).VectorAlone { op := .div, d := 4, a := 2, b := 6, rep := 7 } :=
  ⟨by decide, by decide, by decide +kernel, alone_of (by decide +kernel), alone_of (by decide +kernel), alone_of (by decide +kernel),
   alone_of (by decide +kernel)⟩

theorem wit_VectorCompareResults :
    Fmt.f32.cls ≠ .scale ∧ legalRep 4 = true ∧
    (vhart 512).VectorAlone { op := .mseq, d := 15, a := 2, b := 6 } ∧ (fhart 1).VectorAlone { op := .msle, d := 0, a := 2, b := 2, rep := 4, m := 15 } ∧
    (fhart 0).VectorAlone { op := .mslt, d := 1, a := 2, b := 6 } ∧
    ∃ s : State, ∃ p ∈ [s.me.elem s.me.lanes 2 32 0], Fmt.f32.decode p = .nan :=
  ⟨by decide, by decide, alone_of (by decide +kernel), alone_of (by decide +kernel), alone_of (by decide +kernel),
   (fhart 1).updMe fun h => h.setElem 64 2 32 0 0x7FC00000, _, List.mem_singleton.mpr rfl, by decide +kernel⟩

theorem wit_VectorMoveResults :
    Fmt.ofCode ((vhart 512).me.tagOf 2).fmt = some .i32 ∧ Fmt.i32.cls = .int ∧
    (∀ o ∈ [({ op := .merge, d := 4, a := 2, b := 6, m := 15 } : VOp), { op := .cvt, d := 4, a := 2, b := 7, m := 1 }, { op := .mvVG, d := 4, a := 1 },
        { op := .slideup, d := 4, a := 2, b := 7 }, { op := .slidedn, d := 4, a := 2, b := 7 }, { op := .slide1up, d := 4, a := 2, b := 7 },
        { op := .slide1dn, d := 4, a := 2, b := 7 }, { op := .perm, d := 4, a := 2, b := 6 }, { op := .compress, d := 4, a := 2, m := 1 },
        { op := .expand, d := 4, a := 2, m := 15 }, { op := .iota, d := 4, a := 0, m := 1 }], (vhart 512).VectorAlone o) ∧
    (vhart 0).VectorAlone { op := .compress, d := 4, a := 2, m := 1 } := by
  refine ⟨by decide +kernel, by decide, fun o h => alone_of ?_, alone_of (by decide +kernel)⟩
  revert o; decide +kernel

theorem wit_VectorReductionResults :
    (∀ o ∈ [({ op := .redsum, d := 4, a := 2, b := 6, m := 15 } : VOp), { op := .redmin, d := 4, a := 2, b := 6 }, { op := .redmax, d := 4, a := 2, b := 6 },
        { op := .scansum, d := 4, a := 2 }, { op := .scanmax, d := 4, a := 2, m := 1 }], (fhart 512).VectorAlone o) ∧
    (vhart 1).VectorAlone { op := .redor, d := 4, a := 2, b := 6 } ∧ 0 < (fhart 512).me.vl ∧
    ((fhart 512).me.vl ≤ 2 ^ 9 ∧ ∀ j, (fhart 512).me.vl ≤ 2 ^ j → 9 ≤ j) ∧ ((vhart 1).me.vl ≤ 2 ^ 0) ∧
    ∃ t : Tag, Fmt.ofCode t.fmt = some .e4m3 := by
  have h : (fhart 512).me.vl = 512 := by decide +kernel
  refine ⟨fun o h => alone_of ?_, alone_of (by decide +kernel), by decide +kernel, ⟨by rw [h]; decide, fun j hj => ?_⟩, by decide +kernel,
    ⟨{ fmt := 8 }, by decide⟩⟩
  · revert o; decide +kernel
  · rw [h] at hj
    exact Nat.le_of_not_lt fun hlt => absurd (Nat.pow_lt_pow_right (a := 2) (by decide) hlt) (Nat.not_lt.mpr hj)

theorem wit_VectorSegmentResults :
    (fhart 512).VectorAlone { op := .segsort, d := 4, a := 2, m := 15 } ∧ (vhart 0).VectorAlone { op := .segsort, d := 4, a := 2 } ∧
    ((vhart 3).VectorAlone { op := .segsortkv, d := 4, a := 2, b := 6, m := 1 } ∧ (vhart 3).me.tagOf 6 = (vhart 3).me.tagOf (4 + BitVec.ofNat 5 1)) ∧
    ((fhart 512).VectorAlone { op := .dupmerge, d := 4, a := 2, b := 6, rep := 4, m := 15 } ∧ 0 < (fhart 512).me.vl) :=
  ⟨alone_of (by decide +kernel), alone_of (by decide +kernel), ⟨alone_of (by decide +kernel), by decide +kernel⟩,
   alone_of (by decide +kernel), by decide +kernel⟩

theorem wit_OuterAndQueueResults :
    (∀ o ∈ [({ op := .opa1, d := 0, a := 16, b := 18, m := 15 } : VOp), { op := .opa2, d := 0, a := 16, b := 18, rep := 7 }, { op := .opa4, d := 0, a := 16, b := 18 },
        { op := .opa8, d := 0, a := 16, b := 18 }], (fhart 512).VectorAlone o) ∧
    (let s := vec (queued 4) 4 8 { fmt := 12 }
     s.VectorAlone { op := .mvVQ, d := 4, a := 2 } ∧ (s.me.vl * 32 + 63) / 64 ≤ (s.me.queue 2).length) ∧
    (let s := vec (queued 12) 4 8 { fmt := 12 }
     s.VectorAlone { op := .mvQV, d := 2, a := 4, m := 1 } ∧ (s.me.queue 2).length + (s.me.vl * 32 + 63) / 64 ≤ 16) := by
  refine ⟨fun o h => alone_of ?_, ⟨alone_of (by decide +kernel), by decide +kernel⟩, alone_of (by decide +kernel), by decide +kernel⟩
  revert o; decide +kernel

/-! ### Events of the vector unit -/

/-- A vector hart whose queue holds one member. -/
def itemOf (m : Member) (vl : Nat) : VItem := { id := 0, pc := 0x10000, ctx := (vhart vl).me.vctx, work := .convoy [m] }
def queuedMember (m : Member) (vl : Nat) : State := { (vhart vl).updMe fun h => { h with vq := [itemOf m vl] } with seq := 1 }

/-- `State.AloneInQueue` as a test. -/
def aloneInB (m : Member) (vl : Nat) : Bool :=
  let s := queuedMember m vl
  let i := itemOf m vl
  s.me.vq == [i] && s.me.nextItem == some i && !m.done && m.pend.isEmpty && m.pins.isEmpty && m.nfy.isNone && !m.clears &&
  m.chk.isNone && s.me.rf.all (fun r => r.id != i.id) &&
  s.me.sb.isEmpty && s.core.checkErr == none && decide (i.ctx.vl ≤ 2048 ∧ (i.ctx.lanes = 0 → i.ctx.vl = 0))

theorem aloneIn_of {m : Member} {vl : Nat} (h : aloneInB m vl = true) : (queuedMember m vl).AloneInQueue (itemOf m vl) m := by
  unfold aloneInB at h
  simp only [Bool.and_eq_true, beq_iff_eq, Bool.not_eq_true', List.isEmpty_iff, Option.isNone_iff_eq_none, decide_eq_true_eq,
    List.all_eq_true, bne_iff_ne] at h
  obtain ⟨⟨⟨⟨⟨⟨⟨⟨⟨⟨⟨h1, h2⟩, h3⟩, h4⟩, h5⟩, h6⟩, h7⟩, h8⟩, h9⟩, h10⟩, h11⟩, h12⟩ := h
  exact ⟨h1, rfl, h2, h3, h4, h5, h6, h7, h8, h9, h10, h11, h12.1, h12.2⟩

/-- An addition and a load as members. -/
def addMember : Member := { op := addOp, pc := 0x10000 }
def loadMember : Member := { op := { op := .ld, d := 4, a := 1 }, pc := 0x10000, x := 0x20000, lanes := BitVec.allOnes 64 }

theorem wit_VectorEvents :
    ((queuedMember addMember 512).AloneInQueue (itemOf addMember 512) addMember ∧ addMember.next < (itemOf addMember 512).ctx.vl ∧
      addMember.op.op.isMem = false ∧ addMember.op.op ≠ .mvVQ) ∧
    ((queuedMember { addMember with next := 511, begun := true } 512).AloneInQueue
      (itemOf { addMember with next := 511, begun := true } 512) { addMember with next := 511, begun := true }) ∧
    ((queuedMember loadMember 16).AloneInQueue (itemOf loadMember 16) loadMember ∧ loadMember.op.op.isMem = true ∧
      loadMember.op.bank = none ∧ loadMember.op.op.major ≠ 0x4C ∧
      (let s := queuedMember loadMember 16
       (∀ j, j < 4 → (s.hart (4 * coreOf s.cur + j)).pinned = []) ∧
       let w := loadMember.window s.me (itemOf loadMember 16).ctx
       let xs := (s.xlateWindow (itemOf loadMember 16).ctx loadMember w.1).2
       xs ≠ [] ∧ (xs.filterMap (·.entry)).eraseDups.length ≤ 256 ∧ ∀ e ∈ xs, e.fault = none ∧ e.remote = false ∧
         ∀ p ∈ s.poison, p.hits e.key (loadMember.op.fmt (itemOf loadMember 16).ctx).bytes = false)) ∧
    (let cfg : VItem := { id := 1, pc := 0, ctx := {}, work := .cfg [] 64 true }
     let s := (vhart 16).updMe fun h => { h with vq := [cfg] }
     let t := (vhart 16).updMe fun h => { h with
       vq := [cfg], lq := [{ id := 0, pc := 0, op := .lkread }], sb := [{ before := 1, bytes := 1 }] }
     s.me.vq = [cfg] ∧ s.me.sb = [] ∧ t.me.vq = [cfg] ∧ (∃ e ∈ t.me.sb, e.ack = none ∧ e.before ≤ cfg.id) ∧
       ∀ e ∈ t.me.sb, t.me.ready e = false) := by
  refine ⟨⟨aloneIn_of (by decide +kernel), by decide +kernel, by decide +kernel, by decide +kernel⟩, aloneIn_of (by decide +kernel),
    ⟨aloneIn_of (by decide +kernel), by decide +kernel, by decide +kernel, by decide +kernel, ?_⟩, ?_⟩
  · decide +kernel
  · decide +kernel

/-- A return-free operation with elements to combine in plain memory. -/
def freeOp (l : List Access) : State := (mapped []).updMe fun h => { h with rf := [{ id := 3, pc := 0, elems := l }] }
def addAt (key : Nat) : Access := { key, bytes := 4, kind := .bankStore 1 .i32 .rne 5 false }
def nearAt (key : Nat) : Access := { key, bytes := 4, kind := .near 0x3F800000 }

theorem reached_of {s : State} {a : Access} (h1 : 0 < a.bytes) (h2 : s.dropCond a.key = none)
    (h3 : ∀ j, j < a.bytes → s.windowAt (a.key + j) = none) : s.Reached a := ⟨h1, h2, h3⟩

theorem wit_ReturnFreeEvents :
    ((freeOp [addAt 0x20000]).me.sb = [] ∧ Memory.wf (freeOp [addAt 0x20000]).mem = true ∧
      (∀ x ∈ (freeOp [addAt 0x20000]).me.vq, x.id ≠ 3) ∧ (freeOp [addAt 0x20000]).Reached (addAt 0x20000) ∧ ((addAt 0x20000).leaves ((freeOp []).read 0x20000 4)).isSome = true) ∧
    ((freeOp [nearAt 0x20000, nearAt 0x20004]).me.rf = { id := 3, pc := 0, elems := nearAt 0x20000 :: [nearAt 0x20004] } :: [] ∧
      (freeOp [nearAt 0x20000, nearAt 0x20004]).Reached (nearAt 0x20000) ∧
      (freeOp [nearAt 0x20000, nearAt 0x20004]).Reached (nearAt 0x20004) ∧ (nearAt 0x20000).leaves 0 ≠ none ∧
      [nearAt 0x20000, nearAt 0x20004].Pairwise (fun a b => a.key + a.bytes ≤ b.key ∨ b.key + b.bytes ≤ a.key)) ∧
    (Memory.wf (freeOp []).mem = true ∧ ∀ j, j < 8 → (freeOp []).windowAt (0x20000 + j) = none) ∧
    ∃ (s : State) (p : Poison), p ∈ s.poison ∧ p.persist = false ∧ p.hits 0x20000 1 = true :=
  ⟨⟨by decide +kernel, by decide +kernel, by decide +kernel, reached_of (by decide) (by decide +kernel) (by decide +kernel), by decide +kernel⟩,
   ⟨by decide +kernel, reached_of (by decide) (by decide +kernel) (by decide +kernel),
    reached_of (by decide) (by decide +kernel) (by decide +kernel), by decide +kernel, by decide⟩,
   by decide +kernel,
   { State.reset with poison := [{ key := 0x20000, bytes := 32, persist := false }] }, _, List.mem_singleton.mpr rfl, by decide⟩

/-! ### Engine commands at issue -/

/-- The acting hart's core changed. -/
def onCore (s : State) (c : Core) : State := { s with cores := [(0, c)] }

def noMod : EMod := { order := 0, push := false, pop := false, chan := 0 }

theorem wit_LookupIssue :
    (let s := State.reset.updMe fun h => { h with lq := List.replicate 16 { id := 0, pc := 0, op := .lkwait } }
     (s.me.lq.filter fun c => !c.started).length = 16) ∧
    (let s := State.reset.updMe fun h => { h with
       lq := { id := 0, pc := 0, op := .lkwait, started := true } :: List.replicate 15 { id := 0, pc := 0, op := .lkwait } }
     (s.me.lq.filter fun c => !c.started).length = 15) ∧
    (onCore State.reset { fmask := 0x7FF7 }).core.fmask.getLsbD 3 = false ∧
    (let s := onCore (regs [(2, 2 ^ 20)]) { fmask := 0x7FEF }
     s.core.fmask.getLsbD 3 = true ∧ s.core.fmask.getLsbD 4 = false ∧ (s.commandOf .tbuild (fieldsOf (.tbuild 1 2 0 noMod))).ext = true) ∧
    (State.reset.core.fmask.getLsbD 3 = true ∧ State.reset.core.fmask.getLsbD 4 = true) ∧
    (State.reset.updMe fun h => { h with csr := { h.csr with escope := 6 } }).me.csr.escope.toNat = 6 ∧
    ((regs [(1, 32)]).commandOf .lkread (fieldsOf (.lkread 1 0 noMod))).lkCheck State.reset.me.csr.lkwin ≠ none ∧
    (State.reset.commandOf .lkwait (fieldsOf (.lkwait 5 noMod))).lkCheck State.reset.me.csr.lkwin = none := by
  decide +kernel

theorem wit_TransferIssue :
    (let s := State.reset.updMe fun h => { h with xq := List.replicate 16 { id := 0, pc := 0, op := .xwait } }
     (s.me.xq.filter fun c => !c.started).length = 16) ∧
    (let s := State.reset.updMe fun h => { h with xq := List.replicate 15 { id := 0, pc := 0, op := .xwait } }
     (s.me.xq.filter fun c => !c.started).length = 15) ∧
    (onCore State.reset { fmask := 0x7F7F }).core.fmask.getLsbD 7 = false ∧
    (∀ k, k < 15 → State.reset.core.fmask.getLsbD k = true) ∧
    (State.reset.updMe fun h => { h with csr := { h.csr with escope := 6 } }).me.csr.escope.toNat = 6 ∧
    (∃ x, ((regs [(1, 1)]).commandOf .xshape (fieldsOf (.xshape 1 0 noMod))).xferCheck = some x) ∧
    (State.reset.commandOf .xwait (fieldsOf (.xwait 5 noMod))).xferCheck = none := by
  refine ⟨by decide +kernel, by decide +kernel, by decide +kernel, by decide +kernel, by decide +kernel, ?_, by decide +kernel⟩
  exact ⟨_, (Option.some_get (h := by decide +kernel)).symm⟩

/-! ### Synchronization -/

/-- The hart runs task 2 of a launch of 16 tasks with one group of all of them. -/
def tasked (g : Group) (l : List (Nat × Nat)) : State :=
  { (regs l).updMe fun h => { h with task := some { launch := 7, index := 2 } } with
    launches := [(7, { record := List.replicate 24 0 ++ [16, 0, 0, 0, 1, 0, 0, 0, 1, 0, 0, 0] ++ List.replicate 92 0, order := 0, groups := [(3, g)] })] }
def everyone : Group := { kind := 0, a := 0, b := 0, c := 1, first := 3, members := 16 }

theorem wit_FenceResults :
    (State.reset.me.quiet = true ∧ State.reset.me.rf = [] ∧ State.reset.me.sb = []) ∧ (behind State.reset).me.quiet = false ∧
    (freeOp [addAt 0]).me.rf ≠ [] ∧
    (∃ s : State, s.me.rf = [] ∧ ∃ i ∈ s.me.vq, ∃ l, i.work = .convoy l ∧ ∃ m ∈ l, m.op.bank.isSome = true ∧ m.op.op.isStore = true) ∧
    ∃ s : State, s.me.rf = [] ∧ ∃ c ∈ s.me.xq, c.op = .nma :=
  ⟨by decide +kernel, by decide +kernel, by decide +kernel,
   ⟨State.reset.updMe fun h => { h with vq := [{ id := 0, pc := 0, ctx := h.vctx, work := .convoy [{ op := { op := .st, d := 3, a := 4, bank := some (1, 0) }, pc := 0 }] }] },
    by decide +kernel, _, List.mem_singleton.mpr rfl, _, rfl, _, List.mem_singleton.mpr rfl, by decide +kernel⟩,
   State.reset.updMe fun h => { h with xq := [{ id := 0, pc := 0, op := .nma }] }, by decide +kernel⟩

theorem wit_BarrierResults :
    (State.reset.myGroup 0 = none) ∧
    ((tasked everyone [(1, 3)]).myGroup 3 = some (7, everyone) ∧ (tasked everyone [(1, 3)]).me.quiet = true ∧
      (tasked everyone [(1, 3)]).me.rf = [] ∧ (tasked everyone [(1, 3)]).me.sb = []) ∧
    ((tasked { everyone with arrived := 15 } [(1, 3)]).myGroup 3 = some (7, { everyone with arrived := 15 })) ∧
    ((behind (tasked everyone [(1, 3)])).myGroup 3 = some (7, everyone) ∧ (behind (tasked everyone [(1, 3)])).me.quiet = false) ∧
    (∃ s : State, s.myGroup 3 = some (7, everyone) ∧ s.me.quiet = true ∧ s.me.rf ≠ []) ∧
    ((0 < ({ everyone with arrived := 16 } : Group).arrived ∧ 16 ≤ ({ everyone with arrived := 16 } : Group).arrived)) :=
  ⟨by decide +kernel, by decide +kernel, by decide +kernel, by decide +kernel,
   ⟨(tasked everyone []).updMe fun h => { h with rf := [{ id := 0, pc := 0, elems := [] }] }, by decide +kernel⟩, by decide⟩

/-- A die whose ring holds the given entries. -/
def ringed (l : List RingEntry) (n : Nat) : State := { tasked everyone [(1, n * 256 + 3)] with dies := [(0, { ring := l })] }

theorem wit_IterationRing :
    (State.reset.core.fmask.getLsbD 14 = true ∧ State.reset.myGroup 0 = none) ∧
    ((ringed ((List.range 64).map fun k => { launch := 9, group := k }) 0).myGroup 3 = some (7, everyone) ∧
      ¬ ((((ringed ((List.range 64).map fun k => { launch := 9, group := k }) 0).dieAt 0).ringEntry 7 3).isSome = true ∨
        ((ringed ((List.range 64).map fun k => { launch := 9, group := k }) 0).dieAt 0).ring.length < 64)) ∧
    ((ringed [{ launch := 7, group := 3, frontier := 5 }] 68).myGroup 3 = some (7, everyone) ∧
      ((ringed [{ launch := 7, group := 3, frontier := 5 }] 68).ringEntryOf 7 3).map.getLsbD 0 = false ∧
      (((ringed [{ launch := 7, group := 3, frontier := 5 }] 68).g 1).toNat / 256 = 68) ∧
      ((ringed [{ launch := 7, group := 3, frontier := 5 }] 68).ringEntryOf 7 3).frontier = 5 ∧
      (ringed [{ launch := 7, group := 3, frontier := 5 }] 68).me.quiet = true ∧
      (ringed [{ launch := 7, group := 3, frontier := 5 }] 68).me.sb = []) ∧
    ((ringed [{ launch := 7, group := 3, frontier := 5 }] 69).g 1).toNat / 256 = 5 + 64 ∧
    ((ringed [{ launch := 7, group := 3, frontier := 5 }] 4).g 1).toNat / 256 = 4 := by decide +kernel

theorem wit_ProgressWait :
    (∃ s : State, 6 ≤ s.me.csr.escope.toNat) ∧
    (atTop.me.csr.escope.toNat < 6 ∧ ∃ key, atTop.Readable .load (atTop.g 1) 8 key) :=
  ⟨⟨State.reset.updMe fun h => { h with csr := { h.csr with escope := 6 } }, by decide +kernel⟩,
   by decide +kernel, 2 ^ 30 - 8, reaches_of (by decide +kernel), by decide +kernel⟩

/-! ### Events of traps, interrupts and registers -/

/-- Hart 1 runs a task of a launch of priority q with one save slot; launch 8, of priority 3, finds no hart. -/
def starving (q : Nat) : State :=
  let rec1 := [0, 0, 0, 0, 0, 0, q, 0] ++ List.replicate 16 0 ++ [8, 0, 0, 0, 1, 0, 0, 0, 1, 0, 0, 0] ++ List.replicate 68 0 ++ [1] ++ List.replicate 23 0
  let rec2 := [0, 0, 0, 0, 0, 0, 3, 0] ++ List.replicate 16 0 ++ [8, 0, 0, 0, 1, 0, 0, 0, 1, 0, 0, 0] ++ List.replicate 72 0 ++ [0, 0x80] ++ List.replicate 18 0
  { State.reset with
    others := [(1, { Hart.reset with task := some { launch := 7, index := 0 } })]
    launches := [(7, { record := rec1, order := 0, nextBlock := 1, stage := .running, running := [0] }),
                 (8, { record := rec2, order := 1, stage := .running })] }

theorem wit_InterruptSources :
    (∃ s : State, s.me.csr.cyccmp = s.cycle (coreOf s.cur) ∧ s.me.csr.pend.getLsbD 1 = false) ∧
    (State.reset.cycle 0 < State.reset.me.csr.cyccmp) ∧
    ((starving 2).starved = some 3 ∧ (starving 2).preemptible 1 = some (7, 2) ∧ (starving 2).waitsForStart 1 = false ∧
      (List.range 2304).all fun h => match (starving 2).preemptible h with
        | some x => decide (2 ≤ x.2) && !(starving 2).waitsForStart h
        | none => true) ∧
    ((starving 3).starved = some 3 ∧ (starving 3).preemptible 1 = some (7, 3) ∧ (starving 3).waitsForStart 1 = false) ∧
    State.reset.starved = none :=
  ⟨⟨State.reset.updMe fun h => { h with csr := { h.csr with cyccmp := 0 } }, by decide +kernel⟩, by decide +kernel, by decide +kernel,
   by decide +kernel, by decide +kernel⟩

/-- A hart that waits. -/
def stalled (w : Wait) (f : Hart → Hart := id) : State := State.reset.updMe fun h => f { h with wait := w }
def popMember : Member := { op := { op := .mvVQ, d := 4, a := 2 }, pc := 0 }
def popItem : VItem := { id := 0, pc := 0, ctx := { vl := 4, lanes := 64 }, work := .convoy [popMember] }

theorem wit_DeadlockTraps :
    ((stalled (.queueEmpty 2)).me.quiet = true ∧ (stalled (.queueEmpty 2)).me.level = .user ∧ (stalled (.queueEmpty 2)).me.wait = .queueEmpty 2 ∧
      (stalled (.queueFull 7)).me.wait = .queueFull 7 ∧ (stalled (.tokenEmpty 0)).me.wait = .tokenEmpty 0 ∧
      (stalled (.tokenFull 5)).me.wait = .tokenFull 5) ∧
    (let s := stalled (.queueEmpty 3) fun h => { h with vq := [popItem] }
     s.me.oldestOpen = some 0 ∧ s.me.queueDeadlock = true) ∧
    (let s := stalled (.tokenEmpty 3) fun h => { h with lq := [{ id := 4, pc := 0, op := .lkwait, pop := true, chan := 1 }] }
     s.me.oldestOpen = some 4 ∧ s.me.tokenDeadlock = true) ∧
    (State.reset.me.wait = .none ∧ State.reset.me.due = none) := by decide +kernel

theorem wit_RegisterEvents :
    (behind State.reset).me.quiet = false ∧ State.reset.me.quiet = true ∧
    (let h := { Hart.reset with halted := true }
     h.halted = true ∧ 64 + 1 ≤ imageBody h.lanes ∧ imageBody h.lanes - 1 + 1 = imageBody h.lanes) ∧
    (let e : TlbEntry := { asid := 0, va := 0, size := 16, leaf := 0 }
     let s := onCore State.reset { tlb := [e] }
     let t := { s with windows := [(0, { base := 0, size := 0, counter := 0, tag := 0, asid := 0, level := .user, core := 0, pins := [e] })] }
     (s.coreAt 0).tlb[0]? = some e ∧ e ∉ s.allPins s.seq ∧ e ∈ t.allPins t.seq) := by decide +kernel

/-! ### System -/

theorem wit_CsrAccess :
    (State.reset.me.level = .user ∧ 0x100 ≤ (0x100 : BitVec 12).toNat) ∧
    ((super State.reset).me.level = .supervisor ∧ csrOnWrite 0x010 = .trap ∧ csrOnWrite 0x014 = .userTrap) ∧
    ((behind State.reset).me.vq ≠ [] ∧ (behind (super State.reset)).me.quiet = false ∧ csrOnWrite 0x108 ≠ .trap) ∧
    (csrOnWrite 0x002 ≠ .trap ∧ csrOnWrite 0x002 ≠ .userTrap) ∧ csrKnown 0 = false ∧ csrKnown 0x420 = false := by
  decide +kernel

theorem wit_CsrFieldWrites : ∃ x y : Word, x.getLsbD 0 = true ∧ y.getLsbD 0 = false := ⟨1, 2, by decide⟩

theorem wit_PrivilegeTraps : ∃ s : State, s.me.level = .user := ⟨State.reset, by decide +kernel⟩

/-- A trap that is due. -/
def dueTrap (c : Cause) : State := State.reset.updMe fun h => { h with due := some (.trap { cause := c, val := 9, lost := true, pos := { pc := 0x40, eix := 5 } }) }

theorem wit_TrapEntryState :
    (State.reset.me.quiet = true ∧ State.reset.me.level = .user ∧ Cause.pageFault ≠ .syscall) ∧ (behind State.reset).me.quiet = false ∧
    ((dueTrap .pageFault).me.quiet = true ∧ (dueTrap .pageFault).me.level = .user ∧
      (dueTrap .pageFault).me.due = some (.trap { cause := .pageFault, val := 9, lost := true, pos := { pc := 0x40, eix := 5 } })) ∧
    State.reset.me.due = none := by decide +kernel

theorem wit_CallAndBreakpoint :
    (State.reset.me.quiet = true ∧ State.reset.me.csr.step = false ∧ State.reset.me.level = .user ∧ State.reset.me.csr.brkh = false) ∧
    ((super State.reset).me.quiet = true ∧ (super State.reset).me.csr.step = false) ∧
    ∃ s : State, s.me.quiet = true ∧ s.me.csr.brkh = true :=
  ⟨by decide +kernel, by decide +kernel, State.reset.updMe fun h => { h with csr := { h.csr with brkh := true } }, by decide +kernel⟩

theorem wit_DoubleTrap :
    (let s := super State.reset
     s.me.quiet = true ∧ s.me.level = .supervisor ∧ Cause.poisonedData ≠ .syscall ∧ (s.dieAt (dieOf s.cur)).frq.length < 4096) ∧
    ∃ s : State, s.me.quiet = true ∧ s.me.level = .supervisor ∧ 4096 ≤ (s.dieAt (dieOf s.cur)).frq.length :=
  ⟨by decide +kernel,
   { super State.reset with dies := [(0, { frq := List.replicate 4096 (0, { kind := 1, code := 0 }) })] }, by decide +kernel⟩

/-- A hart in a task with interrupts pending. -/
def pending (p : BitVec 3) (f : Hart → Hart := id) : State :=
  State.reset.updMe fun h => f { h with task := some { launch := 0, index := 0 }, csr := { h.csr with pend := p } }

theorem wit_InterruptEntry :
    (let s := pending 4
     s.me.task.isSome = true ∧ s.me.halted = false ∧ s.me.due = none ∧ s.me.haltReq = false ∧ s.me.leave = none ∧
     s.me.quiet = true ∧ s.me.wait ≠ .event ∧ s.me.level = .user ∧ s.me.csr.uie = true ∧
     (s.me.csr.pend.getLsbD 2 = true ∧ s.me.csr.en.getLsbD 2 = true) ∧
     ∀ j, j < 2 → ¬ (s.me.csr.pend.getLsbD j = true ∧ s.me.csr.en.getLsbD j = true)) ∧
    (let s := pending 1 fun h => { h with wait := .event }
     s.me.wait = .event ∧ s.me.level = .user ∧ s.me.csr.uie = true ∧ s.me.csr.pend.getLsbD 0 = true ∧ s.me.csr.en.getLsbD 0 = true) ∧
    (pending 0).me.csr.pend = 0 ∧ (pending 1 fun h => { h with level := .supervisor }).me.level = .supervisor ∧
    ∃ s : State, s.me.csr.uie = false ∧ s.me.task.isSome = true ∧ s.me.quiet = true :=
  ⟨by decide +kernel, by decide +kernel, by decide +kernel, by decide +kernel,
   pending 1 fun h => { h with csr := { h.csr with uie := false } }, by decide +kernel⟩

/-- A launch record of 8 tasks with an id and an ASID, priority q, save slots, and a die mask. -/
def recordOf (id asid q slots mask : Nat) : List Nat :=
  leBytes 4 0x4F4D4C4E ++ leBytes 2 1 ++ [q, 0] ++ leBytes 8 id ++ leBytes 8 0 ++ leBytes 4 8 ++ leBytes 4 1 ++ leBytes 4 1 ++
  leBytes 2 asid ++ [0, 0] ++ leBytes 8 0 ++ leBytes 32 0 ++ leBytes 8 0 ++ leBytes 8 0 ++ leBytes 8 0x30000 ++ leBytes 4 slots ++
  leBytes 2 mask ++ leBytes 18 0

/-- A hart in task 0 of launch 0 of priority 2 with save slots, beside launch 1 of priority q with its tasks still to be placed. -/
def yielder (slots q : Nat) : State :=
  { (mapped []).updMe fun h => { h with task := some { launch := 0, index := 0 } } with
    spaces := [(0, { ptroot := 0x1000, configured := true })]
    launches := [(0, { record := recordOf 1 0 2 slots 0, order := 0, nextBlock := 1, stage := .running, running := [0] }),
                 (1, { record := recordOf 2 0 q 0 0, order := 1, stage := .running })] }

theorem wit_ExceptionReturn :
    (let s := super State.reset
     s.me.level = .supervisor ∧ s.me.leave = none ∧ s.me.preempt = none ∧ s.me.quiet = true ∧ s.me.csr.loop.active = false) ∧
    ((behind (super State.reset)).me.level = .supervisor ∧ (behind (super State.reset)).me.quiet = false) ∧
    (let s := (super State.reset).updMe fun h => { h with csr := { h.csr with
        tpc := 0x44, lbase := 0x40, loop := { active := true, depth := 1, len := 2, word := 1 } } }
     s.me.quiet = true ∧ s.me.csr.loop.active = true ∧
       s.me.csr.tpc = s.me.csr.lbase + BitVec.ofNat 64 (4 * s.me.csr.loop.word.toNat)) ∧
    (let s := (super (yielder 1 2)).updMe fun h => { h with leave := some .preempt }
     s.me.level = .supervisor ∧ s.me.quiet = true ∧ s.me.leave ≠ none ∧ s.me.rf = [] ∧ (s.saveContext s.cur {} false).isSome = true) ∧
    (let s := (super (freeOp [addAt 0])).updMe fun h => { h with leave := some .preempt }
     s.me.level = .supervisor ∧ s.me.quiet = true ∧ s.me.rf ≠ []) := by decide +kernel

theorem wit_HaltAndResume :
    (let s := pending 0
     s.me.task.isSome = true ∧ s.me.halted = false ∧ s.me.due = none ∧ s.me.quiet = true ∧ s.me.wait ≠ .event) ∧
    (let s := pending 0 fun h => { h with halted := true, haltPos := { pc := 0x80, eix := 3 } }
     (s.hart 0).task.isSome = true ∧ (s.hart 0).halted = true) ∧
    (State.reset.hart 5).halted = false := by decide +kernel

/-- The parts that a range translates to, if it does. -/
def rangeOf (s : State) (k : Kind) (va n : Nat) : Option (List Part) :=
  match s.xlateRange k va n with
  | .ok p => some p
  | .error _ => none

theorem rangeOf_of {s : State} {k : Kind} {va n : Nat} {p : List Part} (h : rangeOf s k va n = some p) : s.xlateRange k va n = .ok p := by
  unfold rangeOf at h
  split at h
  · rename_i q hq; cases h; exact hq
  · cases h

/-- A supervisor hart without quads whose g1 addresses a mapped area. -/
def saver : State := super (mapped [(1, 0x20000)])

/-- A part that lies in plain memory, as a test. -/
def plainB (s : State) (p : Part) : Bool := (List.range p.bytes).all fun j => (s.windowAt (p.key + j)).isNone

theorem plain_of {s : State} {p : Part} (h : plainB s p = true) : s.PlainAt p.key p.bytes := by
  unfold plainB at h
  simp only [List.all_eq_true, List.mem_range, Option.isNone_iff_eq_none] at h
  exact h

/-- The parts of a range that translates. -/
def partsOf (s : State) (k : Kind) (n : Nat) : List Part := (rangeOf s k (s.g 1).toNat n).getD []
def hasParts (s : State) (k : Kind) (n : Nat) : Bool := rangeOf s k (s.g 1).toNat n == some (partsOf s k n)

theorem parts_of {s : State} {k : Kind} {n : Nat} (h : hasParts s k n = true) : s.xlateRange k (s.g 1).toNat n = .ok (partsOf s k n) :=
  rangeOf_of (by simpa [hasParts] using h)

theorem wit_ContextSave :
    (atTop.g 1).toNat % 64 ≠ 0 ∧ saver.me.level = .supervisor ∧ (saver.g 1).toNat % 64 = 0 ∧
    (∃ parts, saver.xlateRange .store (saver.g 1).toNat 6208 = .ok parts ∧ (∀ p ∈ parts, saver.PlainAt p.key p.bytes) ∧
      parts.Pairwise (fun p q => p.key + p.bytes ≤ q.key ∨ q.key + q.bytes ≤ p.key)) ∧ imageBody saver.me.lanes + 64 = 6208 ∧
    saver.me.Clear ∧ Memory.wf saver.mem = true ∧ (∀ k, (saver.me.tokens k).count < 256) ∧ ∀ k, (saver.me.queue k).length < 256 := by
  refine ⟨by decide +kernel, by decide +kernel, by decide +kernel, ⟨_, parts_of (by decide +kernel), ?_, by decide +kernel⟩,
    by decide +kernel, ⟨by decide +kernel, by decide +kernel, by decide +kernel⟩, by decide +kernel, by decide +kernel, by decide +kernel⟩
  have h : (partsOf saver .store 6208).all (plainB saver) = true := by decide +kernel
  exact fun p hp => plain_of (List.all_eq_true.mp h p hp)

/-- The cells that bytes from a key on make in canonical form. -/
def cellsOf (k : Nat) (l : List Nat) : List Host.Cell :=
  match l with
  | [] => []
  | b :: t => if BitVec.ofNat 8 b = unlistedByte then cellsOf (k + 1) t else (k, BitVec.ofNat 8 b) :: cellsOf (k + 1) t

theorem memSet_end (m : List Host.Cell) (k : Nat) (v : Byte) (h : ∀ e ∈ m, e.1 < k) :
    memSet m k v = m ++ if v = unlistedByte then [] else [(k, v)] := by
  induction m with
  | nil => rfl
  | cons e m ih =>
    obtain ⟨k', v'⟩ := e
    have hk : k' < k := h _ (.head _)
    simp only [memSet, Nat.not_lt.mpr (Nat.le_of_lt hk), if_false, Nat.ne_of_lt hk, List.cons_append, ih fun e he => h e (.tail _ he)]

theorem memWrite_cells (m : List Host.Cell) (k : Nat) (l : List Nat) (h : ∀ e ∈ m, e.1 < k) (hb : ∀ b ∈ l, b < 256) :
    memWrite m k l.length (ofBytes l) = m ++ cellsOf k l := by
  induction l generalizing m k with
  | nil => simp only [List.length_nil, memWrite, cellsOf, List.append_nil]
  | cons b t ih =>
    have h0 := hb b (.head _)
    have e1 : BitVec.ofNat 8 (b + 256 * ofBytes t) = BitVec.ofNat 8 b := by
      apply BitVec.eq_of_toNat_eq; simp only [BitVec.toNat_ofNat]; omega
    have e2 : (b + 256 * ofBytes t) / 256 = ofBytes t := by omega
    simp only [List.length_cons, memWrite, ofBytes, e1, e2]
    rw [memSet_end m k _ h, ih]
    · by_cases hv : BitVec.ofNat 8 b = unlistedByte
      · simp only [hv, if_true, List.append_nil, cellsOf]
      · simp only [hv, if_false, cellsOf, List.append_assoc, List.singleton_append]
    · intro e he
      rcases List.mem_append.mp he with he | he
      · exact Nat.lt_succ_of_lt (h e he)
      · split at he
        · cases he
        · cases List.mem_singleton.mp he; exact Nat.lt_succ_self k
    · exact fun x hx => hb x (.tail _ hx)

/-- A supervisor hart whose tables map its area, before bytes in memory from 0x20000 on. -/
def restorer (m : List Host.Cell) (poison : List Poison) : State :=
  { super (mapped [(1, 0x20000)]) with poison, mem := (mapped [(1, 0x20000)]).mem ++ m }

/-- The whole area and its header, as one part each. -/
def areaPart (n : Nat) : Part :=
  { va := 0x20000, key := 0x20000, bytes := n,
    x := { gpa := 0x20000, entry := { asid := 0, va := 0, size := 30, leaf := 0x3F },
           seen := [(0x3000, 0x4001), (0x2000, 0x3001), (0x1000, 0x2001)], leafKey := some 0x4000 } }

theorem restorer_bytes (l : List Nat) (p : List Poison) (hs : (restorer (cellsOf 0x20000 l) p).me.sb = []) (hl : l.length = 6208)
    (hb : ∀ b ∈ l, b < 256) :
    (restorer (cellsOf 0x20000 l) p).readParts [areaPart 6208] = l ∧ (restorer (cellsOf 0x20000 l) p).readParts [areaPart 64] = l.take 64 := by
  have hw : Memory.wf (mapped [(1, 0x20000)]).mem = true := by decide +kernel
  have hm : (restorer (cellsOf 0x20000 l) p).mem = memWrite (mapped [(1, 0x20000)]).mem 0x20000 6208 (ofBytes l) := by
    rw [← hl, memWrite_cells _ _ _ (by decide +kernel) hb]; simp only [restorer]
  have h (n : Nat) (hn : n ≤ 6208) : (restorer (cellsOf 0x20000 l) p).readMe 0x20000 n =
      memRead (memWrite (mapped [(1, 0x20000)]).mem 0x20000 6208 (ofBytes l)) 0x20000 n :=
    hm ▸ State.readMe_plain _ hs _ _ fun j hj => State.windowAt_low _ _ (by omega)
  have e : leBytes 6208 (ofBytes l) = l := hl ▸ leBytes_ofBytes l hb
  have h2 : memRead (memWrite (mapped [(1, 0x20000)]).mem 0x20000 6208 (ofBytes l)) 0x20000 64 = ofBytes l % 256 ^ 6208 % 256 ^ 64 := by
    rw [← memRead_mod 0x20000 64 6144, ← memRead_memWrite 0x20000 6208 (ofBytes l) hw]
  simp only [State.readParts, areaPart, List.flatMap_cons, List.flatMap_nil, List.append_nil]
  rw [h 6208 (by omega), h 64 (by omega), h2, memRead_memWrite _ _ _ hw, leBytes_mod, leBytes_mod, ← leBytes_take 64 6144, leBytes_mod, e]
  exact ⟨rfl, rfl⟩

/-- A sealed image with the CRC given (R372). -/
def imageWith (h : Hart) (crc : Nat) : List Nat := imageBytes h {} ++ leBytes 8 (0x5345414C * 2 ^ 32 + crc) ++ leBytes 56 0
theorem imageWith_eq {h : Hart} {crc : Nat} (e : crc32c (imageBytes h {}) = crc) : imageWith h crc = sealedImage h {} := by
  subst e; rfl

/-- The image of a hart at reset, and an area of zeros. -/
def blank : List Nat := imageWith Hart.reset 0x76DE3997
/-- The bytes other than zero of such an image of no task or of the one given, with the features and the CRC given. -/
def imagePairs (features launch crc : Nat) : List (Nat × Nat) :=
  ([(0, 0x58), (1, 0x43), (2, 0x4D), (3, 0x4F), (4, 1), (8, 0x40), (9, 0x18), (16, features), (28, launch), (96, 2), (144, 4), (184, 8),
    (185, 0xFC), (187, 0xFF), (190, 0xEF), (191, 0xBF)] ++ (List.range 8).map (fun i => (296 + i, 0xFF)) ++
    (List.range 32).map (fun i => (928 + i, 2)) ++
    ((List.range 8).map fun i => (6144 + i, (0x5345414C * 2 ^ 32 + crc) / 256 ^ i % 256))).filter fun e => e.2 != 0
def pairCells (k : Nat) (l : List (Nat × Nat)) : List Host.Cell := l.map fun e => (k + e.1, BitVec.ofNat 8 e.2)
def blankCells : List Host.Cell := pairCells 0x20000 (imagePairs 0 0 0x76DE3997)
theorem blank_cells : cellsOf 0x20000 blank = blankCells := by decide +kernel
theorem blank_eq : blank = sealedImage Hart.reset {} := imageWith_eq (by decide +kernel)
def zeros : List Nat := List.replicate 6208 0
/-- An error in the area. -/
def badArea : List Poison := [{ key := 0x20040, bytes := 32, persist := true }]
/-- One that a second read would not meet. -/
def shakyArea : List Poison := [{ key := 0x20040, bytes := 32, persist := false }]

/-- What ctxrest asks of the hart and its area before it reads the image. -/
def Restores (s : State) : Prop :=
  s.me.level = .supervisor ∧ s.me.quiet = true ∧ (s.g 1).toNat % 64 = 0 ∧ s.me.gang.state = .detached ∧ s.core.fmask = 0x7FFF ∧
  rangeOf s .load (s.g 1).toNat 64 = some [areaPart 64] ∧ rangeOf s .load (s.g 1).toNat 6208 = some [areaPart 6208]

theorem zeros_cells : cellsOf 0x20000 zeros = [] := by decide +kernel

theorem wit_ContextRestore_zeros :
    Restores (restorer (cellsOf 0x20000 zeros) []) ∧ (restorer (cellsOf 0x20000 zeros) []).poisonedParts [areaPart 6208] = false ∧
    (restorer (cellsOf 0x20000 zeros) []).readParts [areaPart 6208] = zeros ∧
    (restorer (cellsOf 0x20000 zeros) []).readParts [areaPart 64] = zeros.take 64 ∧
    bytesAt (zeros.take 64) 6 1 = 0 ∧ imageCheck zeros 0x7FFF = 1 := by
  have h := restorer_bytes zeros [] (by rw [zeros_cells]; decide +kernel) (by decide +kernel) (by decide +kernel)
  exact ⟨by rw [zeros_cells]; unfold Restores; decide +kernel, by rw [zeros_cells]; decide +kernel, h.1, h.2, by decide +kernel, by decide +kernel⟩

theorem wit_ContextRestore_poison :
    Restores (restorer (cellsOf 0x20000 zeros) badArea) ∧ (restorer (cellsOf 0x20000 zeros) badArea).poisonedParts [areaPart 6208] = true ∧
    (restorer (cellsOf 0x20000 zeros) badArea).readParts [areaPart 64] = zeros.take 64 :=
  ⟨by rw [zeros_cells]; unfold Restores; decide +kernel, by rw [zeros_cells]; decide +kernel,
   (restorer_bytes zeros badArea (by rw [zeros_cells]; decide +kernel) (by decide +kernel) (by decide +kernel)).2⟩

theorem wit_ContextRestore_transient :
    Restores (restorer (cellsOf 0x20000 zeros) shakyArea) ∧ (restorer (cellsOf 0x20000 zeros) shakyArea).poisonedParts [areaPart 6208] = true ∧
    (restorer (cellsOf 0x20000 zeros) shakyArea).readParts [areaPart 64] = zeros.take 64 :=
  ⟨by rw [zeros_cells]; unfold Restores; decide +kernel, by rw [zeros_cells]; decide +kernel,
   (restorer_bytes zeros shakyArea (by rw [zeros_cells]; decide +kernel) (by decide +kernel) (by decide +kernel)).2⟩

theorem imageCheck_sealed (h : Hart) (p : Position) (f : BitVec 15) (hl : (imageBytes h p).length = 6144) (hb : ∀ b ∈ imageBytes h p, b < 256)
    (hq : bytesAt (sealedImage h p) 6 1 = 0)
    (hh : bytesAt (sealedImage h p) 0 4 = 0x4F4D4358 ∧ bytesAt (sealedImage h p) 4 2 = 1 ∧ bytesAt (sealedImage h p) 8 4 = 6208 ∧
      bytesAt (sealedImage h p) 16 8 &&& (2 ^ 64 - 1 - f.toNat) = 0) : imageCheck (sealedImage h p) f = 0 := by
  unfold imageCheck imageBody
  simp only [hq, hh, sealedImage_good h p 6144 hl hb, ne_eq, not_true_eq_false, or_self, if_false, Nat.mul_zero, Nat.add_zero]

theorem blank_good : imageCheck blank 0x7FFF = 0 :=
  blank_eq ▸ imageCheck_sealed _ _ _ (by decide +kernel) (imageBytes_lt _ _ (by decide +kernel) (by decide +kernel)) (by decide +kernel) (by decide +kernel)

theorem blank_restores : Restores (restorer (cellsOf 0x20000 blank) []) := by rw [blank_cells]; unfold Restores; decide +kernel
theorem blank_bytes : (restorer (cellsOf 0x20000 blank) []).readParts [areaPart 6208] = blank ∧ (restorer (cellsOf 0x20000 blank) []).readParts [areaPart 64] = blank.take 64 :=
  restorer_bytes blank [] (by rw [blank_cells]; decide +kernel) (by decide +kernel)
    (blank_eq ▸ sealedImage_lt _ _ (by decide +kernel) (by decide +kernel))

theorem wit_ContextRestore_good :
    Restores (restorer (cellsOf 0x20000 blank) []) ∧ (restorer (cellsOf 0x20000 blank) []).poisonedParts [areaPart 6208] = false ∧
    (restorer (cellsOf 0x20000 blank) []).readParts [areaPart 6208] = blank ∧ (restorer (cellsOf 0x20000 blank) []).readParts [areaPart 64] = blank.take 64 ∧
    bytesAt (blank.take 64) 6 1 = 0 ∧ imageCheck blank 0x7FFF = 0 :=
  ⟨blank_restores, by rw [blank_cells]; decide +kernel, blank_bytes.1, blank_bytes.2, by decide +kernel, blank_good⟩

theorem wit_ContextImageRoundTrip :
    (let h := Hart.reset
     h.features &&& ~~~((0 : BitVec 15).setWidth 64) = 0 ∧ (∀ k, (h.tokens k).count ≤ 8) ∧ (∀ k, (h.queue k).length ≤ 16) ∧
     fileGet (w := 5) 0 h.ug = 0 ∧ h.task = none ∧ h.csr.lkwin &&& 3 = 0 ∧ h.csr.wout &&& 7 = 0 ∧ h.csr.vprog &&& 7 = 0 ∧
     h.csr.xbar.toNat < 512 ∧ h.csr.lbase &&& 3 = 0 ∧ h.csr.ptroot &&& 0x00FFFFFFFFFFF000 = h.csr.ptroot ∧
     h.csr.lkepc &&& 3 = 0 ∧ h.csr.xepc &&& 3 = 0 ∧ h.csr.lkerr &&& 0xFFFF001F1F1F0F01 = h.csr.lkerr ∧
     h.csr.xerr &&& 0xFFFF07FF00000F01 = h.csr.xerr) ∧
    (let h := (pending 0 fun h => { h with features := 0x7FFF }).me
     h.features &&& ~~~((0x7FFF : BitVec 15).setWidth 64) = 0 ∧ ∃ t, h.task = some t ∧ t.launch < 4096 ∧ t.index < 2 ^ 32) :=
  ⟨by decide +kernel, by decide +kernel, { launch := 0, index := 0 }, by decide +kernel⟩

theorem wit_TranslationRemoval :
    (let s := super State.reset
     s.me.level = .supervisor ∧ s.me.Clear ∧ s.allPins s.seq = []) ∧
    ∃ s : State, s.me.level = .supervisor ∧ s.me.Clear ∧ s.core.tlb ≠ [] ∧ s.allPins s.seq = [] :=
  ⟨by unfold Hart.Clear; decide +kernel, onCore (super State.reset) { tlb := [{ asid := 0, va := 0, size := 16, leaf := 0 }] },
   by unfold Hart.Clear; decide +kernel⟩

/-! ### Task instructions -/

/-- A hart before a launch record, with n live launches. -/
def launcher (l : List Nat) (n : Nat) : State :=
  { mapped [(1, 0x20000)] with
    mem := memWrite (mapped [(1, 0x20000)]).mem 0x20000 128 (ofBytes l)
    spaces := [(0, { configured := true })]
    launches := (List.range n).map fun k => (k, { record := recordOf (k + 2) 0 0 0 0, order := 0 }) }

theorem launcher_readable (l : List Nat) (n : Nat) (h : reachesB (launcher l n) .load ((launcher l n).g 1) 128 0x20000 = true)
    (hp : (launcher l n).poisonedAt 0x20000 128 = false) : (launcher l n).Readable .load ((launcher l n).g 1) 128 0x20000 :=
  ⟨reaches_of h, hp⟩

/-- The record that the launch of that hart reads. -/
def launchRecord (s : State) : List Nat := leBytes 128 (s.readMe 0x20000 128)

theorem wit_LaunchResults :
    ((launcher (recordOf 1 0 3 0 0) 0).Readable .load ((launcher (recordOf 1 0 3 0 0) 0).g 1) 128 0x20000 ∧
      (launcher (recordOf 1 0 3 0 0) 0).me.quiet = true ∧ (launcher (recordOf 1 0 3 0 0) 0).me.rf = [] ∧
      (launcher (recordOf 1 0 3 0 0) 0).me.sb = [] ∧
      (launcher (recordOf 1 0 3 0 0) 0).recordGood (launchRecord (launcher (recordOf 1 0 3 0 0) 0)) = true ∧
      bytesAt (launchRecord (launcher (recordOf 1 0 3 0 0) 0)) 36 2 = (launcher (recordOf 1 0 3 0 0) 0).me.csr.asid.toNat) ∧
    ((launcher (recordOf 1 5 3 0 0) 0).Readable .load ((launcher (recordOf 1 5 3 0 0) 0).g 1) 128 0x20000 ∧
      (launcher (recordOf 1 5 3 0 0) 0).me.level = .user ∧
      bytesAt (launchRecord (launcher (recordOf 1 5 3 0 0) 0)) 36 2 ≠ (launcher (recordOf 1 5 3 0 0) 0).me.csr.asid.toNat) ∧
    ((launcher (recordOf 0 0 3 0 0) 0).recordGood (launchRecord (launcher (recordOf 0 0 3 0 0) 0)) = false) ∧
    (launcher (recordOf 1 0 3 0 0) 4096).launches.length = 4096 :=
  ⟨⟨launcher_readable _ _ (by decide +kernel) (by decide +kernel), by decide +kernel⟩,
   ⟨launcher_readable _ _ (by decide +kernel) (by decide +kernel), by decide +kernel⟩, by decide +kernel, by decide +kernel⟩

/-- The launch of that hart. -/
def yielderLaunch (slots q : Nat) : Launch := ((yielder slots q).myLaunch).getD { record := [], order := 0 }

theorem wit_WaitAndYield :
    (∃ s : State, s.me.eventBit = true) ∧ State.reset.me.eventBit = false ∧ State.reset.myLaunch = none ∧
    ((yielder 1 1).myLaunch = some (yielderLaunch 1 1) ∧ (yielder 1 1).me.level = .user ∧
      (yielder 1 1).offered (recPriority (yielderLaunch 1 1).record) = false) ∧
    ((yielder 0 2).myLaunch = some (yielderLaunch 0 2) ∧ (yielderLaunch 0 2).freeSlot = none) ∧
    ((yielder 1 2).myLaunch = some (yielderLaunch 1 2) ∧ (yielder 1 2).offered (recPriority (yielderLaunch 1 2).record) = true ∧
      (yielderLaunch 1 2).freeSlot ≠ none ∧ (yielder 1 2).me.quiet = true ∧ (yielder 1 2).me.rf = [] ∧
      ((yielder 1 2).saveContext (yielder 1 2).cur { pc := (yielder 1 2).me.pc + 4 } false).isSome = true) ∧
    ((super (yielder 1 1)).me.level = .supervisor ∧ (super (yielder 1 1)).me.csr.pend.getLsbD 0 = false ∧
      (super (yielder 1 1)).offered (recPriority (yielderLaunch 1 1).record) = false) ∧
    (let s := (super (yielder 0 1)).updMe fun h => { h with csr := { h.csr with pend := 1 } }
     s.me.level = .supervisor ∧ s.me.csr.pend.getLsbD 0 = true ∧ s.myLaunch = some (yielderLaunch 0 1) ∧
      (yielderLaunch 0 1).freeSlot = none) ∧
    (let s := (super (yielder 1 1)).updMe fun h => { h with csr := { h.csr with pend := 1 } }
     s.me.level = .supervisor ∧ s.me.csr.pend.getLsbD 0 = true ∧ s.myLaunch = some (yielderLaunch 1 1) ∧ (yielderLaunch 1 1).freeSlot ≠ none ∧
      s.me.quiet = true ∧ s.me.rf = [] ∧ (s.saveContext s.cur { pc := s.me.pc + 4 } false).isSome = true ∧ (behind s).me.quiet = false ∧
      ({ s with spaces := [] } : State).saveContext s.cur { pc := s.me.pc + 4 } false = none) :=
  ⟨⟨State.reset.updMe fun h => { h with eventBit := true }, by decide +kernel⟩, by decide +kernel, by decide +kernel, by decide +kernel,
   by decide +kernel, by decide +kernel, by decide +kernel, by decide +kernel, by decide +kernel⟩

theorem wit_TaskExit :
    ((yielder 0 1).me.task = some { launch := 0, index := 0 } ∧ mapGet (yielder 0 1).launches 0 = some (yielderLaunch 0 1) ∧
      (yielder 0 1).me.quiet = true ∧ (yielder 0 1).me.rf = [] ∧ (yielder 0 1).me.sb = [] ∧ (yielder 0 1).me.level = .user) ∧
    (behind (yielder 0 1)).me.quiet = false ∧ (super (yielder 0 1)).me.level = .supervisor := by decide +kernel

/-! ### The lookup engine at work -/

/-- The acting hart's lookup queue holds the given commands. -/
def looking (l : List ECmd) : State := State.reset.updMe fun h => { h with lq := l }
/-- A lookup command; started, and begun. -/
def lk (op : EOpc) (a b : Word) : ECmd := { id := 0, pc := 0x10000, op, a, b }
def lkStarted (op : EOpc) (a b : Word) : ECmd := { lk op a b with started := true }
def lkBegun (op : EOpc) (a b : Word) : ECmd := { lk op a b with started := true, begun := true }
/-- A stack's state changed. -/
def withStack (s : State) (t : Stack) : State := { s with lkStacks := [(0, t)] }

def pinErrB (s : State) (c : ECmd) : Bool := match s.pin c c.lkTouches with | .error _ => true | .ok _ => false
def pinOkB (s : State) (c : ECmd) : Bool := match s.pin c c.lkTouches with | .error _ => false | .ok _ => true
theorem pinErr_of {s : State} {c : ECmd} (h : pinErrB s c = true) : ∃ x va, s.pin c c.lkTouches = .error (x, va) := by
  unfold pinErrB at h; split at h
  · exact ⟨_, _, by assumption⟩
  · cases h
theorem pinOk_of {s : State} {c : ECmd} (h : pinOkB s c = true) : ∃ pins u, s.pin c c.lkTouches = .ok (pins, u) := by
  unfold pinOkB at h; split at h
  · cases h
  · exact ⟨_, _, by assumption⟩

theorem wit_LookupCommandStart :
    (let c := lk .lkwait 0 0
     (looking [{ c with pop := true }]).me.head false = some { c with pop := true } ∧
     (looking [{ c with pop := true }]).me.mayStart { c with pop := true } = false) ∧
    (let c := lk .lkread 0x1000 0
     (looking [c]).me.head false = some c ∧ (looking [c]).me.mayStart c = true ∧ (looking [c]).me.sb = [] ∧
       pinErrB (looking [c]) c = true) ∧
    (let c := lk .lkstat 0 0
     (looking [c]).me.head false = some c ∧ (looking [c]).me.mayStart c = true ∧ pinOkB (looking [c]) c = true ∧ (looking [c]).me.sb = [] ∧ c.op.isTable = false ∧ c.op ≠ .lkwait ∧ c.op.isAcc = true ∧
       ((looking [c]).stackAt 0).isFenced 0 = false ∧
       ((withStack (looking [c]) { fenced := true }).stackAt 0).isFenced 0 = true) := by
  decide +kernel

theorem wit_AccumulatorBegin :
    (State.reset.stackAt 0).Sound ∧
    (∀ op ∈ [EOpc.lkinit, .lkclr, .lkstat, .lkread, .lkdrain, .lkdrainc, .lkacc],
      (looking [lkStarted op 0x3F00 0]).accNext 0 = some (0, lkStarted op 0x3F00 0)) ∧
    (lkStarted .lkinit 0x3F00 0).first + (bits (0x3F00#64).toNat 13 8 + 1) ≤ 64 ∧
    ((lkStarted .lkdrainc 0 63).lkSteps.map fun p => p.a.toNat).Nodup ∧
    ∀ p ∈ (lkStarted .lkdrainc 0 63).lkSteps, p.a.toNat < 64 := by
  refine ⟨by unfold Stack.Sound; decide +kernel, by decide +kernel, by decide +kernel, by decide +kernel, by decide +kernel⟩

/-- A table ready in slot 0 and a valid line 63. -/
def tabled (mode : BitVec 2) : Stack :=
  { mode
    slots := [(0, { ready := true, exp := 1, entries := [5] })]
    lines := [(63, Vector.replicate 32 { val := true })] }

theorem wit_LookupStep :
    (let c := lkBegun .lkacc 0 (63 * 256)
     ∀ mode ∈ [(0 : BitVec 2), 1, 2, 3],
      let s := { withStack (looking [c]) (tabled mode) with mem := memWrite [] (State.reset.bankKey 0 0 31 0 992) 1 128 }
      s.accCurrent 0 = some (0, c) ∧ c.op = .lkacc ∧ c.step < c.stepCount ∧ c.tables = 1 ∧ c.ext = false ∧
      (s.stackAt 0).badSlots = [] ∧ (s.stackAt 0).badRows = [] ∧
      (c.lkStep (nestNth c.nest c.step)).a.toNat = 63 ∧ (s.stackAt (stackOf 0)).mode = mode ∧
      (s.latch 0 0 31 0).dsc % 4 = c.shape ∧ 128 ≤ (s.latch 0 0 31 0).dsc ∧ s.poison = [] ∧
      ((s.stackAt 0).slot 0 0).ready = true ∧ ((s.stackAt 0).slot 0 0).shape = c.shape ∧ ((s.stackAt 0).slot 0 0).part = 0 ∧
      (rowOf ((s.stackAt 0).line 0 63) 31).val = true ∧ (s.latch 0 0 31 0).scales.getD 0 0 ≠ 255) := by
  decide +kernel

theorem wit_LookupVerdict :
    (let c := { lkBegun .lkacc 0 0 with step := 1 }
     (looking [c]).accCurrent 0 = some (0, c) ∧ c.step = c.stepCount ∧ ((looking [c]).stackAt 0).wrong = [] ∧ (looking [c]).sumDiffers 0 c = false ∧
     (withStack (looking [c]) { wrong := [(0, true)] }).accCurrent 0 = some (0, c) ∧
     ∃ e ∈ ((withStack (looking [c]) { wrong := [(0, true)] }).stackAt 0).wrong, e.1 = sliceOf 0) ∧
    (let c := { lkBegun .lkacc 0 0 with step := 2 }
     (withStack (looking [c]) { wrong := [(0, true)] }).accCurrent 0 = some (0, c) ∧
     (withStack (looking [c]) { wrong := [(0, false)] }).accCurrent 0 = some (0, c) ∧ c.step = c.stepCount + 1 ∧
     (¬ ((∃ e ∈ ((withStack (looking [c]) { wrong := [(0, false)] }).stackAt 0).wrong, e.1 = sliceOf 0 ∧ e.2 = true) ∨
       (withStack (looking [c]) { wrong := [(0, false)] }).sumDiffers 0 c = true ∨
       ∃ w ∈ ((withStack (looking [c]) { wrong := [(0, false)] }).stackAt 0).watch, w.slice = sliceOf 0 ∧ w.dirty = true)) ∧
     ∃ e ∈ ((withStack (looking [c]) { wrong := [(0, true)] }).stackAt 0).wrong, e.1 = sliceOf 0 ∧ e.2 = true) := by
  decide +kernel

theorem wit_LookupRetire :
    (let c := { lkBegun .lkstat 0 0 with done := true }
     (((looking [c]).hart 0).lq.filter ((looking [c]).hart 0).lkRetirable)[0]? = some c ∧ c.done = true ∧ c.reports = []) ∧
    (let c := lkStarted .lkwait 0 0
     (((looking [c]).hart 0).lq.filter ((looking [c]).hart 0).lkRetirable)[0]? = some c ∧ c.op ≠ .lkmeta ∧ c.reports = []) ∧
    (let c := { lkBegun .lkacc 0 0 with done := true, reports := [{ cond := 5, unit := 0 }] }
     (((looking [c]).hart 0).lq.filter ((looking [c]).hart 0).lkRetirable)[0]? = some c ∧ c.reports = [{ cond := 5, unit := 0 }] ∧
     ((looking [c]).hart 0).csr.lkerr.getLsbD 0 = false ∧ ((looking [c]).hart 0).csr.lkerr.toNat < 2 ^ 48) := by
  decide +kernel

theorem wit_LookupTableEvents :
    (∀ c ∈ [lkStarted .cbclr 0x103FF 1, lkStarted .tbfree 255 1, lkStarted .cbload 0 0x103FF, lkStarted .tbload 0 255,
        lkStarted .tbuild 0 255],
      let k : ECmd := { c with prog := [(0, 0)], data := [(0, (List.replicate 512 0, false))] }
      (looking [k]).tableHead 0 0 = some (0, k) ∧ mapGet k.data 0 = some (List.replicate 512 0, false)) ∧
    (lkStarted .tbfree 255 1).first + (1#64).toNat ≤ 256 ∧
    bookOf ([4, 16] ++ List.replicate 78 0) ≠ none ∧ bookOf (List.replicate 80 0) = none ∧
    ((lkStarted .tbload 0 255).lkStep (nestNth [] 0)).s.toNat + ((lkStarted .tbload 0 255).loaded (List.replicate 512 0, false)).length ≤ 256 ∧
    (let c := lkStarted .tbuild 0 255
     ((looking [c]).stackAt 0).built = [] ∧ (Stack.book { books := [(0, { b := shapeB c.shape })] } (c.lkStep (nestNth [] 0)).cb.toNat).b = shapeB c.shape) ∧
    let b : Built := { hart := 0, id := 0, slices := [0], slot := 255, tables := [{}] }
    ((withStack State.reset { built := [b] }).stackAt 0).built = b :: [] ∧ b.slot + b.tables.length ≤ 256 := by
  decide +kernel

theorem wit_StackEvents :
    (let temps := List.replicate 16 85
     temps.length = 16 ∧ (∀ x ∈ temps, x ≤ 85 ∧ x < 256) ∧ temps[0]? = some 85 ∧ ∀ i, i < 0 → temps[i]? ≠ some 85) ∧
    (let temps := List.replicate 15 0 ++ [255]
     temps.length = 16 ∧ (∀ x ∈ temps, x ≤ 255 ∧ x < 256) ∧ temps[15]? = some 255 ∧ ∀ i, i < 15 → temps[i]? ≠ some 255) ∧
    0x7FF8 + 8 ≤ 0x8000 ∧
    ((withStack State.reset { sup := [31], recs := [(31, 0x155)] }).stackAt 0).sup = 31 :: [] ∧
    (withStack State.reset { sup := [31] }).supCommand 0 31 0x255 = none ∧
    (let t := (withStack State.reset { sup := [31], recs := [(31, 2 ^ 32 + 0x55)] }).stackAt 0
     t.sup = 31 :: [] ∧ bits ((mapGet t.recs 31).getD 0) 63 32 ≠ 0) ∧ bits 0x55 63 32 = 0 ∧
    ∃ c, (withStack State.reset { sup := [31] }).supCommand 0 31 0x55 = some c ∧ c.op = .lkinit ∧
      (∀ x ∈ (withStack State.reset { sup := [31] }).coreLookups (coreOfSlice 0 31), x.2.op.isAcc = false) ∧
      ((withStack State.reset { sup := [31] }).stackAt 0).isFenced (sliceOf (coreOfSlice 0 31)) = false := by
  refine ⟨by decide +kernel, by decide +kernel, by decide, by decide +kernel, by decide +kernel, by decide +kernel, by decide +kernel,
    _, (Option.some_get (h := by decide +kernel)).symm, by decide +kernel, by decide +kernel, by decide +kernel⟩

/-- A result read that has a word and a sector still to write. -/
def reading : ECmd := { lkBegun .lkread 0 0 with
  out := [{ va := 0x28010, bytes := 8, move := .value 5 }, { va := 0x28020, bytes := 32, move := .value (2 ^ 255) }], pins := State.reset.localPins }
def readingState : State := { looking [reading] with agenda := [.write 0 false 0 1] }

theorem wit_LookupWrites :
    (readingState.stands = false ∧ Memory.wf readingState.mem = true ∧ readingState.agenda = .write 0 false 0 1 :: []) ∧
    (let p := ({ readingState with agenda := [] } : State).begin
     ((p.hart 0).startedAt false 0 = some reading ∧ (p.accHead (coreOf 0)).map (fun e => (e.1, e.2.id)) = some (0, reading.id) ∧
       reading.out[1]? = some { va := 0x28020, bytes := 32, move := .value (2 ^ 255) } ∧
       (∀ y ∈ reading.out[0]?, p.meets (coreOf 0) reading y { va := 0x28020, bytes := 32, move := .value (2 ^ 255) } = false) ∧
       p.pinKey (coreOf 0) reading 0x28020 = some 0x28020 ∧ ((List.range 32).all fun j => (p.windowAt (0x28020 + j)).isNone) = true ∧ p.me.sb = []) ∧
     ∀ h, ∀ a ∈ (p.hart h).issued, a.2.2.key / 32 ≠ 0x28020 / 32) := by
  refine ⟨by decide +kernel, by decide +kernel, fun h => ?_⟩
  have e : ({ readingState with agenda := [] } : State).begin.others = [] := by decide +kernel
  have m : ({ readingState with agenda := [] } : State).begin.me.issued = [] := by decide +kernel
  have r : Hart.reset.issued = [] := by decide +kernel
  have i : (({ readingState with agenda := [] } : State).begin.hart h).issued = [] := by
    unfold State.hart
    split
    · exact m
    · rw [e]; exact r
  rw [i]
  exact fun a ha => absurd ha (List.not_mem_nil)

/-! ### The transfer engine at work -/

/-- The acting hart's transfer queue holds the given commands. -/
def transferring (l : List ECmd) : State := State.reset.updMe fun h => { h with xq := l }
/-- A command, and the same one started with its pages pinned. -/
def xc (op : EOpc) (a b : Word) : ECmd := { id := 1, pc := 0x10000, op, a, b }
def xcStarted (op : EOpc) (a b : Word) : ECmd := { xc op a b with started := true, pins := State.reset.localPins }

def beginB (s : State) (c : ECmd) (good : Bool) : Bool := match s.beginTransfer c with | .error _ => !good | .ok _ => good
theorem beginErr_of {s : State} {c : ECmd} (h : beginB s c false = true) : ∃ x va, s.beginTransfer c = .error (x, va) := by
  unfold beginB at h; split at h
  · exact ⟨_, _, by assumption⟩
  · cases h
theorem beginOk_of {s : State} {c : ECmd} (h : beginB s c true = true) : ∃ k p u, s.beginTransfer c = .ok (k, p, u) := by
  unfold beginB at h; split at h
  · cases h
  · exact ⟨_, _, _, by assumption⟩

/-- A core that has eight transfer commands under way. -/
def crowded : State := transferring (List.replicate 8 (xcStarted .nma 0 0) ++ [{ xc .xwait 0 0 with id := 2 }])

theorem wit_TransferCommandEvents :
    (crowded.me.head true = some { xc .xwait 0 0 with id := 2 } ∧ crowded.xferWaits { xc .xwait 0 0 with id := 2 } = true) ∧
    (let c := { xc .xwait 0 0 with pop := true }
     (transferring [c]).me.head true = some c ∧ (transferring [c]).me.mayStart c = false) ∧
    (let c := { xc .xwait 0 0 with order := 1, scope := 1 }
     let s := (transferring [c]).updMe fun h => { h with lq := [{ xcStarted .lkwait 0 0 with id := 0 }] }
     s.me.head true = some c ∧ s.me.mayStart c = false) ∧
    (let c := xc .nmxld 0x1000 0
     let s := transferring [c]
     s.me.head true = some c ∧ s.me.mayStart c = true ∧ s.xferWaits c = false ∧ s.me.sb = [] ∧ beginB s c false = true) ∧
    (let c := xc .xwait 0 0
     let s := transferring [c]
     s.me.head true = some c ∧ s.me.mayStart c = true ∧ s.xferWaits c = false ∧ s.me.sb = [] ∧ beginB s c true = true) ∧
    (let c := { xcStarted .xcopy 0 0 with done := true }
     ((transferring [c]).hart 0).xq = c :: [] ∧ c.reports = [] ∧ ((transferring [c]).hart 0).mayRelease c = true) ∧
    (let c := { xcStarted .xgather 0 0 with done := true, reports := [{ cond := 8, unit := 2047 }] }
     ((transferring [c]).hart 0).xq = c :: [] ∧ c.reports = [{ cond := 8, unit := 2047 }] ∧ (8 : Nat) ∈ [2, 4, 5, 6, 8] ∧
     ((transferring [c]).hart 0).csr.xerr.getLsbD 0 = false ∧ ((transferring [c]).hart 0).csr.xerr.toNat < 2 ^ 48) ∧
    (let c := xcStarted .xwait 0 0
     let s := transferring [c]
     (s.hart 0).xq = c :: [] ∧ (s.hart 0).mayRelease c = true ∧ s.awaitsSends 0 c = false ∧
     (({ s with sends := [{ id := 0, hart := 0, pc := 0, asid := 0, level := .user, pkg := 1, window := 5, tag := 9, off := 0, bytes := [1] }] } : State).awaitsSends 0 c = true)) ∧
    (let s := { tasked everyone [] with counted := [(7, 3, 64)] }
     s.counted[0]? = some (7, 3, 64) ∧ s.groupOf 7 3 = some everyone) := by
  refine ⟨?_, ?_, ?_, ?_, ?_, ?_, ?_, ?_, ?_⟩ <;> decide +kernel

/-- A mapped hart with two pages of 64 KiB, one in the CXL tier and one resident, and bytes at 0x20000. -/
def paged : State :=
  let s := mapped []
  { s with
    pkg := { s.pkg with cxl := s.pkg.cxl.set 0 0x100000 }
    mem := [(0x4008, 0x5001), (0x5000, 0x6001), (0x6000, 0x4000000007F), (0x6008, 0x3003F), (0x20000, 0x24000), (0x20008, 0x20100),
            (0x20010, 0x300000005), (0x20018, 0x2FFFFFFF0)].foldl (fun m e => memWrite m e.1 8 e.2) s.mem }
def moving (op : EOpc) (x a b : Word) : ECmd := { xc op a b with x }
def pinsB (s : State) (c : ECmd) (l : List Touch) : Bool := match s.pin c l with | .ok _ => true | .error _ => false

/-- A record of two by three by two words that are converted, and one of single bytes. -/
def shaped (raw sf df : Nat) : List Nat :=
  leBytes 8 0x20000 ++ leBytes 8 0x28000 ++ leBytes 4 2 ++ leBytes 4 3 ++ leBytes 4 2 ++ leBytes 4 8 ++ leBytes 4 (2 ^ 32 - 16) ++ leBytes 4 128 ++
  leBytes 4 (2 ^ 32 - 8) ++ leBytes 4 24 ++ leBytes 4 256 ++ [sf, df, raw, 6] ++ leBytes 8 0

theorem wit_TransferWritesFormed :
    (∀ c ∈ [moving .xcopy 0x20003 0x21001 29, moving .xfill 0x20003 0x1122334455667788 29, moving .xgather 0x22000 0x20000 0],
      beginB paged c true = true) ∧
    (moving .pgin 0 0x40000000 0x40010000).op = .pgin ∧ beginB paged (moving .pgin 0 0x40000000 0x40010000) true = true ∧
    beginB paged (moving .pgout 0 0x40010000 0x40000000) true = true ∧
    pinsB paged (moving .xgather 0x22000 0x20000 0) [{ va := 0x20000, bytes := 32, kind := .load, early := true }] = true ∧
    pinsB paged (moving .xshape 0 0x20000 0) [{ va := 0x20000, bytes := 64, kind := .load, early := true }] = true ∧
    (let s := { paged with mem := memWrite paged.mem 0x20000 64 (ofBytes (shaped 0 0xFF 0xFF)) }
     beginB s (moving .xshape 0 0x20000 0) true = true) ∧
    (1 < bytesAt (shaped 3 0xFF 0xFF) 16 4 ∧ 2 < bytesAt (shaped 3 0xFF 0xFF) 20 4 ∧ 1 < bytesAt (shaped 3 0xFF 0xFF) 24 4 ∧
      bytesAt (shaped 3 0xFF 0xFF) 52 1 = 0xFF) ∧
    (bytesAt (shaped 0 2 12) 52 1 < 15 ∧ bytesAt (shaped 0 2 12) 53 1 < 15 ∧ Fmt.ofCode 2 = some .i32 ∧ Fmt.ofCode 12 = some .f32) := by
  refine ⟨?_, ?_, ?_, ?_, ?_, ?_, ?_, ?_, ?_⟩ <;> decide +kernel

/-- A started copy with the given writes still to make, whose turn to make the last comes next. -/
def copying (out : List Pending) : ECmd := { xcStarted .xcopy 0 0 with out, xbar := 0x103, launch := some 7 }
def writing (out : List Pending) : State := { transferring [copying out] with agenda := [.write 0 true 0 (out.length - 1)] }
/-- The moves of each kind. -/
def moves : List Pending :=
  [{ va := 0x28008, bytes := 8, move := .value 5 }, { va := 0x28004, bytes := 4, move := .copy 0x20004 none },
   { va := 0x28008, bytes := 8, move := .copy 0x20003 (some 5) }, { va := 0x28007, bytes := 1, move := .copy (2 ^ 64 - 1) (some 5) },
   { va := 0x28010, bytes := 8, move := .convert 0x20004 .f32 .f64 .rne false }]
/-- A page move that has written its page. -/
def paging (op : EOpc) (a b : Word) : ECmd :=
  { moving op 0 a b with started := true
                         pins := [{ asid := 0, va := 0x40000000, size := 16, leaf := 0x4000000007F }, { asid := 0, va := 0x40010000, size := 16, leaf := 0x3003F }] }

theorem wit_TransferWrites :
    (∀ w ∈ moves, let s := writing [{ va := 0x28003, bytes := 1, move := .value 9 }, w]
      let c := copying [{ va := 0x28003, bytes := 1, move := .value 9 }, w]
      let p := ({ s with agenda := [] } : State).begin
      s.stands = false ∧ Memory.wf s.mem = true ∧ p.me.sb = [] ∧ p.poison = [] ∧ (p.hart 0).startedAt true 0 = some c ∧ c.out[1]? = some w ∧
      p.meets 0 c { va := 0x28003, bytes := 1, move := .value 9 } w = false ∧ p.pinKey 0 c w.va = some w.va ∧ p.dropCond w.va = none ∧ 0 < w.bytes ∧
      ((List.range w.bytes).all fun j => (p.windowAt (w.va + j)).isNone) = true ∧ p.xferDrop c w.va = none ∧ c.held = []) ∧
    (let p := ({ writing moves with agenda := [] } : State).begin
     p.pinKey 0 (copying moves) 0x20004 = some 0x20004 ∧ p.unreached 0x20004 = false ∧
       ∀ i, i < 8 → p.pinKey 0 (copying moves) ((0x20003 + i) % 2 ^ 64) = some (0x20003 + i) ∧ p.unreached (0x20003 + i) = false) ∧
    ∀ c ∈ [paging .pgin 0x40000000 0x40010000, paging .pgout 0x40010000 0x40000000],
      let s : State := { (paged.updMe fun h => { h with xq := [c] }) with agenda := [.work 0 0] }
      let p := ({ s with agenda := [] } : State).begin
      let root := entryAddr (p.hart 0).csr.ptroot.toNat
      (p.hart 0).startedAt true 0 = some c ∧ c.out = [] ∧ c.done = false ∧ c.step = 0 ∧
      ((p.leafKey 0 c.a.toNat walkLevels root = some 0x6000 ∧ p.leafKey 0 c.b.toNat walkLevels root = some 0x6008) ∨
       (p.leafKey 0 c.a.toNat walkLevels root = some 0x6008 ∧ p.leafKey 0 c.b.toNat walkLevels root = some 0x6000)) ∧
      (c.pins.find? (·.covers c.asid 0x40000000)).isSome = true ∧
      ((List.range 16).all fun j => (p.windowAt (0x6000 + j)).isNone) = true ∧ 0x6000 + 8 ≤ 0x6008 := by
  refine ⟨?_, ?_, ?_⟩ <;> decide +kernel

def trainOf (p : Pending) : ECmd := { xcStarted .strain 0 0 with out := [p] }
def trained : Pending := { va := 0x2000, bytes := 8, move := .train 0 .i32 7 }
def afar : Pending := { va := 2 ^ 45, bytes := 4, move := .train 0 .f32 0 }
/-- A train whose element goes to another package. -/
def farTrain : ECmd := { trainOf afar with pins := [{ asid := 0, va := 2 ^ 45, size := 45, leaf := 0x200000000083 }], prog := [(1, 0)] }
def exprOfOne : ECmd :=
  { xcStarted .nmx 0 0 with data := [(0, ([1, 5] ++ List.replicate 126 0, true)), (1, (List.replicate 40 0 ++ [1] ++ List.replicate 87 0, false))] }
def exprState : State := withStack (transferring [exprOfOne]) { progs := [(0, [1, 5] ++ List.replicate 126 0)] }

theorem wit_TrainAndExpressionEvents :
    (Memory.wf State.reset.mem = true ∧ State.reset.me.sb = []) ∧
    (State.reset.keyOf 0 .user 0x2000 ≠ none ∧ State.reset.keyPackage 0x2000 = State.reset.pkg.number.toNat ∧ State.reset.dropCond 0x2000 = none ∧
      (List.range 8).all fun j => (State.reset.windowAt (0x2000 + j)).isNone) ∧
    (State.reset.keyPackage (2 ^ 45) ≠ State.reset.pkg.number.toNat) ∧
    (let s := transferring [trainOf trained]
     trainOf trained ∈ (s.hart 0).xq ∧ (trainOf trained).op = .strain ∧ (∀ o ∈ (s.hart 0).xq, o.op = .strain → o = trainOf trained) ∧
     s.pinKey 0 (trainOf trained) trained.va = some 0x2000 ∧ s.dropCond 0x2000 = none ∧ s.keyPackage 0x2000 = s.pkg.number.toNat) ∧
    (let s := transferring [farTrain]
     farTrain ∈ (s.hart 0).xq ∧ farTrain.op = .strain ∧ s.pinKey 0 farTrain afar.va = some (2 ^ 45) ∧ s.dropCond (2 ^ 45) = none ∧
     s.keyPackage (2 ^ 45) ≠ s.pkg.number.toNat ∧ mapGet farTrain.prog (s.keyPackage (2 ^ 45)) = some 0 ∧
     (List.range 4).all fun j => (s.windowAt (2 ^ 45 + j)).isNone) ∧
    (let c := xcStarted .nmx 0 0
     c ∈ ((transferring [c]).hart 0).xq ∧ c.op = .nmx ∧ c.done = false ∧ mapGet c.data 0 = none) ∧
    (exprOfOne ∈ (exprState.hart 0).xq ∧ (exprState.exprElems 0 exprOfOne).1.length = 1 ∧ (exprState.exprElems 0 exprOfOne).2 = []) := by
  refine ⟨?_, ?_, ?_, ?_, ?_, ?_, ?_⟩ <;> decide +kernel

def windowed : State :=
  { State.reset with windows := [(5, { base := 0x2000, size := 8, counter := 0x3000, tag := 9, asid := 0, level := .user, core := 0, pins := State.reset.localPins })] }
def aSend (pkg off : Nat) (landed : Option Nat) (out : Option Nat) : Send :=
  { id := 1, hart := 0, pc := 0x10000, asid := 0, level := .user, pkg, window := 5, tag := 9, off, bytes := [1, 2], out, landed }

/-- A window whose memory is assigned to nothing at another package. -/
def windowOfHole : State :=
  { State.reset with
    pkg := { State.reset.pkg with holes := [(2 ^ 45 + 0x2000, 2 ^ 45 + 0x2008)] }
    windows := [(5, { base := 0x2000, size := 8, counter := 0x3000, tag := 9, asid := 0, level := .user, core := 0,
                      pins := [{ asid := 0, va := 0, size := 45, leaf := 0x200000000083 }] })] }

theorem wit_SendEvents_refused :
    (windowed.landReports 5 6 [1, 2] = []) ∧
    (∃ u r, windowOfHole.land 5 9 6 [1, 2] [] = some u ∧ windowOfHole.landReports 5 6 [1, 2] = [r] ∧ r.cond = 8 ∧
      (u.hart 0).csr.xerr.getLsbD 0 = false ∧ (u.hart 0).csr.xerr.toNat < 2 ^ 48) ∧
    (let d := aSend 1 6 none (some 0x4000)
     ({ windowed with sends := [d] } : State).sends[0]? = some d ∧ (if d.pkg = windowed.pkg.number.toNat then d.landed else some 8) = some 8 ∧
     d.out = some 0x4000 ∧ ((List.range 8).all fun j => (windowed.windowAt (0x4000 + j)).isNone) = true) := by
  refine ⟨by decide +kernel, ⟨_, _, (Option.some_get (h := by decide +kernel)).symm,
    (?_ : windowOfHole.landReports 5 6 [1, 2] = [{ cond := 8, unit := 1, addr := 0x2006 }]), ?_, ?_, ?_⟩, ?_⟩ <;> decide +kernel

theorem wit_SendEvents :
    (Memory.wf windowed.mem = true ∧ windowed.me.sb = []) ∧ (mapGet windowed.windows 6 = none) ∧
    (∃ w, mapGet windowed.windows 5 = some w ∧ w.tag = 9 ∧ 6 + [1, 2].length ≤ w.size ∧
      (∀ i, i < 2 → windowed.windowKey w (w.base + 6 + i) = some (0x2006 + i) ∧ windowed.dropCond (0x2006 + i) = none ∧
        windowed.windowAt (0x2006 + i) = none) ∧
      windowed.windowKey w w.counter = some 0x3000 ∧ windowed.dropCond 0x3000 = none ∧
      ((List.range 8).all fun j => (windowed.windowAt (0x3000 + j)).isNone) = true ∧ 0x2006 + 2 ≤ 0x3000) ∧
    ((aSend 0 7 none none).pkg = windowed.pkg.number.toNat ∧ (windowed.land 5 9 7 [1, 2] []).isNone = true ∧
      (windowed.land 5 9 6 [1, 2] []).isSome = true) ∧
    (let d := aSend 0 6 (some 0) (some 0x4000)
     ({ windowed with sends := [d] } : State).sends[0]? = some d ∧ (if d.pkg = windowed.pkg.number.toNat then d.landed else none) = some 0 ∧
     d.out = some 0x4000 ∧ ((List.range 8).all fun j => (windowed.windowAt (0x4000 + j)).isNone) = true) ∧
    (let d := aSend 1 6 none none
     ({ windowed with sends := [d] } : State).sends[0]? = some d ∧ (if d.pkg = windowed.pkg.number.toNat then d.landed else some 2) = some 2 ∧
     (2 : Nat) ∉ [1, 3, 7] ∧ (windowed.hart 0).csr.xerr.getLsbD 0 = false ∧ (windowed.hart 0).csr.xerr.toNat < 2 ^ 48) := by
  refine ⟨by decide +kernel, by decide +kernel, ⟨_, (Option.some_get (h := by decide +kernel)).symm, ?_⟩, ?_⟩ <;> decide +kernel

/-! ### Events of synchronization and memory -/

theorem wit_MemoryEvents :
    ((tasked everyone []).groupOf 7 3 = some everyone ∧ (tasked everyone []).me.barWait = none) ∧
    (let s := (tasked { everyone with arrived := 16 } []).updMe fun h => { h with barWait := some (3, 0, .user) }
     s.groupOf 7 3 = some { everyone with arrived := 16 } ∧ s.me.task = some { launch := 7, index := 2 } ∧ s.me.barWait = some (3, 0, .user)) ∧
    (Memory.wf State.reset.mem = true ∧ State.reset.me.sb = []) ∧
    (let s := State.reset
     ∀ n ∈ [1, 2, 4, 8], 0x2008 < 2 ^ 56 ∧ s.isRemote 0x2008 = false ∧ s.keyOf 0 .supervisor 0x2008 = some 0x2008 ∧ 0x2008 % n = 0 ∧
       s.poisonedAt 0x2008 n = false ∧ ((List.range n).all fun j => (s.windowAt (0x2008 + j)).isNone) = true) ∧
    (¬ 0x2009 % 2 = 0) ∧
    ({ State.reset with poison := [{ key := 0x2008, bytes := 8, persist := true }] } : State).poisonedAt 0x2008 8 = true := by
  decide +kernel

/-! ### Launches and tasks -/

/-- A record whose image stands at 0x20000. -/
def imaged (l : List Nat) : List Nat := l.set 18 2
/-- A header of R68 for a code of one word, of one quad. -/
def header1 : List Nat :=
  leBytes 4 0x4F4D4739 ++ leBytes 2 1 ++ leBytes 2 64 ++ leBytes 8 0 ++ [1, 1, 0, 0] ++ leBytes 4 64 ++ leBytes 4 64 ++ leBytes 4 4 ++
  leBytes 8 0 ++ leBytes 4 0 ++ leBytes 4 68 ++ leBytes 16 0

/-- The device with launches, its master's space mapped, and an image header in memory. -/
def launching (l : List (Nat × Launch)) : State :=
  { mapped [] with
    mem := memWrite (mapped []).mem 0x20000 64 (ofBytes header1)
    cur := 2303
    spaces := [(0, { ptroot := 0x1000, configured := true })]
    launches := l }

def imageErrB (s : State) (l : Launch) : Bool := match s.readImage l with | .error _ => true | .ok _ => false
theorem imageErr_of {s : State} {l : Launch} (h : imageErrB s l = true) : ∃ st, s.readImage l = .error st := by
  unfold imageErrB at h; split at h
  · exact ⟨_, by assumption⟩
  · cases h
def imageOkB (s : State) (l : Launch) : Bool := match s.readImage l with | .error _ => false | .ok _ => true
theorem imageOk_of {s : State} {l : Launch} (h : imageOkB s l = true) : ∃ y, s.readImage l = .ok y := by
  unfold imageOkB at h; split at h
  · cases h
  · exact ⟨_, by assumption⟩

def accepted1 : Launch := { record := imaged (recordOf 1 0 2 0 0), order := 0 }
def offeredRecord (l : List Nat) (n : Nat) : State :=
  { launching ((List.range n).map fun k => (k, { record := recordOf (k + 2) 0 0 0 0, order := 0 })) with
    pkg := { (launching []).pkg with inbox := [(0, l)], sessions := [{ peer := 0, id := 1 }], hostUp := true } }

theorem wit_LaunchEvents :
    ((offeredRecord (recordOf 1 0 0 0 0) 0).pkg.inbox = (0, recordOf 1 0 0 0 0) :: [] ∧
      (offeredRecord (recordOf 1 0 0 0 0) 0).recordGood (recordOf 1 0 0 0 0) = true ∧ (offeredRecord (recordOf 1 0 0 0 0) 0).launches.length < 4096) ∧
    ((offeredRecord [] 0).pkg.hostUp = true ∧ (offeredRecord [] 0).pkg.paused = 0) ∧
    ((offeredRecord (recordOf 0 0 0 0 0) 0).recordGood (recordOf 0 0 0 0 0) = false) ∧
    (offeredRecord (recordOf 1 0 0 0 0) 4096).launches.length = 4096 ∧
    (imageOkB (launching [(0, accepted1)]) accepted1 = true ∧ mapGet (launching [(0, accepted1)]).launches 0 = some accepted1 ∧
      accepted1.stage = .accepted ∧ accepted1.waits = [] ∧ (launching [(0, accepted1)]).pkg.electing = false ∧ accepted1.blocked = false) ∧
    imageErrB (launching []) { accepted1 with record := recordOf 1 0 2 0 0 } = true ∧
    (({ accepted1 with blocked := true } : Launch).blocked = true ∧ recRUNF accepted1.record = false) ∧
    (let l : Launch := { accepted1 with stage := .running }
     let s := launching [(4095, l)]
     s.service = [] ++ (4095, l) :: [] ∧ l.hasBlock = true ∧ l.saved = [] ∧ (s.asking 4095 l).head? = some 0 ∧ l.again = []) := by
  refine ⟨?_, ?_, ?_, ?_, ?_, ?_, ?_, ?_⟩ <;> decide +kernel

/-- A launch that holds its first task at die 0; without features, or with one. -/
def holding (features : Nat) : Launch := { record := recordOf 1 0 2 1 0, order := 0, stage := .running, nextBlock := 1, held := [(0, [0])], features }
/-- It has a task to hand out again as well, so that its die has something to do for it. -/
def asking1 : Launch := { holding 1 with again := [1] }
/-- Only core 0 of the die has features, and its quads are still leaving hart 1. -/
def leavingCore : State :=
  { launching [(0, asking1)] with
    cores := (List.range 63).map fun k => (k + 1, { fmask := 0 })
    others := [(1, { Hart.reset with csr := { Hart.reset.csr with quads := Vector.replicate 4 .leaving } })] }

theorem wit_TaskPlacement :
    (let s := leavingCore
     let l := asking1
     s.service = [] ++ (0, l) :: [] ∧ s.canServe 0 l = true ∧ mapGet s.launches 0 = some l ∧ l.held = [(0, [0])] ∧ l.lockMember 0 = false ∧
     s.openCores l 0 ≠ [] ∧ (s.openCores l 0).filter (fun c => decide (l.laneMin ≤ (s.freeQuads c none).length)) = []) ∧
    (let s := launching [(0, holding 0)]
     let l := holding 0
     s.service = [] ++ (0, l) :: [] ∧ s.canServe 0 l = true ∧ mapGet s.launches 0 = some l ∧ l.lockMember 0 = false ∧
     0 ∈ s.openCores l 0 ∧ l.laneMin ≤ (s.freeQuads 0 none).length) := by
  refine ⟨?_, ?_⟩ <;> decide +kernel

/-- The device with a full block at die 0. -/
def gangHeld : Launch := { record := recordOf 1 0 16 1 0, order := 0, stage := .running, nextBlock := 2, held := [(0, [8, 9, 10, 11, 12, 13, 14, 15])] }

theorem wit_GangPlacement :
    let s := launching [(0, gangHeld)]
    s.service = [] ++ (0, gangHeld) :: [] ∧ s.canServe 0 gangHeld = true ∧ mapGet s.launches 0 = some gangHeld ∧
    gangHeld.held = [(0, [8, 9, 10, 11, 12, 13, 14, 15])] ∧ (∀ j, j < 8 → 8 * 1 + j ∈ [8, 9, 10, 11, 12, 13, 14, 15]) ∧
    (∀ i ∈ [8, 9, 10, 11, 12, 13, 14, 15], gangHeld.lockMember i = false) ∧ (∃ k, s.gangSlot gangHeld 7 = some k) := by
  refine ⟨?_, ?_, ?_, ?_, ?_, ?_, _, (Option.some_get (h := by decide +kernel)).symm⟩ <;> decide +kernel

/-- A hart halted to leave its task, whose launch has a save area. -/
def leaver : State := (yielder 1 1).updMe fun h => { h with halted := true, leave := some .preempt }
def leaverParts : List (Nat × Nat) := (leaver.spaceParts 0 .store 0x30000 6208).getD []

theorem wit_HardwareSave :
    (leaver.me.task = some { launch := 0, index := 0 } ∧ mapGet leaver.launches 0 = some (yielderLaunch 1 1) ∧ leaver.me.halted = true ∧
      leaver.me.leave = some .preempt ∧ leaver.me.preempt = none ∧ leaver.me.rf = [] ∧ leaver.me.sb = [] ∧
      (yielderLaunch 1 1).freeSlot = some 0 ∧ recAsid (yielderLaunch 1 1).record = 0 ∧ recSaveArea (yielderLaunch 1 1).record = 0x30000 ∧
      (leaver.savedImage leaver.me leaver.me.haltPos).length = 6208 ∧ leaver.spaceParts 0 .store 0x30000 6208 = some leaverParts ∧
      leaverParts.Pairwise (fun p q => p.1 + p.2 ≤ q.1 ∨ q.1 + q.2 ≤ p.1) ∧ Memory.wf leaver.mem = true ∧
      ∀ b ∈ leaver.savedImage leaver.me leaver.me.haltPos, b < 256) ∧
    ((leaverParts.all fun p => (List.range p.2).all fun j => (leaver.windowAt (p.1 + j)).isNone) = true) ∧
    (State.reset.hart 2303).task = none ∧ leaver.pkg.status ≠ 2 ∧ ({ leaver with pkg := { leaver.pkg with status := 2 } } : State).pkg.status = 2 := by
  refine ⟨⟨?_, ?_, ?_, ?_, ?_, ?_, ?_, ?_, ?_, ?_, ?_, ?_, ?_, ?_, sealedImage_lt _ _ ?_ ?_⟩, ?_, ?_, ?_, rfl⟩ <;> decide +kernel

/-- A launch with one saved context in the reserved area of die 0, whose bytes are those of an image. -/
def savedOf (mask : Nat) : Launch :=
  { record := (recordOf 1 0 2 1 mask), order := 0, stage := .running, nextBlock := 1, saved := [{ index := 0, slot := .reserved 0 0, strip := 0 }] }
def resting (m : List Host.Cell) (fmask : BitVec 15) (poison : List Poison) : State :=
  { onCore State.reset { fmask } with
    mem := m
    launches := [(0, savedOf 0)], poison }
def badSlot : List Poison := [{ key := 0xBFA000000, bytes := 32, persist := true }]
/-- An image of another launch's task. -/
def strayImage : List Nat := imageWith { Hart.reset with task := some { launch := 1, index := 0 } } 0x8244016F
theorem strayImage_eq : strayImage = sealedImage { Hart.reset with task := some { launch := 1, index := 0 } } {} :=
  imageWith_eq (by decide +kernel)
def savedImageOf (features : Word) : List Nat :=
  imageWith { Hart.reset with task := some { launch := 0, index := 0 }, features } 0x76DE3997
theorem savedImage_eq : savedImageOf 0 = sealedImage { Hart.reset with task := some { launch := 0, index := 0 }, features := 0 } {} :=
  imageWith_eq (by decide +kernel)

theorem stray_cells : cellsOf 0xBFA000000 strayImage = pairCells 0xBFA000000 (imagePairs 0 1 0x8244016F) := by decide +kernel
theorem saved_cells : cellsOf 0xBFA000000 (savedImageOf 0) = pairCells 0xBFA000000 (imagePairs 0 0 0x76DE3997) := by decide +kernel
theorem unfit_cells : cellsOf 0xBFA000000 (savedImageOf 1) = pairCells 0xBFA000000 (imagePairs 1 0 0x76DE3997) := by decide +kernel
theorem none_cells : cellsOf 0xBFA000000 zeros = [] := by decide +kernel

theorem resting_image (img : List Nat) (f : BitVec 15) (hl : img.length = 6208) (hb : ∀ b ∈ img, b < 256) (hq : bytesAt (img.take 8) 6 1 = 0) :
    (resting (cellsOf 0xBFA000000 img) f []).slotImage (savedOf 0) (.reserved 0 0) = some img := by
  have hm : (resting (cellsOf 0xBFA000000 img) f []).mem = memWrite [] 0xBFA000000 6208 (ofBytes img) := by
    rw [← hl, memWrite_cells _ _ _ (fun _ h => by cases h) hb]; simp only [resting, List.nil_append]
  have hw : Memory.wf ([] : List Host.Cell) = true := rfl
  have e : leBytes 6208 (ofBytes img) = img := hl ▸ leBytes_ofBytes img hb
  have hr (n : Nat) (h0 : 0 < n) (hn : n ≤ 6208) :
      (resting (cellsOf 0xBFA000000 img) f []).read 0xBFA000000 n = memRead (memWrite [] 0xBFA000000 6208 (ofBytes img)) 0xBFA000000 n := by
    unfold State.read
    rw [State.windowAt_low _ _ (by omega), State.windowAt_low _ _ (by omega), hm]
    simp only [Option.isSome_none, Bool.or_self, Bool.false_eq_true, if_false]
  have h1 : leBytes 8 ((resting (cellsOf 0xBFA000000 img) f []).read 0xBFA000000 8) = img.take 8 := by
    rw [hr 8 (by omega) (by omega), ← memRead_mod 0xBFA000000 8 6200, memRead_memWrite _ 6208 _ hw,
      leBytes_mod, ← leBytes_take 8 6200, leBytes_mod, e]
  have h2 : leBytes 6208 ((resting (cellsOf 0xBFA000000 img) f []).read 0xBFA000000 6208) = img := by
    rw [hr 6208 (by omega) (by omega), memRead_memWrite _ 6208 _ hw, leBytes_mod, e]
  have hk : (resting (cellsOf 0xBFA000000 img) f []).reservedKey 0 0 = 0xBFA000000 := by
    simp only [State.reservedKey, resting, onCore]; decide +kernel
  have hp : (resting (cellsOf 0xBFA000000 img) f []).poison = [] := rfl
  have hs (n : Nat) : (resting (cellsOf 0xBFA000000 img) f []).readSlot (savedOf 0) (.reserved 0 0) n =
      some (leBytes n ((resting (cellsOf 0xBFA000000 img) f []).read 0xBFA000000 n)) := by
    simp only [State.readSlot, State.slotParts, hk, hp, List.any_cons, List.any_nil, Bool.or_self, Bool.false_eq_true, if_false,
      List.flatMap_cons, List.flatMap_nil, List.append_nil]
  unfold State.slotImage
  simp only [hs, h1, hq]
  exact congrArg some h2

/-- What the resumption on hart 0 asks before the image. -/
def restingB (m : List Host.Cell) (f : BitVec 15) (p : List Poison) : Bool :=
  let s := resting m f p
  let l := savedOf 0
  decide (s.servedBy 0 = some (0, l)) && s.eligible l 0 && !s.pkg.electing && (s.hart 0).idle && decide (mapGet s.launches 0 = some l)

theorem strayImage_good : bytesAt strayImage 24 8 ≠ taskWord (some { launch := 0, index := 0 }) ∧ imageCheck strayImage 0x7FFF = 0 :=
  ⟨by decide +kernel, strayImage_eq ▸ imageCheck_sealed _ _ _ (by decide +kernel) (imageBytes_lt _ _ (by decide +kernel) (by decide +kernel))
    (by decide +kernel) (by decide +kernel)⟩
theorem savedImage_good : bytesAt (savedImageOf 0) 6 1 = 0 ∧ imageCheck (savedImageOf 0) 0x7FFF = 0 ∧ (savedOf 0).lockMember 0 = false :=
  ⟨by decide +kernel, savedImage_eq ▸ imageCheck_sealed _ _ _ (by decide +kernel) (imageBytes_lt _ _ (by decide +kernel) (by decide +kernel))
    (by decide +kernel) (by decide +kernel), by decide +kernel⟩
theorem strayImage_slot : (resting (cellsOf 0xBFA000000 strayImage) 0x7FFF []).slotImage (savedOf 0) (.reserved 0 0) = some strayImage :=
  resting_image _ _ (by decide +kernel) (strayImage_eq ▸ sealedImage_lt _ _ (by decide +kernel) (by decide +kernel)) (by decide +kernel)
theorem savedImage_slot : (resting (cellsOf 0xBFA000000 (savedImageOf 0)) 0x7FFF []).slotImage (savedOf 0) (.reserved 0 0) = some (savedImageOf 0) :=
  resting_image _ _ (by decide +kernel) (savedImage_eq ▸ sealedImage_lt _ _ (by decide +kernel) (by decide +kernel)) (by decide +kernel)
theorem savedImage_rest : bytesAt (savedImageOf 0) 24 8 = taskWord (some { launch := 0, index := 0 }) ∧ bytesAt (savedImageOf 0) 12 2 = 0 ∧
    ∀ x ∈ (savedOf 0).saved, (resting (cellsOf 0xBFA000000 (savedImageOf 0)) 0x7FFF []).imageFits (savedOf 0) 0 x = true := by rw [saved_cells]; decide +kernel

theorem resting_bad : restingB (cellsOf 0xBFA000000 zeros) 0x7FFF badSlot = true ∧ (resting (cellsOf 0xBFA000000 zeros) 0x7FFF badSlot).slotImage (savedOf 0) (.reserved 0 0) = none := by rw [none_cells]; decide +kernel
theorem resting_zeros : restingB (cellsOf 0xBFA000000 zeros) 0x7FFF [] = true ∧
    ∀ x ∈ (savedOf 0).saved, (resting (cellsOf 0xBFA000000 zeros) 0x7FFF []).imageFits (savedOf 0) 0 x = true := by rw [none_cells]; decide +kernel
theorem zeros_slot : (resting (cellsOf 0xBFA000000 zeros) 0x7FFF []).slotImage (savedOf 0) (.reserved 0 0) = some zeros :=
  resting_image _ _ (by decide +kernel) (by decide +kernel) (by decide +kernel)
theorem zeros_check : imageCheck zeros 0x7FFF = 1 := by decide +kernel
theorem resting_unfit : restingB (cellsOf 0xBFA000000 (savedImageOf 1)) 0x7FFE [] = true ∧
    ∀ x ∈ (savedOf 0).saved, (resting (cellsOf 0xBFA000000 (savedImageOf 1)) 0x7FFE []).imageFits (savedOf 0) 0 x = false := by rw [unfit_cells]; decide +kernel
theorem resting_stray : restingB (cellsOf 0xBFA000000 strayImage) 0x7FFF [] = true := by rw [stray_cells]; decide +kernel
theorem resting_saved : restingB (cellsOf 0xBFA000000 (savedImageOf 0)) 0x7FFF [] = true := by rw [saved_cells]; decide +kernel

theorem wit_ContextResume :
    (restingB (cellsOf 0xBFA000000 zeros) 0x7FFF badSlot = true ∧ (resting (cellsOf 0xBFA000000 zeros) 0x7FFF badSlot).slotImage (savedOf 0) (.reserved 0 0) = none) ∧
    (restingB (cellsOf 0xBFA000000 zeros) 0x7FFF [] = true ∧ (resting (cellsOf 0xBFA000000 zeros) 0x7FFF []).slotImage (savedOf 0) (.reserved 0 0) = some zeros ∧
      imageCheck zeros 0x7FFF = 1 ∧ ∀ x ∈ (savedOf 0).saved, (resting (cellsOf 0xBFA000000 zeros) 0x7FFF []).imageFits (savedOf 0) 0 x = true) ∧
    (restingB (cellsOf 0xBFA000000 (savedImageOf 1)) 0x7FFE [] = true ∧
      ∀ x ∈ (savedOf 0).saved, (resting (cellsOf 0xBFA000000 (savedImageOf 1)) 0x7FFE []).imageFits (savedOf 0) 0 x = false) ∧
    (restingB (cellsOf 0xBFA000000 strayImage) 0x7FFF [] = true ∧ (resting (cellsOf 0xBFA000000 strayImage) 0x7FFF []).slotImage (savedOf 0) (.reserved 0 0) = some strayImage ∧
      bytesAt strayImage 24 8 ≠ taskWord (some { launch := 0, index := 0 }) ∧ imageCheck strayImage 0x7FFF = 0) ∧
    (restingB (cellsOf 0xBFA000000 (savedImageOf 0)) 0x7FFF [] = true ∧
      (resting (cellsOf 0xBFA000000 (savedImageOf 0)) 0x7FFF []).slotImage (savedOf 0) (.reserved 0 0) = some (savedImageOf 0) ∧
      bytesAt (savedImageOf 0) 24 8 = taskWord (some { launch := 0, index := 0 }) ∧ bytesAt (savedImageOf 0) 12 2 = 0 ∧
      (∀ x ∈ (savedOf 0).saved, (resting (cellsOf 0xBFA000000 (savedImageOf 0)) 0x7FFF []).imageFits (savedOf 0) 0 x = true) ∧
      bytesAt (savedImageOf 0) 6 1 = 0 ∧ imageCheck (savedImageOf 0) 0x7FFF = 0 ∧ (savedOf 0).lockMember 0 = false) :=
  ⟨resting_bad, ⟨resting_zeros.1, zeros_slot, zeros_check, resting_zeros.2⟩, resting_unfit,
   ⟨resting_stray, strayImage_slot, strayImage_good⟩,
   ⟨resting_saved, savedImage_slot, savedImage_rest.1, savedImage_rest.2.1, savedImage_rest.2.2, savedImage_good⟩⟩

/-- A launch whose tasks have ended; its completion record goes to the device, or to the host on session 0. -/
def ended (dev : Bool) : Launch :=
  { record := ((recordOf 1 0 2 0 0).set 7 (if dev then 2 else 0)).set 82 2, order := 0, stage := .ended 0, session := some 0 }
/-- The device with that launch and a queue pair bound to session 0. -/
def completing (l : Launch) : State :=
  { launching [(0, l)] with pkg := { (launching []).pkg with qps := [(9, { asid := 0, session := some 0 })], hostUp := true } }

theorem priority_lt (o : Outgoing) : o.priority < 8 := by cases o <;> exact Nat.mod_lt _ (by decide)

theorem wit_CompletionEvents :
    (mapGet (completing (ended true)).launches 0 = some (ended true) ∧ ((completing (ended true)).launches.map (·.1)).Nodup) ∧
    (accepted1.ready = none ∧ (ended true).ready = some 0) ∧
    (let s := completing (ended true)
     recCDEV (ended true).record = true ∧ recAsid (ended true).record = 0 ∧ recCompletion (ended true).record = 0x20000 ∧
     s.spaceParts 0 .store 0x20000 64 = some [(0x20000, 64)] ∧ s.me.sb = [] ∧ Memory.wf s.mem = true ∧
     ((List.range 64).all fun j => (s.windowAt (0x20000 + j)).isNone) = true ∧
     (s.store 0x20008 56 (ofBytes ((completionBytes 1 0 (ended true)).drop 8))).spaceParts 0 .store 0x20000 8 = some [(0x20000, 8)]) ∧
    (let s := completing (ended false)
     recCDEV (ended false).record = false ∧ s.pairOf (ended false).session = some 9 ∧ (mapGet s.pkg.qps 9).isSome = true ∧ s.pkg.hostUp = true ∧ s.pkg.paused = 0 ∧
       s.pkg.outbox = []) ∧
    (let l : Launch := { ended false with stage := .bodyWritten 0 9 }
     let s := completing l
     l.stage = .bodyWritten 0 9 ∧ s.launches = [(0, l)] ∧ (∃ q, mapGet s.pkg.qps 9 = some q) ∧ s.pkg.hostUp = true ∧
     (∀ o ∈ s.pkg.outbox, o.onPair 9 = false) ∧ s.pkg.paused = 0 ∧ (s.dieAt s.pkg.master).frq.length < 4096 ∧
     s.pkg.paused.getLsbD (Outgoing.write 9 0 []).priority = false) ∧
    (∃ s : State, s.pkg.paused.getLsbD (Outgoing.write 9 0 []).priority = true) ∧
    ∃ s : State, ∃ o ∈ s.pkg.outbox, o.onPair 9 = true := by
  have b (n : Nat) (h : n < 8) : (255#8).getLsbD n = true := by revert n; decide
  refine ⟨by decide +kernel, by decide +kernel, by decide +kernel, by decide +kernel,
    ⟨rfl, rfl, ⟨_, (Option.some_get (h := by decide +kernel)).symm⟩, by decide +kernel, by decide +kernel, by decide +kernel, by decide +kernel, ?_⟩,
    ⟨{ State.reset with pkg := { State.reset.pkg with paused := 255 } }, b _ (priority_lt _)⟩,
    ⟨{ State.reset with pkg := { State.reset.pkg with outbox := [.write 9 0 []] } }, .write 9 0 [], List.mem_singleton.mpr rfl, by decide⟩⟩
  show (0#8).getLsbD _ = false
  exact BitVec.getLsbD_zero


/-! ### Wear, power and the host -/

/-- A hart of the acting core in task 0 of launch 0, alone on its core. -/
def resident : State := State.reset.updMe fun h => { h with task := some { launch := 0, index := 0 } }

/-- The same with its launch, of tasks that may be saved. -/
def residing : State := { resident with launches := [(0, { record := recordOf 1 0 2 1 0, order := 0, stage := .running })] }

theorem wit_WearAndFaultEvents :
    ((resident.hart 0).task ≠ none ∧ (∀ j, j < 4 → j ≠ 0 → (resident.hart j).task = none) ∧
      ((resident.coreAt 0).carry.toList.getD 0 (0, 1)).1 < ((resident.coreAt 0).carry.toList.getD 0 (0, 1)).2) ∧
    ((onCore State.reset { life := .retired }).coreAt 0).life = .retired ∧ (State.reset.coreAt 0).life ≠ .retired ∧
    ((onCore State.reset { lmap := 0 }).coreAt 0).present 3 = false ∧
    ((State.reset.coreAt 0).present 3 = true ∧ (∀ k, k < 4 → (State.reset.hart k).holdsQuad 3 = false) ∧
      (State.reset.dieAt 0).frq.length < 4096 ∧ (State.reset.coreAt 0).lmap.getLsbD (8 * 3 + 6) = false) ∧
    ((onCore State.reset { lmap := 0xC0808080 }).coreAt 0).present 3 = true ∧
    ((onCore State.reset { lmap := 0xC0808080 }).coreAt 0).lmap.getLsbD (8 * 3 + 6) = true ∧
    (let c := resident.coreAt 0
     let index (mon : Nat) := max c.index (min 1000 (max (1000 * ((c.wu + 256) % 2 ^ 64) / c.rated) (min mon 1000)))
     index 1000 = 1000 ∧ index 999 = 999 ∧ c.life ≠ .retired ∧ (resident.hart 0).task ≠ none ∧ (residing.preemptible 0).isSome = true) ∧
    (let s := residing.updMe fun h => { h with csr := { h.csr with quads := Vector.ofFn fun i => if i.val = 3 then .owned else .free } }
     (s.coreAt 0).present 3 = true ∧ (s.hart 0).holdsQuad 3 = true ∧ (s.preemptible 0).isSome = true) := by
  refine ⟨?_, ?_, ?_, ?_, ?_, ?_, ?_, ?_, ?_⟩ <;> decide +kernel

/-- Two harts in tasks of a launch with a throttle lock. -/
def locking (x : Lock) (p : Bool) : State :=
  { resident.updMe fun h => { h with locked := true, proposed := p } with
    others := [(1, { Hart.reset with task := some { launch := 0, index := 1 }, locked := true })]
    launches := [(0, { record := (recordOf 1 0 2 0 0).set 39 1, order := 0, stage := .running })], locks := [x] }
def lock0 : Lock := { key := 0, launch := 0, pairs := [(9, 0)] }

theorem wit_PowerAndLockEvents :
    (let s := locking lock0 false
     s.locks[0]? = some lock0 ∧ (s.members lock0) = [0, 1] ∧ (∀ h ∈ s.members lock0, 15 ≤ s.ceilingAt h) ∧
     lock0.proposal = none ∧ (keptPairs lock0.pairs (s.lockStrips lock0)).length < 16 ∧ BitVec.ofNat 4 9 ≠ lock0.last) ∧
    (let x : Lock := { lock0 with proposal := some 15 }
     x.proposal ≠ none ∧ x.proposal = some 15 ∧ x.agreed = none ∧ x.toSend = [] ∧ 0 ∈ (locking x true).members x ∧
       ∃ j ∈ (locking x true).members x, ∀ r ∈ [(0, 0)], r.1 ≠ j) ∧
    (let x : Lock := { lock0 with proposal := some 15, replies := [(1, 7)] }
     x.proposal = some 15 ∧ x.agreed = none ∧ 0 ∈ (locking x true).members x ∧ (∀ r ∈ x.replies, r.1 ≠ 0) ∧
       (∀ j ∈ (locking x true).members x, ∃ r ∈ x.replies ++ [(0, 0)], r.1 = j) ∧ x.far = false) ∧
    (let x : Lock := { lock0 with proposal := some 15, replies := [(1, 7), (0, 3)], far := true }
     x.agreed = none ∧ x.far = true ∧ (∀ r ∈ x.replies, r.1 ≠ 2304) ∧ ¬ 2304 < 2304 ∧ (locking x true).members x ≠ []) ∧
    (let x : Lock := { lock0 with proposal := some 15, agreed := some (15, 8), toSend := [0, 1] }
     x.agreed = some (15, 8) ∧ 0 ∈ x.toSend ∧ 0 ∈ (locking x true).members x ∧ ∃ j ∈ x.toSend, j ≠ 0 ∧ j ∈ (locking x true).members x) ∧
    (let x : Lock := { lock0 with proposal := some 15, agreed := some (15, 8), toSend := [1] }
     x.agreed = some (15, 8) ∧ 1 ∈ x.toSend ∧ 1 ∈ (locking x true).members x ∧ ∀ j ∈ x.toSend, j ≠ 1 → j ∉ (locking x true).members x) ∧
    (let x : Lock := { lock0 with proposal := some 15, replies := [(7, 9)] }
     x.proposal = some 15 ∧ 0 ∈ (locking x true).members x ∧ ∃ r ∈ x.replies ++ [(0, 0)], r ∉ (x.replies ++ [(0, 0)]).filter fun (r : Nat × Nat) =>
       ((locking x true).members x).contains r.1 || decide (2304 ≤ r.1)) ∧
    (2304 < 2305 ∧ lock0.far = false ∧ ({ lock0 with far := true } : Lock).proposal = none ∧ ({ lock0 with far := true } : Lock).agreed = none) ∧
    ∃ j ∈ (locking lock0 false).members lock0, ((locking lock0 false).hart j).csr.vstrip.toNat < 9 := by
  refine ⟨?_, ?_, ?_, ?_, ?_, ?_, ?_, ?_, ?_⟩ <;> decide +kernel

/-- A message of session 1 of peer 0. -/
def message (type seq : Nat) (body : List Nat) : List Nat :=
  [1, type, 0, 0] ++ leBytes 4 1 ++ leBytes 8 seq ++ leBytes 8 0 ++ leBytes 4 body.length ++ leBytes 4 0 ++ body
/-- A package whose host port is open, with one session. -/
def hosted (x : Session) : State := { State.reset with pkg := { State.reset.pkg with hostUp := true, status := 1, sessions := [x] } }
def session0 : Session := { peer := 0, id := 1, expect := 5 }
/-- What the session asks of a message. -/
def heardB (l : List Nat) : Bool := msgGood l && bytesAt l 2 2 == 0 && bytesAt l 4 4 == 1 && msgSeq l == 5

theorem hears_of (x : Session) (l : List Nat) (hx : x.peer = 0 ∧ x.id = 1 ∧ x.expect = 5 ∧ x.ahead = []) (h : heardB l = true) :
    ∃ s', (hosted x).Hears s' 0 l 0 ∧ s'.pkg.sessions[0]? = some { x with expect := 6, unacked := x.unacked.filter fun m => decide (bytesAt l 16 8 < m.seq) } := by
  simp only [heardB, Bool.and_eq_true, beq_iff_eq] at h
  obtain ⟨⟨⟨h1, h2⟩, h3⟩, h4⟩ := h
  obtain ⟨e1, e2, e3, e4⟩ := hx
  refine ⟨_, ⟨rfl, rfl, h1, show (1 : Nat) ≠ 0 by decide, show (1 : Nat) ≠ 6 by decide, h2, x, rfl, e1, e2.trans h3.symm, fun j y hj => absurd hj (Nat.not_lt_zero j),
    e3.trans h4.symm, e4, rfl⟩, ?_⟩
  show some _ = some _
  rw [e3]

theorem wit_HostEvents :
    (∀ x ∈ [message 1 5 (recordOf 1 0 0 0 0), message 9 5 [], message 7 5 (List.replicate 32 7), message 11 5 (List.replicate 1988 0)],
      ∃ s', (hosted session0).Hears s' 0 x 0) ∧
    (msgType (message 1 5 []) = 1 ∧ msgType (message 9 5 []) = 9 ∧ msgType (message 7 5 []) = 7 ∧ msgType (message 11 5 []) = 11) ∧
    (∃ s : State, ∃ d, s.pkg.keys[0]? = some d ∧ d = Config.digest (List.replicate 1952 0)) ∧
    (hosted session0).pkg.keys[0]? = none ∧
    ((hosted session0).pkg.hostUp = true ∧ (hosted session0).pkg.hostOpen = true ∧ msgGood [1, 1] = false ∧ bytesAt [1, 1] 1 1 = 1) ∧
    State.reset.pkg.hostUp = false ∧
    ((hosted session0).pkg.outbox = [] ∧ (hosted session0).pkg.paused = 0 ∧
      ∃ (s : State) (m : Message), s.pkg.outbox = [.message m] ∧ s.pkg.hostUp = true) ∧
    (∃ (s : State) (q : QueuePair), s.pkg.outbox = [.answer 9 true] ∧ s.pkg.hostUp = true ∧ mapGet s.pkg.qps 9 = some q ∧
      s.pkg.paused.getLsbD (Outgoing.answer 9 true).priority = true) ∧
    (let s : State := { launching [] with pkg := (hosted session0).pkg }
     (∃ q, s.queuePair 3 0 0 = some q ∧ q.error = false ∧ s.spaceParts q.asid .store (2 ^ 30) 8 = none ∧
       s.spaceParts q.asid .store 0x20000 2 = some [(0x20000, [1, 2].length)]) ∧
     (∀ j, j < 2 → s.windowAt (0x20000 + j) = none) ∧ Memory.wf s.mem = true ∧ s.me.sb = []) := by
  refine ⟨?_, by decide +kernel, ⟨{ State.reset with pkg := { State.reset.pkg with keys := [Config.digest (List.replicate 1952 0)] } }, _, rfl, rfl⟩,
    by decide +kernel, by decide +kernel, by decide +kernel,
    ⟨by decide +kernel, by decide +kernel,
     { State.reset with pkg := { (hosted session0).pkg with outbox := [.message { session := 0, type := 10, body := [] }] } }, _, rfl, rfl⟩,
    ⟨{ State.reset with pkg := { (hosted session0).pkg with outbox := [.answer 9 true], paused := 255, qps := [(9, { asid := 0, session := some 0 })] } },
      _, rfl, rfl, rfl, (by decide : ∀ n < 8, (255#8).getLsbD n = true) _ (priority_lt _)⟩,
    ⟨_, (Option.some_get (h := by decide +kernel)).symm, by decide +kernel⟩, by decide +kernel⟩
  have h : ∀ x ∈ [message 1 5 (recordOf 1 0 0 0 0), message 9 5 [], message 7 5 (List.replicate 32 7), message 11 5 (List.replicate 1988 0)],
      heardB x = true := by decide +kernel
  exact fun x hx => (hears_of session0 x (by decide) (h x hx)).imp fun s' h => h.1

/-- A signed management message: an offset, eight bytes, and for a write the word; then a signature. -/
def signed (type off : Nat) (data : List Nat) : List Nat := message type 5 (leBytes 8 off ++ leBytes 4 8 ++ data ++ List.replicate 3309 0)
def mgmtB (s : State) (off e : Nat) : Bool := match s.mgmtWord off with | .ok _ => e == 0 | .error x => e == x && e != 0
def mgmtWB (s : State) (off x e : Nat) : Bool := match s.writeMgmtWord off x with | .ok _ => e == 0 | .error y => e == y && e != 0

theorem wit_ManagementEvents :
    (∀ l ∈ [signed 3 0 [], signed 4 0 [], signed 6 0 []], ∃ s', (hosted session0).Hears s' 0 l 0 ∧ ∃ x, s'.pkg.sessions[0]? = some x ∧ x.key = none) ∧
    (∀ l ∈ [signed 3 0 [], signed 3 1 [], signed 3 0x2000 [], signed 4 0 (leBytes 8 0), signed 4 3 (leBytes 8 0),
        signed 4 0x2000 (leBytes 8 0), signed 6 0 []],
      (∃ s', (hosted { session0 with key := some [1] }).Hears s' 0 l 0 ∧ ∃ x, s'.pkg.sessions[0]? = some x ∧ x.key = some [1]) ∧
      3309 ≤ (l.drop 32).length ∧ bytesAt (l.drop 32) 8 4 = 8 ∧
      (msgType l = 3 → ((l.drop 32).take ((l.drop 32).length - 3309)).length = 12) ∧
      (msgType l = 4 → ((l.drop 32).take ((l.drop 32).length - 3309)).length = 20)) ∧
    (∀ s : State, mgmtB s 0x2000 1 = true ∧ mgmtWB s 0x2000 0 1 = true) ∧ mgmtB State.reset 0 0 = true ∧ mgmtWB State.reset 0 0 0 = true := by
  have h : ∀ l ∈ [signed 3 0 [], signed 4 0 [], signed 6 0 []], heardB l = true := by decide +kernel
  have h2 : ∀ l ∈ [signed 3 0 [], signed 3 1 [], signed 3 0x2000 [], signed 4 0 (leBytes 8 0), signed 4 3 (leBytes 8 0),
      signed 4 0x2000 (leBytes 8 0), signed 6 0 []],
      heardB l = true ∧ 3309 ≤ (l.drop 32).length ∧ bytesAt (l.drop 32) 8 4 = 8 ∧
      (msgType l = 3 → ((l.drop 32).take ((l.drop 32).length - 3309)).length = 12) ∧
      (msgType l = 4 → ((l.drop 32).take ((l.drop 32).length - 3309)).length = 20) := by decide +kernel
  refine ⟨fun l hl => ?_, fun l hl => ⟨?_, (h2 l hl).2⟩, fun s => ⟨rfl, rfl⟩, by decide +kernel, by decide +kernel⟩
  · exact (hears_of session0 l (by decide) (h l hl)).imp fun s' h => ⟨h.1, _, h.2, rfl⟩
  · exact (hears_of { session0 with key := some [1] } l (by decide) (h2 l hl).1).imp fun s' h => ⟨h.1, _, h.2, rfl⟩

/-! ### Links, fences, power and boot -/

/-- The package with one port at half width. -/
def ported : State := { State.reset with pkg := { State.reset.pkg with ports := (Vector.replicate 32 {}).set 31 { link := .x32 } } }
/-- Every die below the one given is fenced, and an election is under way. -/
def electing (d : Nat) : State :=
  { State.reset with dies := (List.range d).map fun k => (k, { fenced := true }), pkg := { State.reset.pkg with electing := true } }

theorem wit_LinkAndFenceEvents :
    (ported.pkg.ports.toList.getD 31 {}).link = .x32 ∧ (State.reset.pkg.ports.toList.getD 31 {}).link = .down ∧
    (7 ≠ State.reset.pkg.number.toNat) ∧
    ((∀ d, d < 9 → (State.reset.dieAt d).fenced = false) ∧ (∀ e ∈ State.reset.launches, e.2.stage ≠ .running)) ∧
    (∀ d ∈ [0, 7],
      (electing d).pkg.electing = true ∧ ((electing d).dieAt d).fenced = false ∧ ((electing d).dieAt (d + 1)).fenced = false ∧
      (∀ k, k < 9 → k ≠ d → k < d + 1 → ((electing d).dieAt k).fenced = true) ∧ (electing d).launches = [] ∧
      ∀ h, h < 2304 → ((electing d).hart h).task = none) ∧
    State.reset.pkg.electing = false := by
  refine ⟨?_, ?_, ?_, ?_, ?_, ?_⟩ <;> decide +kernel

/-- A marker of a supply loss with VSTBY, sealed. -/
def sealedMarker : List Nat := leBytes 56 (2 ^ 128) ++ leBytes 8 (sealWord (leBytes 56 (2 ^ 128)))
/-- A package after a trip, with a launch, whose stacks were kept. -/
def tripped : State :=
  { State.reset with
    pkg := { State.reset.pkg with tripn := true, selfRefresh := true, flash := { State.reset.pkg.flash with marker := some sealedMarker } }
    launches := [(3, { record := recordOf 1 0 2 1 0, order := 0, stage := .running, held := [(0, [1])] })] }

theorem wit_PowerAndBootEvents :
    State.reset.agenda = [] ∧
    (paramsGood [0] = false ∧ paramsGood ([0xFF, 7, 12, 0, 1, 0, 0, 0, 1, 0, 0, 0, 16, 0, 0, 0] ++ List.replicate 1024 0) = true) ∧
    (State.reset.pkg.tripn = false ∧ State.reset.pkg.flash.marker = none ∧ State.reset.pkg.selfRefresh = false ∧ ∀ d, d < 9 → (State.reset.dieAt d).fenced = false) ∧
    (tripped.sleeping.restart = true ∧ tripped.pkg.selfRefresh = true ∧ tripped.markerGood = true ∧ (tripped.sleeping.launches.map (·.1)).Nodup ∧
      ∀ e ∈ tripped.sleeping.launches, e.2.running = []) ∧
    (State.reset.sleeping.restart = false ∧ Memory.wf State.reset.mem = true ∧ (State.reset.dram.map (·.1)).Nodup) ∧
    (∃ s : State, s.pkg.asleep ≠ none ∧ s.pkg.status = 2) ∧
    (∃ s : State, (s.dieAt 8).throttled = true ∧ (s.dieAt 8).stretched = true) :=
  ⟨by decide +kernel, by decide +kernel, by decide +kernel,
   by decide +kernel, by decide +kernel,
   ⟨{ State.reset with pkg := { State.reset.pkg with status := 2, asleep := some State.reset.sleeping } }, by simp, rfl⟩,
   { State.reset with dies := [(8, { throttled := true, stretched := true })] }, by decide +kernel⟩

/-! ### Encoding and the step -/

theorem wit_DecodeOfEncode :
    (Instr.addi 31 31 0x800).wf = true ∧ (Instr.lkacc 31 31 6 { order := 3, push := true, pop := true, chan := 7 }).wf = true := by decide +kernel
theorem wit_EncodeOfDecode : ∃ w i, decode w = .ok i := ⟨0xFF900282, .addi 5 0 0xFF9, by decide +kernel⟩

/-- The fields of a word by value. -/
def fld (maj : Nat) (d a b top : Nat) : Fields :=
  { maj := BitVec.ofNat _ maj, d := BitVec.ofNat _ d, a := BitVec.ofNat _ a, b := BitVec.ofNat _ b, top := BitVec.ofNat _ top }

theorem wit_ReservedMajors :
    (∀ m ∈ [0, 7, 0x0D, 0x0F, 0x15, 0x17, 0x19, 0x1F, 0x21, 0x2F, 0x42, 0x47, 0x4D, 0x4F, 0x5E, 0x6F, 0x76, 0x7F],
      (fld m 1 2 3 5).maj.toNat = m) ∧
    ((fld 0x01 0 0 0 27).maj = 0x01 ∧ 27 ≤ (fld 0x01 0 0 0 27).top.toNat) ∧
    ((fld 0x05 0 0 0 336).maj = 0x05 ∧ 21 ≤ (fld 0x05 0 0 0 336).top.toNat / 16 ∧ 2 ≤ (fld 0x05 0 0 0 8).top.toNat / 4 % 4) ∧
    ((fld 0x06 0 0 0 3).maj = 0x06 ∧ 3 ≤ (fld 0x06 0 0 0 3).top.toNat ∧ 16 ≤ (fld 0x18 0 0 0 16).top.toNat ∧ 5 ≤ (fld 0x75 0 0 0 5).top.toNat) ∧
    ((fld 0x12 6 0 0 0).cond.toNat = 6 ∧ (fld 0x12 7 0 0 0).cond.toNat = 7 ∧ 10 ≤ (fld 0x72 0 0 0 80).top.toNat / 8) ∧
    (10 ≤ (fld 0x70 0 0 0 160).top.toNat / 16 ∧ (fld 0x70 0 0 0 12).top.toNat / 4 % 4 = 3 ∧
      (fld 0x70 0 0 0 24).top.toNat / 4 % 4 = 2 ∧ (fld 0x70 0 0 0 24).top.toNat / 16 ≠ 0) ∧
    ((fld 0x08 0 0 28 0).funct3 = 4 ∧ ∀ m ∈ [0x08, 0x0A, 0x09, 0x0B, 0x13, 0x0C, 0x11, 0x14, 0x73, 0x74],
      (fld m 0 0 31 0).maj.toNat = m ∧ (fld m 0 0 31 0).funct3 = 7) ∧
    (legalLoop (fld 0x14 0 0 1 0).funct3 ((fld 0x14 0 0 1 0).imm12.extractLsb' 0 5) = false ∧ (fld 0x73 0 0 16 1).funct3 = 0 ∧
      6 ≤ (fld 0x73 0 0 16 1).imm12.toNat ∧ csrKnown (fld 0x74 0 0 1 0x3FF).imm12 = false) ∧
    ∀ v ∈ [2, 3], (fld 0x39 0 0 0 (256 * v)).vfn.toNat = v := by decide +kernel

theorem wit_ReservedFields :
    (∀ m ∈ [(0x01, 23), (0x05, 64), (0x05, 240), (0x06, 0), (0x5A, 0), (0x6E, 0), (0x18, 6), (0x75, 1), (0x72, 0), (0x36, 512), (0x38, 0),
        (0x3E, 256), (0x3F, 0), (0x48, 768), (0x49, 0)], (fld m.1 0 0 1 m.2).b ≠ 0 ∧ (fld m.1 0 0 31 m.2).b ≠ 0 ∧ (fld m.1 0 0 1 m.2).top.toNat = m.2) ∧
    ((fld 0x36 0 0 1 512).vfn.toNat = 2 ∧ (fld 0x3E 0 0 1 256).vfn ≠ 0 ∧ (fld 0x48 0 0 1 768).vfn = 3) ∧
    (∀ m ∈ [0x13, 0x14, 0x18, 0x20, 0x3E, 0x5D, 0x68, 0x6E, 0x73, 0x75, 0x72], (fld m 0 1 0 0).a ≠ 0 ∧ (fld m 0 31 0 0).a ≠ 0) ∧
    ((fld 0x13 0 1 0 0).funct3 = 0 ∧ (fld 0x13 0 1 2 0).funct3 = 2 ∧ (fld 0x20 0 1 1 0).funct3 = 1 ∧ (fld 0x3E 0 1 0 768).vfn = 3 ∧
      (fld 0x72 0 1 0 15).top.toNat / 8 = 1 ∧ (fld 0x72 0 1 0 64).top.toNat / 8 = 8) ∧
    (∀ m ∈ [0x0C, 0x13, 0x14, 0x20, 0x50, 0x5A, 0x61, 0x67, 0x6A, 0x6B, 0x6C, 0x6D, 0x75, 0x72, 0x73], (fld m 1 0 0 0).d ≠ 0 ∧ (fld m 31 0 0 0).d ≠ 0) ∧
    ((fld 0x20 1 0 5 0).funct3 = 5 ∧ (fld 0x72 1 0 0 48).top.toNat / 8 = 6) ∧
    (8 ≤ (fld 0x06 8 0 0 0).d.toNat ∧ 8 ≤ (fld 0x06 0 8 0 1).a.toNat ∧ 6 ≤ (fld 0x20 6 0 6 0).d.toNat ∧ 6 ≤ (fld 0x20 6 0 6 0).funct3.toNat ∧
      16 ≤ (fld 0x18 16 0 0 12).d.toNat ∧ 16 ≤ (fld 0x18 0 16 0 0).a.toNat ∧ 16 ≤ (fld 0x18 0 0 16 0).b.toNat ∧
      (fld 0x41 8 0 0 512).vfn = 2 ∧ (fld 0x41 0 8 0 256).vfn = 1 ∧ (fld 0x72 0 8 0 72).top.toNat / 8 = 9) ∧
    (64 ≤ (fld 0x02 0 0 6 16).imm12.toNat ∧ (fld 0x02 0 0 6 16).funct3 = 6 ∧ (fld 0x02 0 0 7 16).funct3 = 7 ∧ (fld 0x02 0 0 7 16).imm12.toNat / 64 ≠ 16 ∧
      8 ≤ (fld 0x0A 0 0 0 2).imm12.toNat ∧ (fld 0x13 0 0 10 0).funct3 = 2 ∧ (fld 0x13 0 0 10 0).imm12 ≠ 0 ∧ 32 ≤ (fld 0x14 0 0 0 8).imm12.toNat ∧
      64 ≤ (fld 0x20 0 0 0 16).imm12.toNat ∧ (fld 0x20 0 0 11 0).funct3 = 3 ∧ (fld 0x20 0 0 11 0).imm12 ≠ 0 ∧
      (fld 0x73 0 0 1 16).funct3 = 1 ∧ 64 ≤ (fld 0x73 0 0 1 16).imm12.toNat ∧ (fld 0x73 0 0 10 0).funct3 = 2 ∧ (fld 0x73 0 0 10 0).imm12 ≠ 0 ∧
      (fld 0x72 0 0 0 9).top.toNat / 8 ≠ 0 ∧ (fld 0x72 0 0 0 9).top.toNat % 8 ≠ 0 ∧ (fld 0x3A 31 0 1 256).d = 31 ∧ (fld 0x3A 31 0 1 256).vfn = 1) := by
  decide +kernel

theorem wit_ReservedModifiers :
    (6 ≤ (fld 0x0A 0 0 16 1).imm12.toNat % 8 ∧ 6 ≤ (fld 0x0B 0 0 24 1).imm12.toNat % 8 ∧ (fld 0x72 0 0 0 7).top = 7) ∧
    ((fld 0x50 0 0 0 7).nest = 7 ∧ (fld 0x71 0 0 0 7).nest = 7 ∧ (fld 0x51 0 0 0 1).nest ≠ 0 ∧ (fld 0x6E 0 0 0 7).nest ≠ 0) ∧
    (∀ m ∈ [0x30, 0x41], (fld m 0 0 0 32).rep.getLsbD 2 = false ∧ (fld m 0 0 0 32).rep ≠ 0) ∧
    (∀ m ∈ [0x36, 0x38, 0x3D, 0x41, 0x48, 0x4C, 0x3E, 0x3F], (fld m 0 0 0 128).rep.getLsbD 2 = true) ∧
    ((fld 0x36 0 0 0 512).vfn.toNat = 2 ∧ (fld 0x3E 0 0 0 256).vfn ≠ 0 ∧ (fld 0x3F 0 0 0 128).vfn = 0) ∧
    ((fld 0x36 0 0 0 0).mask = 0 ∧ (fld 0x36 0 0 0 0).vfn = 0 ∧ (fld 0x3E 0 0 0 256).mask = 0) ∧
    ((fld 0x5F 1 0 0 1).top ≠ 0 ∧ (fld 0x5F 1 0 1 0).b ≠ 0 ∧ (fld 0x5F 0 0 0 0).d = 0 ∧ 7 ≤ (fld 0x5F 7 0 0 0).d.toNat) ∧
    (fld 0x41 0 0 0 16).cv = true ∧ (Fields.ofWord 0x0010A24B).maj = 0x4B ∧
    ∃ i, decodeFields (Fields.ofWord 0x0010A24B) = .ok i := by
  refine ⟨?_, ?_, ?_, ?_, ?_, ?_, ?_, ?_, ?_, .vamoadd 4 10 8 0, ?_⟩ <;> decide +kernel

/-- A hart whose next word is the given one, with nothing on the agenda or its turn there. -/
def facing (w : BitVec 32) (l : List Turn) (f : Hart → Hart := id) : State := { (State.reset.place w).updMe f with agenda := l }
/-- Nothing holds a hart that has come this far in its step. -/
def freeTurn (p : State) : Bool :=
  let t := p.settleDue
  !p.idle && !t.me.entered && t.me.due.isNone && !t.idle && t.held.isNone && t.me.gang.icinv.isNone && t.me.gang.state != .waiting
/-- What the acting hart issues next is the word given, or the fault given. -/
def faces (p : State) (x : Except (Option Cause) (BitVec 32)) : Bool :=
  freeTurn p && sameAnswer (presentWord p.settleDue p.settleDue.me) x
/-- A transfer command that has still to write g5. -/
def pendingGd : ECmd := { id := 0, pc := 0, op := .xwait, d := 5, started := true }

theorem wit_StepRunsDecoded :
    (let s := facing 0xFF900282 [.run]
     s.stands = false ∧ s.agenda = .run :: [] ∧ faces ({ s with agenda := [] } : State).begin (.ok 0xFF900282) = true ∧
       (gRegs (Fields.ofWord 0xFF900282)).any ({ s with agenda := [] } : State).begin.settleDue.me.busy = false) ∧
    (let s := facing 0xFF900282 []
     s.stands = false ∧ s.agenda = [] ∧ faces s.begin.progress (.ok 0xFF900282) = true) ∧
    (let t := ({ facing 0xFF900282 [.run] (fun h => { h with xq := [pendingGd] }) with agenda := [] } : State).begin
     faces t (.ok 0xFF900282) = true ∧ (gRegs (Fields.ofWord 0xFF900282)).any t.settleDue.me.busy = true) ∧
    (let t := ({ facing 0x00040108 [.run] (fun h => { h with xq := [{ pendingGd with order := 1, d := 0, started := false }] }) with
        agenda := [], seq := 1 } : State).begin
     faces t (.ok 0x00040108) = true ∧ scalarAccess (Fields.ofWord 0x00040108) = true ∧ t.settleDue.me.acquiring t.settleDue.seq = true ∧
       (gRegs (Fields.ofWord 0x00040108)).any t.settleDue.me.busy = false) ∧
    (let t := (facing 0 []).begin
     faces t (.ok 0) = true ∧ decode 0 = .error .illegalInstruction) ∧
    faces (facing 0 [] fun h => { h with pc := 0x40000000 }).begin (.error (some .pageFault)) = true ∧
    faces (heldGang (facing 0 [])).begin (.error none) = true ∧
    ((facing 0 []).me.bufWord = none ∧ (facing 0 []).me.winWord = none ∧ (facing 0 []).me.gang.state = .detached) ∧
    ((looping 0 0 0).bufWord = none ∧ { looping 0 0 0 with loopBuf := [(0, 7)] }.bufWord = some 7) ∧
    (member [branchEntry]).winWord = some 0x12 ∧
    ((facing 0 [.event .launchAccept]).stands = false ∧ Instr.launchAccept.isEvent = true) ∧
    ∃ s : State, s.pkg.stopped = true ∧ s.agenda = [] := by
  refine ⟨?_, ?_, ?_, ?_, ?_, ?_, ?_, ?_, ?_, ?_, ?_, { State.reset with pkg := { State.reset.pkg with stopped := true } }, ?_⟩ <;> decide +kernel

theorem wit_MemoryFormKept : State.reset.safe = true ∧ (facing 0xFF900282 []).safe = true := by decide +kernel

end Sys2Proof.Tests
end

