-- ==== Sys2Proof/Tests/Slice0.lean ====
section
/-! SUPPORT. Tests of the definitions: the forms that well-formedness refuses, one word of every encoded row of the opcode table
with the instruction it stands for, and the spec's worked examples. The words are put together from the spec's matches and
fields; every expected result is the spec's. -/

namespace Sys2Proof.Tests
open Sys2Proof Sys2Proof.Machine

/-! ### The forms that R42 and R354 refuse -/

/-- One term for each check of `Instr.wf`, just outside it, and one just inside. -/
theorem test_wf_loop : (Instr.loopn 0 1).wf = false ∧ (Instr.loopn 7 1).wf = false ∧ (Instr.loopn 1 0).wf = false ∧
    (Instr.loopn 1 17).wf = false ∧ (Instr.loopn 6 16).wf = true := by decide
theorem test_wf_replicate : (Instr.vadd 0 0 0 3 false 0).wf = false ∧ (Instr.vadd 0 0 0 7 false 0).wf = true := by decide
theorem test_wf_nest : (Instr.cbload 0 0 7 { order := 0, push := false, pop := false, chan := 0 }).wf = false ∧
    (Instr.cbload 0 0 6 { order := 0, push := false, pop := false, chan := 0 }).wf = true := by decide
theorem test_wf_nest_register : (Instr.nestld 6 0).wf = false ∧ (Instr.nestld 5 0).wf = true := by decide
theorem test_wf_csr : (Instr.csrrw 0 0x004 0).wf = false ∧ (Instr.csrrs 0 0x420 0).wf = false ∧ (Instr.csrrs 0 0x41F 0).wf = true := by decide
theorem test_wf_event : Instr.launchAccept.wf = false := by decide

/-! ### The spec's worked examples -/

/-- spec/01_machine.md, locating hart 1,202: CD4, core 300 of the package, LS9. -/
theorem test_locate : dieOf 1202 = 4 ∧ coreOf 1202 = 300 ∧ stackOf (coreOf 1202) = 9 ∧ sliceOf (coreOf 1202) = 12 := by decide

/-- The register that a scalar instruction leaves, and the flags. -/
def outcome (d : BitVec 5) : Result → Option (Word × FFlags)
  | .next t => some (t.g d, t.me.csr.fflags)
  | _ => none

/-- spec/04_scalar.md, rounding and flags: one theorem for each two rows. -/
theorem test_fadd : outcome 3 (exec (.fadd 3 1 2 .f32 0) (regs [(1, 0xFFFFFFFF3F800000), (2, 0xFFFFFFFF33800000)])) = some (0xFFFFFFFF3F800000, 1) ∧
    outcome 3 (exec (.fadd 3 1 2 .f32 3) (regs [(1, 0xFFFFFFFF3F800000), (2, 0xFFFFFFFF33800000)])) = some (0xFFFFFFFF3F800001, 1) := by decide +kernel
theorem test_fdiv : outcome 3 (exec (.fdiv 3 1 2 .f32 0) (regs [(1, 0xFFFFFFFF3F800000), (2, 0xFFFFFFFF00000000)])) = some (0xFFFFFFFF7F800000, 8) := by decide +kernel
theorem test_fsqrt : outcome 3 (exec (.fsqrt 3 1 .f32 0) (regs [(1, 0xFFFFFFFFBF800000)])) = some (0xFFFFFFFF7FC00000, 16) := by decide +kernel
theorem test_fmin : outcome 3 (exec (.fmin 3 1 2 .f32 0) (regs [(1, 0xFFFFFFFF00000000), (2, 0xFFFFFFFF80000000)])) = some (0xFFFFFFFF80000000, 0) := by decide +kernel
theorem test_fcvt : outcome 3 (exec (.fcvtI64 3 1 .f32 2) (regs [(1, 0xFFFFFFFFC0200000)])) = some (0xFFFFFFFFFFFFFFFD, 1) ∧
    outcome 3 (exec (.fcvtI64 3 1 .f32 0) (regs [(1, 0xFFFFFFFF5F800000)])) = some (0x7FFFFFFFFFFFFFFF, 16) := by decide +kernel

/-- spec/04_scalar.md, integer boundary cases: −7 and 2 divided, and −7 divided by zero. -/
theorem test_div : outcome 7 (exec (.div 7 5 6) (regs [(5, 2 ^ 64 - 7), (6, 2)])) = some (0xFFFFFFFFFFFFFFFD, 0) ∧
    outcome 8 (exec (.rem 8 5 6) (regs [(5, 2 ^ 64 - 7), (6, 2)])) = some (0xFFFFFFFFFFFFFFFF, 0) := by decide +kernel
theorem test_div_zero : outcome 10 (exec (.div 10 5 0) (regs [(5, 2 ^ 64 - 7)])) = some (0xFFFFFFFFFFFFFFFF, 0) ∧
    outcome 11 (exec (.rem 11 5 0) (regs [(5, 2 ^ 64 - 7)])) = some (0xFFFFFFFFFFFFFFF9, 0) := by decide +kernel

/-- spec/03_numbers.md, one entry from table to result: the two contributions, and what lkdrain gives in f32 and bf16. -/
theorem test_lookup_entry : roundExact 2560 2 = 10240 ∧ roundExact (-3) (-2) = -1 := by decide +kernel

/-- The step of the word of `addi g5, g0, -7` as the first instruction after reset (spec/02_encoding.md, R35, R109). -/
theorem test_step_addi : outcome 5 (step (State.reset.withFetchWord 32 0xFF900282)) = some (0xFFFFFFFFFFFFFFF9, 0) := by decide +kernel
/-- A word of a reserved major takes the illegal-instruction trap (R42, R357). -/
theorem test_step_illegal : (match step (State.reset.withFetchWord 32 0x00000007) with
    | .next t => decide (t.me.level = .supervisor) && decide (t.me.csr.tpc = 0x10000) && decide (t.me.csr.tval = 7)
    | _ => false) = true := by decide +kernel

/-- lkdrain's results of the spec's row, k = 10,239 and A = −12 (spec/03_numbers.md). -/
theorem test_lookup_drain : AccRow.convert { exp := BitVec.ofInt 9 (-12), val := true } false 10239 = 0x401FFC00 ∧
    AccRow.convert { exp := BitVec.ofInt 9 (-12), val := true } true 10239 = 0x4020 := by decide +kernel

/-- A hart whose registers from r on hold 32-bit elements. -/
def elems (h : Hart) (lanes : Nat) (r : BitVec 5) (l : List Nat) : Hart := ((List.range l.length).zip l).foldl (fun h x => h.setElem lanes r 32 x.1 x.2) h
def tags (f : BitVec 4) : Vector Tag 32 := Vector.replicate 32 { fmt := f }

/-- spec/03_numbers.md, the tree against a running sum. -/
theorem test_tree :
    let c : VCtx := { vl := 5, tags := tags 12, lanes := 16 }
    ((elems Hart.reset 16 2 [0x4B800000, 0x3F800000, 0x3F800000, 0x3F800000, 0x3F800000]).doWhole c { op := .redsum, d := 4, a := 2, b := 6 }).elem 16 4 32 0
      = 0x4B800002 := by decide +kernel

/-- spec/06_vector_unit.md, one register, two readings. -/
theorem test_retag : (List.map (fun j => (elems Hart.reset 16 4 (List.range 128)).elem 16 4 8 j) [3, 67, 131, 451]) = [3, 0x13, 0x23, 0x73] ∧
    (elems Hart.reset 32 4 (List.range 256)).elem 32 4 8 67 = 0 := by decide +kernel

/-- spec/07_vector_arith.md, merging duplicate gradient rows: the segments sorted. -/
theorem test_segsort :
    let c : VCtx := { vl := 8, tags := (tags 2).set 4 { fmt := 2 } |>.set 6 { fmt := 12 } |>.set 9 { fmt := 12 }, lanes := 16 }
    let h := elems { elems Hart.reset 16 4 [5, 2, 5, 9, 3, 3, 1, 3] with m := Vector.replicate 16 0 |>.set 2 0x11 } 16 6 [1, 2, 3, 4, 5, 6, 7, 8]
    let t := h.doWhole c { op := .segsortkv, d := 8, a := 4, b := 6, m := 2 }
    (List.range 8).map (t.elem 16 8 32) = [2, 5, 5, 9, 1, 3, 3, 3] ∧ (List.range 8).map (t.elem 16 9 32) = [2, 1, 3, 4, 7, 5, 6, 8] := by decide +kernel

/-! ### One word of every row that has one (R33 to R58): its match, with a value in each of its fields -/

/-- Each word decodes to the instruction beside it. -/
noncomputable def wordsDecode (l : List (BitVec 32 × Instr)) : Bool := l.all fun e => decide (decode e.1 = .ok e.2)

theorem test_words_1 : wordsDecode
  [(0x001AAA81, .add 21 10 13),
   (0x005AAA81, .sub 21 10 13),
   (0x009AAA81, .and 21 10 13),
   (0x00DAAA81, .or 21 10 13),
   (0x011AAA81, .xor 21 10 13),
   (0x015AAA81, .andn 21 10 13),
   (0x019AAA81, .sll 21 10 13),
   (0x01DAAA81, .srl 21 10 13),
   (0x021AAA81, .sra 21 10 13),
   (0x025AAA81, .slt 21 10 13),
   (0x029AAA81, .sltn 21 10 13),
   (0x02DAAA81, .min 21 10 13),
   (0x031AAA81, .max 21 10 13),
   (0x035AAA81, .minn 21 10 13),
   (0x039AAA81, .maxn 21 10 13),
   (0x03DAAA81, .mul 21 10 13),
   (0x041AAA81, .mulh 21 10 13),
   (0x045AAA81, .mulhn 21 10 13),
   (0x049AAA81, .mulhsn 21 10 13),
   (0x04DAAA81, .div 21 10 13)] = true := by decide +kernel

theorem test_words_2 : wordsDecode
  [(0x051AAA81, .divn 21 10 13),
   (0x055AAA81, .rem 21 10 13),
   (0x059AAA81, .remn 21 10 13),
   (0x05C0AA81, .clz 21 10),
   (0x0600AA81, .ctz 21 10),
   (0x0640AA81, .cpop 21 10),
   (0x0680AA81, .bswap 21 10),
   (0x9A50AA82, .addi 21 10 0x9a5),
   (0x9A52AA82, .slti 21 10 0x9a5),
   (0x9A54AA82, .sltni 21 10 0x9a5),
   (0x9A56AA82, .xori 21 10 0x9a5),
   (0x9A58AA82, .ori 21 10 0x9a5),
   (0x9A5AAA82, .andi 21 10 0x9a5),
   (0x02BCAA82, .slli 21 10 43),
   (0x02BEAA82, .srli 21 10 43),
   (0x42BEAA82, .srai 21 10 43),
   (0x009A5A83, .lui 21 0x9a5),
   (0x009A5A84, .auipc 21 0x9a5),
   (0x019AAA85, .fadd 21 10 13 .f64 2),
   (0x059AAA85, .fsub 21 10 13 .f64 2)] = true := by decide +kernel

theorem test_words_3 : wordsDecode
  [(0x099AAA85, .fmul 21 10 13 .f64 2),
   (0x0D9AAA85, .fdiv 21 10 13 .f64 2),
   (0x1180AA85, .fsqrt 21 10 .f64 2),
   (0x159AAA85, .fmin 21 10 13 .f64 2),
   (0x199AAA85, .fmax 21 10 13 .f64 2),
   (0x1D9AAA85, .fmacc 21 10 13 .f64 2),
   (0x219AAA85, .fnmacc 21 10 13 .f64 2),
   (0x259AAA85, .fsgnj 21 10 13 .f64 2),
   (0x299AAA85, .fsgnjn 21 10 13 .f64 2),
   (0x2D9AAA85, .fsgnjx 21 10 13 .f64 2),
   (0x319AAA85, .feq 21 10 13 .f64 2),
   (0x359AAA85, .flt 21 10 13 .f64 2),
   (0x399AAA85, .fle 21 10 13 .f64 2),
   (0x3D80AA85, .fclass 21 10 .f64 2),
   (0x4180AA85, .fcvtI64 21 10 .f64 2),
   (0x4580AA85, .fcvtN64 21 10 .f64 2),
   (0x4980AA85, .fcvtFmtI64 21 10 .f64 2),
   (0x4D80AA85, .fcvtFmtN64 21 10 .f64 2),
   (0x5180AA85, .fcvtFmtOther 21 10 .f64 2),
   (0x0000A286, .qpush 5 10)] = true := by decide +kernel

theorem test_words_4 : wordsDecode
  [(0x00405A86, .qpop 21 5),
   (0x00805A86, .qlen 21 5),
   (0x9A50AA88, .lb 21 10 0x9a5),
   (0x9A52AA88, .lh 21 10 0x9a5),
   (0x9A54AA88, .lw 21 10 0x9a5),
   (0x9A56AA88, .ld 21 10 0x9a5),
   (0x9A58AA88, .lbn 21 10 0x9a5),
   (0x9A5AAA88, .lhn 21 10 0x9a5),
   (0x9A5CAA88, .lwn 21 10 0x9a5),
   (0x9A50AA89, .sb 21 10 0x9a5),
   (0x9A52AA89, .sh 21 10 0x9a5),
   (0x9A54AA89, .sw 21 10 0x9a5),
   (0x9A56AA89, .sd 21 10 0x9a5),
   (0x0030AA8A, .lbAq 21 10 .die),
   (0x0032AA8A, .lhAq 21 10 .die),
   (0x0034AA8A, .lwAq 21 10 .die),
   (0x0036AA8A, .ldAq 21 10 .die),
   (0x0038AA8A, .lbnAq 21 10 .die),
   (0x003AAA8A, .lhnAq 21 10 .die),
   (0x003CAA8A, .lwnAq 21 10 .die)] = true := by decide +kernel

theorem test_words_5 : wordsDecode
  [(0x0030AA8B, .sbRl 21 10 .die),
   (0x0032AA8B, .shRl 21 10 .die),
   (0x0034AA8B, .swRl 21 10 .die),
   (0x0036AA8B, .sdRl 21 10 .die),
   (0x9A50A00C, .pref 10 0x9a5),
   (0x9A52A00C, .prefw 10 0x9a5),
   (0x9A54A00C, .cln 10 0x9a5),
   (0x9A56A00C, .cinv 10 0x9a5),
   (0x9A58A00C, .cflush 10 0x9a5),
   (0x009A5A90, .jal 21 0x9a5),
   (0x9A50AA91, .jalr 21 10 0x9a5),
   (0xA59AAC12, .beq 10 13 0xa5b),
   (0xA59AAC92, .bne 10 13 0xa5b),
   (0xA59AAD12, .blt 10 13 0xa5b),
   (0xA59AAD92, .bge 10 13 0xa5b),
   (0xA59AAE12, .bltn 10 13 0xa5b),
   (0xA59AAE92, .bgen 10 13 0xa5b),
   (0x7A500013, .join 0x7a5),
   (0x7A52AA93, .joinT 21 10 0x7a5),
   (0x00040013, .detach)] = true := by decide +kernel

theorem test_words_6 : wordsDecode
  [(0x9A56A013, .icinv 10 0x9a5),
   (0x009A0014, .loopn 5 9),
   (0x001AA298, .mand 5 10 13),
   (0x005AA298, .mor 5 10 13),
   (0x009AA298, .mxor 5 10 13),
   (0x00DAA298, .mandn 5 10 13),
   (0x011AA298, .morn 5 10 13),
   (0x015AA298, .mxnor 5 10 13),
   (0x0180A298, .mnot 5 10),
   (0x01C0A298, .mmov 5 10),
   (0x02000298, .mset 5),
   (0x02400298, .mclr 5),
   (0x0280A298, .msbf 5 10),
   (0x02C0A298, .msif 5 10),
   (0x0300A298, .msof 5 10),
   (0x0340AA98, .mcnt 21 10),
   (0x0380AA98, .many 21 10),
   (0x03C0AA98, .mfirst 21 10),
   (0x02B0AAA0, .setvl 21 10 11 2),
   (0x02B20AA0, .vtag 21 11 2)] = true := by decide +kernel

theorem test_words_7 : wordsDecode
  [(0x02B40AA0, .vretag 21 11 2),
   (0x00076AA0, .vgettag 21 22),
   (0x0008AAA0, .lpreq 21 10),
   (0x000AA020, .lprel 10),
   (0x000CA220, .nestld 4 10),
   (0x000EA220, .nestst 4 10),
   (0x2E5AAAB0, .vadd 21 10 13 5 true 9),
   (0x6E5AAAB0, .vsub 21 10 13 5 true 9),
   (0xAE5AAAB0, .vrsub 21 10 13 5 true 9),
   (0xEE5AAAB0, .vmul 21 10 13 5 true 9),
   (0x2E5AAAB1, .vmin 21 10 13 5 true 9),
   (0x6E5AAAB1, .vmax 21 10 13 5 true 9),
   (0xAE5AAAB1, .vsadd 21 10 13 5 true 9),
   (0xEE5AAAB1, .vssub 21 10 13 5 true 9),
   (0x2E5AAAB2, .vmacc 21 10 13 5 true 9),
   (0x6E5AAAB2, .vnmsac 21 10 13 5 true 9),
   (0xAE5AAAB2, .vmadd 21 10 13 5 true 9),
   (0xEE5AAAB2, .vnmsub 21 10 13 5 true 9),
   (0x2E5AAAB3, .vand 21 10 13 5 true 9),
   (0x6E5AAAB3, .vor 21 10 13 5 true 9)] = true := by decide +kernel

theorem test_words_8 : wordsDecode
  [(0xAE5AAAB3, .vxor 21 10 13 5 true 9),
   (0xEE5AAAB3, .vandn 21 10 13 5 true 9),
   (0x2E5AAAB4, .vsll 21 10 13 5 true 9),
   (0x6E5AAAB4, .vsrl 21 10 13 5 true 9),
   (0xAE5AAAB4, .vsra 21 10 13 5 true 9),
   (0xEE5AAAB4, .vrot 21 10 13 5 true 9),
   (0x2E5AA2B5, .vmseq 5 10 13 5 true 9),
   (0x6E5AA2B5, .vmsne 5 10 13 5 true 9),
   (0xAE5AA2B5, .vmslt 5 10 13 5 true 9),
   (0xEE5AA2B5, .vmsle 5 10 13 5 true 9),
   (0x2E5AAAB6, .vmerge 21 10 13 5 true 9),
   (0x6E5AAAB6, .vclamp 21 10 13 5 true 9),
   (0x8640AAB6, .vmv 21 10 true 9),
   (0xC640AAB6, .vabs 21 10 true 9),
   (0x2E5AAAB7, .vdiv 21 10 13 5 true 9),
   (0x6E5AAAB7, .vrem 21 10 13 5 true 9),
   (0x8640AAB7, .vsqrt 21 10 true 9),
   (0xC640AAB7, .vrcp 21 10 true 9),
   (0x0640AAB8, .vexp2 21 10 true 9),
   (0x4640AAB8, .vlog2 21 10 true 9)] = true := by decide +kernel

theorem test_words_9 : wordsDecode
  [(0x8640AAB8, .vrsqrt 21 10 true 9),
   (0xC640AAB8, .vtanh 21 10 true 9),
   (0x0640AAB9, .vsin 21 10 true 9),
   (0x4640AAB9, .vcos 21 10 true 9),
   (0x8640AAB9, .vclass 21 10 true 9),
   (0x0644AABA, .vcvt 21 10 2 true 9),
   (0x064CAABA, .vcvtsat 21 10 2 true 9),
   (0x4644AABA, .vcvts 21 10 2 true 9),
   (0x464CAABA, .vcvtssat 21 10 2 true 9),
   (0x2A5AAABB, .vredsum 21 10 13 5 9),
   (0x6A5AAABB, .vredmin 21 10 13 5 9),
   (0xAA5AAABB, .vredmax 21 10 13 5 9),
   (0xEA5AAABB, .vredor 21 10 13 5 9),
   (0x0240AABC, .vscansum 21 10 9),
   (0x4240AABC, .vscanmin 21 10 9),
   (0x8240AABC, .vscanmax 21 10 9),
   (0x065AAABD, .vslideup 21 10 13 true 9),
   (0x465AAABD, .vslidedn 21 10 13 true 9),
   (0x865AAABD, .vslide1up 21 10 13 true 9),
   (0xC65AAABD, .vslide1dn 21 10 13 true 9)] = true := by decide +kernel

theorem test_words_10 : wordsDecode
  [(0x2A5AAABE, .vperm 21 10 13 5 9),
   (0x4240AABE, .vcompress 21 10 9),
   (0x8240AABE, .vexpand 21 10 9),
   (0xC2400ABE, .viota 21 9),
   (0x0240AABF, .vsegsort 21 10 9),
   (0x6A5AAABF, .vsegsortkv 21 10 13 5 9),
   (0xAA5AAABF, .vdupmerge 21 10 13 5 9),
   (0x2E5AAAC0, .vopaX1 21 10 13 5 true 9),
   (0x6E5AAAC0, .vopaX2 21 10 13 5 true 9),
   (0xAE5AAAC0, .vopaX4 21 10 13 5 true 9),
   (0xEE5AAAC0, .vopaX8 21 10 13 5 true 9),
   (0x0240AAC1, .vmvVg 21 10 9),
   (0x42405AC1, .vmvVq 21 5 9),
   (0x8240A2C1, .vmvQv 5 10 9),
   (0x1640AAC8, .vld 21 10 2 true 9),
   (0x565AAAC8, .vlds 21 10 13 2 true 9),
   (0x965AAAC8, .vldx 21 10 13 2 true 9),
   (0xD640AAC8, .vldff 21 10 2 true 9),
   (0x3640AAC9, .vst 21 10 true 2 true 9),
   (0x765AAAC9, .vsts 21 10 13 true 2 true 9)] = true := by decide +kernel

theorem test_words_11 : wordsDecode
  [(0xB65AAAC9, .vstx 21 10 13 true 2 true 9),
   (0x024AAACA, .vldseg 21 10 5 9),
   (0x424AAACA, .vstseg 21 10 5 9),
   (0x025AAACB, .vamoadd 21 10 13 9),
   (0x425AAACB, .vamomin 21 10 13 9),
   (0x825AAACB, .vamomax 21 10 13 9),
   (0xC25AAACB, .vamoswap 21 10 13 9),
   (0x025AAACC, .vscredAdd 21 10 13 9),
   (0x425AAACC, .vscredMin 21 10 13 9),
   (0x825AAACC, .vscredMax 21 10 13 9),
   (0xC25AAACC, .vscredOr 21 10 13 9),
   (0x0000A0DF, .bankopAdd 10),
   (0x0000A15F, .bankopMin 10),
   (0x0000A1DF, .bankopMax 10),
   (0x0000A25F, .bankopAnd 10),
   (0x0000A2DF, .bankopOr 10),
   (0x0000A35F, .bankopXor 10),
   (0xAADAA050, .cbload 10 13 3 { order := 2, push := true, pop := false, chan := 5 }),
   (0xAA1AA051, .cbclr 10 13 { order := 2, push := true, pop := false, chan := 5 }),
   (0xAADAA052, .tbuild 10 13 3 { order := 2, push := true, pop := false, chan := 5 })] = true := by decide +kernel

theorem test_words_12 : wordsDecode
  [(0xAADAA053, .tbload 10 13 3 { order := 2, push := true, pop := false, chan := 5 }),
   (0xAA1AA054, .tbfree 10 13 { order := 2, push := true, pop := false, chan := 5 }),
   (0xAA1AA055, .lkinit 10 13 { order := 2, push := true, pop := false, chan := 5 }),
   (0xAADAA056, .lkacc 10 13 3 { order := 2, push := true, pop := false, chan := 5 }),
   (0xAADAA057, .lkdrain 10 13 3 { order := 2, push := true, pop := false, chan := 5 }),
   (0xAADAA058, .lkdrainc 10 13 3 { order := 2, push := true, pop := false, chan := 5 }),
   (0xAA1AA059, .lkread 10 13 { order := 2, push := true, pop := false, chan := 5 }),
   (0xAA00A05A, .lkclr 10 { order := 2, push := true, pop := false, chan := 5 }),
   (0xAA00AADB, .lkstat 21 10 { order := 2, push := true, pop := false, chan := 5 }),
   (0xAA00AADC, .lkmeta 21 10 { order := 2, push := true, pop := false, chan := 5 }),
   (0xAA000ADD, .lkwait 21 { order := 2, push := true, pop := false, chan := 5 }),
   (0xAADAAAE0, .xcopy 21 10 13 3 { order := 2, push := true, pop := false, chan := 5 }),
   (0xAAC0A061, .xshape 10 3 { order := 2, push := true, pop := false, chan := 5 }),
   (0xAADAAAE2, .xfill 21 10 13 3 { order := 2, push := true, pop := false, chan := 5 }),
   (0xAA00AAE3, .xgather 21 10 { order := 2, push := true, pop := false, chan := 5 }),
   (0xAA1AAAE4, .wsend 21 10 13 { order := 2, push := true, pop := false, chan := 5 }),
   (0xAA1AAAE5, .wsendi 21 10 13 { order := 2, push := true, pop := false, chan := 5 }),
   (0xAA00AAE6, .wreg 21 10 { order := 2, push := true, pop := false, chan := 5 }),
   (0xAA00A067, .wunreg 10 { order := 2, push := true, pop := false, chan := 5 }),
   (0xAA000AE8, .wctr 21 { order := 2, push := true, pop := false, chan := 5 })] = true := by decide +kernel

theorem test_words_13 : wordsDecode
  [(0xAA1AAAE9, .strain 21 10 13 { order := 2, push := true, pop := false, chan := 5 }),
   (0xAA00A06A, .nmx 10 { order := 2, push := true, pop := false, chan := 5 }),
   (0xAA1AA06B, .nmxld 10 13 { order := 2, push := true, pop := false, chan := 5 }),
   (0xAA1AA06C, .pgin 10 13 { order := 2, push := true, pop := false, chan := 5 }),
   (0xAA1AA06D, .pgout 10 13 { order := 2, push := true, pop := false, chan := 5 }),
   (0xAA000AEE, .xwait 21 { order := 2, push := true, pop := false, chan := 5 }),
   (0x005AAAF0, .amoaddw 21 10 13 1),
   (0x015AAAF0, .amoaddd 21 10 13 1),
   (0x025AAAF0, .amofadd 21 10 13 1),
   (0x045AAAF0, .amoswapw 21 10 13 1),
   (0x055AAAF0, .amoswapd 21 10 13 1),
   (0x085AAAF0, .amoandw 21 10 13 1),
   (0x095AAAF0, .amoandd 21 10 13 1),
   (0x0C5AAAF0, .amoorw 21 10 13 1),
   (0x0D5AAAF0, .amoord 21 10 13 1),
   (0x105AAAF0, .amoxorw 21 10 13 1),
   (0x115AAAF0, .amoxord 21 10 13 1),
   (0x145AAAF0, .amominw 21 10 13 1),
   (0x155AAAF0, .amomind 21 10 13 1),
   (0x185AAAF0, .amomaxw 21 10 13 1)] = true := by decide +kernel

theorem test_words_14 : wordsDecode
  [(0x195AAAF0, .amomaxd 21 10 13 1),
   (0x1C5AAAF0, .amominnw 21 10 13 1),
   (0x1D5AAAF0, .amominnd 21 10 13 1),
   (0x205AAAF0, .amomaxnw 21 10 13 1),
   (0x215AAAF0, .amomaxnd 21 10 13 1),
   (0x245AAAF0, .amocasw 21 10 13 1),
   (0x255AAAF0, .amocasd 21 10 13 1),
   (0xAADAAAF1, .nma 21 10 13 3 { order := 2, push := true, pop := false, chan := 5 }),
   (0x00C00072, .fence .die),
   (0x02000072, .nmfence),
   (0x0400A072, .bar 10),
   (0x061AA072, .barexp 10 13),
   (0x0800A072, .itpost 10),
   (0x0A00A072, .itwait 10),
   (0x0C1AA072, .pwait 10 13),
   (0x0E0001F2, .tkpush 3),
   (0x100001F2, .tkpop 3),
   (0x12003AF2, .tkcnt 21 3),
   (0x00000073, .syscall),
   (0x00100073, .brk)] = true := by decide +kernel

theorem test_words_15 : wordsDecode
  [(0x00200073, .eret),
   (0x00300073, .wfe),
   (0x00400073, .yield),
   (0x00500073, .texit),
   (0x02520AF3, .feat 21 37),
   (0x0004AAF3, .launch 21 10),
   (0x0232AAF4, .csrrw 21 35 10),
   (0x0234AAF4, .csrrs 21 35 10),
   (0x0236AAF4, .csrrc 21 35 10),
   (0x023B3AF4, .csrrwi 21 35 19),
   (0x023D3AF4, .csrrsi 21 35 19),
   (0x023F3AF4, .csrrci 21 35 19),
   (0x001AA075, .tlbinvVa 10 13),
   (0x0040A075, .tlbinvAsid 10),
   (0x00800075, .tlbinvAll),
   (0x00C0A075, .ctxsave 10),
   (0x0100A075, .ctxrest 10)] = true := by decide +kernel

end Sys2Proof.Tests
end

section
/-! The scalar integer instructions: each is one write of gd, and the divisions have the values of R110. -/

namespace Sys2Proof.Machine

/-! ### The OP instructions as register writes -/

/-- What an instruction gives that does no more than write a register: no flag, no trap, all else stays. -/
theorem gives_of_exec_eq_write {i : Instr} {s : State} {d : BitVec 5} {x y : Word} (h : exec i s = .next (s.write d y))
    (hy : y = x) : Gives i s d x 0 :=
  ⟨_, h, hy ▸ s.write_wrote d y⟩

/-- The instructions of the table of R109: major 0x01 with its functions 0 to 26 in order. -/
def opInstrs (d a b : BitVec 5) : List Instr :=
  [.add d a b, .sub d a b, .and d a b, .or d a b, .xor d a b, .andn d a b, .sll d a b, .srl d a b, .sra d a b,
   .slt d a b, .sltn d a b, .min d a b, .max d a b, .minn d a b, .maxn d a b, .mul d a b, .mulh d a b, .mulhn d a b,
   .mulhsn d a b, .div d a b, .divn d a b, .rem d a b, .remn d a b, .clz d a, .ctz d a, .cpop d a, .bswap d a]

/-- Each arm of the dispatch for an OP instruction is a write of gd, whatever the operands hold. -/
theorem exec_opInstrs_eq_write (s : State) (d a b : BitVec 5) :
    ∀ i ∈ opInstrs d a b, ∃ z, exec i s = .next (s.write d z) := by
  simp only [opInstrs, List.forall_mem_cons, List.not_mem_nil, false_implies, implies_true, and_true]
  and_intros <;> exact ⟨_, rfl⟩

/-! ### Division and remainder (R110) -/

/-- The one overflow, -2^63 by -1, needs no case of its own: 2^63 truncated to 64 bits is the dividend again. -/
theorem divS_eq_tdiv (x y : Word) :
    divS x y = if y = 0 then BitVec.allOnes 64 else BitVec.ofInt 64 (x.toInt.tdiv y.toInt) := by
  unfold divS
  by_cases hzero : y = 0
  · rw [if_pos hzero, if_pos hzero]
  · rw [if_neg hzero, if_neg hzero]
    by_cases hover : x = BitVec.intMin 64 ∧ y = BitVec.allOnes 64
    · rw [if_pos hover, hover.1, hover.2]
      decide
    · rw [if_neg hover]
      exact BitVec.eq_of_toInt_eq (by rw [BitVec.toInt_sdiv, BitVec.toInt_ofInt])

theorem remS_eq_tmod (x y : Word) : remS x y = if y = 0 then x else BitVec.ofInt 64 (x.toInt.tmod y.toInt) := by
  unfold remS
  by_cases hzero : y = 0
  · rw [if_pos hzero, if_pos hzero]
  · rw [if_neg hzero, if_neg hzero]
    by_cases hover : x = BitVec.intMin 64 ∧ y = BitVec.allOnes 64
    · rw [if_pos hover, hover.1, hover.2]
      decide
    · rw [if_neg hover, ← BitVec.toInt_srem, BitVec.ofInt_toInt]

theorem divU_eq_div (x y : Word) : divU x y = if y = 0 then BitVec.allOnes 64 else BitVec.ofNat 64 (x.toNat / y.toNat) := by
  rw [divU, BitVec.udiv_def]

theorem remU_eq_mod (x y : Word) : remU x y = if y = 0 then x else BitVec.ofNat 64 (x.toNat % y.toNat) := by
  rw [remU, BitVec.umod_def]

theorem divS_intMin_allOnes : divS (BitVec.intMin 64) (BitVec.allOnes 64) = BitVec.intMin 64 := by decide

theorem remS_intMin_allOnes : remS (BitVec.intMin 64) (BitVec.allOnes 64) = 0 := by decide

/-! ### The unary functions (R42, R110) -/

/-- The functions 23 to 26 of major 0x01 need a zero gs2 field. -/
theorem decodeOp_unary_of_b_ne_zero (f : Fields) (hlo : 23 ≤ f.top.toNat) (hhi : f.top.toNat ≤ 26) (hb : f.b ≠ 0) :
    decodeOp f = .error .illegalInstruction := by
  have hneed (i : Instr) : need (f.b == 0) i = .error .illegalInstruction := by simpa [need] using hb
  obtain h | h | h | h : f.top.toNat = 23 ∨ f.top.toNat = 24 ∨ f.top.toNat = 25 ∨ f.top.toNat = 26 := by omega
  all_goals simp only [decodeOp, h, hneed]

/-! ### The statement -/

/-- Settles O9: the OP instructions are register writes, with the quotients and remainders as R110 gives them, and the
decoder turns the unary functions with a gs2 field away. -/
theorem divisionBoundaryCases : Obligations.DivisionBoundaryCases := by
  unfold Obligations.DivisionBoundaryCases
  refine ⟨fun s d a b => ⟨?div, ?divn, ?rem, ?remn, ?overflow, ?all⟩, ?unary⟩
  case div => exact gives_of_exec_eq_write rfl (divS_eq_tdiv _ _)
  case divn => exact gives_of_exec_eq_write rfl (divU_eq_div _ _)
  case rem => exact gives_of_exec_eq_write rfl (remS_eq_tmod _ _)
  case remn => exact gives_of_exec_eq_write rfl (remU_eq_mod _ _)
  case overflow =>
    intro hx hy
    exact ⟨gives_of_exec_eq_write rfl (by rw [hx, hy, divS_intMin_allOnes]),
      gives_of_exec_eq_write rfl (by rw [hx, hy, remS_intMin_allOnes])⟩
  case all =>
    intro i hi
    obtain ⟨z, hz⟩ := exec_opInstrs_eq_write s d a b i hi
    exact ⟨z, gives_of_exec_eq_write hz rfl⟩
  case unary =>
    intro d a b fn hlo hhi hb
    rw [decode, Fields.ofWord_pack, decode_maj01 _ rfl]
    exact decodeOp_unary_of_b_ne_zero _ hlo hhi hb

end Sys2Proof.Machine
end

section
/-! The mask functions that write gd (R143): each is one write of gd behind the drain, of the count, the presence or the
index of the 1 bits below vl. -/

namespace Sys2Proof.Machine

/-! ### Scans of a number's bits -/

theorem bit_eq_testBit (x i : Nat) : bit x i = x.testBit i := Nat.testBit_eq_decide_div_mod_eq.symm

@[simp] theorem bit_toNat {w : Nat} (x : BitVec w) (i : Nat) : bit x.toNat i = x.getLsbD i := bit_eq_testBit _ _

/-- The scan upwards stops at the first 1, or behind the last bit of its range. -/
theorem trailFrom_eq_of_first (a fuel i f : Nat) (hlo : i ≤ f) (hhi : f ≤ i + fuel)
    (hzero : ∀ j, i ≤ j → j < f → bit a j = false) (hone : f < i + fuel → bit a f = true) : trailFrom a fuel i = f := by
  induction fuel generalizing i with
  | zero => exact Nat.le_antisymm hlo hhi
  | succ fuel ih =>
    rw [trailFrom]
    obtain rfl | hlt := Nat.eq_or_lt_of_le hlo
    · rw [if_pos (hone (by omega))]
    · rw [if_neg (by simp [hzero i i.le_refl hlt])]
      exact ih (i + 1) hlt (by omega) (fun j hj => hzero j (by omega)) fun h => hone (by omega)

theorem popFrom_eq_length_filter (a n : Nat) : popFrom a n = ((List.range n).filter fun i => bit a i).length := by
  induction n with
  | zero => rfl
  | succ n ih =>
    rw [popFrom, ih, List.range_succ, List.filter_append, List.length_append]
    cases hbit : bit a n <;> simp [hbit]

/-! ### A mask below a length -/

/-- What `firstSet` finds is what `FirstBit` asks of it. -/
theorem firstSet_eq_of_firstBit {x : BitVec 2048} {vl f : Nat} (h : FirstBit x vl f) : firstSet x vl = f := by
  obtain ⟨hlt, hset, hbelow⟩ | ⟨rfl, hnone⟩ := h
  · exact trailFrom_eq_of_first _ _ _ _ f.zero_le (by omega) (fun j _ hj => by rw [bit_toNat, hbelow j hj])
      fun _ => by rw [bit_toNat, hset]
  · exact trailFrom_eq_of_first _ _ _ _ f.zero_le (by omega) (fun j _ hj => by rw [bit_toNat, hnone j hj])
      fun h => absurd h (by omega)

/-! ### The drain -/

theorem State.maskRead_of_drained {s : State} (hvq : s.me.vq = []) (d : BitVec 5) (x : Word) :
    s.maskRead d x = s.write d x := by
  rw [State.maskRead, if_pos (by rw [hvq, List.isEmpty_nil])]

theorem State.maskRead_of_queued {s : State} (hvq : s.me.vq ≠ []) (d : BitVec 5) (x : Word) :
    s.maskRead d x = s.stall .drain := by
  rw [State.maskRead, if_neg (by rwa [List.isEmpty_iff])]

/-- A mask read behind a drained queue gives its value to gd and leaves all else. -/
theorem gives_of_exec_eq_maskRead {i : Instr} {s : State} {d : BitVec 5} {x y : Word} (hvq : s.me.vq = [])
    (h : exec i s = .next (s.maskRead d y)) (hy : y = x) : Gives i s d x 0 :=
  gives_of_exec_eq_write (h.trans (by rw [State.maskRead_of_drained hvq])) hy

/-- Each of the three is one mask read, whatever the mask holds. -/
theorem exec_maskReads_eq_maskRead (s : State) (d : BitVec 5) (a : BitVec 4) :
    ∀ i ∈ [Instr.mcnt d a, .many d a, .mfirst d a], ∃ z, exec i s = .next (s.maskRead d z) := by
  simp only [List.forall_mem_cons, List.not_mem_nil, false_implies, implies_true, and_true]
  exact ⟨⟨_, rfl⟩, ⟨_, rfl⟩, ⟨_, rfl⟩⟩

/-! ### The statement -/

/-- Settles O23: behind the drain the three are writes of gd with the values of R143, and before it they wait. -/
theorem maskReads : Obligations.MaskReads := by
  unfold Obligations.MaskReads
  refine fun s d a => ⟨fun hvq => ⟨?count, fun f hf => ⟨?presence, ?index⟩⟩, fun hvq i hi => ?waits, ?word⟩
  case count =>
    exact gives_of_exec_eq_maskRead hvq rfl (by simp only [popFrom_eq_length_filter, bit_toNat])
  case presence => exact gives_of_exec_eq_maskRead hvq rfl (by rw [firstSet_eq_of_firstBit hf])
  case index => exact gives_of_exec_eq_maskRead hvq rfl (by rw [firstSet_eq_of_firstBit hf])
  case waits =>
    obtain ⟨z, hz⟩ := exec_maskReads_eq_maskRead s d a i hi
    rw [hz, State.maskRead_of_queued hvq]
  case word =>
    have hword : encode (.mcnt 5 4) = 0x03404298 := by decide
    exact hword ▸ Laws.RoundTrip.mcnt 5 4 rfl

end Sys2Proof.Machine
end
